-- ==== Sys2Proof/Word.lean ====
section
/-! DEFINITION. The plainest words of the part: bytes, generation numbers, instants of the part's clock. -/

namespace Sys2Proof

/-- One byte on a line or in store memory. -/
abbrev Byte := BitVec 8

/-- A generation number. The Conventions of 00_scope.md make "G−1, H+1 and similar expressions" ordinary
arithmetic, so it is a number and not a bit vector; 0 means that nothing is held (R13). -/
abbrev Gen := Nat

/-- A station number (R106): 1 to 65,534 on the link. -/
abbrev Station := Nat

/-- An instant of the part's own clock, in microseconds (Conventions, 00_scope.md; log entry 2). -/
abbrev Instant := Nat

/-- A bank number, BK0 to BK15 (R1). -/
abbrev BankId := Fin 16

/-- An assembly slot number, 0 to 5 (R77). -/
abbrev SlotId := Fin 6

end Sys2Proof
end

