-- ==== Sys2Proof/Syntax.lean ====
section
/-! DEFINITION. The commands of the part: one constructor for each row of spec/opcode_table.json. -/

namespace Sys2Proof

/-- R1: the two lists. -/
inductive Domain where
  | block | product
  deriving DecidableEq, Repr

/-- The common header of a link frame (R160, R207), less the frame kind, which the command names. Fields are the
bytes as they arrive. -/
structure LinkHeader where
  fleet : BitVec 32
  sender : BitVec 16
  vehicle : BitVec 16
  sequence : BitVec 16
  flags : Byte
  addressee : BitVec 16
  bodyLength : BitVec 16
  deriving DecidableEq, Repr

/-- The commands (the rows of the operation and event table). A port request's operand is what its body carries
(R209); a link frame's is its header and the body bytes delivered (R173); a bank's or a slot's event names the bank
or slot; an expiry that belongs to one peer or domain names it; an input change carries the new level (log entry 3). -/
inductive Instr where
  -- the validator port (chapter 11)
  | checkMedium (medium : BitVec 64)
  | getProduct (number : BitVec 16)
  | readStatus
  | readCounters
  | readNotices
  | setNoticeEnable (enables : BitVec 16)
  | readLag
  | publishManifest (body : List Byte)
  | publishSegment (body : List Byte)
  | parkEnd
  | commission (body : List Byte)
  | responseRead (clocked : Nat)
  | requestOverrun (clocked : Nat)
  | requestBadFrame (window : List Byte)
  -- frames received on the fleet link (chapters 6, 7, 9)
  | announceReceived (h : LinkHeader) (body : List Byte)
  | manifestAskReceived (h : LinkHeader) (body : List Byte)
  | manifestReceived (h : LinkHeader) (body : List Byte)
  | segmentAskReceived (h : LinkHeader) (body : List Byte)
  | segmentReceived (h : LinkHeader) (body : List Byte)
  | declineReceived (h : LinkHeader) (body : List Byte)
  -- the transmitter and the link timers (chapter 9)
  | transmissionEnd
  | csenseChange (busy : Bool)
  | quietIntervalEnd
  | backoffSlotEnd
  | creditDue
  | decreaseHoldExpiry
  | decayTimerExpiry
  | announcementTimerExpiry
  -- peer aging and asks (chapters 6, 7)
  | staleExpiry (peer : BitVec 16)
  | removalExpiry (peer : BitVec 16)
  | unresponsiveExpiry (peer : BitVec 16)
  | busyExpiry (peer : BitVec 16)
  | askTimeout
  | serveReadComplete
  | manifestReadComplete
  -- assembly and the pool (chapters 4, 5)
  | digestCompletion (slot : SlotId)
  | slotDrainEnd (slot : SlotId)
  | admissionGranted (slot : SlotId)
  | poolSegmentWriteCommit
  | poolIndexWriteCommit
  | poolWriteRetry
  | publishSegmentQueueJoin
  | poolRebuildComplete
  -- the banks (chapters 2, 3)
  | fullScanResume (bank : BankId)
  | applyReadComplete (bank : BankId)
  | bankRecordCommit (bank : BankId)
  | bankHeaderWriteCommit (bank : BankId)
  | compactionPlaceCommit (bank : BankId)
  | scrubCheckCompletion (bank : BankId)
  | scrubAgeHalf (bank : BankId)
  | scrubAgeDue (bank : BankId)
  | repairReadComplete (bank : BankId)
  | repairCompletion (bank : BankId)
  | recoveryRecordCommit (bank : BankId)
  | erasurePlaceCommit (bank : BankId)
  -- visibility (chapter 8)
  | cohortWaitExpiry (d : Domain)
  -- supply, ignition and start (chapter 10)
  | supplyFall (millivolts : Nat) (vsel24 : Bool)
  | supplyRise (millivolts : Nat) (vsel24 : Bool)
  | supplyLoss (unfinished : Bool)
  | ignitionOn
  | ignitionOff
  | resetTaken
  | resetExtensionEnd
  | wakeAsserted (level : Bool)
  | dipTimerExpiry
  | parkedWindowExpiry
  | stableRunExpiry
  | startRecordReadComplete (strap0 strap1 strap2 : Bool)
  | commissionEraseWriteCommit
  -- frames the receive filter drops (R173)
  | receiveFilterDrop (frame : List Byte)
  deriving DecidableEq, Repr

end Sys2Proof
end

