-- ==== Sys2Proof/Config.lean ====
section
/-! DEFINITION. What the part fixes (sizes, periods, thresholds) and the free values: numbers the spec says are
drawn, and contents the spec leaves open. A free value is an opaque constant applied to the draw counter in State,
so no proof can see it. -/

namespace Sys2Proof.Config

/-- Record places of a bank (1.1). -/
def bankPlaces : Nat := 65536
/-- Places of one step of a compaction or one pass of a scrub (R39, R50). -/
def passPlaces : Nat := 1024
/-- Segment places of the pool, and the bound of the reservation total (R62, R69). -/
def poolPlaces : Nat := 65536
/-- Entries of the manifest table (R63). -/
def manifestEntries : Nat := 128
/-- Places of the pool's write queue (R66). -/
def writeQueuePlaces : Nat := 4
/-- Peer records (R106). -/
def peerRecords : Nat := 48
/-- Outstanding asks (R123). -/
def askEntries : Nat := 8
/-- Serve queue entries (7.6). -/
def serveEntries : Nat := 16
/-- Places of the CONTROL class (R161). -/
def controlPlaces : Nat := 8
/-- Entries of the lag list (R153). -/
def lagEntries : Nat := 14
/-- Digests of the barred list (R85). -/
def barredDigests : Nat := 8
/-- Stations of a demoted peer list (R77). -/
def demotedPeers : Nat := 8
/-- The bound of slots and pending generations of a domain (R80). -/
def domainSlots : Nat := 3

/-- Microseconds in a millisecond. -/
def ms : Nat := 1000
/-- Microseconds in a second. -/
def second : Nat := 1000000
/-- R131. -/
def askTimeout : Nat := 600 * ms
/-- R112. -/
def staleAfter : Nat := 8 * second
/-- R112. -/
def removeAfter : Nat := 60 * second
/-- R115. -/
def unresponsiveFor : Nat := 10 * second
/-- R116. -/
def busyFor : Nat := 1 * second
/-- R168. -/
def decreaseHold : Nat := 250 * ms
/-- R169. -/
def decayPeriod : Nat := 4 * second
/-- R172. -/
def announcePeriod : Nat := 1000 * ms
/-- R172: the jitter lies within this distance of 0 on either side. -/
def announceJitter : Nat := 250 * ms
/-- R171. -/
def loadWindow : Nat := 1 * second
/-- R190. -/
def dipTimer : Nat := 1500 * ms
/-- R191. -/
def stableRun : Nat := 60 * second
/-- R183. -/
def resetExtension : Nat := 20 * ms

/-- R159: the slot time of each link rate code, in microseconds. -/
def slotTime (code : Nat) : Nat :=
  if code = 0 then 400 else if code = 1 then 200 else if code = 2 then 100 else 50

/-- R159: three slot times. -/
def quietInterval (code : Nat) : Nat := 3 * slotTime code

/-- R181 and the pin and supply summary of 00_scope.md: the hold threshold in millivolts, 66 % of the nominal supply
that VSEL selects. -/
def holdThreshold (vsel24 : Bool) : Nat := if vsel24 then 15840 else 7920

/-- R181: the run threshold in millivolts, 75 % of the nominal supply. -/
def runThreshold (vsel24 : Bool) : Nat := if vsel24 then 18000 else 9000

/-! Free values. -/

/-- R164: "draws a backoff count uniformly from the chosen frame's class window". The model keeps the window as the
bound (`backoffDraw n % (window + 1)`) and nothing else. -/
opaque backoffDraw : Nat → Nat
/-- R172: the jitter "drawn uniformly from −250 ms to +250 ms", in microseconds above −250 ms. -/
opaque jitterDraw : Nat → Nat
/-- R175: the own sequence counter's start value, "drawn uniformly from 0 to 65,535". -/
opaque sequenceDraw : Nat → BitVec 16
/-- R183, R143: a domain header write that has not completed when a reset is taken either has begun, and completes, or has not, and does
not begin: which of the two is not said (log entry 44). -/
opaque headerBegun : Nat → Bool
/-- R181: "A store memory write in progress at that moment may be left unfinished": what key a torn record write
leaves is not said. -/
opaque tornKey : Nat → Nat
/-- R181: the added generation that a torn record write leaves. -/
opaque tornAdded : Nat → Gen
/-- R181: the removed generation that a torn record write leaves. -/
opaque tornRemoved : Nat → Option Gen

end Sys2Proof.Config
end

