-- ==== Sys2Proof/Machine/State.lean ====
section
/-! DEFINITION. The state of the part as plain data, block by block as the block diagram of 00_scope.md lists it, the
store memory and the retained directory, the queue of commands, and the state after reset. -/

namespace Sys2Proof.Machine

/-- One value for each domain. -/
structure PerDomain (α : Type) where
  block : α
  product : α
  deriving DecidableEq, Repr

/-! ## Records, segments and manifests (chapter 1) -/

/-- The fields of a product record less the product number (R4), as section 12.3 carries them: the class code of the
descriptor, the optional fields present or absent, and the lists in their stored order. -/
structure ProductRecord where
  cls : BitVec 3
  firstDay : BitVec 16
  lastDay : BitVec 16
  fare : BitVec 16
  band : Option (BitVec 16 × BitVec 16)
  transfer : Option Byte
  zones : List Byte
  concessions : List Byte
  deriving DecidableEq, Repr

/-- A record's payload (R9): the reason and action codes of a BLOCK record, or the product record. -/
inductive Payload where
  | block (reason : BitVec 3) (action : BitVec 2)
  | product (p : ProductRecord)
  deriving DecidableEq, Repr

/-- One stored version of one key (R9). `check` is the CRC-16 as it stands in store memory; the record is good when it
agrees with the recomputed one. -/
structure Record where
  key : Nat
  payload : Payload
  added : Gen
  removed : Option Gen
  check : BitVec 16
  deriving DecidableEq, Repr

/-- R13. -/
inductive GenKind where
  | delta | baseline
  deriving DecidableEq, Repr

/-- R15: a valid manifest. -/
structure Manifest where
  domain : Domain
  gen : Gen
  kind : GenKind
  count : Nat
  digest : BitVec 32
  deriving DecidableEq, Repr

/-- One op of a segment as R208 decodes it, key and payload codes not yet checked (R5). -/
inductive Op where
  | list (medium : Nat) (reason : BitVec 3) (action : BitVec 2)
  | unlist (medium : Nat)
  | put (number : Nat) (p : ProductRecord)
  | drop (number : Nat)
  deriving DecidableEq, Repr

/-! ## The start record (R192) and the start cause record (R184) -/

/-- R192, less the check. -/
structure StartRecord where
  fleet : BitVec 32
  station : Station
  vehicle : Nat
  cohortSize : Nat
  nB : Nat
  cohortWait : Nat
  parkedWindow : Nat
  scrubInterval : Nat
  msr : Nat
  isr : Nat
  psr : Nat
  lowThreshold : Nat
  congestion : Nat
  deriving DecidableEq, Repr

/-- R184. -/
inductive Cause where
  | powerOn | resetLine | dipRestart | ignitionWake | processorWake | commissioned
  deriving DecidableEq, Repr

/-- R179. -/
inductive StartKind where
  | cold | warm
  deriving DecidableEq, Repr

/-- R184: cause, kind and dip count at the start's beginning. -/
structure StartCause where
  cause : Cause
  kind : StartKind
  dips : Nat
  deriving DecidableEq, Repr

/-! ## Store memory and the retained directory -/

/-- The header fields of a bank (R18, R19). -/
structure BankHeader where
  applied : Gen
  baselines : List Gen
  applyOpen : Option Gen
  freeCount : Nat
  faultMark : Bool
  erasureMark : Option Gen
  scrubCursor : Nat
  scrubAge : Nat
  deriving DecidableEq, Repr

/-- A bank header in store memory: its fields and the CRC-16 header check as it stands there (R19). -/
structure StoredHeader where
  fields : BankHeader
  check : BitVec 16
  deriving DecidableEq, Repr

/-- A segment place of the pool (R62): the tag's two fields and the segment's bytes as received. -/
structure PoolCell where
  stamp : Nat
  index : Nat
  bytes : List Byte
  deriving DecidableEq, Repr

/-- An entry of the manifest table (R63), less the pin count, which the index does not keep; `check` is the entry check as it
stands there. -/
structure ManifestEntry where
  manifest : Manifest
  stamp : Nat
  verified : Bool
  present : List Nat
  check : BitVec 16
  deriving DecidableEq, Repr

/-- The pool index (R62, R63): the manifest table, the free map as the used places, and the stamp source. -/
structure PoolIndex where
  entries : List ManifestEntry
  used : List Nat
  stampSource : Nat
  deriving DecidableEq, Repr

/-- A domain header with its CRC-16 header check as it stands (R143). -/
structure DomainHeader where
  held : Gen
  visible : Gen
  pending : List Gen
  check : BitVec 16
  deriving DecidableEq, Repr

/-- The external store memory: record places of each bank and segment places of the pool, each a list of place and
content in strictly rising place, with no entry for a free place (log entry 4); and the headers, the index and the start
record's 27 bytes. -/
structure StoreMemory where
  places : Vector (List (Nat × Record)) 16
  headers : Vector StoredHeader 16
  cells : List (Nat × PoolCell)
  index : PoolIndex
  domains : PerDomain DomainHeader
  startRecord : List Byte
  deriving DecidableEq, Repr

/-- Backup-supplied memory (R180, R185): the retained directory with its check and valid mark, the barred list (R85),
the dip count and the start cause record. -/
structure Backup where
  headers : Vector BankHeader 16
  index : PoolIndex
  barred : List (BitVec 32)
  check : BitVec 16
  valid : Bool
  dips : Nat
  cause : StartCause
  deriving DecidableEq, Repr

/-! ## The banks (chapters 2 and 3) -/

/-- R22. -/
inductive BankState where
  | idle | applying | compacting | scrubbing | recovering | held | faulted
  deriving DecidableEq, Repr

/-- An apply or advance request (R30): an advance request carries no segment. `drained` is set once the slot that sent it has drained
(R73, R102). -/
structure ApplyRequest where
  gen : Gen
  kind : GenKind
  segment : Option Nat
  first : Bool
  last : Bool
  cursor : Nat
  drained : Bool := false
  deriving DecidableEq, Repr

/-- A segment being applied: the request, its ops, the op cursor, and whether the ending commit of a LIST or PUT at
the cursor is already made (R27). -/
structure ApplyRun where
  request : ApplyRequest
  ops : List Op
  cursor : Nat
  endDone : Bool
  deriving DecidableEq, Repr

/-- A compaction (R39): V and F(V) fixed at its beginning, the next place, and the places freed so far. -/
structure CompactRun where
  visible : Gen
  floor : Gen
  next : Nat
  freed : Nat
  deriving DecidableEq, Repr

/-- Where a repair stands (R52, R53): reading the segments of the added generation, of generation `g` of the walk, or
of the open generation; or making its one record write. -/
inductive RepairPhase where
  | collect (left : List Nat) (ops : List Op)
  | walk (g : Gen) (left : List Nat)
  | openCheck (g : Gen) (left : List Nat)
  | rewrite (r : Record)
  | free
  deriving DecidableEq, Repr

/-- A repair of the failing record at a place (R52): the search terms, the version found, the phase, and whether it was
met by the full scan of a cold start (R59). -/
structure RepairRun where
  place : Nat
  key : Nat
  added : Gen
  version : Option Payload
  phase : RepairPhase
  fullScan : Bool
  deriving DecidableEq, Repr

/-- The operation in hand of a bank (R18), down to the write or read in progress. The constructors ending in Paused
are operations stopped between two writes under a hold. -/
inductive BankWork where
  | none
  | applyRead (r : ApplyRequest)
  | applyPaused (run : ApplyRun)
  | applyEnd (run : ApplyRun) (place : Nat)
  | applyAdd (run : ApplyRun)
  | advance (r : ApplyRequest)
  | compactPaused (c : CompactRun)
  | compactFree (c : CompactRun) (place : Nat)
  | compactHeader (c : CompactRun)
  | scrubPaused (next : Nat)
  | scrubCheck (place : Nat)
  | scrubHeader (next : Nat) (rewound : Bool)
  | repair (r : RepairRun)
  | recoverPaused (next : Nat)
  | recoverWrite (place : Nat)
  | recoverWait (place : Nat)
  | recoverHeader
  | erasePaused
  | eraseFree (place : Nat)
  | eraseHeader
  deriving DecidableEq, Repr

/-- R18, R41: the bank's part in a baseline quiesce. -/
inductive Quiesce where
  | absent
  | requested (g : Gen)
  | inForce (g : Gen)
  deriving DecidableEq, Repr

/-- A hold that has reached the bank and has not yet taken effect (R27, R28). -/
inductive HoldPending where
  | none | dip | closing
  deriving DecidableEq, Repr

/-- The bank state record (R18). `header` holds the header fields as the bank works with them; the copy in store memory
is StoreMemory.headers. `prior` is absent in a HELD bank that a start has not yet put into its start state. -/
structure Bank where
  state : BankState
  header : BankHeader
  scrubDue : Bool
  compactWanted : Bool
  quiesce : Quiesce
  waiting : Option ApplyRequest
  prior : Option BankState
  work : BankWork
  hold : HoldPending
  fullScan : Bool
  deriving DecidableEq, Repr

/-- R26. -/
inductive RefuseReason where
  | fault | outOfOrder | alreadyApplied
  deriving DecidableEq, Repr

/-- The reports of a bank to the GAU (R26). -/
inductive BankReport where
  | taken (g : Gen) (segment : Option Nat)
  | segmentDone (g : Gen) (segment : Option Nat)
  | advanced (g : Gen)
  | bankFull (g : Gen) (segment : Option Nat) (cursor : Nat)
  | readFail (g : Gen) (segment : Option Nat) (cursor : Nat)
  | compacted (freed : Nat)
  | quiesced (g : Gen)
  | refused (g : Gen) (segment : Option Nat) (why : RefuseReason)
  deriving DecidableEq, Repr

/-- The requests that reach a bank from the GAU and the VCU (R23). -/
inductive BankRequest where
  | apply (r : ApplyRequest)
  | quiesce (g : Gen)
  | compact
  deriving DecidableEq, Repr

/-! ## The segment pool (chapter 4) -/

/-- Who holds a pin (R65). -/
inductive PinHolder where
  | slot (i : SlotId)
  | repair (b : BankId)
  deriving DecidableEq, Repr

/-- One pin; the pin count of an entry is the number of pins on its domain and generation. -/
structure Pin where
  holder : PinHolder
  domain : Domain
  gen : Gen
  deriving DecidableEq, Repr

/-- The source of a segment offered to the pool (R66). -/
inductive Source where
  | peer (n : Station)
  | local
  deriving DecidableEq, Repr

/-- A segment offered to the pool's write queue (R66): its domain, generation and index, its bytes, its source, and whether it
is the offer of the PUBLISH-SEGMENT in progress. -/
structure Offer where
  domain : Domain
  gen : Gen
  index : Nat
  bytes : List Byte
  source : Source
  publish : Bool
  deriving DecidableEq, Repr

/-- What a manifest is entered for: a peer's MANIFEST frame, a PUBLISH-MANIFEST in progress, or one dropped at a dip (R198). -/
inductive EnterFor where
  | peer | request | dropped
  deriving DecidableEq, Repr

/-- An index write of the pool (R66). For the GAU (R68): entering a manifest for a slot (what for, and whether a PUBLISH-MANIFEST opened
the slot), a verified mark, a digest failure's emptying, an entry's removal. For the pool's own reads and pins (R73): that of a segment
whose CRC fails, naming the stamp of its entry and its index, and the removal of an unverified entry whose last repair pin is released. -/
inductive IndexWrite where
  | enter (slot : SlotId) (m : Manifest) (what : EnterFor) (opened : Bool)
  | verified (d : Domain) (g : Gen)
  | digestFailed (d : Domain) (g : Gen)
  | remove (d : Domain) (g : Gen)
  | lost (d : Domain) (g : Gen) (stamp index : Nat)
  | unpinned (d : Domain) (g : Gen)
  deriving DecidableEq, Repr

/-- The write in progress at the pool (R66: one at a time). `keepsPlace` is set on a segment write that began without a free place: it
needs an eviction, which a pin may deny it before its commit, and it keeps its place in the write queue until then (log entry 16). -/
inductive PoolWrite where
  | none
  | index (w : IndexWrite)
  | segment (o : Offer) (keepsPlace : Bool)
  deriving DecidableEq, Repr

/-- The pool's state outside its index (R63 pin counts, R66, R69, R70, R74). `waiting` is set while the write at the head of `queue`
waits for room (R67), and `retryDue` once a pin has been released since; `grants` are the slots granted from the wait list
whose ADMITTED answer has not yet reached the GAU; `held` is set while a hold stops segment offers. -/
structure Pool where
  pins : List Pin
  reserved : Nat
  waitList : List SlotId
  grants : List SlotId
  indexQueue : List IndexWrite
  queue : List Offer
  writing : PoolWrite
  waiting : Bool
  retryDue : Bool
  held : Bool
  restored : Bool
  deriving DecidableEq, Repr

/-! ## Generation assembly (chapter 5) -/

/-- R78. -/
inductive SlotState where
  | empty | manifestWanted | admitWait | collecting | verified | applying | blocked | draining
  deriving DecidableEq, Repr

/-- R77. -/
inductive Origin where
  | peer | local
  deriving DecidableEq, Repr

/-- R77: one entry of a presence set. -/
structure Presence where
  index : Nat
  crc : BitVec 32
  bank : Nat
  ops : Nat
  source : Source
  deriving DecidableEq, Repr

/-- R97. -/
inductive CursorPhase where
  | notBegun | running | stopped | advanced
  deriving DecidableEq, Repr

/-- R77. -/
inductive BlockCause where
  | full | fault
  deriving DecidableEq, Repr

/-- How far a bank's baseline quiesce has got, seen from the slot (R98). -/
inductive QuiesceStep where
  | none | wanted | sent | acknowledged
  deriving DecidableEq, Repr

/-- The apply cursor of a bank in a slot (R97): its phase, next segment index and op cursor; whether the next request
carries the first mark; whether a request is with the bank, not yet TAKEN or refused; whether the request waits for the
bank's next report (OUT-OF-ORDER), or is to be sent again after places were freed (R100); why a STOPPED bank stopped; and
the bank's quiesce. -/
structure ApplyCursor where
  phase : CursorPhase
  next : Option Nat
  op : Nat
  first : Bool
  sent : Bool
  await : Bool
  resend : Bool
  stop : Option BlockCause
  quiesce : QuiesceStep
  deriving DecidableEq, Repr

/-- An assembly slot (R77). `lost` are the presence entries of the indices lost at a read failure (R93); `digesting` is set
while a digest computation runs (R90); `entered` while the slot holds a pool entry, `admitted` while it holds a reservation;
`begun` once a baseline's first requests may go out (R98). -/
structure Slot where
  state : SlotState
  domain : Domain
  gen : Gen
  origin : Origin
  manifest : Option Manifest
  presence : List Presence
  lost : List Presence
  failures : Nat
  demoted : List Station
  asks : Nat
  cursors : Vector ApplyCursor 16
  blockedCause : Option BlockCause
  digesting : Bool
  entered : Bool
  admitted : Bool
  begun : Bool
  deriving DecidableEq, Repr

/-! ## The peer table (chapter 6) -/

/-- R106, R112. -/
inductive PeerState where
  | known | stale
  deriving DecidableEq, Repr

/-- The values of one domain in an ANNOUNCE (R111). The pending count is checked and not kept. -/
structure Announced where
  held : Gen
  visible : Gen
  oldest : Option Gen
  baseline : Option Gen
  needsBaseline : Bool
  deriving DecidableEq, Repr

/-- A peer record (R106). `removalDue` is R112's removal due. -/
structure Peer where
  station : Station
  vehicle : Nat
  cohort : Bool
  state : PeerState
  heard : Instant
  sequence : BitVec 16
  received : Nat
  loss : Nat
  timeouts : Nat
  unresponsive : Option Instant
  busy : Option Instant
  asks : Nat
  asked : Option Instant
  congested : Bool
  parked : Bool
  values : PerDomain Announced
  removalDue : Bool
  deriving DecidableEq, Repr

/-! ## Fetching and serving (chapter 7) -/

/-- R123. -/
inductive AskKind where
  | manifest | segment
  deriving DecidableEq, Repr

/-- An outstanding ask (R123). `id` is the model's own name for the ask, carried by its frame (log entry 6); the list is
kept from oldest to newest, so the time queued orders it. -/
structure Ask where
  id : Nat
  kind : AskKind
  slot : SlotId
  domain : Domain
  gen : Gen
  peer : Station
  first : Nat
  count : Nat
  covered : List Nat
  sent : Bool
  queued : Instant
  timeout : Option Instant
  deriving DecidableEq, Repr

/-- A serve queue entry (section 7.6). -/
structure ServeEntry where
  peer : Station
  domain : Domain
  gen : Gen
  next : Nat
  remaining : Nat
  deriving DecidableEq, Repr

/-- A manifest read in progress for an asker (R140). -/
structure ManifestRead where
  peer : Station
  domain : Domain
  gen : Gen
  deriving DecidableEq, Repr

/-- A serve read in progress as the pool took it (R73): of a generation that was not servable then, or of a segment, with the stamp
of its entry and the bytes read. -/
inductive ServeRead where
  | evicted
  | taken (stamp : Nat) (bytes : List Byte)
  deriving DecidableEq, Repr

/-- The FSE's state. `reading` is the serve read in progress for the head entry (R138). -/
structure Fetch where
  asks : List Ask
  nextAsk : Nat
  serve : List ServeEntry
  reading : Option ServeRead
  manifestReads : List ManifestRead
  deriving DecidableEq, Repr

/-! ## Visibility (chapter 8) -/

/-- R143: held, visible, the pending list and the cohort wait timer's expiry. -/
structure Visibility where
  held : Gen
  visible : Gen
  pending : List Gen
  timer : Option Instant
  deriving DecidableEq, Repr

/-- R153. -/
structure LagEntry where
  station : Station
  domain : Domain
  gen : Gen
  deriving DecidableEq, Repr

/-! ## The fleet link (chapter 9) -/

/-- R160. -/
inductive FrameKind where
  | announce | manifestAsk | manifest | segmentAsk | segment | decline
  deriving DecidableEq, Repr

/-- R161. -/
inductive TxClass where
  | announce | control | ask | data
  deriving DecidableEq, Repr

/-- A frame waiting to be sent: the header fields known before its transmission start, the body, and the ask it carries. -/
structure OutFrame where
  kind : FrameKind
  addressee : Station
  body : List Byte
  ask : Option Nat
  deriving DecidableEq, Repr

/-- R164. -/
inductive AccessPhase where
  | defer | backoff | sending
  deriving DecidableEq, Repr

/-- The chosen frame and its channel access (R162, R164): the backoff count, the instant the current slot time began, and,
once sending, the bytes given to the transceiver on LTX (R165). -/
structure Chosen where
  cls : TxClass
  frame : OutFrame
  phase : AccessPhase
  backoff : Nat
  slotFrom : Instant
  line : List Byte
  deriving DecidableEq, Repr

/-- R170. -/
inductive LowRate where
  | ok | low
  deriving DecidableEq, Repr

/-- The LNK's state (R161 to R177). The channel load is kept as the busy spans of the window (R171): closed spans, and the
beginning of the one that runs; `measuring` from the end of a start on. `cutOff` counts the transmissions cut off at a hold whose
transmission end event is still to come (R176). -/
structure Link where
  announce : Option OutFrame
  control : List OutFrame
  ask : List OutFrame
  data : Option OutFrame
  chosen : Option Chosen
  cutOff : Nat
  dataWait : Nat
  credit : Nat
  creditFrom : Option Instant
  asr : Nat
  increase : Nat
  decreaseHold : Option Instant
  decay : Option Instant
  lowRate : LowRate
  announceAt : Option Instant
  sequence : BitVec 16
  measuring : Bool
  busySpans : List (Instant × Instant)
  busyFrom : Option Instant
  rateCode : Nat
  deriving DecidableEq, Repr

/-! ## Supply (chapter 10) -/

/-- R179. -/
inductive Power where
  | unpowered | starting | commissioning | run | parked | closing | dipHold | dormant
  deriving DecidableEq, Repr

/-- R180: stopped, running, or expired during DIP-HOLD. -/
inductive ParkedTimer where
  | stopped
  | running (expiry : Instant)
  | expired
  deriving DecidableEq, Repr

/-- A COMMISSION erase (R193): the record to write, and, once running, the number of the write in progress, 1 to 5. -/
structure Erase where
  record : StartRecord
  write : Option Nat
  deriving DecidableEq, Repr

/-- The SUP's state (R180) outside backup memory. `recordRead` is set once the start record read of this start has completed;
`settling` while a COLD start has not settled (R185); `resetting` from a reset taken to the end of its extension, the instant before
which it does not end (R183);
`config` is the start record in force (R186); `erase` the COMMISSION erase armed or running. -/
structure Supply where
  power : Power
  kind : StartKind
  prior : Option Power
  dipTimer : Option Instant
  parked : ParkedTimer
  stable : Option Instant
  ignition : Bool
  pendingStart : Bool
  recordRead : Bool
  settling : Bool
  resetting : Option Instant
  config : StartRecord
  erase : Option Erase
  deriving DecidableEq, Repr

/-- The input lines as the last command left them: VSENSE in millivolts, VSEL, IGN, WAKE, and CSENSE with the instant it
last turned clear. -/
structure Pins where
  vsense : Nat
  vsel24 : Bool
  ign : Bool
  wake : Bool
  csense : Bool
  clearFrom : Instant
  deriving DecidableEq, Repr

/-! ## The validator port (chapter 11) -/

/-- What the request in progress waits for (R204, R198): a PUBLISH-MANIFEST the pool's and the admission's answer; a
PUBLISH-SEGMENT a place in the write queue, its write, a slot's digest, or the pool's VERIFIED write. -/
inductive InProgress where
  | manifest
  | segmentHeld (o : Offer)
  | segmentWrite
  | segmentDigest (slot : SlotId)
  | segmentVerified (d : Domain) (g : Gen) (count : Nat)
  deriving DecidableEq, Repr

/-- A response frame (R209): the request kind answered, the outcome, the overrun mark and the body. -/
structure Response where
  kind : Byte
  outcome : Byte
  overrun : Bool
  body : List Byte
  deriving DecidableEq, Repr

/-- The sixteen counters of R202, in the order of its table; each saturates at 65,535. -/
structure Counters where
  foreign : Nat
  malformed : Nat
  segmentCrc : Nat
  duplicate : Nat
  discardedDrain : Nat
  controlDrops : Nat
  peerRefusals : Nat
  askTimeouts : Nat
  declines : Nat
  digestFailures : Nat
  conflicts : Nat
  misplaced : Nat
  malformedOps : Nat
  redundant : Nat
  repairs : Nat
  overruns : Nat
  deriving DecidableEq, Repr

/-- The VAP's state (R198). `dropped` is the kind of a request dropped at a dip whose DROPPED response is not yet placed. -/
structure Port where
  inProgress : Option InProgress
  response : Option Response
  overrun : Bool
  dropped : Option Byte
  flags : BitVec 16
  enables : BitVec 16
  counters : Counters
  deriving DecidableEq, Repr

/-! ## Inside one event -/

/-- A message between two blocks inside one event: the paths of the block diagram. -/
inductive Msg where
  | bankRequest (b : BankId) (r : BankRequest)
  | bankReport (b : BankId) (r : BankReport)
  | indexLost (d : Domain) (g : Gen) (index : Nat)
  | slotEmptied (i : SlotId)
  deriving DecidableEq, Repr

/-- What an event still has to bring about: the messages not yet delivered, the domains whose opening pass of R80 it calls for, whether it
calls for the asking pass of R126, and whether it has changed the cohort view, which calls for the advance tests of R147. Empty between
events (log entry 7). -/
structure Todo where
  mail : List Msg
  openPass : PerDomain Bool
  askPass : Bool
  viewChanged : Bool
  deriving DecidableEq, Repr

/-! ## The whole state -/

/-- The part. `clock` is the part's clock; `domainWrites` are the domain header writes that have not completed, each with the header it
writes (R143, log entry 44); `draws` counts the free values drawn so far (the model's own field, log entry 5);
`pending` is the queue of commands, first in, first out. -/
structure State where
  clock : Instant
  pins : Pins
  supply : Supply
  backup : Backup
  store : StoreMemory
  banks : Vector Bank 16
  pool : Pool
  slots : Vector Slot 6
  peers : List Peer
  fetch : Fetch
  vis : PerDomain Visibility
  domainWrites : PerDomain (Option DomainHeader)
  lag : List LagEntry
  link : Link
  port : Port
  draws : Nat
  todo : Todo
  pending : List Instr
  deriving DecidableEq, Repr

/-- No command of the part stops it with a fault: the spec gives every row of the table an effect in every state, and an
event that cannot happen in a state changes nothing (log entry 8). -/
inductive Fault where
  deriving DecidableEq, Repr

/-- Why a command has no meaning. -/
inductive Refusal where
  /-- Raised by an arm of exec whose command has no meaning yet; safe. No arm raises it. -/
  | notModelled (mnemonic : String)
  deriving DecidableEq, Repr

/-! ## Values at a start and the state after reset -/

/-- The header of an erased bank (R193), without the erasure mark. -/
def BankHeader.erased : BankHeader :=
  { applied := 0, baselines := [], applyOpen := none, freeCount := 65536, faultMark := false, erasureMark := none,
    scrubCursor := 0, scrubAge := 0 }

/-- A bank before a start has put it into its start state: shown HELD (R200), nothing in hand. -/
def Bank.unstarted : Bank :=
  { state := .held, header := BankHeader.erased, scrubDue := false, compactWanted := false, quiesce := .absent,
    waiting := none, prior := none, work := .none, hold := .none, fullScan := false }

/-- An empty pool index (R76, the COMMISSION erase column). -/
def PoolIndex.empty : PoolIndex := { entries := [], used := [], stampSource := 0 }

/-- The pool's volatile state at the beginning of a start (R76). -/
def Pool.initial : Pool :=
  { pins := [], reserved := 0, waitList := [], grants := [], indexQueue := [], queue := [], writing := .none,
    waiting := false, retryDue := false, held := false, restored := false }

/-- An apply cursor that has nothing to send. -/
def ApplyCursor.initial : ApplyCursor :=
  { phase := .notBegun, next := none, op := 0, first := false, sent := false, await := false, resend := false,
    stop := none, quiesce := .none }

/-- R77: a slot in EMPTY holds nothing. -/
def Slot.empty : Slot :=
  { state := .empty, domain := .block, gen := 0, origin := .peer, manifest := none, presence := [], lost := [],
    failures := 0, demoted := [], asks := 0, cursors := Vector.replicate 16 ApplyCursor.initial, blockedCause := none,
    digesting := false, entered := false, admitted := false, begun := false }

/-- R142. -/
def Fetch.initial : Fetch := { asks := [], nextAsk := 0, serve := [], reading := none, manifestReads := [] }

/-- Before the start record has been read (R200). -/
def Visibility.initial : Visibility := { held := 0, visible := 0, pending := [], timer := none }

/-- Before the end of a start that ends in RUN or PARKED: the LNK is silent, and READ-STATUS shows an ASR of 0, OK and a load
of 0 (R177, R200). -/
def Link.silent : Link :=
  { announce := none, control := [], ask := [], data := none, chosen := none, cutOff := 0, dataWait := 0, credit := 4,
    creditFrom := none, asr := 0, increase := 0, decreaseHold := none, decay := none, lowRate := .ok, announceAt := none,
    sequence := 0, measuring := false, busySpans := [], busyFrom := none, rateCode := 0 }

/-- R198: the counters at the beginning of every start. -/
def Counters.zero : Counters :=
  { foreign := 0, malformed := 0, segmentCrc := 0, duplicate := 0, discardedDrain := 0, controlDrops := 0,
    peerRefusals := 0, askTimeouts := 0, declines := 0, digestFailures := 0, conflicts := 0, misplaced := 0,
    malformedOps := 0, redundant := 0, repairs := 0, overruns := 0 }

/-- R198: the port at the beginning of every start. -/
def Port.cleared : Port :=
  { inProgress := none, response := none, overrun := false, dropped := none, flags := 0, enables := 0,
    counters := Counters.zero }

/-- The configuration before any start record has been read: the defaults of R192 and, where it gives none, the lowest value
of the range (log entry 10). -/
def StartRecord.default : StartRecord :=
  { fleet := 1, station := 1, vehicle := 1, cohortSize := 1, nB := 14, cohortWait := 90, parkedWindow := 120,
    scrubInterval := 12, msr := 2, isr := 20, psr := 150, lowThreshold := 8, congestion := 160 }

/-- Nothing that the event still has to bring about. -/
def Todo.nothing : Todo := { mail := [], openPass := { block := false, product := false }, askPass := false, viewChanged := false }

/-- Store memory that nothing has written: no record, no segment, headers whose check of 0 disagrees, and a start record of fill
bytes, whose check disagrees (log entry 9). -/
def StoreMemory.blank : StoreMemory :=
  { places := Vector.replicate 16 [],
    headers := Vector.replicate 16 { fields := BankHeader.erased, check := 0 },
    cells := [],
    index := PoolIndex.empty,
    domains := { block := { held := 0, visible := 0, pending := [], check := 0 },
                 product := { held := 0, visible := 0, pending := [], check := 0 } },
    startRecord := List.replicate 27 0xFF#8 }

/-- The machine at the beginning of the COLD start that the first supply brings (R184, cause POWER-ON): the start cause record
written, the dip count and the valid mark cleared, the port cleared, and the start record read in progress (R186, steps 1 and
2), on store memory that nothing has written (log entry 9). -/
def State.reset : State :=
  { clock := 0,
    pins := { vsense := 12000, vsel24 := false, ign := false, wake := false, csense := false, clearFrom := 0 },
    supply := { power := .starting, kind := .cold, prior := none, dipTimer := none, parked := .stopped, stable := none,
                ignition := false, pendingStart := false, recordRead := false, settling := true, resetting := none,
                config := StartRecord.default, erase := none },
    backup := { headers := Vector.replicate 16 BankHeader.erased, index := PoolIndex.empty, barred := [],
                check := 0, valid := false, dips := 0, cause := { cause := .powerOn, kind := .cold, dips := 0 } },
    store := StoreMemory.blank,
    banks := Vector.replicate 16 Bank.unstarted,
    pool := Pool.initial,
    slots := Vector.replicate 6 Slot.empty,
    peers := [],
    fetch := Fetch.initial,
    vis := { block := Visibility.initial, product := Visibility.initial },
    domainWrites := { block := none, product := none },
    lag := [],
    link := Link.silent,
    port := Port.cleared,
    draws := 0,
    todo := Todo.nothing,
    pending := [] }

end Sys2Proof.Machine
end

