-- ==== Sys2Proof/Machine/Operands.lean ====
section
/-! DEFINITION. Byte layouts and checks (chapter 12): how the operands of the commands and the contents of store memory
are read from bytes and written to bytes. -/

namespace Sys2Proof.Machine

/-! ## Big-endian fields -/

/-- A field of bytes, most significant first (chapter 12, opening). -/
def fromBytes (bs : List Byte) : Nat := bs.foldl (fun n b => n * 256 + b.toNat) 0

/-- `n` as `width` bytes, most significant first. -/
def toBytes : Nat → Nat → List Byte
  | 0, _ => []
  | width + 1, n => BitVec.ofNat 8 (n / 256 ^ width) :: toBytes width n

/-- The field of `width` bytes at byte `at_`. -/
def field (bs : List Byte) (at_ width : Nat) : Nat := fromBytes ((bs.drop at_).take width)

/-- The byte at `at_`, 0 past the end. -/
def byteAt (bs : List Byte) (at_ : Nat) : Byte := bs.getD at_ 0

/-- An absent generation field holds 0 (R207). -/
def genField (g : Option Gen) : Nat := g.getD 0

/-- A generation field that may be absent (R207). -/
def optGen (n : Nat) : Option Gen := if n = 0 then none else some n

/-! ## Checks (R206) -/

/-- One bit of a reflected CRC. -/
def crcBit (poly c : Nat) : Nat := if c % 2 = 1 then (c / 2) ^^^ poly else c / 2

/-- One byte of a reflected CRC. -/
def crcByte (poly c : Nat) (b : Byte) : Nat :=
  crcBit poly (crcBit poly (crcBit poly (crcBit poly (crcBit poly (crcBit poly (crcBit poly (crcBit poly
    (c ^^^ b.toNat))))))))

/-- CRC-32 of R206: polynomial 04C11DB7 hex reflected, initial value and final inversion FFFFFFFF hex. -/
def crc32 (bs : List Byte) : BitVec 32 := BitVec.ofNat 32 (bs.foldl (crcByte 0xEDB88320) 0xFFFFFFFF ^^^ 0xFFFFFFFF)

/-- CRC-16 of R206: polynomial 8005 hex reflected, initial value FFFF hex, no final inversion. -/
def crc16 (bs : List Byte) : BitVec 16 := BitVec.ofNat 16 (bs.foldl (crcByte 0xA001) 0xFFFF)

/-! ## Codes -/

/-- R207: domain codes. -/
def domainCode : Domain → Byte
  | .block => 1
  | .product => 2

/-- R207. -/
def domainOfCode (b : Byte) : Option Domain :=
  if b = 1 then some .block else if b = 2 then some .product else none

/-- R207: kind codes. -/
def genKindCode : GenKind → Byte
  | .delta => 1
  | .baseline => 2

/-- R207. -/
def genKindOfCode (b : Byte) : Option GenKind :=
  if b = 1 then some .delta else if b = 2 then some .baseline else none

/-- R207: frame kind codes. -/
def frameKindCode : FrameKind → Byte
  | .announce => 1
  | .manifestAsk => 2
  | .manifest => 3
  | .segmentAsk => 4
  | .segment => 5
  | .decline => 6

/-- R207. -/
def frameKindOfCode (b : Byte) : Option FrameKind :=
  if b = 1 then some .announce else if b = 2 then some .manifestAsk else if b = 3 then some .manifest
  else if b = 4 then some .segmentAsk else if b = 5 then some .segment else if b = 6 then some .decline else none

/-! ## Ops (R208) -/

/-- The descriptor bits 4 to 0 of a payload: reason and action, or class and presence bits. -/
def Payload.descriptor : Payload → Byte
  | .block r a => BitVec.ofNat 8 (r.toNat * 4 + a.toNat)
  | .product p => BitVec.ofNat 8 (p.cls.toNat * 4 + (if p.band.isSome then 2 else 0) + (if p.transfer.isSome then 1 else 0))

/-- A product record's bytes after the product number (section 12.3). -/
def ProductRecord.tail (p : ProductRecord) : List Byte :=
  toBytes 2 p.firstDay.toNat ++ toBytes 2 p.lastDay.toNat ++ toBytes 2 p.fare.toNat ++
  (match p.band with
    | some (a, b) => toBytes 2 a.toNat ++ toBytes 2 b.toNat
    | none => []) ++
  (match p.transfer with
    | some t => [t]
    | none => []) ++
  BitVec.ofNat 8 p.zones.length :: p.zones ++ BitVec.ofNat 8 p.concessions.length :: p.concessions

/-- The stored payload of section 12.3: the descriptor without the op kind, and for a product every byte after the product
number (log entry 14). -/
def Payload.stored : Payload → List Byte
  | .block r a => [Payload.descriptor (.block r a)]
  | .product p => Payload.descriptor (.product p) :: p.tail

/-- The zones and concession classes that close a PUT. -/
def decodeLists (rest : List Byte) : Option (List Byte × List Byte × List Byte) :=
  match rest with
  | [] => none
  | zc :: rest =>
    if rest.length < zc.toNat then none
    else
      match rest.drop zc.toNat with
      | [] => none
      | cc :: tail =>
        if tail.length < cc.toNat then none
        else some (rest.take zc.toNat, tail.take cc.toNat, tail.drop cc.toNat)

/-- A PUT after its descriptor (section 12.3). -/
def decodePut (d : Byte) (bs : List Byte) : Option (Op × List Byte) :=
  let band := d.getLsbD 1
  let trans := d.getLsbD 0
  let fixed := 8 + (if band then 4 else 0) + (if trans then 1 else 0)
  if bs.length < fixed then none
  else
    match decodeLists (bs.drop fixed) with
    | none => none
    | some (zones, classes, rest) =>
      some (.put (field bs 0 2)
        { cls := BitVec.ofNat 3 (d.toNat / 4 % 8)
          firstDay := BitVec.ofNat 16 (field bs 2 2)
          lastDay := BitVec.ofNat 16 (field bs 4 2)
          fare := BitVec.ofNat 16 (field bs 6 2)
          band := if band then some (BitVec.ofNat 16 (field bs 8 2), BitVec.ofNat 16 (field bs 10 2)) else none
          transfer := if trans then some (byteAt bs (if band then 12 else 8)) else none
          zones := zones
          concessions := classes }, rest)

/-- One op from its descriptor on (R208): the op and the bytes after it; none when its kind is not 1 to 4 or it runs past
the end. -/
def decodeOp (bs : List Byte) : Option (Op × List Byte) :=
  match bs with
  | [] => none
  | d :: rest =>
    let kind := d.toNat / 32
    if kind = 1 then
      if rest.length < 8 then none
      else some (.list (field rest 0 8) (BitVec.ofNat 3 (d.toNat / 4 % 8)) (BitVec.ofNat 2 (d.toNat % 4)), rest.drop 8)
    else if kind = 2 then
      if rest.length < 8 then none else some (.unlist (field rest 0 8), rest.drop 8)
    else if kind = 3 then decodePut d rest
    else if kind = 4 then
      if rest.length < 2 then none else some (.drop (field rest 0 2), rest.drop 2)
    else none

/-- R208: exactly `n` ops, ending at the end of the bytes. -/
def decodeOps : Nat → List Byte → Option (List Op)
  | 0, [] => some []
  | 0, _ :: _ => none
  | n + 1, bs =>
    match decodeOp bs with
    | none => none
    | some (op, rest) => (decodeOps n rest).map (op :: ·)

/-! ## Segments (R16, R208) -/

/-- R16: the op counts a segment of a domain may have. -/
def opCountOk : Domain → Nat → Bool
  | .block, n => 1 ≤ n && n ≤ 24
  | .product, n => 1 ≤ n && n ≤ 6

/-- The fields of a segment body by their places (section 12.3). -/
def segDomain (bs : List Byte) : Option Domain := domainOfCode (byteAt bs 0)
def segGen (bs : List Byte) : Gen := field bs 1 4
def segIndex (bs : List Byte) : Nat := field bs 5 2
def segBank (bs : List Byte) : Nat := (byteAt bs 7).toNat
def segOpCount (bs : List Byte) : Nat := (byteAt bs 8).toNat
def segCrc (bs : List Byte) : BitVec 32 := BitVec.ofNat 32 (field bs (bs.length - 4) 4)

/-- R16, R206: the segment CRC agrees with the CRC-32 over every byte before it. -/
def segCrcGood (bs : List Byte) : Bool := 4 ≤ bs.length && crc32 (bs.take (bs.length - 4)) == segCrc bs

/-- The op list of a segment, when it can be delimited (R208). -/
def segOps (bs : List Byte) : Option (List Op) :=
  decodeOps (segOpCount bs) ((bs.drop 9).take (bs.length - 13))

/-- Check 2 of R87: the op count is in range and the op list can be delimited into that many ops. -/
def segOpsGood (bs : List Byte) : Bool :=
  match segDomain bs with
  | some d => opCountOk d (segOpCount bs) && (segOps bs).isSome
  | none => false

/-! ## Manifests (R15, R17) -/

/-- R15: the segment counts of each kind. -/
def countOk : GenKind → Nat → Bool
  | .delta, n => 1 ≤ n && n ≤ 4096
  | .baseline, n => 1 ≤ n && n ≤ 32768

/-- A MANIFEST body that is a valid manifest (R15, R207). -/
def parseManifest (bs : List Byte) : Option Manifest :=
  match domainOfCode (byteAt bs 0), genKindOfCode (byteAt bs 5) with
  | some d, some k =>
    if field bs 1 4 = 0 || !countOk k (field bs 6 2) then none
    else some { domain := d, gen := field bs 1 4, kind := k, count := field bs 6 2,
                digest := BitVec.ofNat 32 (field bs 8 4) }
  | _, _ => none

/-- The first eight bytes of the MANIFEST body (R206). -/
def Manifest.head (m : Manifest) : List Byte :=
  domainCode m.domain :: toBytes 4 m.gen ++ genKindCode m.kind :: toBytes 2 m.count

/-- The MANIFEST body (R207). -/
def Manifest.body (m : Manifest) : List Byte := m.head ++ toBytes 4 m.digest.toNat

/-- The digest of R17 over a manifest and its segment CRCs in index order. -/
def digestOf (m : Manifest) (crcs : List (BitVec 32)) : BitVec 32 :=
  crc32 (m.head ++ crcs.flatMap (fun c => toBytes 4 c.toNat))

/-! ## Records (R9, R206) -/

/-- The bytes the record check covers, in R206's order. -/
def Record.bytes (r : Record) : List Byte :=
  (match r.payload with
    | .block _ _ => toBytes 8 r.key
    | .product _ => toBytes 2 r.key) ++
  r.payload.stored ++ toBytes 4 r.added ++ toBytes 4 (genField r.removed)

/-- R9: the record check recomputed. -/
def Record.freshCheck (r : Record) : BitVec 16 := crc16 r.bytes

/-- R9: "A record whose check disagrees fails." -/
def Record.good (r : Record) : Bool := r.check == r.freshCheck

/-- A record with a freshly computed check. -/
def Record.sealed (r : Record) : Record := { r with check := r.freshCheck }

/-! ## Header checks (R206)

The spec gives no byte layout for bank headers, domain headers, entries of the manifest table and the retained directory; the order
of their fields below is the model's choice (log entry 11). -/

/-- A generation that may be absent. -/
def optGenBytes (g : Option Gen) : List Byte := toBytes 4 (genField g)

/-- A mark as a byte. -/
def markByte (b : Bool) : Byte := if b then 1 else 0

/-- The fields of a bank header (R19) as the header check covers them. -/
def BankHeader.bytes (h : BankHeader) : List Byte :=
  toBytes 4 h.applied ++ toBytes 1 h.baselines.length ++ h.baselines.flatMap (toBytes 4) ++ optGenBytes h.applyOpen ++
  toBytes 3 h.freeCount ++ markByte h.faultMark :: optGenBytes h.erasureMark ++ toBytes 2 h.scrubCursor ++ toBytes 8 h.scrubAge

/-- R19: a bank header with its header check recomputed. -/
def StoredHeader.sealed (h : BankHeader) : StoredHeader := { fields := h, check := crc16 h.bytes }

/-- R19, R206: the header check agrees. -/
def StoredHeader.good (h : StoredHeader) : Bool := h.check == crc16 h.fields.bytes

/-- The header with a check that disagrees. -/
def StoredHeader.torn (h : StoredHeader) : StoredHeader := { h with check := ~~~crc16 h.fields.bytes }

/-- The fields of a domain header (R143) as its header check covers them. -/
def DomainHeader.bytes (h : DomainHeader) : List Byte :=
  toBytes 4 h.held ++ toBytes 4 h.visible ++ toBytes 1 h.pending.length ++ h.pending.flatMap (toBytes 4)

/-- R143: a domain header with its header check recomputed. -/
def DomainHeader.sealed (h : DomainHeader) : DomainHeader := { h with check := crc16 h.bytes }

/-- R143, R206: the header check agrees. -/
def DomainHeader.good (h : DomainHeader) : Bool := h.check == crc16 h.bytes

/-- The header with a check that disagrees. -/
def DomainHeader.torn (h : DomainHeader) : DomainHeader := { h with check := ~~~crc16 h.bytes }

/-- The fields of an entry of the manifest table (R63) as the entry check covers them. -/
def ManifestEntry.bytes (e : ManifestEntry) : List Byte :=
  e.manifest.body ++ toBytes 4 e.stamp ++ markByte e.verified :: toBytes 2 e.present.length ++ e.present.flatMap (toBytes 2)

/-- R63: an entry with its entry check recomputed. -/
def ManifestEntry.sealed (e : ManifestEntry) : ManifestEntry := { e with check := crc16 e.bytes }

/-- R63, R206: the entry check agrees. -/
def ManifestEntry.good (e : ManifestEntry) : Bool := e.check == crc16 e.bytes

/-- The entry with a check that disagrees. -/
def ManifestEntry.torn (e : ManifestEntry) : ManifestEntry := { e with check := ~~~crc16 e.bytes }

/-- The pool index (R62) as the directory check covers it. -/
def PoolIndex.bytes (ix : PoolIndex) : List Byte :=
  ix.entries.flatMap (fun e => e.bytes ++ toBytes 2 e.check.toNat) ++ ix.used.flatMap (toBytes 2) ++ toBytes 4 ix.stampSource

/-- What the retained directory holds (R85, R185) as its check covers it. -/
def Backup.bytes (k : Backup) : List Byte :=
  k.headers.toList.flatMap BankHeader.bytes ++ k.index.bytes ++ k.barred.flatMap (fun x => toBytes 4 x.toNat)

/-- R185: the directory check recomputed, as at each directory write. -/
def Backup.sealed (k : Backup) : Backup := { k with check := crc16 k.bytes }

/-- R185, R206: the directory check agrees. -/
def Backup.good (k : Backup) : Bool := k.check == crc16 k.bytes

/-! ## Start record (R192, R211) -/

/-- R192: each field in its range and MSR, ISR and PSR in order. -/
def StartRecord.ok (r : StartRecord) : Bool :=
  r.fleet != 0 && (1 ≤ r.station && r.station ≤ 65534) && (1 ≤ r.vehicle && r.vehicle ≤ 9999) &&
  (1 ≤ r.cohortSize && r.cohortSize ≤ 8) && (8 ≤ r.nB && r.nB ≤ 15) && (10 ≤ r.cohortWait && r.cohortWait ≤ 600) &&
  r.parkedWindow ≤ 480 && (1 ≤ r.scrubInterval && r.scrubInterval ≤ 48) &&
  (1 ≤ r.msr && r.msr ≤ r.isr && r.isr ≤ r.psr && r.psr ≤ 400) && r.lowThreshold ≤ 255 &&
  (1 ≤ r.congestion && r.congestion ≤ 255)

/-- The 23 bytes of a start record (section 12.5), as fields, whatever their values. -/
def startFields (bs : List Byte) : StartRecord :=
  { fleet := BitVec.ofNat 32 (field bs 0 4), station := field bs 4 2, vehicle := field bs 6 2,
    cohortSize := field bs 8 1, nB := field bs 9 1, cohortWait := field bs 10 2, parkedWindow := field bs 12 2,
    scrubInterval := field bs 14 1, msr := field bs 15 2, isr := field bs 17 2, psr := field bs 19 2,
    lowThreshold := field bs 21 1, congestion := field bs 22 1 }

/-- The 23 bytes of a start record (section 12.5). -/
def StartRecord.body (r : StartRecord) : List Byte :=
  toBytes 4 r.fleet.toNat ++ toBytes 2 r.station ++ toBytes 2 r.vehicle ++ toBytes 1 r.cohortSize ++ toBytes 1 r.nB ++
  toBytes 2 r.cohortWait ++ toBytes 2 r.parkedWindow ++ toBytes 1 r.scrubInterval ++ toBytes 2 r.msr ++
  toBytes 2 r.isr ++ toBytes 2 r.psr ++ toBytes 1 r.lowThreshold ++ toBytes 1 r.congestion

/-- The stored start record: 23 bytes and the CRC-32 start record check (section 12.5). -/
def StartRecord.bytes (r : StartRecord) : List Byte := r.body ++ toBytes 4 (crc32 r.body).toNat

/-- R211: the start record as step 2 of a start judges it; none when it fails. -/
def parseStartRecord (bs : List Byte) : Option StartRecord :=
  let r := startFields bs
  if bs.length = 27 && crc32 (bs.take 23) == BitVec.ofNat 32 (field bs 23 4) && r.ok then some r else none

/-- R211: the first write of an erase writes the start record check with every bit inverted, "so that the check disagrees": the check
that agrees with the fields, inverted (log entry 24). -/
def invalidateStartRecord (bs : List Byte) : List Byte := bs.take 23 ++ toBytes 4 (~~~(crc32 (bs.take 23))).toNat

/-- A COMMISSION body (R209): the fields, with the default of R192 for each field whose presence bit is clear. -/
def commissionRecord (body : List Byte) : StartRecord :=
  let p := BitVec.ofNat 16 (field body 0 2)
  let r := startFields (body.drop 2)
  let d := StartRecord.default
  { r with
    nB := if p.getLsbD 0 then r.nB else d.nB
    cohortWait := if p.getLsbD 1 then r.cohortWait else d.cohortWait
    parkedWindow := if p.getLsbD 2 then r.parkedWindow else d.parkedWindow
    scrubInterval := if p.getLsbD 3 then r.scrubInterval else d.scrubInterval
    msr := if p.getLsbD 4 then r.msr else d.msr
    isr := if p.getLsbD 5 then r.isr else d.isr
    psr := if p.getLsbD 6 then r.psr else d.psr
    lowThreshold := if p.getLsbD 7 then r.lowThreshold else d.lowThreshold
    congestion := if p.getLsbD 8 then r.congestion else d.congestion }

/-! ## Link frames (R207) -/

/-- The body lengths each frame kind allows (R207). -/
def bodyLengthOk : FrameKind → Nat → Bool
  | .announce, n => n == 37
  | .manifestAsk, n => n == 5
  | .manifest, n => n == 12
  | .segmentAsk, n => n == 8
  | .segment, n => 16 ≤ n && n ≤ 256
  | .decline, n => n == 9

/-- The header fields of a frame's first sixteen bytes (section 12.2). -/
def headerOf (bs : List Byte) : LinkHeader :=
  { fleet := BitVec.ofNat 32 (field bs 0 4), sender := BitVec.ofNat 16 (field bs 5 2),
    vehicle := BitVec.ofNat 16 (field bs 7 2), sequence := BitVec.ofNat 16 (field bs 9 2), flags := byteAt bs 11,
    addressee := BitVec.ofNat 16 (field bs 12 2), bodyLength := BitVec.ofNat 16 (field bs 14 2) }

/-- The congestion mark of a header; bits 7 to 1 of the flags are ignored (section 12.2). -/
def congestionMark (h : LinkHeader) : Bool := h.flags.getLsbD 0

/-- The bytes of a frame on LTX (section 12.2). -/
def frameBytes (fleet : BitVec 32) (kind : FrameKind) (sender vehicle : Nat) (sequence : BitVec 16) (mark : Bool)
    (addressee : Nat) (body : List Byte) : List Byte :=
  toBytes 4 fleet.toNat ++ frameKindCode kind :: toBytes 2 sender ++ toBytes 2 vehicle ++ toBytes 2 sequence.toNat ++
  (if mark then 1 else 0) :: toBytes 2 addressee ++ toBytes 2 body.length ++ body

/-- One domain block of an ANNOUNCE body, with its pending count; none when its flag byte has a bit but bit 0 set
(R207). -/
def announceBlock (bs : List Byte) : Option (Announced × Nat) :=
  let flag := byteAt bs 17
  if flag.toNat > 1 then none
  else some ({ held := field bs 0 4, visible := field bs 4 4, oldest := optGen (field bs 9 4),
               baseline := optGen (field bs 13 4), needsBaseline := flag.getLsbD 0 }, field bs 8 1)

/-- R111: the checks on one domain's values. -/
def announcedOk (v : Announced) (pending : Nat) : Bool :=
  v.visible ≤ v.held && pending ≤ 3 &&
  (if v.held = v.visible then pending == 0 else 1 ≤ pending && pending ≤ v.held - v.visible) &&
  (match v.oldest with
    | some o => 1 ≤ o && o ≤ v.held
    | none => true)

/-- A usable ANNOUNCE body: PARKED or not, and both domains' values (R111, R207). -/
def parseAnnounce (body : List Byte) : Option (Bool × PerDomain Announced) :=
  let p := byteAt body 0
  if p = 1 || p = 2 then
    match announceBlock ((body.drop 1).take 18), announceBlock ((body.drop 19).take 18) with
    | some (b, nb), some (q, nq) =>
      if announcedOk b nb && announcedOk q nq then some (p == 2, { block := b, product := q }) else none
    | _, _ => none
  else none

/-- One domain block of an ANNOUNCE (section 12.2). -/
def announceBlockBytes (v : Announced) (pending : Nat) : List Byte :=
  toBytes 4 v.held ++ toBytes 4 v.visible ++ toBytes 1 pending ++ toBytes 4 (genField v.oldest) ++
  toBytes 4 (genField v.baseline) ++ [if v.needsBaseline then 1 else 0]

/-- R134: the reasons of a DECLINE. -/
inductive DeclineReason where
  | busy | notHeld | evicted
  deriving DecidableEq, Repr

/-- R207. -/
def DeclineReason.code : DeclineReason → Byte
  | .busy => 1
  | .notHeld => 2
  | .evicted => 3

/-- R207. -/
def reasonOfCode (b : Byte) : Option DeclineReason :=
  if b = 1 then some .busy else if b = 2 then some .notHeld else if b = 3 then some .evicted else none

/-- R207: ask kind codes. -/
def askKindCode : AskKind → Byte
  | .manifest => 1
  | .segment => 2

/-- R207. -/
def askKindOfCode (b : Byte) : Option AskKind :=
  if b = 1 then some .manifest else if b = 2 then some .segment else none

/-- The fields of a DECLINE body. -/
structure DeclineBody where
  domain : Domain
  gen : Gen
  kind : AskKind
  index : Nat
  reason : DeclineReason
  deriving DecidableEq, Repr

/-- A usable DECLINE body (R207). -/
def parseDecline (bs : List Byte) : Option DeclineBody :=
  match domainOfCode (byteAt bs 0), askKindOfCode (byteAt bs 5), reasonOfCode (byteAt bs 8) with
  | some d, some k, some r => some { domain := d, gen := field bs 1 4, kind := k, index := field bs 6 2, reason := r }
  | _, _, _ => none

/-- The bytes of a DECLINE body (section 12.2). -/
def DeclineBody.bytes (b : DeclineBody) : List Byte :=
  domainCode b.domain :: toBytes 4 b.gen ++ askKindCode b.kind :: toBytes 2 b.index ++ [b.reason.code]

/-! ## Port frames (R209) -/

/-- The request kinds of section 12.4. -/
inductive RequestKind where
  | checkMedium | getProduct | readStatus | readCounters | readNotices | setNoticeEnable | readLag
  | publishManifest | publishSegment | parkEnd | commission
  deriving DecidableEq, Repr

/-- R209: the request codes. -/
def RequestKind.code : RequestKind → Byte
  | .checkMedium => 1
  | .getProduct => 2
  | .readStatus => 3
  | .readCounters => 4
  | .readNotices => 5
  | .setNoticeEnable => 6
  | .readLag => 7
  | .publishManifest => 8
  | .publishSegment => 9
  | .parkEnd => 10
  | .commission => 11

/-- R209: the body lengths a request code allows; none for a code outside the table. -/
def requestLengthOk (code : Byte) (n : Nat) : Bool :=
  if code = 1 then n == 8 else if code = 2 then n == 2 else if code = 3 then n == 0 else if code = 4 then n == 0
  else if code = 5 then n == 0 else if code = 6 then n == 2 else if code = 7 then n == 0 else if code = 8 then n == 12
  else if code = 9 then 16 ≤ n && n ≤ 256 else if code = 10 then n == 0 else if code = 11 then n == 25 else false

/-- R209: an enable set with bits 15 to 11 set, and a presence set with bits 15 to 9 set, are refused. -/
def requestBodyOk (code : Byte) (body : List Byte) : Bool :=
  if code = 6 then field body 0 2 < 2048 else if code = 11 then field body 0 2 < 512 else true

/-- What a window's SDI bytes carry (R209). -/
inductive Window where
  | fill
  | bad (kind : Byte)
  | request (kind : Byte) (body : List Byte)
  deriving DecidableEq, Repr

/-- R209: the bytes from the first that is not FF hex form the request frame; it ends at its CRC-16, and the bytes after it
must be FF hex. -/
def readWindow (sdi : List Byte) : Window :=
  match sdi.dropWhile (· == 0xFF#8) with
  | [] => .fill
  | kind :: rest =>
    let n := field rest 0 2
    let body := (rest.drop 2).take n
    let after := rest.drop (2 + n)
    if rest.length < 2 + n + 2 || (after.drop 2).any (· != 0xFF#8) ||
        crc16 (kind :: rest.take (2 + n)) != BitVec.ofNat 16 (field after 0 2) ||
        !requestLengthOk kind n || !requestBodyOk kind body then .bad kind
    else .request kind body

/-- R210: the outcome codes. -/
inductive OutcomeCode where
  | ok | listed | clear | found | notFound | busy | hold | fault | badKey | lag | empty | accepted | acceptedJoined
  | badManifest | barred | old | conflict | noSlot | stored | duplicate | badSegment | verified | digestFail | badRecord
  | wrongState | starting | notCommissioned | dropped | badFrame
  deriving DecidableEq, Repr

/-- R210. -/
def OutcomeCode.code : OutcomeCode → Byte
  | .ok => 1
  | .listed => 2
  | .clear => 3
  | .found => 4
  | .notFound => 5
  | .busy => 6
  | .hold => 7
  | .fault => 8
  | .badKey => 9
  | .lag => 10
  | .empty => 11
  | .accepted => 12
  | .acceptedJoined => 13
  | .badManifest => 14
  | .barred => 15
  | .old => 16
  | .conflict => 17
  | .noSlot => 18
  | .stored => 19
  | .duplicate => 20
  | .badSegment => 21
  | .verified => 22
  | .digestFail => 23
  | .badRecord => 24
  | .wrongState => 25
  | .starting => 26
  | .notCommissioned => 27
  | .dropped => 28
  | .badFrame => 29

/-- The bytes of a response on SDO (R209). -/
def Response.bytes (r : Response) : List Byte :=
  let front := r.kind :: r.outcome :: (if r.overrun then 1 else 0) :: toBytes 2 r.body.length ++ r.body
  front ++ toBytes 2 (crc16 front).toNat

end Sys2Proof.Machine
end

