-- ==== Sys2Proof/Machine/Ops.lean ====
section
/-! DEFINITION. The named operations over the state's parts: places of store memory, banks, slots, domains, headers and the
pool index; what a record's life is (chapter 1); and the messages of one event. -/

namespace Sys2Proof.Machine

/-! ## Places (log entry 4)

A set of places is a list of place and content in strictly rising place; a place not listed is free. -/

/-- The content of place `p`. -/
def placeGet {α : Type} (p : Nat) : List (Nat × α) → Option α
  | [] => none
  | (q, a) :: rest => if q = p then some a else placeGet p rest

/-- Writes place `p`. -/
def placeSet {α : Type} (p : Nat) (a : α) : List (Nat × α) → List (Nat × α)
  | [] => [(p, a)]
  | (q, b) :: rest =>
    if p < q then (p, a) :: (q, b) :: rest
    else if p = q then (p, a) :: rest
    else (q, b) :: placeSet p a rest

/-- Writes place `p` of `hi` places; there is no other place to write. -/
def placeWrite {α : Type} (hi p : Nat) (a : α) (l : List (Nat × α)) : List (Nat × α) :=
  if p < hi then placeSet p a l else l

/-- Frees place `p`. -/
def placeFree {α : Type} (p : Nat) : List (Nat × α) → List (Nat × α)
  | [] => []
  | (q, b) :: rest => if q = p then rest else (q, b) :: placeFree p rest

/-- Every place listed is above `lo`, below `hi`, and above the one before it. -/
def placesFrom {α : Type} (lo hi : Nat) : List (Nat × α) → Bool
  | [] => true
  | (q, _) :: rest => lo ≤ q && q < hi && placesFrom (q + 1) hi rest

/-- The canonical form of `hi` places. -/
def Memory.wf {α : Type} (hi : Nat) (l : List (Nat × α)) : Bool := placesFrom 0 hi l

/-- The lowest place, from `k` on, that the list does not hold. -/
def lowestFree {α : Type} (k : Nat) : List (Nat × α) → Nat
  | [] => k
  | (q, _) :: rest => if q = k then lowestFree (k + 1) rest else k

/-- The used places of the free map with `p` added, in rising order. -/
def useInsert (p : Nat) : List Nat → List Nat
  | [] => [p]
  | q :: rest => if p < q then p :: q :: rest else if p = q then q :: rest else q :: useInsert p rest

/-- The lowest place, from `k` on, that the free map does not mark used. -/
def lowestUnused (k : Nat) : List Nat → Nat
  | [] => k
  | q :: rest => if q = k then lowestUnused (k + 1) rest else k

/-! ## One value per domain -/

/-- The value of a domain. -/
def PerDomain.get {α : Type} (x : PerDomain α) : Domain → α
  | .block => x.block
  | .product => x.product

/-- The values with one domain's replaced. -/
def PerDomain.set {α : Type} (x : PerDomain α) (d : Domain) (a : α) : PerDomain α :=
  match d with
  | .block => { x with block := a }
  | .product => { x with product := a }

/-! ## Banks, slots and domains -/

/-- The sixteen banks in order. -/
def allBanks : List BankId := List.finRange 16

/-- The six slots in order. -/
def allSlots : List SlotId := List.finRange 6

/-- The bank state record of a bank. -/
def State.bank (s : State) (b : BankId) : Bank := s.banks[b]

/-- The state with a bank's record replaced. -/
def State.setBank (s : State) (b : BankId) (k : Bank) : State := { s with banks := s.banks.set b k }

/-- A slot. -/
def State.slot (s : State) (i : SlotId) : Slot := s.slots[i]

/-- The state with a slot replaced. -/
def State.setSlot (s : State) (i : SlotId) (x : Slot) : State := { s with slots := s.slots.set i x }

/-- The record places of a bank. -/
def State.places (s : State) (b : BankId) : List (Nat × Record) := s.store.places[b]

/-- The state with a bank's record places replaced. -/
def State.setPlaces (s : State) (b : BankId) (l : List (Nat × Record)) : State :=
  { s with store := { s.store with places := s.store.places.set b l } }

/-- The values of a domain. -/
def State.domain (s : State) (d : Domain) : Visibility := s.vis.get d

/-- The state with a domain's values replaced. -/
def State.setDomain (s : State) (d : Domain) (v : Visibility) : State := { s with vis := s.vis.set d v }

/-- R1: the domain of a bank, by the nB in force. -/
def State.bankDomain (s : State) (b : BankId) : Domain := if b.val < s.supply.config.nB then .block else .product

/-- R1: the banks of a domain, in bank order. -/
def State.banksOf (s : State) (d : Domain) : List BankId := allBanks.filter (fun b => s.bankDomain b == d)

/-- R2: the bank number of a key. -/
def bankOf (nB : Nat) (d : Domain) (key : Nat) : Nat :=
  match d with
  | .block => key % nB
  | .product => nB + key % (16 - nB)

/-- R2, as a bank of the part; nB is 8 to 15 in every start record in force. -/
def State.bankOf (s : State) (d : Domain) (key : Nat) : BankId :=
  Fin.ofNat 16 (Machine.bankOf s.supply.config.nB d key)

/-- R20: some bank of the domain has its fault mark set. Until the banks have entered their start states, in COMMISSIONING too, their working
headers have none, and the flag is clear (for COMMISSIONING the model's choice, log entry 53). -/
def State.needsBaseline (s : State) (d : Domain) : Bool :=
  (s.banksOf d).any (fun b => (s.bank b).header.faultMark)

/-! ## Records (chapter 1) -/

/-- R11: F(V) of a baseline list. -/
def floorAt (baselines : List Gen) (v : Gen) : Gen :=
  baselines.foldl (fun m g => if g ≤ v && m < g then g else m) 0

/-- The removed generation of a record is absent or above `v` (R11). -/
def Record.unremovedAt (r : Record) (v : Gen) : Bool :=
  match r.removed with
  | none => true
  | some g => v < g

/-- R11: live at `v` in a bank with floor `F(v)`. -/
def Record.liveAt (r : Record) (floor v : Gen) : Bool :=
  floor ≤ r.added && r.added ≤ v && r.unremovedAt v && r.good

/-- R39: a record with a good check is dead at V. -/
def Record.deadAt (r : Record) (floor v : Gen) : Bool := !r.unremovedAt v || r.added < floor

/-- R12, R34: the baseline list with B added, dropping the entries below F(V) first when it holds four. -/
def addBaseline (baselines : List Gen) (v b : Gen) : List Gen :=
  (if 4 ≤ baselines.length then baselines.filter (fun g => floorAt baselines v ≤ g) else baselines) ++ [b]

/-- The key an op names. -/
def Op.key : Op → Nat
  | .list m _ _ => m
  | .unlist m => m
  | .put n _ => n
  | .drop n => n

/-- The payload a LIST or PUT adds; none for an UNLIST or DROP. -/
def Op.payload : Op → Option Payload
  | .list _ r a => some (.block r a)
  | .put _ p => some (.product p)
  | .unlist _ => none
  | .drop _ => none

/-- Each entry is above the one before it. -/
def rising : List Byte → Bool
  | [] => true
  | [_] => true
  | a :: b :: rest => a.toNat < b.toNat && rising (b :: rest)

/-- R4: the ranges of a product record. -/
def ProductRecord.ok (p : ProductRecord) : Bool :=
  (1 ≤ p.cls.toNat && p.cls.toNat ≤ 4) &&
  (1 ≤ p.zones.length && p.zones.length ≤ 16) && p.zones.all (· != 0) && rising p.zones &&
  p.firstDay.toNat ≤ p.lastDay.toNat &&
  (match p.band with
    | some (a, b) => a.toNat ≤ 1439 && b.toNat ≤ 1439
    | none => true) &&
  (match p.transfer with
    | some t => 1 ≤ t.toNat && t.toNat ≤ 240
    | none => true) &&
  p.concessions.length ≤ 4 && p.concessions.all (fun c => 1 ≤ c.toNat && c.toNat ≤ 15)

/-- R5: the op is well formed in a segment of a domain and a generation kind. -/
def Op.wellFormed (op : Op) (d : Domain) (kind : GenKind) : Bool :=
  match op with
  | .list m r a => d == .block && m != 0 && (1 ≤ r.toNat && r.toNat ≤ 5) && (1 ≤ a.toNat && a.toNat ≤ 2)
  | .unlist m => d == .block && m != 0 && kind == .delta
  | .put n p => d == .product && n != 0 && p.ok
  | .drop n => d == .product && n != 0 && kind == .delta

/-- R6: the op's key maps to this bank. -/
def Op.wellPlaced (op : Op) (nB : Nat) (d : Domain) (b : BankId) : Bool := bankOf nB d op.key == b.val

/-! ## Headers (R19, R62, R143) -/

/-- R19: a write of the bank header with the free count, the applied generation, the lists and the marks; the scrub cursor and
scrub age in store memory stay as last written. Both copies are written (R185). -/
def State.writeHeader (s : State) (b : BankId) : State :=
  let old := s.store.headers[b].fields
  let h := { (s.bank b).header with scrubCursor := old.scrubCursor, scrubAge := old.scrubAge }
  { s with
    store := { s.store with headers := s.store.headers.set b (StoredHeader.sealed h) }
    backup := Backup.sealed { s.backup with headers := s.backup.headers.set b h } }

/-- R19: a write of the bank header that also carries the scrub cursor and scrub age. -/
def State.writeScrubHeader (s : State) (b : BankId) : State :=
  let h := (s.bank b).header
  { s with
    store := { s.store with headers := s.store.headers.set b (StoredHeader.sealed h) }
    backup := Backup.sealed { s.backup with headers := s.backup.headers.set b h } }

/-- R62: one index write updates both copies. -/
def State.writeIndex (s : State) (ix : PoolIndex) : State :=
  { s with store := { s.store with index := ix }, backup := Backup.sealed { s.backup with index := ix } }

/-- R143: the header write in progress of a domain, if there is one, completes. -/
def State.commitDomainHeader (s : State) (d : Domain) : State :=
  match s.domainWrites.get d with
  | none => s
  | some h =>
    { s with
      store := { s.store with domains := s.store.domains.set d h }
      domainWrites := s.domainWrites.set d none }

/-- R143: the header writes in progress of both domains complete. -/
def State.commitDomainHeaders (s : State) : State := (s.commitDomainHeader .block).commitDomainHeader .product

/-- R143: one write of a domain header is made; it completes at the clock's next tick, and one that has not completed yet completes before it
(log entry 44). -/
def State.writeDomainHeader (s : State) (d : Domain) : State :=
  let s := s.commitDomainHeader d
  let v := s.domain d
  let h := DomainHeader.sealed { held := v.held, visible := v.visible, pending := v.pending, check := 0 }
  { s with domainWrites := s.domainWrites.set d (some h) }

/-! ## Inside one event (log entry 7) -/

/-- A message to another block joins the mail of the event. -/
def State.post (s : State) (m : Msg) : State := { s with todo := { s.todo with mail := s.todo.mail ++ [m] } }

/-- The event calls for the opening passes of both domains (R80). -/
def State.wantOpening (s : State) : State := { s with todo := { s.todo with openPass := { block := true, product := true } } }

/-- The event calls for the opening pass of one domain (R80: its held generation, pending count or needs-baseline flag has
changed). -/
def State.wantOpeningOf (s : State) (d : Domain) : State := { s with todo := { s.todo with openPass := s.todo.openPass.set d true } }

/-- The event calls for an asking pass (R126). -/
def State.wantAsking (s : State) : State := { s with todo := { s.todo with askPass := true } }

/-- The event has changed the cohort view, which calls for the advance tests (R146, R147). -/
def State.changeView (s : State) : State := { s with todo := { s.todo with viewChanged := true } }

/-- R119: a report of the peer table brings the opening passes and an asking pass. -/
def State.peerReport (s : State) : State := s.wantOpening.wantAsking

/-- RUN or PARKED (R179). -/
def State.running (s : State) : Bool := s.supply.power == .run || s.supply.power == .parked

/-- The blocks' volatile state is in operation: from the start record's values taking effect (R186, step 4) until DORMANT. -/
def State.started (s : State) : Bool :=
  match s.supply.power with
  | .run => true
  | .parked => true
  | .closing => true
  | .starting => s.supply.recordRead
  | .dipHold => s.supply.recordRead
  | _ => false

/-! ## Free values (log entry 5) -/

/-- The next draw's number, and the state in which it is used up. -/
def State.draw (s : State) : Nat × State := (s.draws, { s with draws := s.draws + 1 })

end Sys2Proof.Machine
end

