-- ==== Sys2Proof/Machine/Flags.lean ====
section
/-! DEFINITION. Notice flags, counters, READY and ATTENTION (chapter 11). -/

namespace Sys2Proof.Machine

/-- R201: the eleven notices. -/
inductive Notice where
  | genVisibleBlock | genVisibleProduct | linkLow | linkOk | cohortLag | storeFull | bankFault | manifestConflict
  | genBarred | scrubRepair | start
  deriving DecidableEq, Repr

/-- R209: the notice bit order. -/
def Notice.bit : Notice → Nat
  | .genVisibleBlock => 0
  | .genVisibleProduct => 1
  | .linkLow => 2
  | .linkOk => 3
  | .cohortLag => 4
  | .storeFull => 5
  | .bankFault => 6
  | .manifestConflict => 7
  | .genBarred => 8
  | .scrubRepair => 9
  | .start => 10

/-- The flag of a notice as a mask. -/
def Notice.mask (n : Notice) : BitVec 16 := 1#16 <<< n.bit

/-- R201: "A flag is raised by setting it." -/
def State.raise (s : State) (n : Notice) : State :=
  { s with port := { s.port with flags := s.port.flags ||| n.mask } }

/-- The notice of a visibility advance of a domain (R151). -/
def visibleNotice : Domain → Notice
  | .block => .genVisibleBlock
  | .product => .genVisibleProduct

/-- The port is powered (R197): every state but DORMANT and UNPOWERED. -/
def State.portPowered (s : State) : Bool := s.supply.power != .dormant && s.supply.power != .unpowered

/-- R201: ATTENTION is asserted while at least one flag is both set and enabled. -/
def State.attention (s : State) : Bool := s.portPowered && (s.port.flags &&& s.port.enables) != 0#16

/-- R195: READY is asserted while a response is in the buffer. -/
def State.ready (s : State) : Bool := s.portPowered && s.port.response.isSome

/-- R202: a counter counts up to 65,535 and stays there. -/
def bumpBy (k n : Nat) : Nat := min 65535 (n + k)

/-- A change of the counters. -/
def State.counting (s : State) (f : Counters → Counters) : State :=
  { s with port := { s.port with counters := f s.port.counters } }

/-! Each counter of R202 goes up by one, the op counters by a number of ops. -/

def State.countForeign (s : State) : State := s.counting (fun c => { c with foreign := bumpBy 1 c.foreign })
def State.countMalformed (s : State) : State := s.counting (fun c => { c with malformed := bumpBy 1 c.malformed })
def State.countSegmentCrc (s : State) : State := s.counting (fun c => { c with segmentCrc := bumpBy 1 c.segmentCrc })
def State.countDuplicate (s : State) : State := s.counting (fun c => { c with duplicate := bumpBy 1 c.duplicate })
def State.countDiscardedDrain (s : State) : State :=
  s.counting (fun c => { c with discardedDrain := bumpBy 1 c.discardedDrain })
def State.countControlDrop (s : State) : State := s.counting (fun c => { c with controlDrops := bumpBy 1 c.controlDrops })
def State.countPeerRefusal (s : State) : State := s.counting (fun c => { c with peerRefusals := bumpBy 1 c.peerRefusals })
def State.countAskTimeout (s : State) : State := s.counting (fun c => { c with askTimeouts := bumpBy 1 c.askTimeouts })
def State.countDecline (s : State) : State := s.counting (fun c => { c with declines := bumpBy 1 c.declines })
def State.countDigestFailure (s : State) : State :=
  s.counting (fun c => { c with digestFailures := bumpBy 1 c.digestFailures })
def State.countConflict (s : State) : State := s.counting (fun c => { c with conflicts := bumpBy 1 c.conflicts })
def State.countMisplaced (s : State) (k : Nat) : State :=
  s.counting (fun c => { c with misplaced := bumpBy k c.misplaced })
def State.countMalformedOp (s : State) : State := s.counting (fun c => { c with malformedOps := bumpBy 1 c.malformedOps })
def State.countRedundant (s : State) : State := s.counting (fun c => { c with redundant := bumpBy 1 c.redundant })
def State.countRepair (s : State) : State := s.counting (fun c => { c with repairs := bumpBy 1 c.repairs })
def State.countOverrun (s : State) : State := s.counting (fun c => { c with overruns := bumpBy 1 c.overruns })

/-- The sixteen counters in the order of R202's table. -/
def Counters.list (c : Counters) : List Nat :=
  [c.foreign, c.malformed, c.segmentCrc, c.duplicate, c.discardedDrain, c.controlDrops, c.peerRefusals, c.askTimeouts,
   c.declines, c.digestFailures, c.conflicts, c.misplaced, c.malformedOps, c.redundant, c.repairs, c.overruns]

end Sys2Proof.Machine
end

