-- ==== Sys2Proof/Machine/PoolOps.lean ====
section
/-! DEFINITION. The segment pool (chapter 4): entries, pins, eviction, writes, reads, reservations, holds and restoration. -/

namespace Sys2Proof.Machine

/-! ## The manifest table -/

/-- The entry of a domain and generation (R63: at most one). -/
def PoolIndex.entry (ix : PoolIndex) (d : Domain) (g : Gen) : Option ManifestEntry :=
  ix.entries.find? (fun e => e.manifest.domain == d && e.manifest.gen == g)

/-- The entry of a domain and generation. -/
def State.entry (s : State) (d : Domain) (g : Gen) : Option ManifestEntry := s.store.index.entry d g

/-- R71: "A generation is servable while its entry's verified mark is set and its present count equals its segment count." -/
def ManifestEntry.servable (e : ManifestEntry) : Bool := e.verified && e.present.length == e.manifest.count

/-- R71, for a domain and generation. -/
def State.servable (s : State) (d : Domain) (g : Gen) : Bool :=
  match s.entry d g with
  | some e => e.servable
  | none => false

/-- R63: the number of pins on an entry. -/
def State.pinCount (s : State) (d : Domain) (g : Gen) : Nat :=
  (s.pool.pins.filter (fun p => p.domain == d && p.gen == g)).length

/-- The index with the entry of the same domain and generation replaced, its entry check recomputed (R63). -/
def PoolIndex.update (ix : PoolIndex) (e : ManifestEntry) : PoolIndex :=
  { ix with entries := ix.entries.map (fun x =>
      if x.manifest.domain == e.manifest.domain && x.manifest.gen == e.manifest.gen then e.sealed else x) }

/-- The place and content of a segment: a used place whose tag is the entry's stamp and the index (R62). -/
def State.cellOf (s : State) (e : ManifestEntry) (index : Nat) : Option (Nat × PoolCell) :=
  s.store.cells.find? (fun pc => s.store.index.used.contains pc.1 && pc.2.stamp == e.stamp && pc.2.index == index)

/-- The free map with every place of a stamp freed (R62: operations that free places change the index alone). -/
def usedWithout (cells : List (Nat × PoolCell)) (stamp : Nat) (used : List Nat) : List Nat :=
  used.filter (fun p =>
    match placeGet p cells with
    | some c => c.stamp != stamp
    | none => true)

/-- R63: the stamps from `n` on, 1 after 4,294,967,295, passing over the stamps in use; `fuel` bounds the passing over. -/
def nextStamp (inUse : List Nat) : Nat → Nat → Nat
  | 0, n => n
  | fuel + 1, n =>
    let m := if 4294967295 ≤ n then 1 else n + 1
    if inUse.contains m then nextStamp inUse fuel m else m

/-- R63: a new stamp, with the stamp source moved to it in the same index write. -/
def PoolIndex.newStamp (ix : PoolIndex) : Nat := nextStamp (ix.entries.map (·.stamp)) 129 ix.stampSource

/-- The entry leaves the table and every place it held becomes free, in one index write (R68, R72, R73). -/
def State.removeEntry (s : State) (e : ManifestEntry) : State :=
  let ix := s.store.index
  let s := s.writeIndex { ix with
    entries := ix.entries.filter (fun x => !(x.manifest.domain == e.manifest.domain && x.manifest.gen == e.manifest.gen))
    used := usedWithout s.store.cells e.stamp ix.used }
  { s with pool := { s.pool with
      pins := s.pool.pins.filter (fun p => !(p.domain == e.manifest.domain && p.gen == e.manifest.gen)) } }

/-- The entry is emptied: new stamp, present set empty, verified mark clear, places free, in one index write (R67, R68). -/
def State.emptyEntry (s : State) (e : ManifestEntry) : State :=
  let ix := s.store.index
  let stamp := ix.newStamp
  s.writeIndex { ix.update { e with stamp := stamp, present := [], verified := false } with
    used := usedWithout s.store.cells e.stamp ix.used
    stampSource := stamp }

/-! ## Servable values (R71) -/

/-- The lowest generation reached from `g` downward through servable entries. -/
def chainDown (servable : Gen → Bool) : Nat → Gen → Gen
  | 0, g => g
  | fuel + 1, g => if 2 ≤ g && servable (g - 1) then chainDown servable fuel (g - 1) else g

/-- R71: the oldest servable generation of a domain. -/
def State.oldestServable (s : State) (d : Domain) : Option Gen :=
  let h := (s.domain d).held
  if h = 0 || !s.servable d h then none else some (chainDown (s.servable d) 128 h)

/-- R71: the servable baseline of a domain. -/
def State.servableBaseline (s : State) (d : Domain) : Option Gen :=
  s.store.index.entries.foldl (fun m e =>
    if e.manifest.domain == d && e.manifest.kind == .baseline && e.servable then
      some (match m with
        | none => e.manifest.gen
        | some g => max g e.manifest.gen)
    else m) none

/-! ## Eviction (R72) -/

/-- R72, item 1: the group of a candidate: 0 before 1 before 2. -/
def State.evictGroup (s : State) (e : ManifestEntry) : Nat :=
  let d := e.manifest.domain
  if s.servableBaseline d != some e.manifest.gen then 0
  else if s.peers.any (fun p => p.state == .known && (p.values.get d).needsBaseline) then 2 else 1

/-- R72, item 2: how far the candidate lies below its domain's held generation. -/
def State.evictDistance (s : State) (e : ManifestEntry) : Int :=
  ((s.domain e.manifest.domain).held : Int) - (e.manifest.gen : Int)

/-- R72: `a` is taken before `b`. -/
def State.evictBefore (s : State) (a b : ManifestEntry) : Bool :=
  s.evictGroup a < s.evictGroup b ||
  (s.evictGroup a == s.evictGroup b &&
    (s.evictDistance b < s.evictDistance a ||
      (s.evictDistance a == s.evictDistance b && a.manifest.domain == .block && b.manifest.domain == .product)))

/-- The first of a list under an order, the earlier one on a tie. -/
def firstBy {α : Type} (before : α → α → Bool) : List α → Option α
  | [] => none
  | a :: rest =>
    match firstBy before rest with
    | none => some a
    | some b => if before b a then some b else some a

/-- R72: the candidates are the entries that are verified and have pin count 0. -/
def State.evictCandidates (s : State) : List ManifestEntry :=
  s.store.index.entries.filter (fun e => e.verified && s.pinCount e.manifest.domain e.manifest.gen == 0)

/-- R72: the generation to give up next. -/
def State.evictNext (s : State) : Option ManifestEntry := firstBy s.evictBefore s.evictCandidates

/-- R67: the newest slot of the wait list that holds places, with its entry. -/
def State.waitingHolder (s : State) : Option (SlotId × ManifestEntry) :=
  s.pool.waitList.reverse.findSome? (fun i =>
    match s.entry (s.slot i).domain (s.slot i).gen with
    | some e => if e.present.isEmpty then none else some (i, e)
    | none => none)

/-- R67: a free place for a segment write, after the evictions it needs; none when the write has to wait. -/
def State.makeRoom (s : State) : Nat → Option State
  | 0 => none
  | fuel + 1 =>
    if lowestUnused 0 s.store.index.used < Config.poolPlaces then some s
    else
      match s.evictNext with
      | some e => (s.removeEntry e).makeRoom fuel
      | none =>
        match s.waitingHolder with
        | some (i, e) => ((s.emptyEntry e).post (.slotEmptied i)).makeRoom fuel
        | none => none

/-! ## Pins (R65) -/

/-- A pin is taken. -/
def State.pin (s : State) (holder : PinHolder) (d : Domain) (g : Gen) : State :=
  { s with pool := { s.pool with pins := s.pool.pins ++ [{ holder := holder, domain := d, gen := g }] } }

/-- R67: a pin release lets a write that waits for room try again. -/
def State.pinReleased (s : State) : State :=
  { s with pool := { s.pool with retryDue := s.pool.waiting } }

/-- The pin of a slot on its generation is released. -/
def State.unpinSlot (s : State) (i : SlotId) (d : Domain) (g : Gen) : State :=
  let s := { s with pool := { s.pool with
    pins := s.pool.pins.filter (fun p => !(p.holder == PinHolder.slot i && p.domain == d && p.gen == g)) } }
  s.pinReleased

/-- The pin of whichever slot holds one on a generation is released. -/
def State.unpinSlots (s : State) (d : Domain) (g : Gen) : State :=
  let s := { s with pool := { s.pool with
    pins := s.pool.pins.filter (fun p =>
      match p.holder with
      | .slot _ => !(p.domain == d && p.gen == g)
      | .repair _ => true) } }
  s.pinReleased

/-- An index write joins those waiting for the arbiter (R66). -/
def State.queueIndex (s : State) (w : IndexWrite) : State :=
  { s with pool := { s.pool with indexQueue := s.pool.indexQueue ++ [w] } }

/-- R73: an unverified entry that only repairs pinned is removed at the last of those releases, by an index write. -/
def State.dropUnpinned (s : State) (d : Domain) (g : Gen) : State :=
  match s.entry d g with
  | some e => if !e.verified && s.pinCount d g == 0 then s.queueIndex (.unpinned d g) else s
  | none => s

/-- R65: every pin a bank's repair took is released. -/
def State.unpinRepair (s : State) (b : BankId) : State :=
  let mine := s.pool.pins.filter (fun p => p.holder == PinHolder.repair b)
  let s := { s with pool := { s.pool with pins := s.pool.pins.filter (fun p => !(p.holder == PinHolder.repair b)) } }
  let s := mine.foldl (fun s p => s.dropUnpinned p.domain p.gen) s
  if mine.isEmpty then s else s.pinReleased

/-! ## Writes (R64, R66, R68) -/

/-- R64: what the pool answers to the entering of a manifest. -/
inductive EnterAnswer where
  | entered
  | existing (e : ManifestEntry)
  | refused
  deriving DecidableEq, Repr

/-- R64: the answer as the table stands. An unverified entry of the same generation does not occur (R84); the model answers
REFUSED to it (log entry 21). -/
def State.enterAnswer (s : State) (m : Manifest) : EnterAnswer :=
  match s.entry m.domain m.gen with
  | some e => if e.verified then .existing e else .refused
  | none =>
    if s.store.index.entries.length < Config.manifestEntries || s.evictNext.isSome then .entered else .refused

/-- R64: a new entry, after the eviction a full table needs, with the pin of the slot that asked. -/
def State.enterManifest (s : State) (i : SlotId) (m : Manifest) : State :=
  let s := if s.store.index.entries.length < Config.manifestEntries then s
    else
      match s.evictNext with
      | some e => s.removeEntry e
      | none => s
  let ix := s.store.index
  let stamp := ix.newStamp
  let s := s.writeIndex { ix with
    entries := ix.entries ++ [ManifestEntry.sealed { manifest := m, stamp := stamp, verified := false, present := [], check := 0 }]
    stampSource := stamp }
  s.pin (.slot i) m.domain m.gen

/-- R68: VERIFIED sets the mark of an entry with every index present. -/
def State.markVerified (s : State) (d : Domain) (g : Gen) : State :=
  match s.entry d g with
  | some e =>
    if e.present.length == e.manifest.count then s.writeIndex (s.store.index.update { e with verified := true }) else s
  | none => s

/-- R68: DIGEST-FAILED. -/
def State.digestFailedWrite (s : State) (d : Domain) (g : Gen) : State :=
  match s.entry d g with
  | some e => if e.verified then s else s.emptyEntry e
  | none => s

/-- R68: DRAINING of an unverified entry; one that a queued VERIFIED write has marked meanwhile stays and loses the slot's pin. -/
def State.drainedWrite (s : State) (d : Domain) (g : Gen) : State :=
  match s.entry d g with
  | some e => if e.verified then s.unpinSlots d g else (s.removeEntry e).pinReleased
  | none => s

/-- R66: the answer to a segment write. -/
inductive SegmentAnswer where
  | stored | duplicate | discarded | waits
  deriving DecidableEq, Repr

/-- R66, R67: a segment write commits with its place and the index. -/
def State.writeSegment (s : State) (o : Offer) : SegmentAnswer × State :=
  match s.entry o.domain o.gen with
  | none => (.discarded, s)
  | some e =>
    if e.verified || e.present.contains o.index then (.duplicate, s)
    else
      match s.makeRoom 130 with
      | none => (.waits, s)
      | some s =>
        match s.entry o.domain o.gen with
        | none => (.discarded, s)
        | some e =>
          let ix := s.store.index
          let p := lowestUnused 0 ix.used
          let s := { s with store := { s.store with
            cells := placeWrite Config.poolPlaces p { stamp := e.stamp, index := o.index, bytes := o.bytes } s.store.cells } }
          (.stored, s.writeIndex { ix.update { e with present := useInsert o.index e.present } with
            used := useInsert p ix.used })

/-- The room a segment write finds as it is taken: whether it can go ahead, to whatever answer, and whether it has to evict first (R67). -/
inductive WriteRoom where
  | free | evicts | wanting
  deriving DecidableEq, Repr

/-- R66, R67: a write that stores nothing needs no room; one that finds neither a free place nor anything to evict is left wanting. -/
def State.writeRoom (s : State) (o : Offer) : WriteRoom :=
  match (s.writeSegment o).1 with
  | .waits => .wanting
  | .stored => if lowestUnused 0 s.store.index.used < Config.poolPlaces then .free else .evicts
  | _ => .free

/-- R66, R67: the write of the offer at the head of the queue, `rest` behind it, is taken, or waits at the head when it is left wanting for
room. -/
def State.takeWrite (s : State) (o : Offer) (rest : List Offer) : State :=
  match s.writeRoom o with
  | .wanting => { s with pool := { s.pool with waiting := true, retryDue := false } }
  | room => { s with pool := { s.pool with
      queue := rest, waiting := false, retryDue := false, writing := .segment o (room == .evicts) } }

/-- The places of the write queue that the write in progress still keeps (log entry 16). -/
def PoolWrite.queuePlaces : PoolWrite → Nat
  | .segment _ true => 1
  | _ => 0

/-- R66: the offers that the write queue holds. -/
def Pool.queueLoad (p : Pool) : Nat := p.queue.length + p.writing.queuePlaces

/-- R66: the write queue holds up to 4 offers. -/
def State.queueHasPlace (s : State) : Bool := s.pool.queueLoad < Config.writeQueuePlaces

/-- An offer joins the write queue. -/
def State.queueOffer (s : State) (o : Offer) : State :=
  { s with pool := { s.pool with queue := s.pool.queue ++ [o] } }

/-! ## Reads (R73) -/

/-- R73: the answer to a segment read. -/
inductive ReadAnswer where
  | segment (bytes : List Byte)
  | readFail
  | evicted
  deriving DecidableEq, Repr

/-- R73: the GAU is told of a lost index when a slot pins the entry. -/
def State.tellLost (s : State) (d : Domain) (g : Gen) (index : Nat) : State :=
  if s.pool.pins.any (fun p => p.domain == d && p.gen == g &&
      (match p.holder with
        | .slot _ => true
        | .repair _ => false)) then s.post (.indexLost d g index) else s

/-- R73: a segment's CRC disagrees: its index write joins those waiting for the arbiter (R66), and the GAU is told at once (the model's
choice, log entry 15). -/
def State.readFailure (s : State) (e : ManifestEntry) (index : Nat) : State :=
  (s.queueIndex (.lost e.manifest.domain e.manifest.gen e.stamp index)).tellLost e.manifest.domain e.manifest.gen index

/-- R73: the index leaves the present set, its place becomes free and the verified mark is cleared. -/
def State.loseIndex (s : State) (e : ManifestEntry) (index : Nat) : State :=
  let ix := s.store.index.update { e with present := e.present.filter (· != index), verified := false }
  let used := match s.cellOf e index with
    | some pc => ix.used.filter (· != pc.1)
    | none => ix.used
  s.writeIndex { ix with used := used }

/-- R73: the index write of a failing segment: an entry with pin count 0 goes with all its places, as at an eviction, another loses the
index, which a slot that took its pin meanwhile is told of (log entry 15). Nothing is left to write once the entry has gone, or been
emptied, or lost the index already. -/
def State.lostWrite (s : State) (d : Domain) (g : Gen) (stamp index : Nat) : State :=
  match s.entry d g with
  | none => s
  | some e =>
    if e.stamp != stamp || !e.present.contains index then s
    else if s.pinCount d g == 0 then s.removeEntry e
    else (s.loseIndex e index).tellLost d g index

/-- R73: the removal that the last release of a repair pin brings, unless the entry is verified or pinned again by then. The places it
frees are part of that release (R67). -/
def State.unpinnedWrite (s : State) (d : Domain) (g : Gen) : State :=
  match s.entry d g with
  | some e => if !e.verified && s.pinCount d g == 0 then (s.removeEntry e).pinReleased else s
  | none => s

/-- The segment of an entry and index, read and its CRC recomputed; a failure calls for its index write. -/
def State.readCell (s : State) (e : ManifestEntry) (index : Nat) : ReadAnswer × State :=
  match s.cellOf e index with
  | some (_, c) => if segCrcGood c.bytes then (.segment c.bytes, s) else (.readFail, s.readFailure e index)
  | none => (.readFail, s.readFailure e index)

/-- R73: an apply read: EVICTED once the slot that sent the request has drained and the generation is not servable, whichever slot holds
the generation by then. -/
def State.applyRead (s : State) (d : Domain) (g : Gen) (index : Nat) (drained : Bool) : ReadAnswer × State :=
  match s.entry d g with
  | none => (.evicted, s)
  | some e =>
    if drained && !e.servable then (.evicted, s)
    else if e.present.contains index then s.readCell e index
    else (.readFail, s)

/-- R73: a repair read, of a generation pinned by the repair. -/
def State.repairRead (s : State) (d : Domain) (g : Gen) (index : Nat) : ReadAnswer × State :=
  match s.entry d g with
  | none => (.readFail, s)
  | some e => if e.present.contains index then s.readCell e index else (.readFail, s)

/-- R73: a serve read is taken: the segment as it stands in its place, when the generation is servable. -/
def State.takeServeRead (s : State) (d : Domain) (g : Gen) (index : Nat) : ServeRead :=
  match s.entry d g with
  | none => .evicted
  | some e =>
    if e.servable then
      .taken e.stamp (match s.cellOf e index with
        | some (_, c) => c.bytes
        | none => [])
    else .evicted

/-- R73: a serve read completes with the segment it read, whatever has become of the generation meanwhile. A failing CRC calls for its index
write while the entry it was read for still holds the segment that was read. -/
def State.serveRead (s : State) (d : Domain) (g : Gen) (index : Nat) : ServeRead → ReadAnswer × State
  | .evicted => (.evicted, s)
  | .taken stamp bytes =>
    if segCrcGood bytes then (.segment bytes, s)
    else
      match s.entry d g with
      | some e =>
        if e.stamp == stamp && e.present.contains index &&
            ((s.cellOf e index).map (fun pc => pc.2.bytes)).getD [] == bytes then (.readFail, s.readFailure e index)
        else (.readFail, s)
      | none => (.readFail, s)

/-- The indices of a generation whose segments name a bank, in index order (R52: "the segments of a that name this bank"). -/
def State.indicesNaming (s : State) (d : Domain) (g : Gen) (b : BankId) : List Nat :=
  match s.entry d g with
  | none => []
  | some e => e.present.filter (fun i =>
      match s.cellOf e i with
      | some (_, c) => segBank c.bytes == b.val
      | none => false)

/-! ## Reservation and admission (R69, R70) -/

/-- The segment count of a slot's manifest. -/
def Slot.count (x : Slot) : Nat :=
  match x.manifest with
  | some m => m.count
  | none => 0

/-- R69: an admission request of a slot; true when it is granted. -/
def State.requestAdmission (s : State) (i : SlotId) : Bool × State :=
  let n := (s.slot i).count
  if s.pool.reserved + n ≤ Config.poolPlaces then
    let s := { s with pool := { s.pool with reserved := s.pool.reserved + n } }
    (true, s.setSlot i { s.slot i with admitted := true })
  else (false, { s with pool := { s.pool with waitList := s.pool.waitList ++ [i] } })

/-- R70: the walk of the wait list from the oldest slot to the newest. -/
def State.walkWaitList (s : State) : List SlotId → State
  | [] => s
  | i :: rest =>
    let n := (s.slot i).count
    if s.pool.reserved + n ≤ Config.poolPlaces then
      let s := { s with pool := { s.pool with
        reserved := s.pool.reserved + n
        waitList := s.pool.waitList.filter (· != i)
        grants := s.pool.grants ++ [i] } }
      (s.setSlot i { s.slot i with admitted := true }).walkWaitList rest
    else s.walkWaitList rest

/-- R70: a reservation of `n` places is released, and the wait list walked. -/
def State.releaseReservation (s : State) (n : Nat) : State :=
  let s := { s with pool := { s.pool with reserved := s.pool.reserved - n } }
  s.walkWaitList s.pool.waitList

/-- R69: a slot leaves the wait list, and a grant that has not reached the GAU falls away. -/
def State.withdrawAdmission (s : State) (i : SlotId) : State :=
  { s with pool := { s.pool with
      waitList := s.pool.waitList.filter (· != i)
      grants := s.pool.grants.filter (· != i) } }

/-! ## Holds and starts (R74, R75, R76) -/

/-- R74: a hold empties the write queue and stops new offers; the write in progress goes on to its commit. -/
def State.holdPool (s : State) : State :=
  { s with pool := { s.pool with queue := [], waiting := false, retryDue := false, held := true } }

/-- R74: a resume. -/
def State.resumePool (s : State) : State := { s with pool := { s.pool with held := false } }

/-- R75, step 2: one place of the walk. -/
def rebuildPlace (acc : List ManifestEntry × List Nat) (pc : Nat × PoolCell) : List ManifestEntry × List Nat :=
  match acc.1.find? (fun e => e.stamp == pc.2.stamp) with
  | none => acc
  | some e =>
    if segDomain pc.2.bytes == some e.manifest.domain && segGen pc.2.bytes == e.manifest.gen && segCrcGood pc.2.bytes &&
        !e.present.contains pc.2.index then
      (acc.1.map (fun x => if x.stamp == e.stamp then { x with present := useInsert pc.2.index x.present } else x),
       useInsert pc.1 acc.2)
    else acc

/-- R75, steps 1 and 2: the table less failing entries, with the present sets and free map of the walk. -/
def rebuildIndex (ix : PoolIndex) (cells : List (Nat × PoolCell)) : PoolIndex :=
  let entries := (ix.entries.filter (·.good)).map (fun e => { e with present := [] })
  let walked := cells.foldl rebuildPlace (entries, [])
  { ix with entries := walked.1, used := walked.2 }

/-- R75, step 3. -/
def clearIncomplete (ix : PoolIndex) : PoolIndex :=
  { ix with entries := ix.entries.map (fun e =>
      if e.verified && e.present.length != e.manifest.count then { e with verified := false } else e) }

/-- R75, step 4: an unverified entry at or below the held generation leaves with its places. -/
def dropStale (held : Domain → Gen) (cells : List (Nat × PoolCell)) (ix : PoolIndex) : PoolIndex :=
  ix.entries.foldl (fun ix e =>
    if !e.verified && e.manifest.gen ≤ held e.manifest.domain then
      { ix with
        entries := ix.entries.filter (fun x =>
          !(x.manifest.domain == e.manifest.domain && x.manifest.gen == e.manifest.gen))
        used := usedWithout cells e.stamp ix.used }
    else ix) ix

/-- R63: the entry checks recomputed. -/
def PoolIndex.sealed (ix : PoolIndex) : PoolIndex := { ix with entries := ix.entries.map ManifestEntry.sealed }

/-- R75, R76: the index of a start, from store memory for a COLD one and from the directory for a WARM one. -/
def State.restoreIndex (s : State) : State :=
  let base := match s.supply.kind with
    | .cold => rebuildIndex s.store.index s.store.cells
    | .warm => s.backup.index
  s.writeIndex (dropStale (fun d => (s.domain d).held) s.store.cells (clearIncomplete base)).sealed

end Sys2Proof.Machine
end

