-- ==== Sys2Proof/Machine/LinkOps.lean ====
section
/-! DEFINITION. The fleet link controller (chapter 9): transmit classes, arbiter, channel access, pacing, channel load and
announcements. -/

namespace Sys2Proof.Machine

/-- A change of the LNK's state. -/
def State.linked (s : State) (f : Link → Link) : State := { s with link := f s.link }

/-! ## Channel load (R171) -/

/-- R171: CSENSE reads busy, or the station is itself transmitting. -/
def State.channelBusy (s : State) : Bool :=
  s.pins.csense ||
  (match s.link.chosen with
    | some c => c.phase == .sending
    | none => false)

/-- R171: the busy spans follow the channel while the load is measured; spans that have left the window are dropped. -/
def State.followChannel (s : State) : State :=
  if !s.link.measuring then s
  else
    match s.link.busyFrom, s.channelBusy with
    | none, true => s.linked (fun l => { l with busyFrom := some s.clock })
    | some t, false => s.linked (fun l => { l with
        busyFrom := none
        busySpans := (l.busySpans.filter (fun p => s.clock < p.2 + Config.loadWindow)) ++ [(t, s.clock)] })
    | _, _ => s

/-- The part of a span within the last second. -/
def spanInWindow (now : Instant) (p : Instant × Instant) : Nat := p.2 - max p.1 (now - Config.loadWindow)

/-- R171: the channel load, 0 to 255. -/
def State.load (s : State) : Nat :=
  let closed := (s.link.busySpans.map (spanInWindow s.clock)).sum
  let running := match s.link.busyFrom with
    | some t => spanInWindow s.clock (t, s.clock)
    | none => 0
  255 * (closed + running) / Config.loadWindow

/-! ## Pacing (R166 to R170) -/

/-- R170: the low-rate test at a change of the ASR. -/
def State.lowRateTest (s : State) : State :=
  let low := s.supply.config.lowThreshold
  match s.link.lowRate with
  | .ok => if s.link.asr ≤ low then (s.linked (fun l => { l with lowRate := .low })).raise .linkLow else s
  | .low => if low + 4 ≤ s.link.asr then (s.linked (fun l => { l with lowRate := .ok })).raise .linkOk else s

/-- R166, R167: a change of the ASR, bounded to MSR and PSR, returns the increase count to 0, restarts a running credit clock
and is tested under R170. -/
def State.changeAsr (s : State) (v : Nat) : State :=
  let v := max s.supply.config.msr (min s.supply.config.psr v)
  if v = s.link.asr then s
  else
    let s' := s.linked (fun l => { l with
      asr := v, increase := 0, creditFrom := l.creditFrom.map (fun _ => s.clock) })
    s'.lowRateTest

/-- R167: the increase step. -/
def increaseStep (psr : Nat) : Nat := max 1 (psr / 16)

/-- R167: the transmission end of a paced frame. -/
def State.pacedEnd (s : State) : State :=
  if s.link.increase + 1 = 16 then
    (s.linked (fun l => { l with increase := 0 })).changeAsr (s.link.asr + increaseStep s.supply.config.psr)
  else s.linked (fun l => { l with increase := l.increase + 1 })

/-- R168: a congestion mark heard. -/
def State.markHeard (s : State) : State :=
  let s := s.linked (fun l => { l with increase := 0 })
  if s.link.decreaseHold.isSome then s
  else
    let s' := s.changeAsr (s.link.asr - max 1 (s.link.asr / 4))
    s'.linked (fun l => { l with decreaseHold := some (s.clock + Config.decreaseHold) })

/-- R169: the decay timer runs for 4 s from now. -/
def State.startDecay (s : State) : State :=
  s.linked (fun l => { l with decay := some (s.clock + Config.decayPeriod) })

/-! ## Transmit classes and the arbiter (R161 to R165) -/

/-- R163: frames of every class but ANNOUNCE are paced. -/
def TxClass.paced : TxClass → Bool
  | .announce => false
  | _ => true

/-- R164: the backoff window of a class, in slot times. -/
def TxClass.window : TxClass → Nat
  | .announce => 7
  | .control => 15
  | .ask => 31
  | .data => 31

/-- R161: a frame is offered to the CONTROL class; true when the class takes it, and a frame dropped is counted. -/
def State.offerControl (s : State) (f : OutFrame) : Bool × State :=
  if s.link.control.length < Config.controlPlaces then
    (true, s.linked (fun l => { l with control := l.control ++ [f] }))
  else (false, s.countControlDrop)

/-- A frame joins the ASK class. -/
def State.offerAsk (s : State) (f : OutFrame) : State := s.linked (fun l => { l with ask := l.ask ++ [f] })

/-- R165: the transmission start of the chosen frame. -/
def State.startTransmission (s : State) : State :=
  match s.link.chosen with
  | none => s
  | some c =>
    let line := frameBytes s.supply.config.fleet c.frame.kind s.supply.config.station s.supply.config.vehicle
      s.link.sequence (s.supply.config.congestion ≤ s.load) c.frame.addressee c.frame.body
    let s' := s.linked (fun l => { l with
      chosen := some { c with phase := .sending, line := line }
      sequence := l.sequence + 1
      credit := if c.cls.paced then l.credit - 1 else l.credit
      creditFrom := if c.cls.paced && l.creditFrom.isNone then some s.clock else l.creditFrom
      dataWait := if c.cls == .data then 0
        else if l.data.isSome then min 3 (l.dataWait + 1) else l.dataWait })
    s'.followChannel

/-- R164: CSENSE has read clear for at least one quiet interval. -/
def State.quietEnough (s : State) : Bool :=
  !s.pins.csense && s.pins.clearFrom + Config.quietInterval s.link.rateCode ≤ s.clock

/-- R164: channel access of a frame just chosen: the transmission at once on a quiet channel, else a drawn backoff count and
DEFER. -/
def State.beginAccess (s : State) (cls : TxClass) (f : OutFrame) : State :=
  let c : Chosen := { cls := cls, frame := f, phase := .defer, backoff := 0, slotFrom := s.clock, line := [] }
  if s.quietEnough then (s.linked (fun l => { l with chosen := some c })).startTransmission
  else
    let (n, s) := s.draw
    s.linked (fun l => { l with chosen := some { c with backoff := Config.backoffDraw n % (cls.window + 1) } })

/-- R162, R163: the arbiter's choice, with the transmitter free, in RUN or PARKED; nothing when no frame can be chosen. -/
def State.arbiter (s : State) : State :=
  if s.link.chosen.isSome || !s.running then s
  else
    let paced := 1 ≤ s.link.credit
    match s.link.data, paced && s.link.dataWait == 3 with
    | some f, true => (s.linked (fun l => { l with data := none })).beginAccess .data f
    | _, _ =>
      match s.link.announce with
      | some f => (s.linked (fun l => { l with announce := none })).beginAccess .announce f
      | none =>
        if !paced then s
        else
          match s.link.control with
          | f :: rest => (s.linked (fun l => { l with control := rest })).beginAccess .control f
          | [] =>
            match s.link.ask with
            | f :: rest => (s.linked (fun l => { l with ask := rest })).beginAccess .ask f
            | [] =>
              match s.link.data with
              | some f => (s.linked (fun l => { l with data := none })).beginAccess .data f
              | none => s

/-- R161: the frame of an ask that ended is withdrawn, waiting or chosen, unless its transmission has begun. -/
def State.withdrawFrame (s : State) (id : Nat) : State :=
  s.linked (fun l => { l with
    control := l.control.filter (fun f => f.ask != some id)
    ask := l.ask.filter (fun f => f.ask != some id)
    chosen := match l.chosen with
      | some c => if c.frame.ask == some id && c.phase != .sending then none else some c
      | none => none })

/-! ## Announcements (R172) -/

/-- The domain values of an ANNOUNCE as they stand (R172). -/
def State.announced (s : State) (d : Domain) : Announced :=
  { held := (s.domain d).held, visible := (s.domain d).visible, oldest := s.oldestServable d,
    baseline := s.servableBaseline d, needsBaseline := s.needsBaseline d }

/-- The ANNOUNCE body as it stands (R172, section 12.2). -/
def State.announceBody (s : State) : List Byte :=
  (if s.supply.power == .parked then 2 else 1) ::
    announceBlockBytes (s.announced .block) (s.domain .block).pending.length ++
    announceBlockBytes (s.announced .product) (s.domain .product).pending.length

/-- R161, R163: the new ANNOUNCE replaces the one waiting, or takes the place of the one chosen and not yet started. -/
def Link.placeAnnounce (l : Link) (f : OutFrame) : Link :=
  match l.chosen with
  | some c =>
    if c.cls == .announce && c.phase != .sending then { l with chosen := some { c with frame := f } }
    else { l with announce := some f }
  | none => { l with announce := some f }

/-- R172: an ANNOUNCE is formed and placed, and the announcement timer starts for a new period. -/
def State.formAnnounce (s : State) : State :=
  let f : OutFrame := { kind := .announce, addressee := 0, body := s.announceBody, ask := none }
  let (n, s) := s.draw
  s.linked (fun l => { l.placeAnnounce f with
    announceAt := some (s.clock + Config.announcePeriod - Config.announceJitter +
      Config.jitterDraw n % (2 * Config.announceJitter + 1)) })

/-! ## Holds and starts (R176, R177) -/

/-- R176: the transmission ends still to come of transmissions cut off, when the LNK goes silent. -/
def Link.cutOffs (l : Link) : Nat :=
  match l.chosen with
  | some c => if c.phase == .sending then l.cutOff + 1 else l.cutOff
  | none => l.cutOff

/-- R176: the LNK goes silent. -/
def State.silenceLink (s : State) : State :=
  (s.linked (fun l => { l with
    cutOff := l.cutOffs, chosen := none, announce := none, control := [], ask := [], data := none, announceAt := none, decay := none })).followChannel

/-- R176: back in service. -/
def State.resumeLink (s : State) : State := s.startDecay.formAnnounce

/-- R177: the LNK's state at the end of a start that ends in RUN or PARKED, before its first ANNOUNCE. -/
def State.startLink (s : State) : State :=
  let (n, s) := s.draw
  let s := { s with link := { Link.silent with
    asr := s.supply.config.isr, sequence := Config.sequenceDraw n, measuring := true, rateCode := s.link.rateCode } }
  s.startDecay.followChannel

end Sys2Proof.Machine
end

