-- ==== Sys2Proof/Machine/VisibilityOps.lean ====
section
/-! DEFINITION. The visibility and cohort unit (chapter 8): agreement, the follow rule, visibility advances, applied
generations and the lag list. -/

namespace Sys2Proof.Machine

/-- R146: the counting members: the peer records with the cohort mark set in state KNOWN (log entry 12). -/
def State.countingMembers (s : State) : List Peer := s.peers.filter (fun p => p.cohort && p.state == .known)

/-- R148: cohort agreement holds for G. -/
def State.agreement (s : State) (d : Domain) (g : Gen) : Bool :=
  s.supply.config.cohortSize == 1 || s.countingMembers.all (fun p => g ≤ (p.values.get d).held)

/-- R149: some counting member announces a visible generation at or above G. -/
def State.followed (s : State) (d : Domain) (g : Gen) : Bool :=
  s.countingMembers.any (fun p => g ≤ (p.values.get d).visible)

/-- R147: a pending entry that the advance test passes. -/
def State.passes (s : State) (d : Domain) (g : Gen) : Bool := s.followed d g || s.agreement d g

/-- One cohort wait after now (R150). -/
def State.cohortExpiry (s : State) : Instant := s.clock + s.supply.config.cohortWait * Config.second

/-- R151: every bank of the domain is sent a compaction request. -/
def State.requestCompaction (s : State) (d : Domain) : State :=
  (s.banksOf d).foldl (fun s b => s.post (.bankRequest b .compact)) s

/-- R151: one visibility advance past the entries of `passed`, with `rest` left pending. -/
def State.advanceVisible (s : State) (d : Domain) (passed rest : List Gen) : State :=
  match passed.getLast? with
  | none => s
  | some v =>
    let s := s.setDomain d { s.domain d with
      visible := v, pending := rest, timer := if rest.isEmpty then none else some s.cohortExpiry }
    ((s.writeDomainHeader d).raise (visibleNotice d)).requestCompaction d |>.wantOpeningOf d

/-- R147: the advance test of a domain. -/
def State.advanceTest (s : State) (d : Domain) : State :=
  let p := (s.domain d).pending
  s.advanceVisible d (p.takeWhile (s.passes d)) (p.dropWhile (s.passes d))

/-- R147: the advance test of both domains. -/
def State.advanceTests (s : State) : State := (s.advanceTest .block).advanceTest .product

/-- R153: one lagging member is entered in the lag list. -/
def lagEnter (l : List LagEntry) (e : LagEntry) : List LagEntry :=
  if l.any (fun x => x.station == e.station && x.domain == e.domain) then
    l.map (fun x => if x.station == e.station && x.domain == e.domain then { x with gen := e.gen } else x)
  else (if l.length < Config.lagEntries then l else l.drop 1) ++ [e]

/-- R150: the cohort wait timer of a domain expires for the head of its pending list. -/
def State.cohortExpired (s : State) (d : Domain) : State :=
  match (s.domain d).pending with
  | [] => s
  | g :: rest =>
    let lagging := s.countingMembers.filter (fun p => (p.values.get d).held < g)
    let s' := { s with lag := lagging.foldl (fun l (p : Peer) => lagEnter l { station := p.station, domain := d, gen := g }) s.lag }
    let s' := if lagging.isEmpty then s' else s'.raise .cohortLag
    s'.advanceVisible d (g :: rest.takeWhile (s.passes d)) (rest.dropWhile (s.passes d))

/-- R145: a generation is appended to the pending list and becomes the held generation. -/
def State.appendApplied (s : State) (d : Domain) (g : Gen) : State :=
  let v := s.domain d
  s.setDomain d { v with
    held := g, pending := v.pending ++ [g], timer := if v.pending.isEmpty then some s.cohortExpiry else v.timer }

/-- R154: a member that has left takes its lag entries with it, and the view has changed (R147). -/
def State.memberLeft (s : State) (n : Station) : State :=
  { s with lag := s.lag.filter (fun e => e.station != n) }.changeView

/-- R154, R147: a member's new values remove the entries it has caught up with, and the view has changed. -/
def State.memberValues (s : State) (n : Station) (v : PerDomain Announced) : State :=
  { s with lag := s.lag.filter (fun e => !(e.station == n && e.gen ≤ (v.get e.domain).held)) }.changeView

/-- R144: a domain's values at a start: from the domain header, or, when its check fails, from the readable bank headers among
the domain's banks (`banks`), with the header rewritten. -/
def State.takeDomainHeader (s : State) (d : Domain) (banks : List BankId) : State :=
  let h := s.store.domains.get d
  if h.good then s.setDomain d { held := h.held, visible := h.visible, pending := h.pending, timer := none }
  else
    let applied := (banks.filter (fun b => s.store.headers[b].good)).map (fun b => s.store.headers[b].fields.applied)
    let v := match applied with
      | [] => 0
      | a :: rest => rest.foldl min a
    (s.setDomain d { held := v, visible := v, pending := [], timer := none }).writeDomainHeader d

/-- R144, R187: at the end of a start the timers start for non-empty lists and both domains are tested. -/
def State.startVisibility (s : State) : State :=
  let timed (v : Visibility) : Visibility := if v.pending.isEmpty then v else { v with timer := some s.cohortExpiry }
  { s with vis := { block := timed s.vis.block, product := timed s.vis.product } }.advanceTests

end Sys2Proof.Machine
end

