-- ==== Sys2Proof/Machine/PeerOps.lean ====
section
/-! DEFINITION. The peer table (chapter 6): entry, refreshing, announcements, aging, removal and outcomes of asks. -/

namespace Sys2Proof.Machine

/-- The record of a station. -/
def State.peer (s : State) (n : Station) : Option Peer := s.peers.find? (fun p => p.station == n)

/-- The table with the record of the same station replaced. -/
def State.setPeer (s : State) (p : Peer) : State :=
  { s with peers := s.peers.map (fun x => if x.station == p.station then p else x) }

/-- R106: G lies in a servable range. -/
def Announced.serves (v : Announced) (g : Gen) : Bool :=
  (match v.oldest with
    | some o => o ≤ g && g ≤ v.held
    | none => false) || v.baseline == some g

/-- R113: a record is removed; the FSE and GAU are told, and the VCU of a cohort member. -/
def State.removePeer (s : State) (p : Peer) : State :=
  let s := { s with peers := s.peers.filter (fun x => x.station != p.station) }.peerReport
  if p.cohort then s.memberLeft p.station else s

/-- R108: per-domain values at entry. -/
def Announced.none : Announced :=
  { held := 0, visible := 0, oldest := Option.none, baseline := Option.none, needsBaseline := false }

/-- R108: the record made from a header. The vehicle number is taken as the header has it, also outside R106's 1 to 9,999, which no rule turns
away (the model's choice, log entry 49). -/
def State.newPeer (s : State) (h : LinkHeader) : Peer :=
  { station := h.sender.toNat, vehicle := h.vehicle.toNat, cohort := h.vehicle.toNat == s.supply.config.vehicle,
    state := .known, heard := s.clock, sequence := h.sequence, received := 1, loss := 0, timeouts := 0,
    unresponsive := none, busy := none, asks := 0, asked := none, congested := congestionMark h, parked := false,
    values := { block := Announced.none, product := Announced.none }, removalDue := false }

/-- R108: a record enters the table; a cohort member has joined. -/
def State.addPeer (s : State) (h : LinkHeader) : State :=
  let p := s.newPeer h
  let s := { s with peers := s.peers ++ [p] }.peerReport
  if p.cohort then s.changeView else s

/-- R109: the older, or on the same instant the higher-numbered, is displaced. -/
def displacedBefore (a b : Peer) : Bool :=
  a.heard < b.heard || (a.heard == b.heard && b.station < a.station)

/-- R109: the record that a new station displaces in a full table. -/
def State.displaceable (s : State) : Option Peer :=
  let stale := s.peers.filter (fun p => p.state == .stale && p.asks == 0)
  let known := s.peers.filter (fun p => p.state == .known && !p.cohort && p.asks == 0)
  (firstBy displacedBefore stale).or (firstBy displacedBefore known)

/-- R108, R109: a station without a record. -/
def State.enterPeer (s : State) (h : LinkHeader) : State :=
  if s.peers.length < Config.peerRecords then s.addPeer h
  else
    match s.displaceable with
    | some p => (s.removePeer p).addPeer h
    | none => s.countPeerRefusal

/-- R110, items 1 to 4, on the record alone. -/
def Peer.refreshed (p : Peer) (now : Instant) (ownVehicle : Nat) (h : LinkHeader) : Peer :=
  let gap := (h.sequence - p.sequence - 1).toNat
  let p := if 256 ≤ gap then { p with loss := 0, received := 0, timeouts := 0, unresponsive := none, busy := none }
    else { p with loss := min 15 (p.loss + gap) }
  let p := if p.received + 1 = 16 then { p with received := 0, loss := p.loss - 1 } else { p with received := p.received + 1 }
  { p with
    sequence := h.sequence, heard := now, congested := congestionMark h, vehicle := h.vehicle.toNat,
    cohort := h.vehicle.toNat == ownVehicle, state := .known, removalDue := false }

/-- R119: what of a record's change is reported. The record before an event is held to the record after it, so a loss score that rises and
falls again in one arrival is no change (the model's choice, log entry 51). -/
def Peer.reportable (old new : Peer) : Bool :=
  old.state != new.state || old.loss != new.loss || old.unresponsive != new.unresponsive || old.busy != new.busy ||
  old.asks != new.asks || old.values != new.values

/-- R118: what the VCU is told when a record's header has been taken. -/
def State.cohortHeader (s : State) (old new : Peer) : State :=
  if old.cohort && !new.cohort then s.memberLeft new.station
  else if new.cohort && (!old.cohort || old.state != new.state) then s.changeView
  else s

/-- R110: a frame from a station that has a record, less its body. -/
def State.refreshPeer (s : State) (p : Peer) (h : LinkHeader) : State :=
  let q := p.refreshed s.clock s.supply.config.vehicle h
  let s := s.setPeer q
  let s := if p.reportable q then s.peerReport else s
  s.cohortHeader p q

/-- R107: the header of a frame is taken. -/
def State.takeHeader (s : State) (h : LinkHeader) : State :=
  match s.peer h.sender.toNat with
  | some p => s.refreshPeer p h
  | none => s.enterPeer h

/-- R107: the sender numbers that are not taken. -/
def badSender (h : LinkHeader) : Bool := h.sender == 0#16 || h.sender == 65535#16

/-- R111: the values of an ANNOUNCE replace those of its sender's record; a sender without a record changes nothing. -/
def State.takeAnnounce (s : State) (n : Station) (parked : Bool) (v : PerDomain Announced) : State :=
  match s.peer n with
  | none => s
  | some p =>
    let s := (s.setPeer { p with parked := parked, values := v }).peerReport
    if p.cohort then s.memberValues n v else s

/-! ## Outcomes of asks (section 6.5) -/

/-- The ways an ask ends (R136), with what the peer table needs of a DECLINE. -/
inductive AskEnd where
  | arrived | answered | timedOut | cancelled
  | declined (reason : DeclineReason) (d : Domain) (g : Gen)
  deriving DecidableEq, Repr

/-- R116: a NOT-HELD or EVICTED decline narrows the servable range. -/
def Announced.narrowed (v : Announced) (g : Gen) : Announced :=
  let v := match v.oldest with
    | some o => if o ≤ g then { v with oldest := if v.held < g + 1 then Option.none else some (g + 1) } else v
    | Option.none => v
  if v.baseline == some g then { v with baseline := Option.none } else v

/-- R115: a timed-out ask. -/
def Peer.timedOut (p : Peer) (now : Instant) : Peer :=
  let n := min 3 (p.timeouts + 1)
  { p with
    loss := min 15 (p.loss + 2), timeouts := n
    unresponsive := if n = 3 && p.unresponsive.isNone then some (now + Config.unresponsiveFor) else p.unresponsive }

/-- R114 to R116: the consequences of an ask's end on the peer's record. -/
def Peer.askEnded (p : Peer) (now : Instant) (e : AskEnd) : Peer :=
  let p := { p with asks := p.asks - 1 }
  match e with
  | .arrived => { p with timeouts := 0 }
  | .answered => { p with timeouts := 0 }
  | .timedOut => p.timedOut now
  | .cancelled => p
  | .declined reason d g =>
    let p := { p with timeouts := 0 }
    match reason with
    | .busy => { p with busy := some (now + Config.busyFor) }
    | .notHeld => { p with values := p.values.set d ((p.values.get d).narrowed g) }
    | .evicted => { p with values := p.values.set d ((p.values.get d).narrowed g) }

/-- R114: the FSE has queued an ask to a peer. -/
def State.peerAsked (s : State) (n : Station) : State :=
  match s.peer n with
  | none => s
  | some p => (s.setPeer { p with asks := p.asks + 1, asked := some s.clock }).peerReport

/-- R114: an ask to a peer has ended; a record whose removal was due is removed at its last one (R112). -/
def State.peerAskEnded (s : State) (n : Station) (e : AskEnd) : State :=
  match s.peer n with
  | none => s
  | some p =>
    let q := p.askEnded s.clock e
    let s := (s.setPeer q).peerReport
    if q.removalDue && q.asks == 0 then s.removePeer q else s

/-- R117: a segment whose CRC fails is reported against the station that sent it. -/
def State.peerSegmentFailure (s : State) (n : Station) : State :=
  match s.peer n with
  | none => s
  | some p =>
    let q := { p with loss := min 15 (p.loss + 4) }
    let s := s.setPeer q
    if p.reportable q then s.peerReport else s

end Sys2Proof.Machine
end

