-- ==== Sys2Proof/Machine/FetchOps.lean ====
section
/-! DEFINITION. The fetch and serve engine (chapter 7): asks and how they end, the asking pass, the serve queue and the answers to
peers. -/

namespace Sys2Proof.Machine

/-- A change of the FSE's state. -/
def State.fetching (s : State) (f : Fetch → Fetch) : State := { s with fetch := f s.fetch }

/-! ## How an ask ends (R136) -/

/-- A slot goes EMPTY, which brings the opening passes (R80). -/
def State.vacate (s : State) (i : SlotId) : State := (s.setSlot i Slot.empty).wantOpening

/-- The asks formed for a slot and its generation. -/
def State.slotAsks (s : State) (i : SlotId) : List Ask :=
  s.fetch.asks.filter (fun a => a.slot == i && a.domain == (s.slot i).domain && a.gen == (s.slot i).gen)

/-- A manifest of the slot's generation is with the pool for it and not yet answered (R84); one that the slot offered before it drained,
for another generation, is not the slot's any more. -/
def State.enterOutstanding (s : State) (i : SlotId) : Bool :=
  let mine (w : IndexWrite) : Bool := match w with
    | .enter j m _ _ => j == i && m.domain == (s.slot i).domain && m.gen == (s.slot i).gen
    | _ => false
  s.pool.indexQueue.any mine ||
  (match s.pool.writing with
    | .index w => mine w
    | _ => false)

/-- R82: the slot has had its fourth manifest ask, none is outstanding and no manifest is with the pool, so it goes EMPTY. It does so too when
a hold cancelled the last of them, where R103 has every other slot keep its state (the model's choice, log entry 48). -/
def State.manifestAskEnded (s : State) (i : SlotId) : State :=
  if (s.slot i).state == .manifestWanted && 4 ≤ (s.slot i).asks &&
      !(s.slotAsks i).any (fun a => a.kind == .manifest) && !s.enterOutstanding i then s.vacate i else s

/-- R136: the end of an ask; a cancelled one ends as R82 gives, also at a hold (log entry 48). -/
def State.endAsk (s : State) (a : Ask) (e : AskEnd) : State :=
  let s := s.fetching (fun f => { f with asks := f.asks.filter (fun x => x.id != a.id) })
  let s := s.withdrawFrame a.id
  let s := s.peerAskEnded a.peer e
  let s := if a.kind == .manifest then s.manifestAskEnded a.slot else s
  s.wantAsking

/-- R132: an index has arrived for the asks that cover it; those left with nothing end ARRIVED. -/
def State.indexArrived (s : State) (d : Domain) (g : Gen) (index : Nat) : State :=
  let mine (a : Ask) : Bool := a.kind == .segment && a.domain == d && a.gen == g && a.covered.contains index
  let done := s.fetch.asks.filter (fun a => mine a && (a.covered.filter (· != index)).isEmpty)
  let s := s.fetching (fun f => { f with
    asks := f.asks.map (fun a => if mine a then { a with covered := a.covered.filter (· != index) } else a) })
  done.foldl (fun s a => s.endAsk a .arrived) s

/-- R133: the oldest outstanding MANIFEST-ASK to a peer for a generation ends ANSWERED. -/
def State.manifestAnswered (s : State) (n : Station) (d : Domain) (g : Gen) : State :=
  match s.fetch.asks.find? (fun a => a.kind == .manifest && a.peer == n && a.domain == d && a.gen == g) with
  | some a => s.endAsk a .answered
  | none => s

/-- R134: the ask that a DECLINE from a peer matches. -/
def Ask.matchesDecline (a : Ask) (n : Station) (b : DeclineBody) : Bool :=
  a.kind == b.kind && a.peer == n && a.domain == b.domain && a.gen == b.gen &&
  (b.kind == .manifest || (a.first ≤ b.index && b.index < a.first + a.count))

/-- R134: a DECLINE addressed to this station. -/
def State.takeDecline (s : State) (n : Station) (b : DeclineBody) : State :=
  let s := s.countDecline
  match s.fetch.asks.find? (fun a => a.matchesDecline n b) with
  | some a => s.endAsk a (.declined b.reason b.domain b.gen)
  | none => s

/-- R131: the transmission of an ask's frame has ended. -/
def State.askSent (s : State) (id : Nat) : State :=
  s.fetching (fun f => { f with
    asks := f.asks.map (fun a => if a.id == id then { a with sent := true, timeout := some (s.clock + Config.askTimeout) } else a) })

/-! ## Choosing a peer (R124, R125) -/

/-- R124: a peer is eligible for an ask, demotion apart. -/
def Peer.eligible (p : Peer) (d : Domain) (g : Gen) : Bool :=
  p.state == .known && p.unresponsive.isNone && p.busy.isNone && p.asks < 2 && (p.values.get d).serves g

/-- R125, item 2: the less recently asked of two instants; absent is earlier than any. -/
def askedBefore (a b : Option Instant) : Bool :=
  match a, b with
  | none, some _ => true
  | some x, some y => x < y
  | _, none => false

/-- R125. -/
def chosenBefore (a b : Peer) : Bool :=
  a.loss < b.loss ||
  (a.loss == b.loss && (askedBefore a.asked b.asked || (a.asked == b.asked && a.station < b.station)))

/-- R124, R125: the peer asked for a slot's generation; a demoted one only when no other is eligible. -/
def State.choosePeer (s : State) (x : Slot) : Option Peer :=
  let ok := s.peers.filter (fun p => p.eligible x.domain x.gen)
  let undemoted := ok.filter (fun p => !x.demoted.contains p.station)
  firstBy chosenBefore (if undemoted.isEmpty then ok else undemoted)

/-! ## The asking pass (R126 to R130) -/

/-- R89, R93: the index is missing in the slot and offered to the FSE. -/
def Slot.misses (x : Slot) (k : Nat) : Bool :=
  match x.state with
  | .collecting => k < x.count && !x.presence.any (fun p => p.index == k)
  | .verified => x.lost.any (fun p => p.index == k)
  | .applying => x.lost.any (fun p => p.index == k)
  | .blocked => x.lost.any (fun p => p.index == k)
  | _ => false

/-- The index is covered by an outstanding ask for the slot's generation (R129). -/
def State.covered (s : State) (x : Slot) (k : Nat) : Bool :=
  s.fetch.asks.any (fun a => a.kind == .segment && a.domain == x.domain && a.gen == x.gen && a.covered.contains k)

/-- R129: the run of a SEGMENT-ASK: its first index and count. -/
def State.segmentRun (s : State) (x : Slot) : Option (Nat × Nat) :=
  let open_ (k : Nat) : Bool := x.misses k && !s.covered x k
  match (List.range x.count).find? open_ with
  | none => none
  | some k => some (k, ((List.range 8).takeWhile (fun j => k + j < x.count && open_ (k + j))).length)

/-- What a slot has to ask (R127): its group, and the run for groups 2 and 3. -/
inductive Need where
  | manifest
  | lost (first count : Nat)
  | collecting (first count : Nat)
  deriving DecidableEq, Repr

/-- R127: the group of a need. -/
def Need.group : Need → Nat
  | .manifest => 1
  | .lost _ _ => 2
  | .collecting _ _ => 3

/-- R127: the need of a slot with something askable. -/
def State.need (s : State) (i : SlotId) : Option Need :=
  let x := s.slot i
  match x.state with
  | .manifestWanted =>
    if x.asks < 4 && !(s.slotAsks i).any (fun a => a.kind == .manifest) then some .manifest else none
  | .collecting => (s.segmentRun x).map (fun r => .collecting r.1 r.2)
  | .verified => (s.segmentRun x).map (fun r => .lost r.1 r.2)
  | .applying => (s.segmentRun x).map (fun r => .lost r.1 r.2)
  | .blocked => (s.segmentRun x).map (fun r => .lost r.1 r.2)
  | _ => none

/-- A need that can be served: the slot, what it asks and the peer chosen. -/
structure Servable where
  slot : SlotId
  need : Need
  peer : Peer
  deriving DecidableEq, Repr

/-- How far the slot's generation lies above its domain's held generation (R127). -/
def State.slotDistance (s : State) (i : SlotId) : Int :=
  ((s.slot i).gen : Int) - ((s.domain (s.slot i).domain).held : Int)

/-- R127: the order of the needs. -/
def State.needBefore (s : State) (a b : Servable) : Bool :=
  a.need.group < b.need.group ||
  (a.need.group == b.need.group &&
    (s.slotDistance a.slot < s.slotDistance b.slot ||
      (s.slotDistance a.slot == s.slotDistance b.slot &&
        (s.slot a.slot).domain == .block && (s.slot b.slot).domain == .product)))

/-- R126: the first need with something askable and an eligible peer; `skip` are the slots passed over for the rest of the
pass (R128). -/
def State.firstNeed (s : State) (skip : List SlotId) : Option Servable :=
  firstBy s.needBefore (allSlots.filterMap (fun i =>
    if skip.contains i then none
    else
      match s.need i, s.choosePeer (s.slot i) with
      | some n, some p => some { slot := i, need := n, peer := p }
      | _, _ => none))

/-- R130: an ask enters the list. -/
def State.enterAsk (s : State) (a : Ask) : State :=
  let s := s.fetching (fun f => { f with asks := f.asks ++ [a], nextAsk := f.nextAsk + 1 })
  s.peerAsked a.peer

/-- The domain and generation that open the bodies of asks (section 12.2). -/
def genPrefix (d : Domain) (g : Gen) : List Byte := domainCode d :: toBytes 4 g

/-- R128: a MANIFEST-ASK is formed; false when the CONTROL class dropped it. -/
def State.formManifestAsk (s : State) (n : Servable) : Bool × State :=
  let x := s.slot n.slot
  let a : Ask := { id := s.fetch.nextAsk, kind := .manifest, slot := n.slot, domain := x.domain, gen := x.gen,
                   peer := n.peer.station, first := 0, count := 0, covered := [], sent := false, queued := s.clock,
                   timeout := none }
  match s.offerControl { kind := .manifestAsk, addressee := n.peer.station, body := genPrefix x.domain x.gen,
                         ask := some a.id } with
  | (false, s) => (false, s)
  | (true, s) => (true, (s.setSlot n.slot { x with asks := x.asks + 1 }).enterAsk a)

/-- R129: a SEGMENT-ASK is formed. -/
def State.formSegmentAsk (s : State) (n : Servable) (first count : Nat) : State :=
  let x := s.slot n.slot
  let a : Ask := { id := s.fetch.nextAsk, kind := .segment, slot := n.slot, domain := x.domain, gen := x.gen,
                   peer := n.peer.station, first := first, count := count,
                   covered := (List.range count).map (first + ·), sent := false, queued := s.clock, timeout := none }
  (s.offerAsk { kind := .segmentAsk, addressee := n.peer.station,
                body := genPrefix x.domain x.gen ++ toBytes 2 first ++ toBytes 1 count, ask := some a.id }).enterAsk a

/-- R126: the asking pass; `fuel` bounds the asks and the slots passed over. -/
def State.askingPass (s : State) (skip : List SlotId) : Nat → State
  | 0 => s
  | fuel + 1 =>
    if Config.askEntries ≤ s.fetch.asks.length then s
    else
      match s.firstNeed skip with
      | none => s
      | some n =>
        match n.need with
        | .manifest =>
          match s.formManifestAsk n with
          | (true, s) => s.askingPass skip fuel
          | (false, s) => s.askingPass (n.slot :: skip) fuel
        | .lost first count => (s.formSegmentAsk n first count).askingPass skip fuel
        | .collecting first count => (s.formSegmentAsk n first count).askingPass skip fuel

/-! ## Serving (R137 to R141) -/

/-- R141: an answer is offered to the CONTROL class and not offered again. -/
def State.answerPeer (s : State) (kind : FrameKind) (n : Station) (body : List Byte) : State :=
  (s.offerControl { kind := kind, addressee := n, body := body, ask := none }).2

/-- A DECLINE to a peer (R137, R139, R140). -/
def State.decline (s : State) (n : Station) (d : Domain) (g : Gen) (k : AskKind) (index : Nat) (r : DeclineReason) : State :=
  s.answerPeer .decline n (DeclineBody.bytes { domain := d, gen := g, kind := k, index := index, reason := r })

/-- R137: the entry of the serve queue absorbs the run asked. -/
def ServeEntry.absorbs (e : ServeEntry) (n : Station) (d : Domain) (g : Gen) (first count : Nat) : Bool :=
  e.peer == n && e.domain == d && e.gen == g && e.next ≤ first && first + count ≤ e.next + e.remaining

/-- R137: a SEGMENT-ASK addressed to this station. -/
def State.takeSegmentAsk (s : State) (n : Station) (d : Domain) (g : Gen) (first count : Nat) : State :=
  if count = 0 || 8 < count then s.countMalformed
  else if !s.servable d g then s.decline n d g .segment first .notHeld
  else
    let total := match s.entry d g with
      | some e => e.manifest.count
      | none => 0
    if total < first + count then s.countMalformed
    else if s.fetch.serve.any (fun e => e.absorbs n d g first count) then s
    else if Config.serveEntries ≤ s.fetch.serve.length then s.decline n d g .segment first .busy
    else s.fetching (fun f => { f with
      serve := f.serve ++ [{ peer := n, domain := d, gen := g, next := first, remaining := count }] })

/-- R140: a MANIFEST-ASK addressed to this station. -/
def State.takeManifestAsk (s : State) (n : Station) (d : Domain) (g : Gen) : State :=
  if s.servable d g then
    s.fetching (fun f => { f with manifestReads := f.manifestReads ++ [{ peer := n, domain := d, gen := g }] })
  else s.decline n d g .manifest 0 .notHeld

/-- R138: a serve read is begun for the head entry whenever no frame is formed or being formed. -/
def State.beginServeRead (s : State) : State :=
  match s.fetch.serve with
  | [] => s
  | e :: _ =>
    if s.running && s.link.data.isNone && s.fetch.reading.isNone then
      s.fetching (fun f => { f with reading := some (s.takeServeRead e.domain e.gen e.next) })
    else s

/-- R138: the entry that sent a segment, with the queue as it moves to the tail or leaves. -/
def serveTurn (e : ServeEntry) (rest : List ServeEntry) : List ServeEntry :=
  if e.remaining ≤ 1 then rest else rest ++ [{ e with next := e.next + 1, remaining := e.remaining - 1 }]

/-- R138, R139: the serve read `r` for the head entry completes. -/
def State.serveReadDone (s : State) (r : ServeRead) : State :=
  match s.fetch.serve with
  | [] => s.fetching (fun f => { f with reading := none })
  | e :: rest =>
    match s.serveRead e.domain e.gen e.next r with
    | (.segment bytes, s) =>
      (s.fetching (fun f => { f with reading := none, serve := serveTurn e rest })).linked (fun l => { l with
        data := some { kind := .segment, addressee := e.peer, body := bytes, ask := none } })
    | (_, s) =>
      (s.fetching (fun f => { f with reading := none, serve := rest })).decline e.peer e.domain e.gen .segment e.next
        .evicted

/-- R140: a manifest read completes: the oldest one. That any number of them may be in progress, and that they complete in the order in
which they were begun, is the model's choice (log entry 55). -/
def State.manifestReadDone (s : State) : State :=
  match s.fetch.manifestReads with
  | [] => s
  | r :: rest =>
    let s := s.fetching (fun f => { f with manifestReads := rest })
    match s.entry r.domain r.gen with
    | some e =>
      if e.servable then s.answerPeer .manifest r.peer e.manifest.body
      else s.decline r.peer r.domain r.gen .manifest 0 .notHeld
    | none => s.decline r.peer r.domain r.gen .manifest 0 .notHeld

/-! ## Holds (R142) -/

/-- R102, R103: a DRAINING slot whose last ask is cancelled goes EMPTY. -/
def State.vacateDrained (s : State) : State :=
  allSlots.foldl (fun s i =>
    if (s.slot i).state == .draining && (s.slotAsks i).isEmpty then s.vacate i else s) s

/-- R142: a hold reaches the FSE. A serve read in progress completes with its result dropped (R74). -/
def State.holdFetch (s : State) : State :=
  let s := s.fetch.asks.foldl (fun s a => s.endAsk a .cancelled) s
  let s := match s.fetch.reading, s.fetch.serve with
    | some r, e :: _ => (s.serveRead e.domain e.gen e.next r).2
    | _, _ => s
  (s.fetching (fun f => { f with serve := [], reading := none, manifestReads := [] })).vacateDrained

end Sys2Proof.Machine
end

