-- ==== Sys2Proof/Machine/BankOps.lean ====
section
/-! DEFINITION. The store banks (chapters 2 and 3): the taking up of work, applies, compactions, scrubs, repairs, recovery, erasure,
holds, starts and lookups. Walks over places between two writes take no time (log entry 13). -/

namespace Sys2Proof.Machine

/-- A change of a bank's record. -/
def State.banking (s : State) (b : BankId) (f : Bank → Bank) : State := s.setBank b (f (s.bank b))

/-- A change of a bank's working header. -/
def State.heading (s : State) (b : BankId) (f : BankHeader → BankHeader) : State :=
  s.banking b (fun k => { k with header := f k.header })

/-- The bank's operation in hand becomes `w`. -/
def State.working (s : State) (b : BankId) (w : BankWork) : State := s.banking b (fun k => { k with work := w })

/-- R26: a bank reports to the GAU. -/
def State.report (s : State) (b : BankId) (r : BankReport) : State := s.post (.bankReport b r)

/-- The kept fields of a place commit: the place freed, the free count raised by 1 in the header (R39, R43, R54, R57). -/
def State.freePlace (s : State) (b : BankId) (p : Nat) : State :=
  let s := s.setPlaces b (placeFree p (s.places b))
  (s.heading b (fun h => { h with freeCount := min Config.bankPlaces (h.freeCount + 1) })).writeHeader b

/-- A record is written to a place, its check recomputed (R9). -/
def State.writeRecord (s : State) (b : BankId) (p : Nat) (r : Record) : State :=
  s.setPlaces b (placeWrite Config.bankPlaces p r.sealed (s.places b))

/-- The places from `next` on and below `limit`. -/
def placesIn (next limit : Nat) (l : List (Nat × Record)) : List (Nat × Record) :=
  l.filter (fun pr => next ≤ pr.1 && pr.1 < limit)

/-! ## Check failures outside the scrub (R51) -/

/-- R51: the places below this one are behind the scrub. -/
def Bank.scrubbedBelow (k : Bank) : Nat :=
  match k.work with
  | .scrubHeader next _ => next
  | _ => k.header.scrubCursor

/-- R49, R51: record check failures at `ps` set scrub due, and one behind the cursor returns the cursor to 0. -/
def Bank.markFailing (k : Bank) (ps : List Nat) : Bank :=
  if ps.isEmpty || k.state == .faulted then k
  else if ps.any (· < k.scrubbedBelow) then
    { k with
      scrubDue := true, header := { k.header with scrubCursor := 0 }
      work := match k.work with
        | .scrubHeader next _ => .scrubHeader next true
        | w => w }
  else { k with scrubDue := true }

/-- R51, for a bank. -/
def State.markFailing (s : State) (b : BankId) (ps : List Nat) : State := s.banking b (fun k => k.markFailing ps)

/-! ## Holds taking effect (R27, R28) -/

/-- R27, R28: the bank becomes HELD with a prior state, and writes the scrub cursor and scrub age to its header. -/
def State.goHeld (s : State) (b : BankId) (prior : BankState) (w : BankWork) : State :=
  (s.banking b (fun k => { k with state := .held, prior := some prior, work := w, hold := .none })).writeScrubHeader b

/-! ## Compaction (R39, R40) -/

/-- R39, R28: the walk of a compaction goes on from `c.next` to the next dead place, or to its end; under a pending closing hold
to the end of the current step. In the last step that is the end of the walk, and the compaction ends before the hold takes effect (the
model's choice, log entry 19). -/
def State.compactOn (s : State) (b : BankId) (c : CompactRun) (limit : Nat) : State :=
  let rest := placesIn c.next limit (s.places b)
  let keep (pr : Nat × Record) : Bool := !(pr.2.good && pr.2.deadAt c.floor c.visible)
  let s := s.markFailing b ((rest.takeWhile keep).filter (fun pr => !pr.2.good) |>.map (·.1))
  match (rest.dropWhile keep).head? with
  | some pr => s.working b (.compactFree c pr.1)
  | none =>
    if limit = Config.bankPlaces then s.working b (.compactHeader c)
    else s.goHeld b .compacting (.compactPaused { c with next := limit })

/-- R39: a compaction begins at the visible generation. -/
def State.beginCompaction (s : State) (b : BankId) : State :=
  let v := (s.domain (s.bankDomain b)).visible
  let f := floorAt (s.bank b).header.baselines v
  let s := s.banking b (fun k => { k with state := .compacting, compactWanted := false })
  s.compactOn b { visible := v, floor := f, next := 0, freed := 0 } Config.bankPlaces

/-- The first place of the next step or pass of 1,024 places. -/
def stepEnd (p : Nat) : Nat := (p / Config.passPlaces + 1) * Config.passPlaces

/-! ## Scrubs (R48 to R50) -/

/-- R50: the scrub goes on from place `next` in the pass that ends before `passEnd`: to the check of its next used place, or to the
header write of the pass end. -/
def State.scrubOn (s : State) (b : BankId) (next passEnd : Nat) : State :=
  match (placesIn next passEnd (s.places b)).head? with
  | some pr => (s.heading b (fun h => { h with scrubCursor := pr.1 })).working b (.scrubCheck pr.1)
  | none => s.working b (.scrubHeader passEnd false)

/-- R48, R49: a scrub begins at the scrub cursor. -/
def State.beginScrub (s : State) (b : BankId) : State :=
  let c := (s.bank b).header.scrubCursor
  (s.banking b (fun k => { k with state := .scrubbing })).scrubOn b c (stepEnd c)

/-- The scrub interval in microseconds (R47, R192). -/
def State.scrubInterval (s : State) : Nat := s.supply.config.scrubInterval * 3600 * Config.second

/-- R47: the scrub age has passed half the scrub interval. -/
def State.scrubHalf (s : State) (b : BankId) : Bool := s.scrubInterval < 2 * (s.bank b).header.scrubAge

/-- The scrub stops between two places under a hold; the cursor names the next place, and at the end of a pass stays at the last
one checked until the pass end is written. -/
def State.pauseScrub (s : State) (b : BankId) (next : Nat) : State :=
  let s := if next % Config.passPlaces = 0 && next != 0 then s else s.heading b (fun h => { h with scrubCursor := next })
  s.goHeld b .scrubbing (.scrubPaused next)

/-- R50: the place checked is done with; a cursor moved to 0 meanwhile (R51) is where the scrub goes on. -/
def State.scrubPast (s : State) (b : BankId) (p : Nat) : State :=
  let c := (s.bank b).header.scrubCursor
  let next := if c = p then p + 1 else c
  if (s.bank b).hold == .dip then s.pauseScrub b next
  else s.scrubOn b next (if c = p then stepEnd p else stepEnd c)

/-! ## Requests from the GAU (R30, R31, R43) -/

/-- R43: the erasure goes on with the next used place, or to its header write. -/
def State.eraseOn (s : State) (b : BankId) : State :=
  match s.places b with
  | (p, _) :: _ => s.working b (.eraseFree p)
  | [] => s.working b .eraseHeader

/-- R30, R43: an apply or advance request at a FAULTED bank. -/
def State.requestFaulted (s : State) (b : BankId) (r : ApplyRequest) : State :=
  if r.kind == .baseline && (s.bank b).quiesce == .inForce r.gen && (r.first || r.segment.isNone) then
    (s.banking b (fun k => { k with waiting := some r })).eraseOn b
  else s.report b (.refused r.gen r.segment .fault)

/-- R30, items 2 to 4: why a request cannot begin. -/
def Bank.refusal (k : Bank) (r : ApplyRequest) : Option RefuseReason :=
  if r.gen ≤ k.header.applied then some .alreadyApplied
  else
    match r.kind with
    | .delta =>
      let inForce := match k.quiesce with
        | .inForce _ => true
        | _ => false
      if k.header.applied + 1 = r.gen && !inForce then none else some .outOfOrder
    | .baseline => if k.quiesce == .inForce r.gen then none else some .outOfOrder

/-- R30, R31, R35: a request begins: TAKEN is reported, a first segment opens the generation, and the bank reads its segment or
writes its header. -/
def State.beginRequest (s : State) (b : BankId) (r : ApplyRequest) : State :=
  let s := s.banking b (fun k => { k with state := .applying, waiting := none })
  let s := s.report b (.taken r.gen r.segment)
  match r.segment with
  | none => s.working b (.advance r)
  | some _ =>
    let s := if r.first && r.cursor == 0 then
        (s.heading b (fun h => { h with applyOpen := some r.gen })).writeHeader b
      else s
    s.working b (.applyRead r)

/-! ## Next work (R25) -/

/-- R41: the bank acknowledges a quiesce that is REQUESTED. -/
def State.acknowledge (s : State) (b : BankId) : State :=
  match (s.bank b).quiesce with
  | .requested g => (s.banking b (fun k => { k with quiesce := .inForce g })).report b (.quiesced g)
  | _ => s

/-- R25, items 3 to 5. -/
def State.afterApplies (s : State) (b : BankId) : State :=
  if (s.bank b).compactWanted then s.beginCompaction b
  else if s.scrubHalf b then s.beginScrub b
  else s.banking b (fun k => { k with state := .idle, work := .none })

/-- R25: an operation has ended, or a resume has returned the bank to IDLE. Under a pending hold the bank goes HELD first and acknowledges a
REQUESTED quiesce after the resume (the model's choice between the two exceptions of R25, log entry 45). -/
def State.nextWork (s : State) (b : BankId) : State :=
  if (s.bank b).hold != .none then s.goHeld b .idle .none
  else
    let s := (s.banking b (fun k => { k with state := .idle, work := .none })).acknowledge b
    if (s.bank b).scrubDue then s.beginScrub b
    else
      match (s.bank b).waiting with
      | none => s.afterApplies b
      | some r =>
        match (s.bank b).refusal r with
        | none => s.beginRequest b r
        | some why =>
          let s := s.banking b (fun k => { k with waiting := none })
          (s.report b (.refused r.gen r.segment why)).afterApplies b

/-- R23: an apply or advance request reaches the bank. -/
def State.takeApply (s : State) (b : BankId) (r : ApplyRequest) : State :=
  match (s.bank b).state with
  | .faulted => s.requestFaulted b r
  | .idle =>
    match (s.bank b).refusal r with
    | none => s.beginRequest b r
    | some why => s.report b (.refused r.gen r.segment why)
  | _ => s.banking b (fun k => { k with waiting := some r })

/-- R23, R41: a baseline quiesce reaches the bank. -/
def State.takeQuiesce (s : State) (b : BankId) (g : Gen) : State :=
  let s := s.banking b (fun k => { k with quiesce := .requested g })
  if (s.bank b).state == .idle || (s.bank b).state == .faulted then s.acknowledge b else s

/-- R23, R38: a compaction request reaches the bank. -/
def State.takeCompact (s : State) (b : BankId) : State :=
  match (s.bank b).state with
  | .faulted => s
  | .idle => s.beginCompaction b
  | _ => s.banking b (fun k => { k with compactWanted := true })

/-- R23: a request reaches the bank. -/
def State.takeRequest (s : State) (b : BankId) : BankRequest → State
  | .apply r => s.takeApply b r
  | .quiesce g => s.takeQuiesce b g
  | .compact => s.takeCompact b

/-! ## Segment apply (R32 to R36) -/

/-- R8: the floor of the generation being applied. -/
def applyFloor (k : Bank) (r : ApplyRequest) : Gen :=
  match r.kind with
  | .delta => floorAt k.header.baselines (r.gen - 1)
  | .baseline => r.gen

/-- R8: the place of the current record of a key. -/
def currentPlace (l : List (Nat × Record)) (key : Nat) (floor : Gen) : Option Nat :=
  (l.find? (fun pr => pr.2.key == key && pr.2.removed.isNone && pr.2.good && floor ≤ pr.2.added)).map (·.1)

/-- The places of a key's records whose check fails. -/
def failingPlaces (l : List (Nat × Record)) (key : Nat) : List Nat :=
  (l.filter (fun pr => pr.2.key == key && !pr.2.good)).map (·.1)

/-- R36: the apply stops for want of a free place. -/
def State.bankFull (s : State) (b : BankId) (run : ApplyRun) : State :=
  let s := s.report b (.bankFull run.request.gen (run.request.segment) run.cursor)
  let s := s.banking b (fun k => { k with waiting := none, compactWanted := true, work := .none })
  if (s.bank b).hold != .none then s.goHeld b .idle .none else s.beginCompaction b

/-- R34: the segment ends. -/
def State.segmentEnd (s : State) (b : BankId) (r : ApplyRequest) : State :=
  if r.last then s.working b (.advance r) else (s.report b (.segmentDone r.gen r.segment)).nextWork b

/-- R32, R33: the apply goes on from the op cursor to its next write, skipping malformed, misplaced and redundant ops; `ops` are
the ops from the cursor on. -/
def State.applyOn (s : State) (b : BankId) (run : ApplyRun) : List Op → State
  | [] => s.segmentEnd b run.request
  | op :: rest =>
    let d := s.bankDomain b
    let skipped : ApplyRun := { run with cursor := run.cursor + 1, endDone := false }
    if !op.wellFormed d run.request.kind then s.countMalformedOp.applyOn b skipped rest
    else if !op.wellPlaced s.supply.config.nB d b then (s.countMisplaced 1).applyOn b skipped rest
    else
      let l := s.places b
      let current := currentPlace l op.key (applyFloor (s.bank b) run.request)
      let s := s.markFailing b (failingPlaces l op.key)
      match op.payload, current with
      | some _, _ =>
        if (s.bank b).header.freeCount = 0 then s.bankFull b run
        else
          match current with
          | some p => s.working b (.applyEnd run p)
          | none => s.working b (.applyAdd run)
      | none, some p => s.working b (.applyEnd run p)
      | none, none => s.countRedundant.applyOn b skipped rest

/-- R29, R32: the apply goes on where it stands. -/
def State.applyResume (s : State) (b : BankId) (run : ApplyRun) : State :=
  if run.endDone then s.working b (.applyAdd run) else s.applyOn b run (run.ops.drop run.cursor)

/-- A commit of the apply is made; a dip hold takes effect here (R27), else the apply goes on. -/
def State.applyStep (s : State) (b : BankId) (run : ApplyRun) : State :=
  if (s.bank b).hold == .dip then s.goHeld b .applying (.applyPaused run) else s.applyResume b run

/-- R33: the ending write: the current record's removed generation is set to G. -/
def State.applyEndWrite (s : State) (b : BankId) (run : ApplyRun) (p : Nat) : State :=
  match placeGet p (s.places b) with
  | some r => s.writeRecord b p { r with removed := some run.request.gen }
  | none => s

/-- R33: the ending commit; the adding write of a LIST or PUT follows, an UNLIST or DROP is done. -/
def State.applyEndCommit (s : State) (b : BankId) (run : ApplyRun) (p : Nat) : State :=
  let s := s.applyEndWrite b run p
  match (run.ops.drop run.cursor).head?.bind Op.payload with
  | some _ => s.applyStep b { run with endDone := true }
  | none => s.applyStep b { run with cursor := run.cursor + 1, endDone := false }

/-- R33: the adding write, with the free count lowered by 1 in the header. -/
def State.applyAddWrite (s : State) (b : BankId) (run : ApplyRun) : State :=
  match (run.ops.drop run.cursor).head? with
  | none => s
  | some op =>
    match op.payload with
    | none => s
    | some pl =>
      let s := s.writeRecord b (lowestFree 0 (s.places b))
        { key := op.key, payload := pl, added := run.request.gen, removed := none, check := 0 }
      (s.heading b (fun h => { h with freeCount := h.freeCount - 1 })).writeHeader b

/-- R33: the adding commit; the op cursor moves on. -/
def State.applyAddCommit (s : State) (b : BankId) (run : ApplyRun) : State :=
  let s := s.applyAddWrite b run
  s.applyStep b { run with cursor := run.cursor + 1, endDone := false }

/-- R34: the header write of an advance. -/
def State.advanceWrite (s : State) (b : BankId) (r : ApplyRequest) : State :=
  let v := (s.domain (s.bankDomain b)).visible
  let s := s.banking b (fun k => { k with
    quiesce := if r.kind == .baseline then .absent else k.quiesce
    header := { k.header with
      applied := r.gen, applyOpen := none
      baselines := if r.kind == .baseline then addBaseline k.header.baselines v r.gen else k.header.baselines } })
  s.writeHeader b

/-- R34: the header write of an advance completes. -/
def State.advanceCommit (s : State) (b : BankId) (r : ApplyRequest) : State :=
  ((s.advanceWrite b r).report b (.advanced r.gen)).nextWork b

/-- R73, R93: the apply read answered READ-FAIL or EVICTED: the request ends without a record write. -/
def State.applyReadEnded (s : State) (b : BankId) (r : ApplyRequest) (failed : Bool) : State :=
  let s := if failed then
      (s.report b (.readFail r.gen r.segment r.cursor)).banking b (fun k => { k with waiting := none })
    else s
  if (s.bank b).state == .held then s.banking b (fun k => { k with work := .none, prior := some .idle })
  else s.nextWork b

/-- R31, R73: the apply read completes. -/
def State.applyReadDone (s : State) (b : BankId) (r : ApplyRequest) : State :=
  match s.applyRead (s.bankDomain b) r.gen (r.segment.getD 0) r.drained with
  | (.readFail, s) => s.applyReadEnded b r true
  | (.evicted, s) => s.applyReadEnded b r false
  | (.segment bytes, s) =>
    let run : ApplyRun := { request := r, ops := (segOps bytes).getD [], cursor := r.cursor, endDone := false }
    if (s.bank b).state == .held then s.working b (.applyPaused run) else s.applyResume b run

/-! ## Entry to FAULTED (R55) -/

/-- R55: a repair that is not possible. -/
def State.enterFaulted (s : State) (b : BankId) : State :=
  let needed := s.needsBaseline (s.bankDomain b)
  let s := s.unpinRepair b
  let old := s.store.headers[b].fields
  let waiting := (s.bank b).waiting
  let s := s.banking b (fun k => { k with
    state := .faulted, scrubDue := false, compactWanted := false, waiting := none, work := .none, hold := .none,
    fullScan := false,
    header := { k.header with faultMark := true, scrubCursor := old.scrubCursor, scrubAge := old.scrubAge } })
  let s := (s.writeHeader b).raise .bankFault
  let s := match waiting with
    | some r => s.report b (.refused r.gen r.segment .fault)
    | none => s
  let s := s.acknowledge b
  if needed then s else s.wantOpeningOf (s.bankDomain b)

/-! ## Recovery (R57 to R59) -/

/-- R57: the record is removed at a generation above `applied`. -/
def Record.endedAbove (r : Record) (applied : Gen) : Bool :=
  match r.removed with
  | none => false
  | some g => applied < g

/-- R57: the record calls for a write. -/
def undoes (applied : Gen) (r : Record) : Bool := applied < r.added || (r.good && r.endedAbove applied)

/-- R57: recovery goes on from place `next` to its next write, to a failing record of a full scan, or to its header write. A failing
record met by a full scan waits for the pool's restoration (R59); `repair` begins its repair. -/
def State.recoverOn (repair : State → BankId → Nat → State) (s : State) (b : BankId) (next : Nat) : State :=
  let k := s.bank b
  let rest := placesIn next Config.bankPlaces (s.places b)
  let keep (pr : Nat × Record) : Bool := !undoes k.header.applied pr.2 && (pr.2.good || !k.fullScan)
  let s := s.markFailing b ((rest.takeWhile keep).filter (fun pr => !pr.2.good) |>.map (·.1))
  match (rest.dropWhile keep).head? with
  | none => s.working b .recoverHeader
  | some pr =>
    if undoes k.header.applied pr.2 then s.working b (.recoverWrite pr.1)
    else if s.pool.restored then repair s b pr.1
    else s.working b (.recoverWait pr.1)

/-! ## Repair (R52 to R54) -/

/-- The ops of a segment on a key that are well formed and well placed (R52). -/
def opsOn (nB : Nat) (d : Domain) (kind : GenKind) (b : BankId) (key : Nat) (bytes : List Byte) : List Op :=
  ((segOps bytes).getD []).filter (fun op => op.key == key && op.wellFormed d kind && op.wellPlaced nB d b)

/-- The kind of a generation in the pool. -/
def State.kindOf (s : State) (d : Domain) (g : Gen) : GenKind :=
  match s.entry d g with
  | some e => e.manifest.kind
  | none => .delta

/-- The repair goes on in a phase. -/
def State.repairing (s : State) (b : BankId) (r : RepairRun) : State := s.working b (.repair r)

/-- R53: the removed generation of the version is found: its one record write follows. -/
def State.repairFound (s : State) (b : BankId) (r : RepairRun) (removed : Option Gen) : State :=
  match r.version with
  | some v => s.repairing b { r with phase := .rewrite { key := r.key, payload := v, added := r.added, removed := removed,
                                                         check := 0 } }
  | none => s.repairing b { r with phase := .free }

/-- R53, item 1: the walk has reached past the applied generation. -/
def State.repairWalked (s : State) (b : BankId) (r : RepairRun) : State :=
  match (s.bank b).header.applyOpen with
  | none => s.repairFound b r none
  | some o =>
    let d := s.bankDomain b
    if s.servable d o then
      let s := s.pin (.repair b) d o
      match s.indicesNaming d o b with
      | [] => s.repairFound b r none
      | left => s.repairing b { r with phase := .openCheck o left }
    else s.enterFaulted b

/-- R53: the walk from generation `g` up to the next segment read or to its end; `fuel` bounds the generations without segments for
this bank, each of which has an entry in the pool. -/
def State.repairWalk (s : State) (b : BankId) (r : RepairRun) : Nat → Gen → State
  | 0, _ => s.enterFaulted b
  | fuel + 1, g =>
    let d := s.bankDomain b
    if (s.bank b).header.applied < g then s.repairWalked b r
    else if (s.bank b).header.baselines.contains g then s.repairFound b r none
    else if s.servable d g then
      let s := s.pin (.repair b) d g
      match s.indicesNaming d g b with
      | [] => s.repairWalk b r fuel (g + 1)
      | left => s.repairing b { r with phase := .walk g left }
    else s.enterFaulted b

/-- R52, items 2 to 4: every segment of the added generation has been read; `ops` are the ops on the key. -/
def State.repairDecide (s : State) (b : BankId) (r : RepairRun) (ops : List Op) : State :=
  if ops.all (fun op => op.payload.isNone) then s.enterFaulted b
  else
    match ops.getLast?.bind Op.payload with
    | none => s.repairing b { r with phase := .free }
    | some v =>
      if (s.places b).any (fun pr => pr.1 != r.place && pr.2.good && pr.2.key == r.key && pr.2.added == r.added &&
          pr.2.payload == v) then s.repairing b { r with phase := .free }
      else s.repairWalk b { r with version := some v } 130 (r.added + 1)

/-- R52: the repair of the failing record at place `p` begins. -/
def State.beginRepair (s : State) (b : BankId) (p : Nat) (fullScan : Bool) : State :=
  match placeGet p (s.places b) with
  | none => s
  | some rec =>
    let d := s.bankDomain b
    if (s.bank b).header.applied < rec.added || !s.servable d rec.added then s.enterFaulted b
    else
      let s := s.pin (.repair b) d rec.added
      let run : RepairRun := { place := p, key := rec.key, added := rec.added, version := none,
                               phase := .collect (s.indicesNaming d rec.added b) [], fullScan := fullScan }
      match s.indicesNaming d rec.added b with
      | [] => s.repairDecide b run []
      | _ => s.repairing b run

/-- Recovery goes on from place `next`. -/
def State.recoverFrom (s : State) (b : BankId) (next : Nat) : State :=
  State.recoverOn (fun s b p => s.beginRepair b p true) s b next

/-- R52, R53: a repair read completes; READ-FAIL counts the generation as not servable (R73). -/
def State.repairReadDone (s : State) (b : BankId) (r : RepairRun) : State :=
  let d := s.bankDomain b
  let nB := s.supply.config.nB
  match r.phase with
  | .collect (i :: left) ops =>
    match s.repairRead d r.added i with
    | (.segment bytes, s) =>
      let ops := ops ++ opsOn nB d (s.kindOf d r.added) b r.key bytes
      match left with
      | [] => s.repairDecide b r ops
      | _ => s.repairing b { r with phase := .collect left ops }
    | (_, s) => s.enterFaulted b
  | .walk g (i :: left) =>
    match s.repairRead d g i with
    | (.segment bytes, s) =>
      match opsOn nB d (s.kindOf d g) b r.key bytes, left with
      | _ :: _, _ => s.repairFound b r (some g)
      | [], [] => s.repairWalk b r 130 (g + 1)
      | [], _ => s.repairing b { r with phase := .walk g left }
    | (_, s) => s.enterFaulted b
  | .openCheck g (i :: left) =>
    match s.repairRead d g i with
    | (.segment bytes, s) =>
      match opsOn nB d (s.kindOf d g) b r.key bytes, left with
      | _ :: _, _ => s.enterFaulted b
      | [], [] => s.repairFound b r none
      | [], _ => s.repairing b { r with phase := .openCheck g left }
    | (_, s) => s.enterFaulted b
  | _ => s

/-- The scrub or full scan that met the failing record goes on past its place. -/
def State.pastRepair (s : State) (b : BankId) (r : RepairRun) : State :=
  if r.fullScan then
    if (s.bank b).hold != .none then s.goHeld b .recovering (.recoverPaused (r.place + 1)) else s.recoverFrom b (r.place + 1)
  else s.scrubPast b r.place

/-- R54: the repair's one write. -/
def State.repairWrite (s : State) (b : BankId) (r : RepairRun) : State :=
  match r.phase with
  | .rewrite rec => s.writeRecord b r.place rec
  | .free => s.freePlace b r.place
  | _ => s

/-- R54: the repair has its record write in progress. -/
def RepairRun.writing (r : RepairRun) : Bool :=
  match r.phase with
  | .rewrite _ => true
  | .free => true
  | _ => false

/-- R54: the repair's write commits. -/
def State.repairDone (s : State) (b : BankId) (r : RepairRun) : State :=
  if r.writing then ((((s.repairWrite b r).countRepair).raise .scrubRepair).unpinRepair b).pastRepair b r else s

/-! ## Commits of scrub, compaction, recovery and erasure -/

/-- R50: the check of a place completes. A repair before the pool's restoration ends does not wait for it, and reads the index as it stands
(the model's choice, log entry 59). -/
def State.scrubChecked (s : State) (b : BankId) (p : Nat) : State :=
  match placeGet p (s.places b) with
  | none => s.scrubPast b p
  | some r => if r.good then s.scrubPast b p else s.beginRepair b p false

/-- R50: the header write of a pass end: at the last pass the scrub is complete. A scrub that a failing record behind its cursor has sent
back to place 0 while that write was in progress (R51) is not complete, and keeps its age and scrub due (the model's choice, log entry
50). -/
def State.scrubPassWrite (s : State) (b : BankId) (next : Nat) (rewound : Bool) : State :=
  if rewound then s.writeScrubHeader b
  else if Config.bankPlaces ≤ next then
    (s.banking b (fun k => { k with
      scrubDue := false, header := { k.header with scrubCursor := 0, scrubAge := 0 } })).writeScrubHeader b
  else (s.heading b (fun h => { h with scrubCursor := next })).writeScrubHeader b

/-- R48: an opportunistic scrub pauses at a pass end. -/
def Bank.scrubPauses (k : Bank) : Bool :=
  !k.scrubDue && (k.waiting.isSome || k.compactWanted || k.hold == .closing || (match k.quiesce with
    | .requested _ => true
    | _ => false))

/-- R48, R50: the header write of a pass end completes. The pause of R48 is tested before a dip hold takes effect, so a scrub that pauses
there is HELD with prior state IDLE. -/
def State.scrubPassEnd (s : State) (b : BankId) (next : Nat) (rewound : Bool) : State :=
  let s := s.scrubPassWrite b next rewound
  if rewound then
    if (s.bank b).hold != .none then s.pauseScrub b 0 else s.scrubOn b 0 Config.passPlaces
  else if Config.bankPlaces ≤ next then s.nextWork b
  else if (s.bank b).scrubPauses then s.nextWork b
  else if (s.bank b).hold != .none then s.goHeld b .scrubbing (.scrubPaused next)
  else s.scrubOn b next (stepEnd next)

/-- R29, R48: a scrub stopped by a hold goes on at `next`; one stopped at a pass end is tested for a pause first, for a request may have
come while the bank was HELD (log entry 19). -/
def State.resumeScrub (s : State) (b : BankId) (next : Nat) : State :=
  if next % Config.passPlaces = 0 then
    if (s.bank b).header.scrubCursor != next then s.scrubOn b next next
    else if (s.bank b).scrubPauses then s.nextWork b
    else s.scrubOn b next (stepEnd next)
  else s.scrubOn b next (stepEnd next)

/-- R39: the freeing of a dead record commits. -/
def State.compactCommit (s : State) (b : BankId) (c : CompactRun) (p : Nat) : State :=
  let s := s.freePlace b p
  let c := { c with next := p + 1, freed := c.freed + 1 }
  match (s.bank b).hold with
  | .dip => s.goHeld b .compacting (.compactPaused c)
  | .closing => s.compactOn b c (stepEnd p)
  | .none => s.compactOn b c Config.bankPlaces

/-- R40: the header write that ends a compaction. -/
def State.compactEndWrite (s : State) (b : BankId) (c : CompactRun) : State :=
  let s := s.heading b (fun h => { h with
    baselines := h.baselines.filter (fun g => c.floor ≤ g)
    erasureMark := match h.erasureMark with
      | some g => if g ≤ c.visible then none else some g
      | none => none })
  s.writeHeader b

/-- R40: the header write that ends a compaction completes. -/
def State.compactEnd (s : State) (b : BankId) (c : CompactRun) : State :=
  ((s.compactEndWrite b c).report b (.compacted c.freed)).nextWork b

/-- R57: a record write of recovery: a record added above the applied generation is freed, another one's removed generation is
cleared. -/
def State.recoverPlace (s : State) (b : BankId) (p : Nat) : State :=
  match placeGet p (s.places b) with
  | none => s
  | some r => if (s.bank b).header.applied < r.added then s.freePlace b p else s.writeRecord b p { r with removed := none }

/-- R57: a record write of recovery commits. -/
def State.recoverCommit (s : State) (b : BankId) (p : Nat) : State :=
  let s := s.recoverPlace b p
  if (s.bank b).hold != .none then s.goHeld b .recovering (.recoverPaused (p + 1)) else s.recoverFrom b (p + 1)

/-- R57, R59: the header write that ends a recovery. -/
def State.recoverEndWrite (s : State) (b : BankId) : State :=
  let s := s.heading b (fun h => { h with applyOpen := none })
  if (s.bank b).fullScan then
    let used := (s.places b).length
    let s := s.banking b (fun k => { k with
      fullScan := false
      header := { k.header with freeCount := Config.bankPlaces - used, scrubCursor := 0, scrubAge := 0 } })
    s.writeScrubHeader b
  else s.writeHeader b

/-- R57, R59: the header write that ends a recovery completes. -/
def State.recoverEnd (s : State) (b : BankId) : State := (s.recoverEndWrite b).nextWork b

/-- R43: the freeing of a place of an erasure commits; a hold stops it there. -/
def State.eraseCommit (s : State) (b : BankId) (p : Nat) : State :=
  let s := s.freePlace b p
  if (s.bank b).hold != .none then s.banking b (fun k => { k with work := .erasePaused, hold := .none }) else s.eraseOn b

/-- R43: the header write that ends an erasure. The mark is the baseline of the waiting request. -/
def State.eraseEndWrite (s : State) (b : BankId) : State :=
  let s := s.banking b (fun k => { k with
    state := .idle
    header := { k.header with
      freeCount := Config.bankPlaces, baselines := [], applyOpen := none, faultMark := false,
      erasureMark := match k.waiting, k.quiesce with
        | some r, _ => some r.gen
        | none, .inForce g => some g
        | none, _ => k.header.erasureMark
      scrubCursor := 0, scrubAge := 0 } })
  s.writeScrubHeader b

/-- R43: the header write that ends an erasure completes, and the needs-baseline flag is recomputed (R20). -/
def State.eraseEnd (s : State) (b : BankId) : State :=
  let d := s.bankDomain b
  let s := s.eraseEndWrite b
  let s := if s.needsBaseline d then s else s.wantOpeningOf d
  s.nextWork b

/-- R19: the header write in hand commits. -/
def State.headerCommit (s : State) (b : BankId) : State :=
  match (s.bank b).work with
  | .advance r => s.advanceCommit b r
  | .compactHeader c => s.compactEnd b c
  | .scrubHeader next rewound => s.scrubPassEnd b next rewound
  | .recoverHeader => s.recoverEnd b
  | .eraseHeader => s.eraseEnd b
  | _ => s

/-- R181, R183: the write in progress at a bank completes to its commit, and no other follows. -/
def State.finishWrite (s : State) (b : BankId) : State :=
  match (s.bank b).work with
  | .applyEnd run p => s.applyEndWrite b run p
  | .applyAdd run => s.applyAddWrite b run
  | .advance r => s.advanceWrite b r
  | .compactFree _ p => s.freePlace b p
  | .compactHeader c => s.compactEndWrite b c
  | .scrubHeader next rewound => s.scrubPassWrite b next rewound
  | .repair r => s.repairWrite b r
  | .recoverWrite p => s.recoverPlace b p
  | .recoverHeader => s.recoverEndWrite b
  | .eraseFree p => s.freePlace b p
  | .eraseHeader => s.eraseEndWrite b
  | _ => s

/-! ## Holds and resumes (R27 to R29) -/

/-- A write, a check or a repair is in progress, so that a hold takes effect at its end. -/
def BankWork.busy : BankWork → Bool
  | .applyEnd _ _ => true
  | .applyAdd _ => true
  | .advance _ => true
  | .compactFree _ _ => true
  | .compactHeader _ => true
  | .scrubCheck _ => true
  | .scrubHeader _ _ => true
  | .repair _ => true
  | .recoverWrite _ => true
  | .recoverHeader => true
  | .eraseFree _ => true
  | .eraseHeader => true
  | _ => false

/-- R27, R28: a hold reaches the bank. -/
def State.holdBank (s : State) (b : BankId) (h : HoldPending) : State :=
  let k := s.bank b
  match k.state with
  | .held => s
  | .idle => s.goHeld b .idle .none
  | _ =>
    if k.work.busy then s.banking b (fun k => { k with hold := h })
    else
      match k.work with
      | .applyRead _ => if h == .dip then s.goHeld b .applying k.work else s.banking b (fun k => { k with hold := h })
      | .recoverWait p => s.goHeld b .recovering (.recoverPaused p)
      | _ => s

/-- R189, R28: the bank counts as held for CLOSING: HELD, or FAULTED with no erasure going on. -/
def Bank.stopped (k : Bank) : Bool := k.state == .held || (k.state == .faulted && !k.work.busy)

/-- R29: a resume reaches the bank. -/
def State.resumeBank (s : State) (b : BankId) : State :=
  let k := s.bank b
  match k.state, k.prior with
  | .held, none => s
  | .held, some prior =>
    let s := s.banking b (fun k => { k with state := prior, prior := none })
    match k.work with
    | .applyPaused run => s.applyResume b run
    | .compactPaused c => s.compactOn b c Config.bankPlaces
    | .scrubPaused next => s.resumeScrub b next
    | .recoverPaused next => s.recoverFrom b next
    | .applyRead _ => s
    | _ => s.nextWork b
  | _, _ =>
    let s := s.banking b (fun k => { k with hold := .none })
    if k.work == .erasePaused then s.eraseOn b else s

/-! ## Starts (R21) -/

/-- R21: a bank made FAULTED at a start because its header is unreadable takes the domain's held generation. -/
def State.faultUnreadable (s : State) (b : BankId) : State :=
  let h : BankHeader := { BankHeader.erased with
    applied := (s.domain (s.bankDomain b)).held, freeCount := 0, faultMark := true }
  ((s.setBank b { Bank.unstarted with state := .faulted, header := h }).writeScrubHeader b).raise .bankFault

/-- R21, R58, R59: a bank enters its start state. -/
def State.startBank (s : State) (b : BankId) : State :=
  if !s.store.headers[b].good then s.faultUnreadable b
  else
    let h := match s.supply.kind with
      | .cold => s.store.headers[b].fields
      | .warm => s.backup.headers[b]
    if h.faultMark then
      let h := match s.supply.kind with
        | .cold => { h with scrubCursor := 0, scrubAge := 0 }
        | .warm => h
      (s.setBank b { Bank.unstarted with state := .faulted, header := h }).raise .bankFault
    else
      match s.supply.kind with
      | .cold =>
        (s.setBank b { Bank.unstarted with
          state := .recovering, header := { h with scrubCursor := 0, scrubAge := 0 }, compactWanted := true,
          fullScan := true }).recoverFrom b 0
      | .warm =>
        if h.applyOpen.isSome then
          (s.setBank b { Bank.unstarted with state := .recovering, header := h, compactWanted := true }).recoverFrom b 0
        else (s.setBank b { Bank.unstarted with state := .idle, header := h, compactWanted := true }).nextWork b

/-- R186, step 4: every bank enters its start state. -/
def State.startBanks (s : State) : State := allBanks.foldl (fun s b => s.startBank b) s

/-! ## Lookups (R44, R45) -/

/-- R44: what a bank answers to a lookup. -/
inductive LookupAnswer where
  | busy | hold | fault
  | found (r : Record) (checkFail : Bool)
  | absent (checkFail : Bool)
  deriving DecidableEq, Repr

/-- R44: the erasure mark is present and above the visible generation. -/
def BankHeader.hidesUntil (h : BankHeader) (v : Gen) : Bool :=
  match h.erasureMark with
  | some g => v < g
  | none => false

/-- R44: the answer from the bank's state. -/
def State.lookup (s : State) (b : BankId) (key : Nat) : LookupAnswer :=
  let k := s.bank b
  let v := (s.domain (s.bankDomain b)).visible
  match k.state with
  | .recovering => .busy
  | .held => .hold
  | .faulted => .fault
  | _ =>
    if k.header.hidesUntil v then .fault
    else
      let mine := (s.places b).filter (fun pr => pr.2.key == key)
      let checkFail := mine.any (fun pr => !pr.2.good)
      match mine.find? (fun pr => pr.2.liveAt (floorAt k.header.baselines v) v) with
      | some pr => .found pr.2 checkFail
      | none => .absent checkFail

/-- R45: the answer carries the CHECK-FAIL mark. -/
def LookupAnswer.checkFailed : LookupAnswer → Bool
  | .found _ c => c
  | .absent c => c
  | _ => false

/-- R45, R49: the failing records of the key make the bank's scrub due, and an IDLE bank begins it. -/
def State.lookupEffect (s : State) (b : BankId) (key : Nat) : State :=
  if (s.lookup b key).checkFailed then
    let s := s.markFailing b (failingPlaces (s.places b) key)
    if (s.bank b).state == .idle then s.beginScrub b else s
  else s

end Sys2Proof.Machine
end

