-- ==== Sys2Proof/Machine/PortOps.lean ====
section
/-! DEFINITION. Answers of the validator port (chapter 11) and the codes of section 12.4 they carry. -/

namespace Sys2Proof.Machine

/-- R210: slot state codes. -/
def SlotState.code : SlotState → Byte
  | .empty => 0
  | .manifestWanted => 1
  | .admitWait => 2
  | .collecting => 3
  | .verified => 4
  | .applying => 5
  | .blocked => 6
  | .draining => 7

/-- A change of the port's state. -/
def State.porting (s : State) (f : Port → Port) : State := { s with port := f s.port }

/-- R195, R196: a response is placed in the response buffer, carrying the overrun mark, which it clears; the request is no longer in
progress. -/
def State.respondCode (s : State) (kind : Byte) (o : OutcomeCode) (body : List Byte) : State :=
  s.porting (fun p => { p with
    inProgress := none, overrun := false
    response := some { kind := kind, outcome := o.code, overrun := p.overrun, body := body } })

/-- R195: the response to a request kind. -/
def State.respond (s : State) (kind : RequestKind) (o : OutcomeCode) (body : List Byte) : State :=
  s.respondCode kind.code o body

/-- R204, R210: the presence count and segment count of a slot. -/
def Slot.countsBody (x : Slot) : List Byte := toBytes 2 x.presence.length ++ toBytes 2 x.count

/-- The slot of a domain and generation that is not EMPTY or DRAINING (R80: at most one). -/
def State.slotHolding (s : State) (d : Domain) (g : Gen) : Option SlotId :=
  allSlots.find? (fun i =>
    let x := s.slot i
    x.state != .empty && x.state != .draining && x.domain == d && x.gen == g)

/-- A DRAINING slot of a domain and generation. -/
def State.slotDraining (s : State) (d : Domain) (g : Gen) : Option SlotId :=
  allSlots.find? (fun i =>
    let x := s.slot i
    x.state == .draining && x.domain == d && x.gen == g)

/-- R204: the body of a NO-SLOT answer to a PUBLISH-SEGMENT: the counts of the slot of its generation, if there is one. -/
def State.noSlotBody (s : State) (d : Domain) (g : Gen) : List Byte :=
  match (s.slotHolding d g).or (s.slotDraining d g) with
  | some i => (s.slot i).countsBody
  | none => []

/-- R204: the answer to the PUBLISH-MANIFEST in progress, when the manifest was entered for it. -/
def State.answerManifest (s : State) (what : EnterFor) (o : OutcomeCode) (body : List Byte) : State :=
  if what == .request then s.respond .publishManifest o body else s

/-- R204: the body of an ACCEPTED or ACCEPTED-JOINED answer. -/
def State.slotBody (s : State) (i : SlotId) : List Byte := [BitVec.ofNat 8 i.val, (s.slot i).state.code]

end Sys2Proof.Machine
end

