-- ==== Sys2Proof/Machine/AssemblyOps.lean ====
section
/-! DEFINITION. Generation assembly (chapter 5): opening and draining slots, manifests, segments, digests, and driving the banks. -/

namespace Sys2Proof.Machine

/-- A change of a slot. -/
def State.slotting (s : State) (i : SlotId) (f : Slot → Slot) : State := s.setSlot i (f (s.slot i))

/-! ## Draining (R102) -/

/-- R73: the slot of the request whose segment is being read has drained. -/
def BankWork.drained (g : Gen) : BankWork → BankWork
  | .applyRead r => .applyRead (if r.gen = g then { r with drained := true } else r)
  | w => w

/-- R102: the bank's waiting request of a generation is withdrawn; the apply read of one that it has taken up goes on (R73). -/
def State.withdrawWaiting (s : State) (d : Domain) (g : Gen) : State :=
  (s.banksOf d).foldl (fun s b => s.banking b (fun k =>
    { k with waiting := k.waiting.filter (fun r => r.gen != g), work := k.work.drained g })) s

/-- R68, R102: the pool is told DRAINING. -/
def State.tellDraining (s : State) (i : SlotId) : State :=
  let x := s.slot i
  if !x.entered then s
  else
    match s.entry x.domain x.gen with
    | some e => if e.verified then s.unpinSlot i x.domain x.gen else s.queueIndex (.remove x.domain x.gen)
    | none => s

/-- A PUBLISH-SEGMENT that waits for the digest or the VERIFIED write of a slot that drains is answered NO-SLOT (log entry 22). -/
def State.answerDrained (s : State) (i : SlotId) (d : Domain) (g : Gen) : State :=
  let mine : Bool := match s.port.inProgress with
    | some (.segmentDigest j) => j == i
    | some (.segmentVerified d' g' _) => d' == d && g' == g
    | _ => false
  if mine then s.respond .publishSegment .noSlot (s.noSlotBody d g) else s

/-- R102: a slot enters DRAINING, and goes to EMPTY at once when it has no outstanding ask. -/
def State.drainSlot (s : State) (i : SlotId) : State :=
  let x := s.slot i
  let s := (s.tellDraining i).withdrawAdmission i
  let s := s.setSlot i { x with
    state := .draining, manifest := none, presence := [], lost := [], blockedCause := none, digesting := false,
    entered := false, admitted := false, begun := false, cursors := Vector.replicate 16 ApplyCursor.initial }
  let s := if x.admitted then s.releaseReservation x.count else s
  let s := s.withdrawWaiting x.domain x.gen
  let s := if (s.slotAsks i).isEmpty then s.vacate i else s
  (s.answerDrained i x.domain x.gen).wantAsking

/-! ## Wanted generations and opening (R79 to R81) -/

/-- The slots of a domain that are neither EMPTY nor DRAINING. -/
def State.domainSlots (s : State) (d : Domain) : List SlotId :=
  allSlots.filter (fun i =>
    let x := s.slot i
    x.state != .empty && x.state != .draining && x.domain == d)

/-- The slot holds a BASELINE manifest. -/
def Slot.holdsBaseline (x : Slot) : Bool :=
  match x.manifest with
  | some m => m.kind == .baseline
  | none => false

/-- The known peers. -/
def State.knownPeers (s : State) : List Peer := s.peers.filter (fun p => p.state == .known)

/-- R79: d wants a baseline. -/
def State.wantsBaseline (s : State) (d : Domain) : Bool :=
  let h := (s.domain d).held
  !(s.domainSlots d).any (fun i => (s.slot i).holdsBaseline) &&
  (s.needsBaseline d ||
    (s.knownPeers.any (fun p => h < (p.values.get d).held) &&
      !s.knownPeers.any (fun p => (p.values.get d).serves (h + 1))))

/-- R79: the highest servable baseline above H announced by any known peer. -/
def State.baselineWanted (s : State) (d : Domain) : Option Gen :=
  s.knownPeers.foldl (fun m p =>
    match (p.values.get d).baseline with
    | some g => if (s.domain d).held < g then some (max g (m.getD 0)) else m
    | none => m) none

/-- R79: the lowest generation above L without a slot and announced as held by a known peer. -/
def State.deltaWanted (s : State) (d : Domain) : Option Gen :=
  let base := (s.domainSlots d).foldl (fun m i => if (s.slot i).holdsBaseline then max m (s.slot i).gen else m)
    (s.domain d).held
  let top := s.knownPeers.foldl (fun m p => max m (p.values.get d).held) 0
  ((List.range 7).map (base + 1 + ·)).find? (fun g =>
    g ≤ top && !(s.domainSlots d).any (fun i => (s.slot i).gen == g))

/-- R79: the generation that d wants next. -/
def State.wanted (s : State) (d : Domain) : Option Gen :=
  if s.wantsBaseline d then s.baselineWanted d else s.deltaWanted d

/-- R80: the second and third conditions of opening. -/
def State.hasRoom (s : State) (d : Domain) : Bool :=
  (s.domainSlots d).length + (s.domain d).pending.length < Config.domainSlots &&
  allSlots.any (fun i => (s.slot i).state == .empty)

/-- R80: a slot opens for a generation: the lowest-numbered EMPTY slot. One that a PUBLISH-MANIFEST opens stands in MANIFEST-WANTED too
while its manifest is with the pool, and may ask peers for it meanwhile (the model's choice, log entry 56). -/
def State.openSlot (s : State) (d : Domain) (g : Gen) (o : Origin) : Option (SlotId × State) :=
  match allSlots.find? (fun i => (s.slot i).state == .empty) with
  | none => none
  | some i =>
    some (i, (s.setSlot i { Slot.empty with state := .manifestWanted, domain := d, gen := g, origin := o }).wantAsking)

/-- R81: the delta slot that a wanted baseline displaces. -/
def State.displacedSlot (s : State) (d : Domain) (b : Gen) : Option SlotId :=
  if allSlots.any (fun i => (s.slot i).state == .draining && (s.slot i).domain == d) then none
  else
    firstBy (fun i j => (s.slot j).gen < (s.slot i).gen)
      ((s.domainSlots d).filter (fun i =>
        let x := s.slot i
        x.gen < b && !x.holdsBaseline &&
        (x.state == .manifestWanted || x.state == .admitWait || x.state == .collecting)))

/-- R80, R81: the openings of one pass; `fuel` bounds the slots opened. -/
def State.openWanted (s : State) (d : Domain) : Nat → State
  | 0 => s
  | fuel + 1 =>
    match s.wanted d with
    | none => s
    | some g =>
      if (s.slotHolding d g).isSome then s
      else if s.hasRoom d then
        match s.openSlot d g .peer with
        | some (_, s) => s.openWanted d fuel
        | none => s
      else if s.wantsBaseline d then
        match s.displacedSlot d g with
        | none => s
        | some j =>
          let s := s.drainSlot j
          if s.hasRoom d then
            match s.openSlot d g .peer with
            | some (_, s) => s.openWanted d fuel
            | none => s
          else s
      else s

/-- R80: the slots at or below the held generation that are not APPLYING drain. -/
def State.drainHeld (s : State) (d : Domain) : State :=
  (s.domainSlots d).foldl (fun s i =>
    if (s.slot i).gen ≤ (s.domain d).held && (s.slot i).state != .applying then s.drainSlot i else s) s

/-- R80: the opening pass of a domain. The drains come before the openings, which use the room they free (the model's choice, log entry
46). -/
def State.openingPass (s : State) (d : Domain) : State := (s.drainHeld d).openWanted d 7

/-! ## Verification and admission (R84, R86, R90, R101) -/

/-- R101: the drains that follow a BASELINE slot's entry to VERIFIED. -/
def State.verifiedDrains (s : State) (i : SlotId) : State :=
  let x := s.slot i
  if !x.holdsBaseline then s
  else
    (s.domainSlots x.domain).foldl (fun s j =>
      let y := s.slot j
      if y.gen < x.gen && !y.holdsBaseline &&
          (y.state == .manifestWanted || y.state == .admitWait || y.state == .collecting || y.state == .verified ||
            y.state == .blocked) then s.drainSlot j else s) s

/-- R86: the slot is admitted. One that enters VERIFIED with an index lost while it waited offers that index (R93, R126); one that enters
COLLECTING misses it like any other. -/
def State.slotAdmitted (s : State) (i : SlotId) : State :=
  let x := s.slot i
  let verified := match s.entry x.domain x.gen with
    | some e => e.verified
    | none => false
  if verified then
    let s := (s.setSlot i { x with state := .verified }).verifiedDrains i
    if x.lost.isEmpty then s else s.wantAsking
  else (s.setSlot i { x with state := .collecting, lost := [], digesting := x.presence.length == x.count }).wantAsking

/-- R86: the slot sends an admission request. -/
def State.askAdmission (s : State) (i : SlotId) : State :=
  match s.requestAdmission i with
  | (true, s) => s.slotAdmitted i
  | (false, s) => s.slotting i (fun x => { x with state := .admitWait })

/-- The presence entry of a segment from its bytes (R77). -/
def presenceOf (index : Nat) (bytes : List Byte) (src : Source) : Presence :=
  { index := index, crc := segCrc bytes, bank := segBank bytes, ops := segOpCount bytes, source := src }

/-- The presence set with an entry added, in index order. -/
def addPresence (p : Presence) : List Presence → List Presence
  | [] => [p]
  | q :: rest =>
    if p.index < q.index then p :: q :: rest else if p.index = q.index then p :: rest else q :: addPresence p rest

/-- R84, R104: the presence set of an entry's present set. -/
def State.entryPresence (s : State) (e : ManifestEntry) (src : Source) : List Presence :=
  e.present.filterMap (fun i => (s.cellOf e i).map (fun pc => presenceOf i pc.2.bytes src))

/-- The station's own number as a source (R84, R104). -/
def State.ownSource (s : State) : Source := .peer s.supply.config.station

/-- R84: the slot adopts a verified generation of the pool. -/
def State.adopt (s : State) (i : SlotId) (e : ManifestEntry) : State :=
  let x := s.slot i
  let src := if x.origin == .local then .local else s.ownSource
  let s := s.setSlot i { x with manifest := some e.manifest, entered := true, presence := s.entryPresence e src }
  (s.pin (.slot i) x.domain x.gen).askAdmission i

/-- R94: a PUBLISH-MANIFEST answered CONFLICT or NO-SLOT: a slot it opened returns to EMPTY, another stays MANIFEST-WANTED with
origin PEER. -/
def State.publishTurnedDown (s : State) (i : SlotId) (opened : Bool) : State :=
  if opened then s.vacate i else (s.slotting i (fun x => { x with origin := .peer })).manifestAskEnded i

/-- R84, R94: the pool answered ENTERED. -/
def State.manifestEntered (s : State) (i : SlotId) (m : Manifest) (what : EnterFor) : State :=
  let s := (s.slotting i (fun x => { x with manifest := some m, entered := true })).askAdmission i
  s.answerManifest what .accepted (s.slotBody i)

/-- R84, R94: the pool answered EXISTS. A PUBLISH-MANIFEST that meets another digest counts no manifest conflict and raises none (the model's
choice, log entry 47). -/
def State.manifestExists (s : State) (i : SlotId) (m : Manifest) (what : EnterFor) (opened : Bool) (e : ManifestEntry) : State :=
  if e.manifest.digest == m.digest then
    let s := s.adopt i e
    s.answerManifest what .accepted (s.slotBody i)
  else if what == .peer then ((s.countConflict).raise .manifestConflict).adopt i e
  else (s.publishTurnedDown i opened).answerManifest what .conflict []

/-- R84, R94: the pool answered REFUSED. -/
def State.manifestRefused (s : State) (i : SlotId) (what : EnterFor) (opened : Bool) : State :=
  if what == .peer then s.manifestAskEnded i
  else (s.publishTurnedDown i opened).answerManifest what .noSlot []

/-- R83, R94: a manifest for a generation whose slot has accepted one meanwhile. -/
def State.manifestLate (s : State) (i : SlotId) (m : Manifest) (what : EnterFor) : State :=
  let same := match (s.slot i).manifest with
    | some held => held.digest == m.digest
    | none => false
  if what == .peer then (if same then s else s.countConflict.raise .manifestConflict)
  else if same then s.answerManifest what .acceptedJoined (s.slotBody i)
  else s.answerManifest what .conflict []

/-- The slot still waits for the manifest offered from it. -/
def State.stillWants (s : State) (i : SlotId) (m : Manifest) : Bool :=
  let x := s.slot i
  x.state == .manifestWanted && x.domain == m.domain && x.gen == m.gen

/-- The slot holds a manifest of the generation offered from it. -/
def State.nowHolds (s : State) (i : SlotId) (m : Manifest) : Bool :=
  let x := s.slot i
  x.state != .empty && x.state != .draining && x.domain == m.domain && x.gen == m.gen && x.manifest.isSome

/-- R94, step 5: a slot whose offer is a PUBLISH-MANIFEST's has origin LOCAL. -/
def State.claimOrigin (s : State) (i : SlotId) (what : EnterFor) : State :=
  if what == .peer then s else s.slotting i (fun x => { x with origin := .local })

/-- R64: the pool takes a manifest to enter: EXISTS and REFUSED are answered at once, and the index write of a new entry begins
(log entry 23). A manifest whose slot has drained meanwhile makes no entry, and its PUBLISH-MANIFEST is answered NO-SLOT (the model's choice,
log entry 22). -/
def State.takeEnter (s : State) (i : SlotId) (m : Manifest) (what : EnterFor) (opened : Bool) : State :=
  if s.stillWants i m then
    let s := s.claimOrigin i what
    match s.enterAnswer m with
    | .entered => { s with pool := { s.pool with writing := .index (.enter i m what opened) } }
    | .existing e => s.manifestExists i m what opened e
    | .refused => s.manifestRefused i what opened
  else if s.nowHolds i m then s.manifestLate i m what
  else s.answerManifest what .noSlot []

/-- R64, R66: the index write of a new entry commits. A manifest whose slot has drained meanwhile makes no entry, and its PUBLISH-MANIFEST
is answered NO-SLOT (the model's choice, log entry 22). -/
def State.commitEnter (s : State) (i : SlotId) (m : Manifest) (what : EnterFor) (opened : Bool) : State :=
  if s.stillWants i m then
    match s.enterAnswer m with
    | .entered => (s.enterManifest i m).manifestEntered i m what
    | .existing e => s.manifestExists i m what opened e
    | .refused => s.manifestRefused i what opened
  else if s.nowHolds i m then s.manifestLate i m what
  else s.answerManifest what .noSlot []

/-- R68, R95: the VERIFIED write commits; a PUBLISH-SEGMENT that waits for it is answered VERIFIED. -/
def State.commitVerified (s : State) (d : Domain) (g : Gen) : State :=
  let s := s.markVerified d g
  match s.port.inProgress with
  | some (.segmentVerified d' g' n) =>
    if d' == d && g' == g then s.respond .publishSegment .verified (toBytes 2 n ++ toBytes 2 n) else s
  | _ => s

/-- R66: an index write commits. -/
def State.commitIndex (s : State) (w : IndexWrite) : State :=
  match w with
  | .enter i m what opened => s.commitEnter i m what opened
  | .verified d g => s.commitVerified d g
  | .digestFailed d g => s.digestFailedWrite d g
  | .remove d g => s.drainedWrite d g
  | .lost d g stamp index => s.lostWrite d g stamp index
  | .unpinned d g => s.unpinnedWrite d g

/-- R66: the arbiter over the pool's writes takes the next one, index writes ahead of segment writes; `fuel` bounds the manifests that
need no write. The pool's own index writes of R73 stand among those for the GAU, in the order in which they were called for (the model's
choice, log entry 61). A head of the queue that waits for room (R67) keeps the segment writes behind it, and no index write. -/
def State.poolPump (s : State) : Nat → State
  | 0 => s
  | fuel + 1 =>
    if s.pool.writing != .none then s
    else
      match s.pool.indexQueue with
      | .enter i m what opened :: rest =>
        ({ s with pool := { s.pool with indexQueue := rest } }.takeEnter i m what opened).poolPump fuel
      | w :: rest => { s with pool := { s.pool with indexQueue := rest, writing := .index w } }
      | [] =>
        match s.pool.waiting, s.pool.queue with
        | false, o :: rest => s.takeWrite o rest
        | _, _ => s

/-! ## Manifests (R83, R85, R94) -/

/-- R85: a digest joins the barred list at the newest position. -/
def bar (l : List (BitVec 32)) (x : BitVec 32) : List (BitVec 32) :=
  let l := l.filter (· != x)
  (if l.length < Config.barredDigests then l else l.drop 1) ++ [x]

/-- R83: a MANIFEST frame addressed to this station. -/
def State.takeManifest (s : State) (m : Manifest) : State :=
  let d := m.domain
  if m.gen ≤ (s.domain d).held then s
  else if s.backup.barred.contains m.digest then s.countConflict
  else
    match s.slotHolding d m.gen with
    | some i =>
      match (s.slot i).manifest with
      | none => s.queueIndex (.enter i m .peer false)
      | some held => if held.digest == m.digest then s else s.countConflict.raise .manifestConflict
    | none =>
      if s.wanted d == some m.gen && s.hasRoom d then
        match s.openSlot d m.gen .peer with
        | some (i, s) => s.queueIndex (.enter i m .peer false)
        | none => s
      else s

/-- The pool's and the admission's answer decide the PUBLISH-MANIFEST, which stays in progress (R204). Behind a manifest that is with the
pool already the slot keeps its origin until the pool takes this one (log entry 34). -/
def State.offerPublished (s : State) (i : SlotId) (m : Manifest) (opened : Bool) : State :=
  let s := if s.enterOutstanding i then s else s.claimOrigin i .request
  (s.queueIndex (.enter i m .request opened)).porting (fun p => { p with inProgress := some .manifest })

/-- R94: a PUBLISH-MANIFEST; `none` is a field outside the ranges of R15. -/
def State.publishManifest (s : State) (m : Option Manifest) : State :=
  match m with
  | none => s.respond .publishManifest .badManifest []
  | some m =>
    let d := m.domain
    let h := (s.domain d).held
    if s.backup.barred.contains m.digest then s.respond .publishManifest .barred []
    else if m.gen ≤ h || (m.kind == .delta && m.gen != h + 1) then s.respond .publishManifest .old []
    else
      match s.slotHolding d m.gen with
      | some i =>
        match (s.slot i).manifest with
        | some held =>
          if held.digest == m.digest then s.respond .publishManifest .acceptedJoined (s.slotBody i)
          else s.respond .publishManifest .conflict []
        | none => s.offerPublished i m false
      | none =>
        if s.hasRoom d then
          match s.openSlot d m.gen .local with
          | some (i, s) => s.offerPublished i m true
          | none => s.respond .publishManifest .noSlot []
        else s.respond .publishManifest .noSlot []

/-! ## Segments (R87, R88, R95) -/

/-- R87: which check of a segment fails first, or the slot that takes it. -/
inductive SegmentJudgement where
  | accepted (i : SlotId)
  | badCrc | badOps | badIndex | duplicate | differs
  | draining | noSlot
  deriving DecidableEq, Repr

/-- R87, checks 1 to 6. -/
def State.judgeSegment (s : State) (d : Domain) (bytes : List Byte) : SegmentJudgement :=
  if !segCrcGood bytes then .badCrc
  else if !segOpsGood bytes then .badOps
  else
    let g := segGen bytes
    let k := segIndex bytes
    match s.slotHolding d g with
    | none => if (s.slotDraining d g).isSome then .draining else .noSlot
    | some i =>
      let x := s.slot i
      if x.state == .collecting then
        if x.count ≤ k then .badIndex
        else if x.presence.any (fun p => p.index == k) then .duplicate
        else .accepted i
      else
        match x.lost.find? (fun p => p.index == k), x.state == .verified || x.state == .applying || x.state == .blocked with
        | some p, true => if p.crc == segCrc bytes then .accepted i else .differs
        | _, _ => .noSlot

/-- The offer of a segment's bytes. -/
def offerOf (d : Domain) (bytes : List Byte) (src : Source) (publish : Bool) : Offer :=
  { domain := d, gen := segGen bytes, index := segIndex bytes, bytes := bytes, source := src, publish := publish }

/-- R87, R88: a SEGMENT body from a peer. -/
def State.takeSegment (s : State) (n : Station) (d : Domain) (bytes : List Byte) : State :=
  match s.judgeSegment d bytes with
  | .badCrc => s.countSegmentCrc.peerSegmentFailure n
  | .badOps => s.countMalformed
  | .draining => s.countDiscardedDrain.indexArrived d (segGen bytes) (segIndex bytes)
  | .noSlot => s
  | .badIndex => s.countMalformed
  | .duplicate => s.countDuplicate
  | .differs => s.countSegmentCrc.peerSegmentFailure n
  | .accepted _ =>
    if s.queueHasPlace && !s.pool.held then s.queueOffer (offerOf d bytes (.peer n) false) else s.wantAsking

/-- R95, R204: a PUBLISH-SEGMENT. One that fails a check is answered and counts nothing (the model's choice, log entry 47). -/
def State.publishSegment (s : State) (bytes : List Byte) : State :=
  match segDomain bytes with
  | none => s.respond .publishSegment .badSegment []
  | some d =>
    let g := segGen bytes
    match s.judgeSegment d bytes with
    | .badCrc => s.respond .publishSegment .badSegment []
    | .badOps => s.respond .publishSegment .badSegment []
    | .badIndex => s.respond .publishSegment .badSegment []
    | .differs => s.respond .publishSegment .badSegment []
    | .draining => s.respond .publishSegment .noSlot (s.noSlotBody d g)
    | .noSlot => s.respond .publishSegment .noSlot (s.noSlotBody d g)
    | .duplicate => s.respond .publishSegment .duplicate (s.noSlotBody d g)
    | .accepted _ =>
      let o := offerOf d bytes .local true
      if s.queueHasPlace && !s.pool.held then
        (s.queueOffer o).porting (fun p => { p with inProgress := some .segmentWrite })
      else s.porting (fun p => { p with inProgress := some (.segmentHeld o) })

/-- R66: a PUBLISH-SEGMENT held by the VAP joins the queue when a place is free. -/
def State.joinQueue (s : State) : State :=
  match s.port.inProgress with
  | some (.segmentHeld o) =>
    if s.queueHasPlace && !s.pool.held then
      (s.queueOffer o).porting (fun p => { p with inProgress := some .segmentWrite })
    else s
  | _ => s

/-- The answer to a PUBLISH-SEGMENT whose offer it was. -/
def State.answerSegment (s : State) (o : Offer) (code : OutcomeCode) : State :=
  if o.publish then s.respond .publishSegment code (s.noSlotBody o.domain o.gen) else s

/-! ## Completion (R99) -/

/-- R99: every bank of the domain has advanced and no index is lost. -/
def State.generationDone (s : State) (i : SlotId) : Bool :=
  let x := s.slot i
  (x.state == .applying || x.state == .blocked) && x.lost.isEmpty &&
  (s.banksOf x.domain).all (fun b => x.cursors[b].phase == .advanced)

/-- R145: a generation is reported applied: the GAU makes its opening pass at the new held generation and pending count, the advance test
follows, and the domain header is written once for the event. -/
def State.reportApplied (s : State) (d : Domain) (g : Gen) : State :=
  let s := (s.appendApplied d g).openingPass d
  if ((s.domain d).pending.takeWhile (s.passes d)).isEmpty then s.writeDomainHeader d else s.advanceTest d

/-- R99: the generation is applied. -/
def State.completeApplied (s : State) (i : SlotId) : State :=
  if !s.generationDone i then s
  else
    let x := s.slot i
    let s := s.unpinSlot i x.domain x.gen
    let s := (s.setSlot i { x with admitted := false }).releaseReservation x.count
    (s.vacate i).reportApplied x.domain x.gen

/-- The slot that holds the pool entry of a domain and generation. -/
def State.slotEntered (s : State) (d : Domain) (g : Gen) : Option SlotId :=
  (s.slotHolding d g).filter (fun i => (s.slot i).entered)

/-- R88, R90, R93, R132: a segment was stored, and has arrived for the asks that cover it. The slot that holds the entry takes it into its
presence set; when that slot has drained meanwhile no slot does. A slot in ADMIT-WAIT, which an offer of its drained predecessor can reach,
takes the entry alone: its digest is computed after its admission (R86). -/
def State.segmentStored (s : State) (o : Offer) : State :=
  match s.slotEntered o.domain o.gen with
  | none => (s.indexArrived o.domain o.gen o.index).answerSegment o .noSlot
  | some i =>
    let x := s.slot i
    let x := { x with
      presence := addPresence (presenceOf o.index o.bytes o.source) x.presence
      lost := x.lost.filter (fun p => p.index != o.index) }
    let s := (s.setSlot i x).indexArrived o.domain o.gen o.index
    if x.presence.length != x.count || x.state == .admitWait then s.answerSegment o .stored
    else if x.state == .collecting then
      let s := s.slotting i (fun x => { x with digesting := true })
      if o.publish then s.porting (fun p => { p with inProgress := some (.segmentDigest i) }) else s
    else
      let s := s.queueIndex (.verified o.domain o.gen)
      let s := if o.publish then
          s.porting (fun p => { p with inProgress := some (.segmentVerified o.domain o.gen x.count) }) else s
      s.completeApplied i

/-- R204, R210: the body of a DUPLICATE answer: the counts of the slot of the generation, or, when it has been applied meanwhile, those of
the pool's entry (log entry 35). -/
def State.duplicateBody (s : State) (d : Domain) (g : Gen) : List Byte :=
  match (s.slotHolding d g).or (s.slotDraining d g), s.entry d g with
  | some i, _ => (s.slot i).countsBody
  | none, some e => toBytes 2 e.present.length ++ toBytes 2 e.manifest.count
  | none, none => toBytes 2 0 ++ toBytes 2 0

/-- R66, R95: a segment that the pool had already is answered DUPLICATE. -/
def State.answerDuplicate (s : State) (o : Offer) : State :=
  if o.publish then s.respond .publishSegment .duplicate (s.duplicateBody o.domain o.gen) else s

/-- R74, R198: an offer that a hold discards is lost; a PUBLISH-SEGMENT's is answered DROPPED. -/
def State.discardOffer (s : State) (o : Offer) : State := if o.publish then s.respond .publishSegment .dropped [] else s

/-- R67: a segment write whose eviction a pin has denied it waits at the head of the queue, in the place it kept; under a hold it is
discarded with the write queue (R74; that its PUBLISH-SEGMENT is answered DROPPED is the model's choice, log entry 16). A write that began
with a free place has it still, the index being as it was (R66), so it never comes here; the model leaves it in progress. -/
def State.deniedRoom (s : State) (o : Offer) (keepsPlace : Bool) : State :=
  if s.pool.held then s.discardOffer o
  else if keepsPlace then
    { s with pool := { s.pool with queue := o :: s.pool.queue, waiting := true, retryDue := false } }
  else { s with pool := { s.pool with writing := .segment o false } }

/-- R66, R88: a segment write commits. A DISCARDED answer is counted, and is no arrival for the asks of a slot that drains (the model's
choice, log entry 57). -/
def State.commitSegment (s : State) (o : Offer) (keepsPlace : Bool) : State :=
  match s.writeSegment o with
  | (.stored, s) => s.segmentStored o
  | (.duplicate, s) => s.countDuplicate.answerDuplicate o
  | (.discarded, s) => s.countDiscardedDrain.answerSegment o .noSlot
  | (.waits, s) => s.deniedRoom o keepsPlace

/-- R67: the write that waits for room goes on. -/
def State.retryWrite (s : State) : State :=
  match s.pool.waiting && s.pool.retryDue, s.pool.writing, s.pool.queue with
  | true, .none, o :: rest => s.takeWrite o rest
  | _, _, _ => s

/-! ## Digests (R90 to R92) -/

/-- R91: the peers named as sources, in ascending station number; the station's own number (R84, R104) is no peer's. -/
def State.sourcePeers (s : State) (l : List Presence) : List Station :=
  l.foldl (fun acc p =>
    match p.source with
    | .peer n => if n = s.supply.config.station then acc else useInsert n acc
    | .local => acc) []

/-- R91: the demoted list with the suppliers added. -/
def demote (l : List Station) (new : List Station) : List Station :=
  new.foldl (fun l n =>
    if l.contains n then l else (if l.length < Config.demotedPeers then l else l.drop 1) ++ [n]) l

/-- R90, R95: an answer to the PUBLISH-SEGMENT that completed the collection. -/
def State.answerDigest (s : State) (i : SlotId) (code : OutcomeCode) : State :=
  if s.port.inProgress == some (.segmentDigest i) then s.respond .publishSegment code (s.slot i).countsBody else s

/-- R92: the slot is abandoned. -/
def State.abandon (s : State) (i : SlotId) (digest : BitVec 32) : State :=
  ({ s with backup := Backup.sealed { s.backup with barred := bar s.backup.barred digest } }.raise .genBarred).drainSlot i

/-- R91: a digest failure. -/
def State.digestFailure (s : State) (i : SlotId) (m : Manifest) : State :=
  let x := s.slot i
  let s := (s.countDigestFailure).queueIndex (.digestFailed x.domain x.gen)
  let s := s.setSlot i { x with
    digesting := false, presence := [], failures := x.failures + 1, demoted := demote x.demoted (s.sourcePeers x.presence) }
  let s := s.answerDigest i .digestFail
  if 3 ≤ x.failures + 1 || x.origin == .local then s.abandon i m.digest else s.wantAsking

/-- R90: the digest completes. -/
def State.digestDone (s : State) (i : SlotId) : State :=
  let x := s.slot i
  match x.manifest, x.digesting with
  | some m, true =>
    if digestOf m (x.presence.map (·.crc)) == m.digest then
      let s := s.setSlot i { x with digesting := false, state := .verified }
      ((s.queueIndex (.verified x.domain x.gen)).answerDigest i .verified).verifiedDrains i
    else s.digestFailure i m
  | _, _ => s

/-! ## Applying (R96 to R100) -/

/-- The indices of a slot's segments that name a bank, in index order, those lost meanwhile included (R93, R97). -/
def Slot.indicesFor (x : Slot) (b : BankId) : List Nat :=
  ((x.lost.foldl (fun l p => addPresence p l) x.presence).filter (fun p => p.bank == b.val)).map (·.index)

/-- R96: the slot is VERIFIED and meets the condition of R96's table, whether it has a lost index or not. -/
def State.mayApply (s : State) (i : SlotId) : Bool :=
  let x := s.slot i
  x.state == .verified &&
  (match x.manifest with
    | some m => (match m.kind with
      | .delta => (s.domain x.domain).held + 1 == x.gen
      | .baseline => (s.domain x.domain).held < x.gen)
    | none => false)

/-- R96: the slot of a domain that begins its apply: the lowest generation that meets the table's condition, no lower one being there to
keep a BASELINE from its own; with a lost index it does not begin, and the higher ones go on waiting for it. -/
def State.nextApply (s : State) (d : Domain) : Option SlotId :=
  if (s.domainSlots d).any (fun i => (s.slot i).state == .applying || (s.slot i).state == .blocked) then none
  else (firstBy (fun i j => (s.slot i).gen < (s.slot j).gen) ((s.domainSlots d).filter s.mayApply)).filter
    (fun i => (s.slot i).lost.isEmpty)

/-- R97, R98: the cursor of a bank at the beginning of an apply. -/
def Slot.firstCursor (x : Slot) (b : BankId) : ApplyCursor :=
  let next := (x.indicesFor b).head?
  { ApplyCursor.initial with
    next := next, first := next.isSome, quiesce := if x.holdsBaseline then .wanted else .none }

/-- R97: the op counts of presence entries that name no bank of the domain. -/
def State.strayOps (s : State) (x : Slot) : Nat :=
  ((x.presence.filter (fun p => !(s.banksOf x.domain).any (fun b => b.val == p.bank))).map (·.ops)).sum

/-- R96, R97: the slot enters APPLYING. -/
def State.beginApply (s : State) (i : SlotId) : State :=
  let x := s.slot i
  let s := s.countMisplaced (s.strayOps x)
  s.setSlot i { x with
    state := .applying, begun := !x.holdsBaseline, cursors := Vector.ofFn (fun b => x.firstCursor b) }

/-- A change of one apply cursor. -/
def State.cursoring (s : State) (i : SlotId) (b : BankId) (f : ApplyCursor → ApplyCursor) : State :=
  s.slotting i (fun x => { x with cursors := x.cursors.set b (f x.cursors[b]) })

/-- R97: the request that the cursor of a bank names. -/
def Slot.requestFor (x : Slot) (b : BankId) : ApplyRequest :=
  let c := x.cursors[b]
  { gen := x.gen, kind := if x.holdsBaseline then .baseline else .delta, segment := c.next, first := c.first,
    last := (match c.next with
      | some k => (x.indicesFor b).getLast? == some k
      | none => false),
    cursor := c.op }

/-- R97, R98, R100: an apply or advance request is due to the bank. -/
def Slot.requestDue (x : Slot) (b : BankId) : Bool :=
  let c := x.cursors[b]
  !c.sent && !c.await && x.lost.isEmpty &&
  (match c.phase with
    | .notBegun => x.begun && (!x.holdsBaseline || c.quiesce == .acknowledged)
    | .running => c.next.isSome
    | .stopped => c.stop == some .full && c.resend
    | .advanced => false)

/-- R103: the GAU sends requests to this bank: not in DIP-HOLD, not to a HELD bank, and in CLOSING not to a FAULTED one. -/
def State.driving (s : State) (b : BankId) : Bool :=
  s.supply.power != .dipHold && (s.bank b).state != .held &&
  !(s.supply.power == .closing && (s.bank b).state == .faulted)

/-- What the GAU sends next: the slot, the bank, and whether it is a quiesce. -/
def State.nextDrive (s : State) : Option (SlotId × BankId × Bool) :=
  allSlots.findSome? (fun i =>
    let x := s.slot i
    if x.state == .applying || x.state == .blocked then
      (s.banksOf x.domain).findSome? (fun b =>
        if !s.driving b then none
        else if x.cursors[b].quiesce == .wanted then some (i, b, true)
        else if x.requestDue b then some (i, b, false)
        else none)
    else none)

/-- The GAU sends it. -/
def State.drive (s : State) (i : SlotId) (b : BankId) (quiesce : Bool) : State :=
  let x := s.slot i
  if quiesce then
    (s.cursoring i b (fun c => { c with quiesce := .sent })).post (.bankRequest b (.quiesce x.gen))
  else (s.cursoring i b (fun c => { c with sent := true })).post (.bankRequest b (.apply (x.requestFor b)))

/-- R100, R101: the slot enters BLOCKED; a delta below a VERIFIED baseline of its domain drains at once. -/
def State.block (s : State) (i : SlotId) (cause : BlockCause) : State :=
  let x := s.slot i
  let s := s.setSlot i { x with state := .blocked, blockedCause := some cause }
  let s := if cause == .full then s.raise .storeFull else s
  let overtaken := (s.domainSlots x.domain).any (fun j =>
    let y := s.slot j
    y.state == .verified && y.holdsBaseline && x.gen < y.gen)
  if !x.holdsBaseline && overtaken then s.drainSlot i else s

/-- R100: a slot none of whose banks remains STOPPED returns to APPLYING. -/
def State.unblock (s : State) (i : SlotId) : State :=
  let x := s.slot i
  if x.state == .blocked && !(s.banksOf x.domain).any (fun b => x.cursors[b].phase == .stopped) then
    s.setSlot i { x with state := .applying, blockedCause := none }
  else s

/-- R97: the bank's segment index after one just taken. -/
def Slot.nextIndex (x : Slot) (b : BankId) (taken : Option Nat) : Option Nat :=
  match taken with
  | none => none
  | some k => ((x.indicesFor b).filter (k < ·)).head?

/-- The slot of a domain that is APPLYING or BLOCKED (R96: at most one). -/
def State.applyingSlot (s : State) (d : Domain) : Option SlotId :=
  (s.domainSlots d).find? (fun i => (s.slot i).state == .applying || (s.slot i).state == .blocked)

/-- R98: every bank has acknowledged the quiesce, so the first requests go out. -/
def State.quiesced (s : State) (i : SlotId) : State :=
  let x := s.slot i
  if (s.banksOf x.domain).all (fun b => x.cursors[b].quiesce == .acknowledged) then s.setSlot i { x with begun := true } else s

/-- R97, R98, R100: REFUSED FAULT. A bank of a baseline begins anew, and one that was STOPPED is STOPPED no more. -/
def State.refusedFault (s : State) (i : SlotId) (b : BankId) : State :=
  let x := s.slot i
  if x.holdsBaseline then (s.cursoring i b (fun _ => x.firstCursor b)).unblock i
  else
    let s := s.cursoring i b (fun c => { c with phase := .stopped, stop := some .fault, sent := false })
    if x.state == .applying then s.block i .fault else s.slotting i (fun x => { x with blockedCause := some .fault })

/-- R97: a report of a bank for the generation of the slot. -/
def State.reportFor (s : State) (i : SlotId) (b : BankId) (r : BankReport) : State :=
  let x := s.slot i
  match r with
  | .taken _ k =>
    (s.cursoring i b (fun c => { c with
      phase := .running, sent := false, resend := false, first := false, stop := none, op := 0
      next := x.nextIndex b k })).unblock i
  | .segmentDone _ _ => s
  | .advanced _ => (s.cursoring i b (fun c => { c with phase := .advanced, next := none })).completeApplied i
  | .refused _ _ .alreadyApplied =>
    (s.cursoring i b (fun c => { c with phase := .advanced, next := none, sent := false })).completeApplied i
  | .refused _ _ .outOfOrder => s.cursoring i b (fun c => { c with sent := false, await := true })
  | .refused _ _ .fault => s.refusedFault i b
  | .bankFull _ k op =>
    s.cursoring i b (fun c => { c with
      phase := .stopped, stop := some .full, next := k, op := op, first := false, sent := false, resend := false })
  | .readFail _ k op => s.cursoring i b (fun c => { c with next := k, op := op, first := false, sent := false })
  | .quiesced _ => (s.cursoring i b (fun c => { c with quiesce := .acknowledged })).quiesced i
  | .compacted n =>
    let c := x.cursors[b]
    if c.phase == .stopped && c.stop == some .full && !c.sent && !c.resend then
      if 0 < n then s.cursoring i b (fun c => { c with resend := true })
      else if x.state == .applying then s.block i .full else s
    else s

/-- The generation that a report names. -/
def BankReport.gen? : BankReport → Option Gen
  | .taken g _ => some g
  | .segmentDone g _ => some g
  | .advanced g => some g
  | .bankFull g _ _ => some g
  | .readFail g _ _ => some g
  | .compacted _ => none
  | .quiesced g => some g
  | .refused g _ _ => some g

/-- R97, R102: a bank's report reaches the GAU; one for a generation that no slot is applying is ignored. Any report of the bank lets a
request refused OUT-OF-ORDER go out again. -/
def State.takeReport (s : State) (b : BankId) (r : BankReport) : State :=
  match s.applyingSlot (s.bankDomain b) with
  | none => s
  | some i =>
    let s := s.cursoring i b (fun c => { c with await := false })
    match r.gen? with
    | some g => if g = (s.slot i).gen then s.reportFor i b r else s
    | none => s.reportFor i b r

/-- R93: the pool tells the GAU of an index lost at a read failure. A slot keeps what it recorded of it where its generation is verified: in
VERIFIED, APPLYING and BLOCKED, and in ADMIT-WAIT, whose slot enters VERIFIED with the index lost when its grant comes before the entry's mark
is cleared. -/
def State.takeIndexLost (s : State) (d : Domain) (g : Gen) (k : Nat) : State :=
  match s.slotHolding d g with
  | none => s
  | some i =>
    let x := s.slot i
    match x.presence.find? (fun p => p.index == k) with
    | none => s
    | some p =>
      let kept := x.state == .admitWait || x.state == .verified || x.state == .applying || x.state == .blocked
      (s.setSlot i { x with
        presence := x.presence.filter (fun q => q.index != k)
        lost := if kept then x.lost ++ [p] else x.lost }).wantAsking

/-- R67: the pool took a waiting slot's places: the presence set is emptied, and with the mark cleared no index counts as lost. -/
def State.takeSlotEmptied (s : State) (i : SlotId) : State := s.slotting i (fun x => { x with presence := [], lost := [] })

/-! ## Restoration (R104) -/

/-- Entries in ascending generation. -/
def insertByGen (e : ManifestEntry) : List ManifestEntry → List ManifestEntry
  | [] => [e]
  | x :: rest => if e.manifest.gen ≤ x.manifest.gen then e :: x :: rest else x :: insertByGen e rest

/-- R76: the entries of a domain above its held generation, in ascending generation. -/
def State.handed (s : State) (d : Domain) : List ManifestEntry :=
  (s.store.index.entries.filter (fun e => e.manifest.domain == d && (s.domain d).held < e.manifest.gen)).foldr insertByGen []

/-- R104: one entry is restored as a slot. -/
def State.restoreEntry (s : State) (i : SlotId) (e : ManifestEntry) : State :=
  let d := e.manifest.domain
  let g := e.manifest.gen
  let s := s.setSlot i { Slot.empty with
    state := .manifestWanted, domain := d, gen := g, origin := .peer, manifest := some e.manifest, entered := true,
    presence := s.entryPresence e s.ownSource }
  (s.pin (.slot i) d g).askAdmission i

/-- R104: the entries of a domain are restored while R80 gives room. -/
def State.restoreFrom (s : State) (d : Domain) : List ManifestEntry → State
  | [] => s
  | e :: rest =>
    if !s.hasRoom d then s
    else
      match allSlots.find? (fun i => (s.slot i).state == .empty) with
      | none => s
      | some i => (s.restoreEntry i e).restoreFrom d rest

/-- R104: an entry below a verified BASELINE entry also handed is not restored. -/
def restorable (l : List ManifestEntry) : List ManifestEntry :=
  l.filter (fun e => !l.any (fun b => b.verified && b.manifest.kind == .baseline && e.manifest.gen < b.manifest.gen))

/-- R76, R104: the GAU restores its slots, BLOCK first, and the pool removes the unverified entries that were not restored, in the event that
ends its restoration and beside its arbiter (the model's choice, log entry 60). -/
def State.restoreSlots (s : State) : State :=
  let s := s.restoreFrom .block (restorable (s.handed .block))
  let s := s.restoreFrom .product (restorable (s.handed .product))
  s.store.index.entries.foldl (fun s e =>
    if !e.verified && (s.slotHolding e.manifest.domain e.manifest.gen).isNone then s.removeEntry e else s) s

end Sys2Proof.Machine
end

