-- ==== Sys2Proof/Machine/SupplyOps.lean ====
section
/-! DEFINITION. The supply controller (chapter 10): starts, the end of a start, holds and resumes of every block, CLOSING, dips,
DORMANT and loss of supply. -/

namespace Sys2Proof.Machine

/-- A change of the SUP's state. -/
def State.supplying (s : State) (f : Supply → Supply) : State := { s with supply := f s.supply }

/-- R181: the supply is above the run threshold. -/
def State.aboveRun (s : State) : Bool := Config.runThreshold s.pins.vsel24 < s.pins.vsense

/-! ## Writes in progress at a stop (R181, R183) -/

/-- R66, R183: an index write completes to its commit; what follows from it in volatile state is lost with it. -/
def State.finishIndexWrite (s : State) : IndexWrite → State
  | .enter i m _ _ => if s.stillWants i m && s.enterAnswer m == .entered then s.enterManifest i m else s
  | .verified d g => s.markVerified d g
  | .digestFailed d g => s.digestFailedWrite d g
  | .remove d g => s.drainedWrite d g
  | .lost d g stamp index => s.lostWrite d g stamp index
  | .unpinned d g => s.unpinnedWrite d g

/-- R66, R183: the pool's write in progress completes to its commit. -/
def State.finishPoolWrite (s : State) : State :=
  match s.pool.writing with
  | .none => s
  | .index w => s.finishIndexWrite w
  | .segment o _ => (s.writeSegment o).2

/-- R74: the index writes that wait behind the pool's write in progress are made, in their order. -/
def State.finishIndexQueue (s : State) : State := s.pool.indexQueue.foldl State.finishIndexWrite s

/-- R193: an erased bank. -/
def State.eraseBank (s : State) (b : BankId) : State :=
  let s := s.setPlaces b []
  { s with
    store := { s.store with headers := s.store.headers.set b (StoredHeader.sealed BankHeader.erased) }
    backup := Backup.sealed { s.backup with headers := s.backup.headers.set b BankHeader.erased } }

/-- R144, R193: a domain header written with held 0, visible 0 and an empty pending list. -/
def State.eraseDomain (s : State) (d : Domain) : State :=
  ((s.setDomain d { held := 0, visible := 0, pending := [], timer := none }).writeDomainHeader d).commitDomainHeader d

/-- R193: the writes of a COMMISSION erase, in order. -/
def State.eraseWrite (s : State) (r : StartRecord) : Nat → State
  | 1 => { s with
      store := { s.store with startRecord := invalidateStartRecord s.store.startRecord }
      backup := { s.backup with valid := false } }
  | 2 => allBanks.foldl (fun s b => s.eraseBank b) s
  | 3 => s.writeIndex PoolIndex.empty
  | 4 =>
    let s := (s.eraseDomain .block).eraseDomain .product
    { s with lag := [], backup := Backup.sealed { s.backup with barred := [], dips := 0 } }
  | 5 => { s with store := { s.store with startRecord := r.bytes } }
  | _ => s

/-- R183, R193: the erase's write in progress completes. -/
def State.finishEraseWrite (s : State) : State :=
  match s.supply.erase with
  | some e =>
    match e.write with
    | some n => s.eraseWrite e.record n
    | none => s
  | none => s

/-- R183: each store memory, directory and backup memory write in progress completes to its commit. -/
def State.finishWrites (s : State) : State :=
  (allBanks.foldl (fun s b => s.finishWrite b) s).finishPoolWrite.finishEraseWrite

/-! ## Volatile state -/

/-- R183, R189: the volatile state of every block but the SUP's watch is lost. A domain header write that has not completed leaves the header
as its previous write made it (R143). -/
def State.dropBlocks (s : State) : State :=
  { s with
    banks := Vector.replicate 16 Bank.unstarted, pool := Pool.initial, slots := Vector.replicate 6 Slot.empty, peers := [],
    fetch := Fetch.initial, vis := { block := Visibility.initial, product := Visibility.initial },
    domainWrites := { block := none, product := none }, lag := [], link := Link.silent, port := Port.cleared, todo := Todo.nothing }

/-- The SUP's own state outside a running part (R180). -/
def Supply.stopped (p : Power) (kind : StartKind) (ignition pendingStart : Bool) (resetting : Option Instant) : Supply :=
  { power := p, kind := kind, prior := none, dipTimer := none, parked := .stopped, stable := none, ignition := ignition,
    pendingStart := pendingStart, recordRead := false, settling := false, resetting := resetting,
    config := StartRecord.default, erase := none }

/-- R189: the part enters DORMANT. A write still in progress at a bank or the pool completes first (R183's rule for a stop, log entry 25),
and the index writes queued behind the pool's are made (R74). -/
def State.enterDormant (s : State) : State :=
  let s := s.finishWrites.finishIndexQueue.dropBlocks
  s.supplying (fun u => Supply.stopped .dormant u.kind u.ignition u.pendingStart none)

/-! ## The beginning of a start (R184, R186) -/

/-- R184: the kind of a start. -/
def State.startKind (s : State) (c : Cause) : StartKind :=
  match c with
  | .powerOn => .cold
  | .dipRestart => .cold
  | .commissioned => .cold
  | _ => if s.backup.valid && s.backup.good && s.backup.dips < 4 then .warm else .cold

/-- R184, R186 step 1: a start begins: the start cause record is written, the port is cleared, and a COLD start clears the valid mark
and the barred list (R105). Out of DIP-HOLD the held state is abandoned (R191), and with it the index writes still queued (log entry 25). -/
def State.beginStart (s : State) (c : Cause) : State :=
  let s := s.finishWrites.dropBlocks
  let kind := s.startKind c
  let dips := if c == .powerOn then 0 else s.backup.dips
  let s := s.supplying (fun u => { Supply.stopped .starting kind u.ignition false none with settling := kind == .cold })
  { s with backup := Backup.sealed { s.backup with
      dips := dips, cause := { cause := c, kind := kind, dips := dips }
      valid := if kind == .cold then false else s.backup.valid
      barred := if kind == .cold then [] else s.backup.barred } }

/-- R183, R189: in DORMANT, a start begins when the supply is above the run threshold and a start is pending, the debounced ignition is
on, or WAKE is asserted. -/
def State.dormantStart (s : State) : State :=
  if s.supply.power == .dormant && s.supply.resetting.isNone && s.aboveRun then
    if s.supply.pendingStart then s.beginStart .resetLine
    else if s.supply.ignition then s.beginStart .ignitionWake
    else if s.pins.wake then s.beginStart .processorWake
    else s
  else s

/-! ## Holds (R189, R190) -/

/-- R189, R190: a hold reaches every bank. -/
def State.holdBanks (s : State) (h : HoldPending) : State := allBanks.foldl (fun s b => s.holdBank b h) s

/-- R198: the PUBLISH-SEGMENT in progress has its offer waiting in the write queue, or is held for a place in it. -/
def State.publishQueued (s : State) : Bool :=
  match s.port.inProgress with
  | some (.segmentHeld _) => true
  | some .segmentWrite => s.pool.queue.any (·.publish)
  | _ => false

/-- R198: at entry to CLOSING a PUBLISH-SEGMENT whose offer is discarded is answered DROPPED. -/
def State.dropQueuedPublish (s : State) : State :=
  if s.publishQueued then s.respond .publishSegment .dropped [] else s

/-- R198: the request kind of a request in progress. -/
def InProgress.kind : InProgress → RequestKind
  | .manifest => .publishManifest
  | _ => .publishSegment

/-- An index write no longer answers the request that asked for it (R198). -/
def IndexWrite.unasked : IndexWrite → IndexWrite
  | .enter i m what opened => .enter i m (if what == .request then .dropped else what) opened
  | w => w

/-- A write in progress no longer answers the request that asked for it (R198). -/
def PoolWrite.unasked : PoolWrite → PoolWrite
  | .none => .none
  | .index w => .index w.unasked
  | .segment o keepsPlace => .segment { o with publish := false } keepsPlace

/-- R190, R198: at entry to DIP-HOLD the request in progress is dropped with the request buffer. -/
def State.dropRequest (s : State) : State :=
  match s.port.inProgress with
  | none => s
  | some k =>
    let s := s.porting (fun p => { p with inProgress := none, dropped := some k.kind.code })
    { s with pool := { s.pool with
        indexQueue := s.pool.indexQueue.map IndexWrite.unasked
        writing := s.pool.writing.unasked } }

/-- R189: the part enters CLOSING. -/
def State.enterClosing (s : State) : State :=
  let s := s.supplying (fun u => { u with power := .closing, parked := .stopped, stable := none })
  ((s.dropQueuedPublish.holdBanks .closing).holdPool.holdFetch).silenceLink

/-- R190: the part enters DIP-HOLD. -/
def State.enterDip (s : State) : State :=
  let s := s.supplying (fun u => { u with
    power := .dipHold, prior := some u.power, dipTimer := some (s.clock + Config.dipTimer), stable := none })
  let s := { s with backup := { s.backup with dips := min 255 (s.backup.dips + 1) } }
  ((s.dropRequest.holdBanks .dip).holdPool.holdFetch).silenceLink

/-! ## Resumes (R189, R191) -/

/-- R198: the DROPPED response is placed once the response buffer is empty. -/
def State.placeDropped (s : State) : State :=
  match s.port.dropped, s.port.response with
  | some k, none => (s.respondCode k .dropped []).porting (fun p => { p with dropped := none })
  | _, _ => s

/-- R29: a resume reaches every bank. -/
def State.resumeBanks (s : State) : State := allBanks.foldl (fun s b => s.resumeBank b) s

/-- A resume into RUN or PARKED: every block goes on (R74, R103, R142, R176), and the stable-run timer starts (R189, R191). -/
def State.resumeRunning (s : State) (p : Power) (parked : ParkedTimer) : State :=
  let s := s.supplying (fun u => { u with
    power := p, prior := none, dipTimer := none, parked := parked, stable := some (s.clock + Config.stableRun) })
  ((s.resumePool.resumeBanks).resumeLink.placeDropped).peerReport

/-- R191: a resume of a start: the banks and the pool go on. -/
def State.resumeStarting (s : State) : State :=
  let s := s.supplying (fun u => { u with power := .starting, prior := none, dipTimer := none })
  (s.resumePool.resumeBanks).placeDropped

/-- R188, R191: a fresh parked window, in minutes of the start record. -/
def State.freshWindow (s : State) : ParkedTimer := .running (s.clock + s.supply.config.parkedWindow * 60 * Config.second)

/-- R191: the part resumes, or passes to DORMANT at once. -/
def State.dipResume (s : State) : State :=
  match s.supply.prior, s.supply.ignition, s.supply.parked with
  | some .starting, _, _ => s.resumeStarting
  | some .run, true, _ => s.resumeRunning .run .stopped
  | some .run, false, _ => if s.supply.config.parkedWindow = 0 then s.enterDormant else s.resumeRunning .parked s.freshWindow
  | some .parked, true, _ => s.resumeRunning .run .stopped
  | some .parked, false, .running t => s.resumeRunning .parked (.running t)
  | some .parked, false, _ => s.enterDormant
  | some .closing, true, _ => s.resumeRunning .run .stopped
  | _, _, _ => s.enterDormant

/-- R191: the supply rises above the run threshold in DIP-HOLD. -/
def State.dipRise (s : State) : State := if s.backup.dips < 4 then s.dipResume else s.beginStart .dipRestart

/-! ## RUN and PARKED (R187, R188) -/

/-- R188: the debounced ignition goes off in RUN. -/
def State.park (s : State) : State :=
  if s.supply.config.parkedWindow = 0 then s.enterClosing
  else s.supplying (fun u => { u with power := .parked, parked := s.freshWindow })

/-- R188: the debounced ignition comes on in PARKED. -/
def State.unpark (s : State) : State := s.supplying (fun u => { u with power := .run, parked := .stopped })

/-- R187: the end of a start that passes step 4 of R186. -/
def State.endOfStart (s : State) : State :=
  let s := s.supplying (fun u => { u with
    power := if u.ignition then .run else .parked
    parked := if u.ignition then .stopped else s.freshWindow
    stable := some (s.clock + Config.stableRun) })
  let s := (((s.raise .start).startLink).formAnnounce).startVisibility.peerReport
  if !s.supply.ignition && s.supply.config.parkedWindow = 0 then s.enterClosing else s

/-! ## COLD starts settle (R185), CLOSING ends (R189) -/

/-- R185: the bank's full scan has ended; a bank made FAULTED counts as ended. -/
def Bank.scanned (k : Bank) : Bool := !k.fullScan

/-- R185: a COLD start settles: the directory is an exact copy of the bank headers and the pool index, and the mark is set. -/
def State.settleCold (s : State) : State :=
  if s.supply.settling && s.started && s.pool.restored && allBanks.all (fun b => (s.bank b).scanned) then
    let s := s.supplying (fun u => { u with settling := false })
    { s with backup := Backup.sealed { s.backup with
        headers := s.store.headers.map (·.fields), index := s.store.index, valid := true } }
  else s

/-- R189: at the last bank's held report, CLOSING ends in DORMANT. -/
def State.closingEnds (s : State) : State :=
  if s.supply.power == .closing && allBanks.all (fun b => (s.bank b).stopped) then s.enterDormant else s

/-! ## Loss of supply (R181) -/

/-- R181: a record write left unfinished: a record whose fields are not known and whose check fails. -/
def tornRecord (d : Domain) (n : Nat) : Record :=
  let r : Record :=
    { key := Config.tornKey n
      payload := match d with
        | .block => .block 0 0
        | .product => .product { cls := 0, firstDay := 0, lastDay := 0, fare := 0, band := none, transfer := none, zones := [],
                                 concessions := [] }
      added := Config.tornAdded n, removed := Config.tornRemoved n, check := 0 }
  { r with check := ~~~r.freshCheck }

/-- R181: a record place whose write was left unfinished. -/
def State.tearPlace (s : State) (b : BankId) (p : Nat) : State :=
  let (n, s) := s.draw
  s.setPlaces b (placeWrite Config.bankPlaces p (tornRecord (s.bankDomain b) n) (s.places b))

/-- R181: a bank header whose write was left unfinished. -/
def State.tearHeader (s : State) (b : BankId) : State :=
  { s with store := { s.store with headers := s.store.headers.set b s.store.headers[b].torn } }

/-- R181: the write in progress at a bank is left unfinished. -/
def State.tearBank (s : State) (b : BankId) : State :=
  match (s.bank b).work with
  | .applyEnd _ p => s.tearPlace b p
  | .applyAdd _ => s.tearPlace b (lowestFree 0 (s.places b))
  | .advance _ => s.tearHeader b
  | .compactFree _ p => s.tearPlace b p
  | .compactHeader _ => s.tearHeader b
  | .scrubHeader _ _ => s.tearHeader b
  | .repair r => if r.writing then s.tearPlace b r.place else s
  | .recoverWrite p => s.tearPlace b p
  | .recoverHeader => s.tearHeader b
  | .eraseFree p => s.tearPlace b p
  | .eraseHeader => s.tearHeader b
  | _ => s

/-- R62, R181: an index write cut short leaves an entry failing its check: the one the write concerns. -/
def State.tearEntry (s : State) (d : Domain) (g : Gen) : State :=
  { s with store := { s.store with index := { s.store.index with entries := s.store.index.entries.map (fun e =>
      if e.manifest.domain == d && e.manifest.gen == g then e.torn else e) } } }

/-- The domain and generation of the entry that an index write concerns. -/
def IndexWrite.concerns : IndexWrite → Domain × Gen
  | .enter _ m _ _ => (m.domain, m.gen)
  | .verified d g => (d, g)
  | .digestFailed d g => (d, g)
  | .remove d g => (d, g)
  | .lost d g _ _ => (d, g)
  | .unpinned d g => (d, g)

/-- R181: the pool's write in progress is left unfinished; an index write that would change nothing is none, and a segment that the pool
discards makes no index write (R66). -/
def State.tearPool (s : State) : State :=
  match s.pool.writing with
  | .none => s
  | .index w =>
    if (s.finishIndexWrite w).store.index = s.store.index then s else s.tearEntry w.concerns.1 w.concerns.2
  | .segment o _ => if (s.writeSegment o).1 == .stored then s.tearEntry o.domain o.gen else s

/-- R143, R181: a domain header write in progress leaves the header failing its check. -/
def State.tearDomain (s : State) (d : Domain) : State :=
  if (s.domainWrites.get d).isSome then
    { s with store := { s.store with domains := s.store.domains.set d (s.store.domains.get d).torn } }
  else s

/-- R181, R193: the erase's write in progress is left unfinished: a start record whose check disagrees, and headers that fail. -/
def State.tearErase (s : State) : State :=
  match s.supply.erase with
  | some e =>
    match e.write with
    | some 1 => s.eraseWrite e.record 1
    | some 2 => allBanks.foldl (fun s b => s.tearHeader b) s
    | some 4 => { s with store := { s.store with domains :=
        { block := s.store.domains.block.torn, product := s.store.domains.product.torn } } }
    | _ => s
  | none => s

/-- R181: the writes in progress are left unfinished. -/
def State.tearWrites (s : State) : State :=
  ((allBanks.foldl (fun s b => s.tearBank b) s).tearPool.tearErase.tearDomain .block).tearDomain .product

/-- R181: the supply fails altogether; backup memory and store memory stay, and the debounced ignition and a pending start are lost
(R180). -/
def State.loseSupply (s : State) (unfinished : Bool) : State :=
  let s := (if unfinished then s.tearWrites else s.finishWrites.commitDomainHeaders).dropBlocks
  { s.supplying (fun u => Supply.stopped .unpowered u.kind false false none) with pins := { s.pins with vsense := 0 } }

end Sys2Proof.Machine
end

