-- ==== Sys2Proof/Machine/Settle.lean ====
section
/-! DEFINITION. How one event runs to its end inside the part (log entry 7): the messages between the blocks, the passes the event calls
for, what the GAU sends, and what the blocks do whenever they can. -/

namespace Sys2Proof.Machine

/-- A message reaches its block. -/
def State.deliver (s : State) : Msg → State
  | .bankRequest b r => s.takeRequest b r
  | .bankReport b r => s.takeReport b r
  | .indexLost d g k => s.takeIndexLost d g k
  | .slotEmptied i => s.takeSlotEmptied i

/-- The pool's arbiter can take a write (R66). -/
def State.poolReady (s : State) : Bool :=
  s.pool.writing == .none &&
  (!s.pool.indexQueue.isEmpty || (!s.pool.waiting && !s.pool.queue.isEmpty))

/-- R80: the opening passes of the domains that the event calls for. -/
def State.openingPasses (s : State) (want : PerDomain Bool) : State :=
  if s.started then
    let s := if want.block then s.openingPass .block else s
    if want.product then s.openingPass .product else s
  else s

/-- R147: the advance tests of an event that has changed the cohort view, made once at the view as the event's reports have left it. However
many of them changed it, and however many pending entries the tests pass, each domain makes one visibility advance. -/
def State.viewTests (s : State) : State :=
  { s with todo := { s.todo with viewChanged := false } }.advanceTests

/-- One thing the event still has to bring about: the advance tests of a changed cohort view first, then a message, the pool's next write,
the opening passes, the beginning of an apply, what the GAU sends, the asking pass. The causes of R126 that fall in one event make one asking pass at its end; the reports that the
asks queued in it raise (R119) make one more, which may offer again, and count again, a MANIFEST-ASK that the CONTROL class dropped (the
model's choice, log entry 54). -/
def State.settleOnce (s : State) : Option State :=
  if s.todo.viewChanged then some s.viewTests
  else
  match s.todo.mail with
  | m :: rest => some ({ s with todo := { s.todo with mail := rest } }.deliver m)
  | [] =>
    if s.poolReady then some (s.poolPump 1)
    else if s.todo.openPass.block || s.todo.openPass.product then
      some ({ s with todo := { s.todo with openPass := { block := false, product := false } } }.openingPasses s.todo.openPass)
    else
      match (s.nextApply .block).or (s.nextApply .product) with
      | some i => some (s.beginApply i)
      | none =>
        match s.nextDrive with
        | some (i, b, q) => some (s.drive i b q)
        | none =>
          if s.todo.askPass then
            let s := { s with todo := { s.todo with askPass := false } }
            some (if s.running then s.askingPass [] 16 else s)
          else none

/-- The event runs until nothing is left to bring about. -/
def State.settleLoop (s : State) : Nat → State
  | 0 => s
  | fuel + 1 =>
    match s.settleOnce with
    | none => s
    | some s => s.settleLoop fuel

/-- The end of an event: the arbiter chooses, the next serve read begins, a COLD start settles, CLOSING ends, and a start that DORMANT
calls for begins. -/
def State.settle (s : State) : State :=
  (s.settleLoop 4096).arbiter.beginServeRead.settleCold.closingEnds.dormantStart

end Sys2Proof.Machine
end

