-- ==== Sys2Proof/Machine/PortRequests.lean ====
section
/-! DEFINITION. Meanings of the validator port's commands (chapter 11). -/

namespace Sys2Proof.Machine

/-- The outcome of a step of the part. -/
abbrev Result := Host.Outcome State Fault Refusal

/-! ## Taking a request (R195 to R197) -/

/-- R197: the power states in which the port takes requests. -/
def State.takesRequests (s : State) : Bool :=
  match s.supply.power with
  | .starting => true
  | .commissioning => true
  | .run => true
  | .parked => true
  | .closing => true
  | _ => false

/-- R196: a request is in progress or a response is unread. -/
def State.portBusy (s : State) : Bool := s.port.inProgress.isSome || s.port.response.isSome

/-- R196: a request that is not taken. -/
def State.overrun (s : State) : State := (s.countOverrun).porting (fun p => { p with overrun := true })

/-- R193: an armed erase begins when its ACCEPTED response has been read. -/
def Erase.begun (e : Erase) : Erase := if e.write.isNone then { e with write := some 1 } else e

/-- R195: the unread response has been clocked out whole. -/
def State.responseRead (s : State) (clocked : Nat) : State :=
  match s.port.response with
  | none => s
  | some r =>
    if r.bytes.length ≤ clocked then
      ((s.porting (fun p => { p with response := none })).placeDropped).supplying
        (fun u => { u with erase := u.erase.map Erase.begun })
    else s

/-- R196: a window of `clocked` bytes that carries a request ends on a busy port: the request is not taken, and a response that the window
clocked out whole has been read. -/
def State.overrunWindow (s : State) (clocked : Nat) : State := s.overrun.responseRead clocked

/-- R209: the bytes of a request frame whose body has `n`: the kind, the length, the body and the CRC-16. -/
def requestBytes (n : Nat) : Nat := 5 + n

/-- R197, cases 2 to 4: the answer that the power state gives to a request kind. -/
def State.powerAnswer (s : State) (kind : RequestKind) : Option OutcomeCode :=
  match s.supply.power with
  | .starting => if kind == .readStatus then none else some .starting
  | .commissioning => if kind == .readStatus || kind == .commission then none else some .notCommissioned
  | .closing => if kind == .publishManifest || kind == .publishSegment then some .wrongState else none
  | _ => none

/-- R195 to R197: a window that carries a request, and nothing but its frame (log entry 58), ends; `n` is the length of the body, `bodyOk`
is case 1 of R197 for it, and `handle` the request's own rule. -/
def State.request (s : State) (kind : RequestKind) (n : Nat) (bodyOk : Bool) (handle : State → State) : State :=
  if !s.takesRequests then s
  else if s.portBusy then s.overrunWindow (requestBytes n)
  else if !bodyOk then s.respond kind .badFrame []
  else
    match s.powerAnswer kind with
    | some o => s.respond kind o []
    | none => handle s

/-- R209: a body that the request code allows. -/
def bodyAllowed (kind : RequestKind) (body : List Byte) : Bool :=
  requestLengthOk kind.code body.length && requestBodyOk kind.code body

/-! ## Lookups (R199) -/

/-- The visible generation and the flag byte that open a lookup's response body (section 12.4). -/
def lookupFront (v : Gen) (checkFail : Bool) : List Byte := toBytes 4 v ++ [if checkFail then 1 else 0]

/-- R199: the body of a LISTED or FOUND answer after its front. -/
def recordBody (d : Domain) (r : Record) : List Byte :=
  match d with
  | .block => r.payload.stored ++ toBytes 4 r.added
  | .product => toBytes 2 r.key ++ r.payload.stored

/-- R199: a lookup of a key that is not 0 is answered by the key's bank. -/
def State.lookupAnswered (s : State) (kind : RequestKind) (d : Domain) (key : Nat) : State :=
  let b := s.bankOf d key
  let v := (s.domain d).visible
  let t := s.lookupEffect b key
  match s.lookup b key with
  | .busy => t.respond kind .busy (lookupFront v false)
  | .hold => t.respond kind .hold (lookupFront v false)
  | .fault => t.respond kind .fault (lookupFront v false)
  | .found r c => t.respond kind (if d == .block then .listed else .found) (lookupFront v c ++ recordBody d r)
  | .absent c => t.respond kind (if d == .block then .clear else .notFound) (lookupFront v c)

/-- R199: a lookup; a key of 0 is answered BAD-KEY. -/
def State.answerLookup (s : State) (kind : RequestKind) (d : Domain) (key : Nat) : State :=
  if key = 0 then s.respond kind .badKey [] else s.lookupAnswered kind d key

/-- CHECK-MEDIUM. -/
def execCheckMedium (medium : BitVec 64) (s : State) : Result :=
  .next (s.request .checkMedium 8 true (fun s => s.answerLookup .checkMedium .block medium.toNat))

/-- GET-PRODUCT. -/
def execGetProduct (number : BitVec 16) (s : State) : Result :=
  .next (s.request .getProduct 2 true (fun s => s.answerLookup .getProduct .product number.toNat))

/-! ## Status (R200, R210) -/

/-- R210: power state codes; the states in which the port takes no request have none. -/
def Power.code : Power → Byte
  | .starting => 1
  | .commissioning => 2
  | .run => 3
  | .parked => 4
  | .closing => 5
  | _ => 0

/-- R210. -/
def StartKind.code : StartKind → Byte
  | .cold => 1
  | .warm => 2

/-- R210. -/
def Cause.code : Cause → Byte
  | .powerOn => 1
  | .resetLine => 2
  | .dipRestart => 3
  | .ignitionWake => 4
  | .processorWake => 5
  | .commissioned => 6

/-- R210. -/
def BankState.code : BankState → Byte
  | .idle => 1
  | .applying => 2
  | .compacting => 3
  | .scrubbing => 4
  | .recovering => 5
  | .held => 6
  | .faulted => 7

/-- R210. -/
def LowRate.code : LowRate → Byte
  | .ok => 1
  | .low => 2

/-- R210: the status block of a domain: three pending entries, unused ones 0. -/
def State.statusBlock (s : State) (d : Domain) : List Byte :=
  let v := s.domain d
  toBytes 4 v.held ++ toBytes 4 v.visible ++ toBytes 1 v.pending.length ++
  ((List.range 3).map (fun i => v.pending.getD i 0)).flatMap (toBytes 4) ++ [if s.needsBaseline d then 1 else 0]

/-- R210: a slot block. -/
def Slot.statusBlock (x : Slot) : List Byte :=
  x.state.code :: (if x.state == .empty then 0 else domainCode x.domain) ::
  toBytes 4 (if x.state == .empty then 0 else x.gen) ++ x.countsBody

/-- R120: the number of records that meet a condition. -/
def State.peerCount (s : State) (f : Peer → Bool) : Byte := BitVec.ofNat 8 (s.peers.filter f).length

/-- R120: the peer summary. -/
def State.peerSummary (s : State) : List Byte :=
  [s.peerCount (fun p => p.state == .known), s.peerCount (fun p => p.state == .stale),
   s.peerCount (fun p => p.state == .known && p.cohort), s.peerCount (fun p => p.state == .known && p.parked),
   s.peerCount (fun p => p.state == .known && p.congested)]

/-- R200, R210: the READ-STATUS body. -/
def State.statusBody (s : State) : List Byte :=
  let c := s.backup.cause
  s.supply.power.code :: (if s.supply.power == .starting then s.supply.kind.code else 0) ::
  c.cause.code :: c.kind.code :: toBytes 1 c.dips ++
  s.statusBlock .block ++ s.statusBlock .product ++
  allSlots.flatMap (fun i => (s.slot i).statusBlock) ++
  toBytes 2 s.link.asr ++ s.link.lowRate.code :: toBytes 1 s.load ++ s.peerSummary ++
  allBanks.map (fun b => (s.bank b).state.code) ++ toBytes 2 s.port.flags.toNat

/-- READ-STATUS. -/
def execReadStatus (s : State) : Result :=
  .next (s.request .readStatus 0 true (fun s => s.respond .readStatus .ok s.statusBody))

/-- READ-COUNTERS (R202). -/
def execReadCounters (s : State) : Result :=
  .next (s.request .readCounters 0 true (fun s => s.respond .readCounters .ok (s.port.counters.list.flatMap (toBytes 2))))

/-- READ-NOTICES (R201): the flags as they stand, which are cleared in the same event. -/
def execReadNotices (s : State) : Result :=
  .next (s.request .readNotices 0 true (fun s =>
    (s.respond .readNotices .ok (toBytes 2 s.port.flags.toNat)).porting (fun p => { p with flags := 0 })))

/-- SET-NOTICE-ENABLE (R201): the enable set is replaced. -/
def execSetNoticeEnable (enables : BitVec 16) (s : State) : Result :=
  .next (s.request .setNoticeEnable 2 (bodyAllowed .setNoticeEnable (toBytes 2 enables.toNat)) (fun s =>
    (s.respond .setNoticeEnable .ok (toBytes 2 enables.toNat)).porting (fun p => { p with enables := enables })))

/-- The body of a LAG answer (R210). -/
def LagEntry.body (e : LagEntry) : List Byte := toBytes 2 e.station ++ genPrefix e.domain e.gen

/-- R155, R203: READ-LAG takes the oldest entry. -/
def State.readLag (s : State) : State :=
  match s.lag with
  | [] => s.respond .readLag .empty []
  | e :: rest => ({ s with lag := rest }).respond .readLag .lag e.body

/-- READ-LAG. -/
def execReadLag (s : State) : Result := .next (s.request .readLag 0 true State.readLag)

/-! ## Publishing (R204) -/

/-- PUBLISH-MANIFEST (R94). -/
def execPublishManifest (body : List Byte) (s : State) : Result :=
  .next (s.request .publishManifest body.length (bodyAllowed .publishManifest body) (fun s =>
    (s.publishManifest (parseManifest body)).settle))

/-- PUBLISH-SEGMENT (R95). -/
def execPublishSegment (body : List Byte) (s : State) : Result :=
  .next (s.request .publishSegment body.length (bodyAllowed .publishSegment body) (fun s => (s.publishSegment body).settle))

/-! ## The parked window and commissioning (R205) -/

/-- R205: PARK-END in PARKED is answered ACCEPTED and the part enters CLOSING; in RUN and CLOSING it is refused. -/
def State.parkEnd (s : State) : State :=
  if s.supply.power == .parked then ((s.respond .parkEnd .accepted []).enterClosing).settle
  else s.respond .parkEnd .wrongState []

/-- PARK-END. -/
def execParkEnd (s : State) : Result := .next (s.request .parkEnd 0 true State.parkEnd)

/-- R193, R205: a COMMISSION in COMMISSIONING with no erase in progress is judged; elsewhere it is refused WRONG-STATE. -/
def State.commission (s : State) (body : List Byte) : State :=
  if s.supply.power == .commissioning && s.supply.erase.isNone then
    let r := commissionRecord body
    if r.ok then
      (s.respond .commission .accepted []).supplying (fun u => { u with erase := some { record := r, write := none } })
    else s.respond .commission .badRecord []
  else s.respond .commission .wrongState []

/-- COMMISSION. -/
def execCommission (body : List Byte) (s : State) : Result :=
  .next (s.request .commission body.length (bodyAllowed .commission body) (fun s => s.commission body))

/-! ## Windows (R195, R196, R209) -/

/-- What SDO carries in a window of `n` bytes (R195, R197, R209): the unread response from its first byte and then fill, while READY is
asserted and the port takes requests; else fill. -/
def State.sdo (s : State) (n : Nat) : List Byte :=
  let fill := List.replicate n 0xFF#8
  match s.port.response with
  | some r => if s.takesRequests then (r.bytes ++ fill).take n else fill
  | none => fill

/-- The command that a request frame of a kind and body is (R209). -/
def requestCommand (kind : Byte) (body : List Byte) : Option Instr :=
  if kind = 1 then some (.checkMedium (BitVec.ofNat 64 (field body 0 8)))
  else if kind = 2 then some (.getProduct (BitVec.ofNat 16 (field body 0 2)))
  else if kind = 3 then some .readStatus
  else if kind = 4 then some .readCounters
  else if kind = 5 then some .readNotices
  else if kind = 6 then some (.setNoticeEnable (BitVec.ofNat 16 (field body 0 2)))
  else if kind = 7 then some .readLag
  else if kind = 8 then some (.publishManifest body)
  else if kind = 9 then some (.publishSegment body)
  else if kind = 10 then some .parkEnd
  else if kind = 11 then some (.commission body)
  else none

/-- The command that a window is whose SDI bytes are `sdi` (R195, R196, R209): a read of the response when it carries no request, an overrun
when the port is busy, else its request or a bad frame. A window is one event at its end, and its whole length counts as clocked out, also
where a response was placed while it was under way (the model's choice, log entry 52). -/
def State.windowCommand (s : State) (sdi : List Byte) : Instr :=
  match readWindow sdi with
  | .fill => .responseRead sdi.length
  | .bad _ => if s.portBusy then .requestOverrun sdi.length else .requestBadFrame sdi
  | .request kind body =>
    if s.portBusy then .requestOverrun sdi.length else (requestCommand kind body).getD (.requestBadFrame sdi)

/-- RESPONSE_READ: a window that clocked out `clocked` bytes on SDO ends. -/
def execResponseRead (clocked : Nat) (s : State) : Result :=
  .next (if s.takesRequests then s.responseRead clocked else s)

/-- REQUEST_OVERRUN: a window that carries a request ends while a request is in progress or a response is unread; it reads the response
when it clocked out all of it. -/
def execRequestOverrun (clocked : Nat) (s : State) : Result :=
  .next (if s.takesRequests && s.portBusy then s.overrunWindow clocked else s)

/-- REQUEST_BAD_FRAME: a window whose request frame is bad (R197, R209); on a busy port it is an overrun like any other (R196). -/
def execRequestBadFrame (window : List Byte) (s : State) : Result :=
  .next (match readWindow window with
    | .bad kind =>
      if !s.takesRequests then s
      else if s.portBusy then s.overrunWindow window.length
      else s.respondCode kind .badFrame []
    | _ => s)

end Sys2Proof.Machine
end

