-- ==== Sys2Proof/Machine/LinkFrames.lean ====
section
/-! DEFINITION. Meanings of the frames that arrive on the fleet link (R173, R174). -/

namespace Sys2Proof.Machine

/-- R173: what the receive filter makes of a frame. -/
inductive Filtered where
  | passed | malformed | foreign
  deriving DecidableEq, Repr

/-- R173, R207: the receive filter's tests in order. -/
def State.filterFrame (s : State) (kind : Option FrameKind) (h : LinkHeader) (body : List Byte) : Filtered :=
  match kind with
  | none => .malformed
  | some k =>
    if !(h.bodyLength.toNat ≤ 256 && h.bodyLength.toNat == body.length && bodyLengthOk k body.length) then .malformed
    else if !(if k == .announce then h.addressee == 0#16 else h.addressee != 0#16 && h.addressee != 65535#16) then .malformed
    else if h.fleet != s.supply.config.fleet then .foreign
    else if h.sender.toNat == s.supply.config.station then .foreign
    else .passed

/-- R174, item 1: the LNK reads the header. -/
def State.readHeader (s : State) (kind : FrameKind) (h : LinkHeader) : State :=
  let s := if congestionMark h then s.markHeard else s
  if kind == .announce then s.startDecay else s

/-- R173, R174, R107: a frame arrives; `use` is what the body's block does with it. -/
def State.receive (s : State) (kind : FrameKind) (h : LinkHeader) (body : List Byte) (use : State → State) : State :=
  if !s.running then s
  else
    match s.filterFrame (some kind) h body with
    | .malformed => s.countMalformed
    | .foreign => s.countForeign
    | .passed =>
      let s := s.readHeader kind h
      if badSender h then s.countMalformed.settle
      else (use (s.takeHeader h)).settle

/-- The frame is addressed to this station. -/
def State.addressed (s : State) (h : LinkHeader) : Bool := h.addressee.toNat == s.supply.config.station

/-- R111: an ANNOUNCE body. -/
def State.useAnnounce (s : State) (h : LinkHeader) (body : List Byte) : State :=
  match parseAnnounce body with
  | none => s.countMalformed
  | some (parked, v) => s.takeAnnounce h.sender.toNat parked v

/-- R140: a MANIFEST-ASK body. -/
def State.useManifestAsk (s : State) (h : LinkHeader) (body : List Byte) : State :=
  if !s.addressed h then s
  else
    match domainOfCode (byteAt body 0) with
    | none => s.countMalformed
    | some d => s.takeManifestAsk h.sender.toNat d (field body 1 4)

/-- R83, R133: a MANIFEST body: the GAU handles the manifest, and the FSE ends the ask that it answers. -/
def State.useManifest (s : State) (h : LinkHeader) (body : List Byte) : State :=
  if !s.addressed h then s
  else
    match parseManifest body with
    | none => s.countMalformed
    | some m => (s.takeManifest m).manifestAnswered h.sender.toNat m.domain m.gen

/-- R137: a SEGMENT-ASK body. -/
def State.useSegmentAsk (s : State) (h : LinkHeader) (body : List Byte) : State :=
  if !s.addressed h then s
  else
    match domainOfCode (byteAt body 0) with
    | none => s.countMalformed
    | some d => s.takeSegmentAsk h.sender.toNat d (field body 1 4) (field body 5 2) (field body 7 1)

/-- R87: a SEGMENT body, wherever it was addressed. -/
def State.useSegment (s : State) (h : LinkHeader) (body : List Byte) : State :=
  match segDomain body with
  | none => s.countMalformed
  | some d => s.takeSegment h.sender.toNat d body

/-- R134: a DECLINE body. -/
def State.useDecline (s : State) (h : LinkHeader) (body : List Byte) : State :=
  if !s.addressed h then s
  else
    match parseDecline body with
    | none => s.countMalformed
    | some b => s.takeDecline h.sender.toNat b

/-- ANNOUNCE_RECEIVED. -/
def execAnnounceReceived (h : LinkHeader) (body : List Byte) (s : State) : Result :=
  .next (s.receive .announce h body (fun s => s.useAnnounce h body))

/-- MANIFEST_ASK_RECEIVED. -/
def execManifestAskReceived (h : LinkHeader) (body : List Byte) (s : State) : Result :=
  .next (s.receive .manifestAsk h body (fun s => s.useManifestAsk h body))

/-- MANIFEST_RECEIVED. -/
def execManifestReceived (h : LinkHeader) (body : List Byte) (s : State) : Result :=
  .next (s.receive .manifest h body (fun s => s.useManifest h body))

/-- SEGMENT_ASK_RECEIVED. -/
def execSegmentAskReceived (h : LinkHeader) (body : List Byte) (s : State) : Result :=
  .next (s.receive .segmentAsk h body (fun s => s.useSegmentAsk h body))

/-- SEGMENT_RECEIVED. -/
def execSegmentReceived (h : LinkHeader) (body : List Byte) (s : State) : Result :=
  .next (s.receive .segment h body (fun s => s.useSegment h body))

/-- DECLINE_RECEIVED. -/
def execDeclineReceived (h : LinkHeader) (body : List Byte) (s : State) : Result :=
  .next (s.receive .decline h body (fun s => s.useDecline h body))

/-- R173: the frame's bytes as the filter reads them; one shorter than its header fails the first test. -/
def State.filterBytes (s : State) (frame : List Byte) : Filtered :=
  if frame.length < 16 then .malformed
  else s.filterFrame (frameKindOfCode (byteAt frame 4)) (headerOf frame) (frame.drop 16)

/-- RECEIVE_FILTER_DROP: a frame that fails the receive filter; one that arrives outside RUN and PARKED is discarded and not counted. -/
def execReceiveFilterDrop (frame : List Byte) (s : State) : Result :=
  .next (if !s.running then s
    else
      match s.filterBytes frame with
      | .malformed => s.countMalformed
      | .foreign => s.countForeign
      | .passed => s)

end Sys2Proof.Machine
end

