-- ==== Sys2Proof/Machine/LinkTimers.lean ====
section
/-! DEFINITION. Meanings of the transmitter's and the link timers' events (chapter 9). -/

namespace Sys2Proof.Machine

/-- What follows at the LNK when the transmitter, the classes or the credit have changed: the arbiter's choice (R162) and the next serve
read (R138). -/
def State.transmitNext (s : State) : State := s.arbiter.beginServeRead

/-- An instant that has been reached. -/
def State.due (s : State) (t : Option Instant) : Bool :=
  match t with
  | some t => t ≤ s.clock
  | none => false

/-- R165: the transmission end of the frame in transmission. -/
def State.transmissionEnd (s : State) (c : Chosen) : State :=
  let s := match c.frame.ask with
    | some id => s.askSent id
    | none => s
  let s := if c.cls.paced then s.pacedEnd else s
  ((s.linked (fun l => { l with chosen := none })).followChannel).transmitNext

/-- TRANSMISSION_END: LTXEND. The one that follows a cut-off is not taken as the end of a sent frame (R176), and with no transmission
in progress nothing ends (log entry 26). -/
def execTransmissionEnd (s : State) : Result :=
  .next (if 0 < s.link.cutOff then s.linked (fun l => { l with cutOff := l.cutOff - 1 })
    else
      match s.link.chosen with
      | some c => if c.phase == .sending then s.transmissionEnd c else s
      | none => s)

/-- R164: CSENSE turning busy during BACKOFF returns the LNK to DEFER with the count as it stands. -/
def Link.deferred (l : Link) : Link :=
  { l with chosen := l.chosen.map (fun c => if c.phase == .backoff then { c with phase := .defer } else c) }

/-- CSENSE_CHANGE: CSENSE reads `busy` from now on. -/
def execCsenseChange (busy : Bool) (s : State) : Result :=
  .next (
    let s := { s with pins := { s.pins with
      csense := busy, clearFrom := if s.pins.csense && !busy then s.clock else s.pins.clearFrom } }
    (if busy then s.linked Link.deferred else s).followChannel)

/-- R164: BACKOFF is entered; a count of 0 starts the transmission. -/
def State.enterBackoff (s : State) (c : Chosen) : State :=
  let s' := s.linked (fun l => { l with chosen := some { c with phase := .backoff, slotFrom := s.clock } })
  if c.backoff = 0 then s'.startTransmission else s'

/-- QUIET_INTERVAL_END: CSENSE has read clear for one quiet interval in DEFER. -/
def execQuietIntervalEnd (s : State) : Result :=
  .next (match s.link.chosen with
    | some c => if c.phase == .defer && s.quietEnough then s.enterBackoff c else s
    | none => s)

/-- R164: the count falls by 1, and at 0 the transmission starts. -/
def State.backoffFalls (s : State) (c : Chosen) : State :=
  let s' := s.linked (fun l => { l with chosen := some { c with backoff := c.backoff - 1, slotFrom := s.clock } })
  if c.backoff ≤ 1 then s'.startTransmission else s'

/-- BACKOFF_SLOT_END: a slot time throughout which CSENSE read clear ends in BACKOFF. -/
def execBackoffSlotEnd (s : State) : Result :=
  .next (match s.link.chosen with
    | some c =>
      if c.phase == .backoff && !s.pins.csense && c.slotFrom + Config.slotTime s.link.rateCode ≤ s.clock then s.backoffFalls c
      else s
    | none => s)

/-- R166: the next credit is due 1/ASR seconds after the clock started. -/
def State.creditIsDue (s : State) : Bool :=
  match s.link.creditFrom with
  | some t => Config.second ≤ (s.clock - t) * s.link.asr
  | none => false

/-- R166: the credit rises by 1, and the clock starts again while it is below 4. -/
def Link.credited (l : Link) (now : Instant) : Link :=
  { l with credit := min 4 (l.credit + 1), creditFrom := if l.credit + 1 < 4 then some now else none }

/-- CREDIT_DUE. -/
def execCreditDue (s : State) : Result :=
  .next (if s.creditIsDue then (s.linked (fun l => l.credited s.clock)).transmitNext else s)

/-- DECREASE_HOLD_EXPIRY (R168). -/
def execDecreaseHoldExpiry (s : State) : Result :=
  .next (if s.due s.link.decreaseHold then s.linked (fun l => { l with decreaseHold := none }) else s)

/-- DECAY_TIMER_EXPIRY (R169): the ASR is halved, the increase count returns to 0, and the timer restarts. -/
def execDecayTimerExpiry (s : State) : Result :=
  .next (if s.due s.link.decay then
      ((s.changeAsr (s.link.asr / 2)).linked (fun l => { l with increase := 0 })).startDecay
    else s)

/-- ANNOUNCEMENT_TIMER_EXPIRY (R172). -/
def execAnnouncementTimerExpiry (s : State) : Result :=
  .next (if s.due s.link.announceAt then s.formAnnounce.transmitNext else s)

end Sys2Proof.Machine
end

