-- ==== Sys2Proof/Machine/PeerTimers.lean ====
section
/-! DEFINITION. Meanings of the expiries of the peer table and of asks, and of the completions of serve and manifest reads (chapters 6
and 7). -/

namespace Sys2Proof.Machine

/-- R112: a KNOWN record goes STALE; the VCU is told of a cohort member (R118). -/
def State.peerStale (s : State) (p : Peer) : State :=
  let s := (s.setPeer { p with state := .stale }).peerReport
  if p.cohort then s.changeView else s

/-- STALE_EXPIRY: 8 s since the peer was last heard. -/
def execStaleExpiry (peer : BitVec 16) (s : State) : Result :=
  .next (match s.peer peer.toNat with
    | some p =>
      if p.state == .known && p.heard + Config.staleAfter ≤ s.clock then (s.peerStale p).settle else s
    | none => s)

/-- R112: the removal expiry of a STALE record. -/
def State.peerRemoval (s : State) (p : Peer) : State :=
  if p.asks = 0 then (s.removePeer p).settle else s.setPeer { p with removalDue := true }

/-- REMOVAL_EXPIRY: 60 s since the peer was last heard. -/
def execRemovalExpiry (peer : BitVec 16) (s : State) : Result :=
  .next (match s.peer peer.toNat with
    | some p => if p.state == .stale && p.heard + Config.removeAfter ≤ s.clock then s.peerRemoval p else s
    | none => s)

/-- UNRESPONSIVE_EXPIRY (R115): unresponsive-until becomes absent and the consecutive ask timeouts return to 0. -/
def execUnresponsiveExpiry (peer : BitVec 16) (s : State) : Result :=
  .next (match s.peer peer.toNat with
    | some p =>
      if s.due p.unresponsive then ((s.setPeer { p with unresponsive := none, timeouts := 0 }).peerReport).settle else s
    | none => s)

/-- BUSY_EXPIRY (R116): busy-until becomes absent. -/
def execBusyExpiry (peer : BitVec 16) (s : State) : Result :=
  .next (match s.peer peer.toNat with
    | some p => if s.due p.busy then ((s.setPeer { p with busy := none }).peerReport).settle else s
    | none => s)

/-- The SENT ask whose timeout is the earliest, when it has been reached (R135). -/
def State.timedOutAsk (s : State) : Option Ask :=
  firstBy (fun a b => a.timeout.getD 0 < b.timeout.getD 0) (s.fetch.asks.filter (fun a => a.sent && s.due a.timeout))

/-- ASK_TIMEOUT (R135). -/
def execAskTimeout (s : State) : Result :=
  .next (match s.timedOutAsk with
    | some a => (s.countAskTimeout.endAsk a .timedOut).settle
    | none => s)

/-- SERVE_READ_COMPLETE (R138, R139). -/
def execServeReadComplete (s : State) : Result :=
  .next (match s.fetch.reading with
    | some r => (s.serveReadDone r).settle
    | none => s)

/-- MANIFEST_READ_COMPLETE (R140): the oldest manifest read in progress completes. -/
def execManifestReadComplete (s : State) : Result :=
  .next (if s.fetch.manifestReads.isEmpty then s else s.manifestReadDone.settle)

end Sys2Proof.Machine
end

