-- ==== Sys2Proof/Machine/AssemblyEvents.lean ====
section
/-! DEFINITION. Meanings of the events of generation assembly and of the pool's writes (chapters 4 and 5), and of the cohort wait
(chapter 8). -/

namespace Sys2Proof.Machine

/-- DIGEST_COMPLETION (R90): the digest of a slot completes; a result for a slot that has drained is discarded. -/
def execDigestCompletion (slot : SlotId) (s : State) : Result :=
  .next (if (s.slot slot).digesting then (s.digestDone slot).settle else s)

/-- SLOT_DRAIN_END (R102): a DRAINING slot with no outstanding ask goes to EMPTY. -/
def execSlotDrainEnd (slot : SlotId) (s : State) : Result :=
  .next (if (s.slot slot).state == .draining && (s.slotAsks slot).isEmpty then (s.vacate slot).settle else s)

/-- ADMISSION_GRANTED (R70): the ADMITTED answer of a grant from the wait list reaches the slot. -/
def execAdmissionGranted (slot : SlotId) (s : State) : Result :=
  .next (if s.pool.grants.contains slot then
      (({ s with pool := { s.pool with grants := s.pool.grants.filter (· != slot) } }).slotAdmitted slot).settle
    else s)

/-- POOL_SEGMENT_WRITE_COMMIT (R66). -/
def execPoolSegmentWriteCommit (s : State) : Result :=
  .next (match s.pool.writing with
    | .segment o keepsPlace => (({ s with pool := { s.pool with writing := .none } }).commitSegment o keepsPlace).settle
    | _ => s)

/-- POOL_INDEX_WRITE_COMMIT (R62, R68). -/
def execPoolIndexWriteCommit (s : State) : Result :=
  .next (match s.pool.writing with
    | .index w => (({ s with pool := { s.pool with writing := .none } }).commitIndex w).settle
    | _ => s)

/-- POOL_WRITE_RETRY (R67): the segment write that waits for room tries again after a pin release. -/
def execPoolWriteRetry (s : State) : Result := .next (s.retryWrite)

/-- PUBLISH_SEGMENT_QUEUE_JOIN (R66): a held PUBLISH-SEGMENT joins the write queue. -/
def execPublishSegmentQueueJoin (s : State) : Result := .next (s.joinQueue.settle)

/-- POOL_REBUILD_COMPLETE (R75, R76, R104, R187): the pool's restoration completes, the GAU restores its slots, and the start ends. -/
def execPoolRebuildComplete (s : State) : Result :=
  .next (if s.supply.power == .starting && s.supply.recordRead && !s.pool.restored then
      let s := s.restoreIndex.restoreSlots
      ({ s with pool := { s.pool with restored := true } }.endOfStart).settle
    else s)

/-- COHORT_WAIT_EXPIRY (R150): the cohort wait timer of a domain expires. -/
def execCohortWaitExpiry (d : Domain) (s : State) : Result :=
  .next (if s.due (s.domain d).timer then (s.cohortExpired d).settle else s)

end Sys2Proof.Machine
end

