-- ==== Sys2Proof/Machine/BankEvents.lean ====
section
/-! DEFINITION. Meanings of the banks' events (chapters 2 and 3). An event of work that the bank does not have in hand changes nothing
(log entry 3). -/

namespace Sys2Proof.Machine

/-- FULL_SCAN_RESUME (R59): a full scan that waits at a failing record goes on once the pool is restored. -/
def execFullScanResume (bank : BankId) (s : State) : Result :=
  .next (match (s.bank bank).work with
    | .recoverWait p => if s.pool.restored then (s.recoverFrom bank p).settle else s
    | _ => s)

/-- APPLY_READ_COMPLETE (R31, R73). -/
def execApplyReadComplete (bank : BankId) (s : State) : Result :=
  .next (match (s.bank bank).work with
    | .applyRead r => (s.applyReadDone bank r).settle
    | _ => s)

/-- BANK_RECORD_COMMIT (R32, R33): a record write of an apply commits. -/
def execBankRecordCommit (bank : BankId) (s : State) : Result :=
  .next (match (s.bank bank).work with
    | .applyEnd run p => (s.applyEndCommit bank run p).settle
    | .applyAdd run => (s.applyAddCommit bank run).settle
    | _ => s)

/-- BANK_HEADER_WRITE_COMMIT (R19): the header write that ends an advance, a compaction, a scrub pass, a recovery or an erasure. -/
def execBankHeaderWriteCommit (bank : BankId) (s : State) : Result := .next ((s.headerCommit bank).settle)

/-- COMPACTION_PLACE_COMMIT (R39). -/
def execCompactionPlaceCommit (bank : BankId) (s : State) : Result :=
  .next (match (s.bank bank).work with
    | .compactFree c p => (s.compactCommit bank c p).settle
    | _ => s)

/-- SCRUB_CHECK_COMPLETION (R50). -/
def execScrubCheckCompletion (bank : BankId) (s : State) : Result :=
  .next (match (s.bank bank).work with
    | .scrubCheck p => (s.scrubChecked bank p).settle
    | _ => s)

/-- R48: an IDLE bank with nothing else to do. -/
def Bank.mayScrub (k : Bank) : Bool :=
  k.state == .idle && !k.scrubDue && k.waiting.isNone && !k.compactWanted && k.hold == .none &&
  (match k.quiesce with
    | .requested _ => false
    | _ => true)

/-- SCRUB_AGE_HALF (R48): the scrub age has passed half the scrub interval. -/
def execScrubAgeHalf (bank : BankId) (s : State) : Result :=
  .next (if s.running && (s.bank bank).mayScrub && s.scrubHalf bank then s.beginScrub bank else s)

/-- R49: scrub due is set by the scrub age. -/
def State.scrubBecomesDue (s : State) (b : BankId) : State :=
  let s := s.banking b (fun k => { k with scrubDue := true })
  if (s.bank b).state == .idle then s.beginScrub b else s

/-- SCRUB_AGE_DUE (R49): the scrub age has reached the scrub interval. A scrub becoming due at a HELD bank waits for the resume (R23,
R29). -/
def execScrubAgeDue (bank : BankId) (s : State) : Result :=
  .next (if s.started && (s.bank bank).state != .faulted && s.scrubInterval ≤ (s.bank bank).header.scrubAge then
      s.scrubBecomesDue bank
    else s)

/-- REPAIR_READ_COMPLETE (R52, R53). -/
def execRepairReadComplete (bank : BankId) (s : State) : Result :=
  .next (match (s.bank bank).work with
    | .repair r => (s.repairReadDone bank r).settle
    | _ => s)

/-- REPAIR_COMPLETION (R54). -/
def execRepairCompletion (bank : BankId) (s : State) : Result :=
  .next (match (s.bank bank).work with
    | .repair r => (s.repairDone bank r).settle
    | _ => s)

/-- RECOVERY_RECORD_COMMIT (R57). -/
def execRecoveryRecordCommit (bank : BankId) (s : State) : Result :=
  .next (match (s.bank bank).work with
    | .recoverWrite p => (s.recoverCommit bank p).settle
    | _ => s)

/-- ERASURE_PLACE_COMMIT (R43). -/
def execErasurePlaceCommit (bank : BankId) (s : State) : Result :=
  .next (match (s.bank bank).work with
    | .eraseFree p => (s.eraseCommit bank p).settle
    | _ => s)

end Sys2Proof.Machine
end

