-- ==== Sys2Proof/Machine/PowerEvents.lean ====
section
/-! DEFINITION. Meanings of the supply, ignition, reset and start events (chapter 10). -/

namespace Sys2Proof.Machine

/-! ## Supply (R181, R190, R191) -/

/-- The lines after a change of the supply reading or of VSEL. -/
def State.supplyReads (s : State) (millivolts : Nat) (vsel24 : Bool) : State :=
  { s with pins := { s.pins with vsense := millivolts, vsel24 := vsel24 } }

/-- R181: the supply was not below the hold threshold and now is. -/
def State.fallsBelowHold (s : State) (millivolts : Nat) (vsel24 : Bool) : Bool :=
  millivolts < Config.holdThreshold vsel24 && Config.holdThreshold s.pins.vsel24 ≤ s.pins.vsense

/-- R181: the supply was not above the run threshold and now is. -/
def State.risesAboveRun (s : State) (millivolts : Nat) (vsel24 : Bool) : Bool :=
  Config.runThreshold vsel24 < millivolts && s.pins.vsense ≤ Config.runThreshold s.pins.vsel24

/-- R190: the power states that a fall below the hold threshold turns into DIP-HOLD. -/
def Power.dips : Power → Bool
  | .starting => true
  | .run => true
  | .parked => true
  | .closing => true
  | _ => false

/-- SUPPLY_FALL: VSENSE and VSEL read as given from now on; below the hold threshold that is a dip where the power state has one. A
reading that has risen above the run threshold is no fall (log entry 3). -/
def execSupplyFall (millivolts : Nat) (vsel24 : Bool) (s : State) : Result :=
  .next (if s.risesAboveRun millivolts vsel24 then s
    else
      let t := s.supplyReads millivolts vsel24
      if s.fallsBelowHold millivolts vsel24 && s.supply.power.dips then t.enterDip.settle else t)

/-- R181, R191: what a rise above the run threshold brings, by power state. -/
def State.supplyRisen (s : State) : State :=
  match s.supply.power with
  | .unpowered => (s.supplying (fun u => { u with ignition := s.pins.ign })).beginStart .powerOn
  | .dipHold => s.dipRise
  | _ => s

/-- SUPPLY_RISE: VSENSE and VSEL read as given from now on, and a rise above the run threshold is an event. A reading that has fallen
below the hold threshold is no rise (log entry 3). -/
def execSupplyRise (millivolts : Nat) (vsel24 : Bool) (s : State) : Result :=
  .next (if s.risesAboveRun millivolts vsel24 then (s.supplyReads millivolts vsel24).supplyRisen.settle
    else if s.fallsBelowHold millivolts vsel24 then s
    else s.supplyReads millivolts vsel24)

/-- SUPPLY_LOSS (R181): the supply fails altogether. -/
def execSupplyLoss (unfinished : Bool) (s : State) : Result :=
  .next (if s.supply.power == .unpowered then s else s.loseSupply unfinished)

/-! ## Ignition and WAKE (R182, R189) -/

/-- R182: the debounced ignition. -/
def State.ignite (s : State) (on : Bool) : State :=
  let s := { s with pins := { s.pins with ign := on } }
  if s.supply.power == .unpowered then s else s.supplying (fun u => { u with ignition := on })

/-- R182: ignition on, by power state; DORMANT starts as R189 gives. -/
def State.ignitionCame (s : State) : State :=
  match s.supply.power with
  | .parked => s.unpark
  | .closing => (s.resumeRunning .run .stopped).settle
  | .dormant => s.dormantStart
  | _ => s

/-- IGNITION_ON. -/
def execIgnitionOn (s : State) : Result :=
  .next (if s.supply.ignition then s.ignite true else (s.ignite true).ignitionCame)

/-- R182: ignition off, by power state. -/
def State.ignitionWent (s : State) : State :=
  match s.supply.power with
  | .run => s.park.settle
  | _ => s

/-- IGNITION_OFF. -/
def execIgnitionOff (s : State) : Result :=
  .next (if s.supply.ignition then (s.ignite false).ignitionWent else s.ignite false)

/-- WAKE_ASSERTED (R189): WAKE stands at `level`. -/
def execWakeAsserted (level : Bool) (s : State) : Result :=
  .next (({ s with pins := { s.pins with wake := level } }).dormantStart)

/-! ## Reset (R183) -/

/-- R183, R143: a reset reaches the header write of a domain, if one has not completed: one that has begun completes to its commit, and none
begins, which leaves the header as its previous write made it. Whether it has begun is a free value (log entry 44). -/
def State.resetDomainHeader (s : State) (d : Domain) : State :=
  match s.domainWrites.get d with
  | none => s
  | some _ =>
    let (n, s) := s.draw
    if Config.headerBegun n then s.commitDomainHeader d else s

/-- R183: a reset is taken. Its extension lasts until 20 ms after RESETN returns high, which is no earlier than now; a second reset lengthens
it. While it lasts the part is shown DORMANT (log entry 27). The writes in progress complete. -/
def State.takeReset (s : State) : State :=
  let s := ((s.finishWrites.resetDomainHeader .block).resetDomainHeader .product).dropBlocks
  s.supplying (fun u => Supply.stopped .dormant u.kind u.ignition u.pendingStart (some (s.clock + Config.resetExtension)))

/-- RESET_TAKEN. -/
def execResetTaken (s : State) : Result :=
  .next (if s.supply.power == .unpowered then s else s.takeReset)

/-- R183: the reset extension ends. -/
def State.resetEnds (s : State) : State :=
  let s := s.supplying (fun u => { u with resetting := none, pendingStart := true })
  s.dormantStart

/-- RESET_EXTENSION_END. -/
def execResetExtensionEnd (s : State) : Result := .next (if s.due s.supply.resetting then s.resetEnds else s)

/-! ## Timers (R188, R191) -/

/-- DIP_TIMER_EXPIRY (R191). -/
def execDipTimerExpiry (s : State) : Result :=
  .next (if s.supply.power == .dipHold && s.due s.supply.dipTimer then s.enterDormant.dormantStart else s)

/-- R188, R190: the parked window timer expires: CLOSING in PARKED, marked expired in DIP-HOLD. -/
def State.windowExpired (s : State) : State :=
  match s.supply.power with
  | .parked => s.enterClosing.settle
  | .dipHold => s.supplying (fun u => { u with parked := .expired })
  | _ => s

/-- PARKED_WINDOW_EXPIRY. -/
def execParkedWindowExpiry (s : State) : Result :=
  .next (match s.supply.parked with
    | .running t => if t ≤ s.clock then s.windowExpired else s
    | _ => s)

/-- STABLE_RUN_EXPIRY (R191): the dip count becomes 0. -/
def execStableRunExpiry (s : State) : Result :=
  .next (if s.due s.supply.stable then
      { s.supplying (fun u => { u with stable := none }) with backup := { s.backup with dips := 0 } }
    else s)

/-! ## Starts and commissioning (R186, R193) -/

/-- R159: STRAP0 is bit 0 and STRAP1 bit 1 of the link rate code (log entry 28). -/
def rateCodeOf (strap0 strap1 : Bool) : Nat := (if strap0 then 1 else 0) + (if strap1 then 2 else 0)

/-- R144, R186: the VCU takes its domain headers, by the nB of the start record (the default where the record cannot be read). -/
def State.takeHeaders (s : State) (r : Option StartRecord) : State :=
  let nB := (r.getD StartRecord.default).nB
  (s.takeDomainHeader .block (allBanks.filter (fun b => b.val < nB))).takeDomainHeader .product
    (allBanks.filter (fun b => nB ≤ b.val))

/-- R193, R187: a start ends in COMMISSIONING. -/
def State.enterCommissioning (s : State) : State :=
  (s.supplying (fun u => { u with power := .commissioning, recordRead := true, settling := false })).raise .start

/-- R186, steps 2 to 4: the start record has been read. -/
def State.recordReadDone (s : State) (strap0 strap1 strap2 : Bool) : State :=
  let s := s.linked (fun l => { l with rateCode := rateCodeOf strap0 strap1 })
  let r := parseStartRecord s.store.startRecord
  let s := s.takeHeaders r
  match r with
  | none => s.enterCommissioning
  | some r =>
    if strap2 && s.backup.cause.cause != .commissioned then s.enterCommissioning
    else ((s.supplying (fun u => { u with recordRead := true, config := r })).startBanks).settle

/-- START_RECORD_READ_COMPLETE, with the straps as sampled. -/
def execStartRecordReadComplete (strap0 strap1 strap2 : Bool) (s : State) : Result :=
  .next (if s.supply.power == .starting && !s.supply.recordRead then s.recordReadDone strap0 strap1 strap2 else s)

/-- R193: a write of the erase commits; the next one follows, and after the fifth a COLD start begins. -/
def State.eraseStep (s : State) (e : Erase) (n : Nat) : State :=
  let s := s.eraseWrite e.record n
  if n < 5 then s.supplying (fun u => { u with erase := some { e with write := some (n + 1) } })
  else (s.supplying (fun u => { u with erase := none })).beginStart .commissioned

/-- COMMISSION_ERASE_WRITE_COMMIT. -/
def execCommissionEraseWriteCommit (s : State) : Result :=
  .next (match s.supply.erase with
    | some e =>
      match e.write with
      | some n => s.eraseStep e n
      | none => s
    | none => s)

end Sys2Proof.Machine
end

