-- ==== Sys2Proof/Machine/Dispatch.lean ====
section
/-! DEFINITION. One arm per command: each arm is one call of the command's meaning. -/

namespace Sys2Proof.Machine

def exec (i : Instr) (s : State) : Host.Outcome State Fault Refusal :=
  match i with
  | .checkMedium medium => Sys2Proof.Machine.execCheckMedium medium s
  | .getProduct number => Sys2Proof.Machine.execGetProduct number s
  | .readStatus => Sys2Proof.Machine.execReadStatus s
  | .readCounters => Sys2Proof.Machine.execReadCounters s
  | .readNotices => Sys2Proof.Machine.execReadNotices s
  | .setNoticeEnable enables => Sys2Proof.Machine.execSetNoticeEnable enables s
  | .readLag => Sys2Proof.Machine.execReadLag s
  | .publishManifest body => Sys2Proof.Machine.execPublishManifest body s
  | .publishSegment body => Sys2Proof.Machine.execPublishSegment body s
  | .parkEnd => Sys2Proof.Machine.execParkEnd s
  | .commission body => Sys2Proof.Machine.execCommission body s
  | .responseRead clocked => Sys2Proof.Machine.execResponseRead clocked s
  | .requestOverrun clocked => Sys2Proof.Machine.execRequestOverrun clocked s
  | .requestBadFrame window => Sys2Proof.Machine.execRequestBadFrame window s
  | .announceReceived h body => Sys2Proof.Machine.execAnnounceReceived h body s
  | .manifestAskReceived h body => Sys2Proof.Machine.execManifestAskReceived h body s
  | .manifestReceived h body => Sys2Proof.Machine.execManifestReceived h body s
  | .segmentAskReceived h body => Sys2Proof.Machine.execSegmentAskReceived h body s
  | .segmentReceived h body => Sys2Proof.Machine.execSegmentReceived h body s
  | .declineReceived h body => Sys2Proof.Machine.execDeclineReceived h body s
  | .transmissionEnd => Sys2Proof.Machine.execTransmissionEnd s
  | .csenseChange busy => Sys2Proof.Machine.execCsenseChange busy s
  | .quietIntervalEnd => Sys2Proof.Machine.execQuietIntervalEnd s
  | .backoffSlotEnd => Sys2Proof.Machine.execBackoffSlotEnd s
  | .creditDue => Sys2Proof.Machine.execCreditDue s
  | .decreaseHoldExpiry => Sys2Proof.Machine.execDecreaseHoldExpiry s
  | .decayTimerExpiry => Sys2Proof.Machine.execDecayTimerExpiry s
  | .announcementTimerExpiry => Sys2Proof.Machine.execAnnouncementTimerExpiry s
  | .staleExpiry peer => Sys2Proof.Machine.execStaleExpiry peer s
  | .removalExpiry peer => Sys2Proof.Machine.execRemovalExpiry peer s
  | .unresponsiveExpiry peer => Sys2Proof.Machine.execUnresponsiveExpiry peer s
  | .busyExpiry peer => Sys2Proof.Machine.execBusyExpiry peer s
  | .askTimeout => Sys2Proof.Machine.execAskTimeout s
  | .serveReadComplete => Sys2Proof.Machine.execServeReadComplete s
  | .manifestReadComplete => Sys2Proof.Machine.execManifestReadComplete s
  | .digestCompletion slot => Sys2Proof.Machine.execDigestCompletion slot s
  | .slotDrainEnd slot => Sys2Proof.Machine.execSlotDrainEnd slot s
  | .admissionGranted slot => Sys2Proof.Machine.execAdmissionGranted slot s
  | .poolSegmentWriteCommit => Sys2Proof.Machine.execPoolSegmentWriteCommit s
  | .poolIndexWriteCommit => Sys2Proof.Machine.execPoolIndexWriteCommit s
  | .poolWriteRetry => Sys2Proof.Machine.execPoolWriteRetry s
  | .publishSegmentQueueJoin => Sys2Proof.Machine.execPublishSegmentQueueJoin s
  | .poolRebuildComplete => Sys2Proof.Machine.execPoolRebuildComplete s
  | .fullScanResume bank => Sys2Proof.Machine.execFullScanResume bank s
  | .applyReadComplete bank => Sys2Proof.Machine.execApplyReadComplete bank s
  | .bankRecordCommit bank => Sys2Proof.Machine.execBankRecordCommit bank s
  | .bankHeaderWriteCommit bank => Sys2Proof.Machine.execBankHeaderWriteCommit bank s
  | .compactionPlaceCommit bank => Sys2Proof.Machine.execCompactionPlaceCommit bank s
  | .scrubCheckCompletion bank => Sys2Proof.Machine.execScrubCheckCompletion bank s
  | .scrubAgeHalf bank => Sys2Proof.Machine.execScrubAgeHalf bank s
  | .scrubAgeDue bank => Sys2Proof.Machine.execScrubAgeDue bank s
  | .repairReadComplete bank => Sys2Proof.Machine.execRepairReadComplete bank s
  | .repairCompletion bank => Sys2Proof.Machine.execRepairCompletion bank s
  | .recoveryRecordCommit bank => Sys2Proof.Machine.execRecoveryRecordCommit bank s
  | .erasurePlaceCommit bank => Sys2Proof.Machine.execErasurePlaceCommit bank s
  | .cohortWaitExpiry d => Sys2Proof.Machine.execCohortWaitExpiry d s
  | .supplyFall millivolts vsel24 => Sys2Proof.Machine.execSupplyFall millivolts vsel24 s
  | .supplyRise millivolts vsel24 => Sys2Proof.Machine.execSupplyRise millivolts vsel24 s
  | .supplyLoss unfinished => Sys2Proof.Machine.execSupplyLoss unfinished s
  | .ignitionOn => Sys2Proof.Machine.execIgnitionOn s
  | .ignitionOff => Sys2Proof.Machine.execIgnitionOff s
  | .resetTaken => Sys2Proof.Machine.execResetTaken s
  | .resetExtensionEnd => Sys2Proof.Machine.execResetExtensionEnd s
  | .wakeAsserted level => Sys2Proof.Machine.execWakeAsserted level s
  | .dipTimerExpiry => Sys2Proof.Machine.execDipTimerExpiry s
  | .parkedWindowExpiry => Sys2Proof.Machine.execParkedWindowExpiry s
  | .stableRunExpiry => Sys2Proof.Machine.execStableRunExpiry s
  | .startRecordReadComplete strap0 strap1 strap2 => Sys2Proof.Machine.execStartRecordReadComplete strap0 strap1 strap2 s
  | .commissionEraseWriteCommit => Sys2Proof.Machine.execCommissionEraseWriteCommit s
  | .receiveFilterDrop frame => Sys2Proof.Machine.execReceiveFilterDrop frame s

end Sys2Proof.Machine
end

