-- ==== Sys2Proof/Machine/Tick.lean ====
section
/-! DEFINITION. The tick of the part's clock, which is what a step on an empty queue does (log entry 2). -/

namespace Sys2Proof.Machine

/-- R47: one microsecond of run time at a bank that is not FAULTED. -/
def Bank.aged (k : Bank) : Bank :=
  if k.state == .faulted then k else { k with header := { k.header with scrubAge := k.header.scrubAge + 1 } }

/-- The part's clock runs in every powered state (Conventions, 00_scope.md), and run time in RUN and PARKED (R47). Domain header writes in
progress complete (log entry 44). -/
def tick (s : State) : State :=
  if s.supply.power == .unpowered then s
  else
    let s := s.commitDomainHeaders
    { s with
      clock := s.clock + 1
      banks := if s.running then s.banks.map Bank.aged else s.banks }

end Sys2Proof.Machine
end

