-- ==== Sys2Proof/WellFormed.lean ====
section
/-! DEFINITION. Which commands can be written by the outside at all: the bounds of their operands. A meaning is total
on every command; what an ill-formed one does is said in log entry 3. -/

namespace Sys2Proof

/-- Bodies of link frames hold 0 to 256 bytes (R160). -/
def bodyFits (body : List Byte) : Bool := body.length ≤ 256

/-- The body lengths of section 12.4 for the requests whose operand is the body itself, and R209's bounds on an enable set and on a
presence set (its bits 15 to 9 clear). -/
def Instr.wf : Instr → Bool
  | .checkMedium _ => true
  | .getProduct _ => true
  | .readStatus => true
  | .readCounters => true
  | .readNotices => true
  | .setNoticeEnable en => en.toNat < 2048
  | .readLag => true
  | .publishManifest body => body.length == 12
  | .publishSegment body => 16 ≤ body.length && body.length ≤ 256
  | .parkEnd => true
  | .commission body => body.length == 25 && (body.getD 0 0#8).toNat < 2
  | .responseRead _ => true
  | .requestOverrun _ => true
  | .requestBadFrame window => window.any (· != 0xFF#8)
  | .announceReceived _ body => bodyFits body
  | .manifestAskReceived _ body => bodyFits body
  | .manifestReceived _ body => bodyFits body
  | .segmentAskReceived _ body => bodyFits body
  | .segmentReceived _ body => bodyFits body
  | .declineReceived _ body => bodyFits body
  | .transmissionEnd => true
  | .csenseChange _ => true
  | .quietIntervalEnd => true
  | .backoffSlotEnd => true
  | .creditDue => true
  | .decreaseHoldExpiry => true
  | .decayTimerExpiry => true
  | .announcementTimerExpiry => true
  | .staleExpiry peer => 1 ≤ peer.toNat && peer.toNat ≤ 65534
  | .removalExpiry peer => 1 ≤ peer.toNat && peer.toNat ≤ 65534
  | .unresponsiveExpiry peer => 1 ≤ peer.toNat && peer.toNat ≤ 65534
  | .busyExpiry peer => 1 ≤ peer.toNat && peer.toNat ≤ 65534
  | .askTimeout => true
  | .serveReadComplete => true
  | .manifestReadComplete => true
  | .digestCompletion _ => true
  | .slotDrainEnd _ => true
  | .admissionGranted _ => true
  | .poolSegmentWriteCommit => true
  | .poolIndexWriteCommit => true
  | .poolWriteRetry => true
  | .publishSegmentQueueJoin => true
  | .poolRebuildComplete => true
  | .fullScanResume _ => true
  | .applyReadComplete _ => true
  | .bankRecordCommit _ => true
  | .bankHeaderWriteCommit _ => true
  | .compactionPlaceCommit _ => true
  | .scrubCheckCompletion _ => true
  | .scrubAgeHalf _ => true
  | .scrubAgeDue _ => true
  | .repairReadComplete _ => true
  | .repairCompletion _ => true
  | .recoveryRecordCommit _ => true
  | .erasurePlaceCommit _ => true
  | .cohortWaitExpiry _ => true
  | .supplyFall _ _ => true
  | .supplyRise _ _ => true
  | .supplyLoss _ => true
  | .ignitionOn => true
  | .ignitionOff => true
  | .resetTaken => true
  | .resetExtensionEnd => true
  | .wakeAsserted _ => true
  | .dipTimerExpiry => true
  | .parkedWindowExpiry => true
  | .stableRunExpiry => true
  | .startRecordReadComplete _ _ _ => true
  | .commissionEraseWriteCommit => true
  | .receiveFilterDrop _ => true

end Sys2Proof
end

