-- ==== Sys2Proof/Safety.lean ====
section
/-! DEFINITION. What the statements about the part speak of: the bounds and canonical forms that every step keeps, the parts of the
state that the running out of an event leaves alone, and the port requests as a family. -/

namespace Sys2Proof.Machine

/-- Each of the sixteen counters is at most 65,535 (R202). -/
def Counters.bounded (c : Counters) : Prop := ∀ n ∈ c.list, n ≤ 65535

/-- The bounds and canonical forms of the state: records and segments stand in places that exist, in rising order (log entry 4); the
counters, notice flags and enables stay within their widths (R201, R202); and the lists the spec bounds hold no more than it allows
(R66, R85, R106, R123, R137, R153, R161) and one record a station (R106), as do the dip count (R180), the pacing credit and the DATA wait count (R163, R166). -/
structure State.Inv (s : State) : Prop where
  places : ∀ b : BankId, Memory.wf Config.bankPlaces (s.places b) = true
  cells : Memory.wf Config.poolPlaces s.store.cells = true
  counters : s.port.counters.bounded
  flags : s.port.flags.toNat < 2048
  enables : s.port.enables.toNat < 2048
  asks : s.fetch.asks.length ≤ Config.askEntries
  serve : s.fetch.serve.length ≤ Config.serveEntries
  control : s.link.control.length ≤ Config.controlPlaces
  lag : s.lag.length ≤ Config.lagEntries
  peers : s.peers.length ≤ Config.peerRecords
  stations : (s.peers.map Peer.station).Nodup
  barred : s.backup.barred.length ≤ Config.barredDigests
  queue : s.pool.queueLoad ≤ Config.writeQueuePlaces
  credit : s.link.credit ≤ 4
  dataWait : s.link.dataWait ≤ 3
  dips : s.backup.dips ≤ 255

/-- A peer's record less what the queuing of an ask changes in it (R114). -/
def Peer.unasked (p : Peer) : Peer := { p with asks := 0, asked := none }

/-- R110: what the header of a frame from a station with a record makes of the record's counts and periods: a gap of 256 or more in the sequence
starts them anew, a smaller one adds to the loss score, and every sixteenth frame received lowers the score by 1. -/
def Peer.countsAfter (p : Peer) (h : LinkHeader) (q : Peer) : Prop :=
  (256 ≤ (h.sequence - p.sequence - 1).toNat →
    q.loss = 0 ∧ q.received = 1 ∧ q.timeouts = 0 ∧ q.unresponsive = none ∧ q.busy = none) ∧
  ((h.sequence - p.sequence - 1).toNat < 256 →
    q.timeouts = p.timeouts ∧ q.unresponsive = p.unresponsive ∧ q.busy = p.busy ∧
    (p.received + 1 = 16 → q.received = 0 ∧ q.loss = min 15 (p.loss + (h.sequence - p.sequence - 1).toNat) - 1) ∧
    (p.received + 1 ≠ 16 →
      q.received = p.received + 1 ∧ q.loss = min 15 (p.loss + (h.sequence - p.sequence - 1).toNat)))

/-- A peer record less what its asks, the body of an ANNOUNCE and a failing segment change: what only a header writes. -/
def Peer.headed (p : Peer) : Peer :=
  { p.unasked with
    loss := 0, timeouts := 0, unresponsive := none, busy := none, parked := false
    values := { block := Announced.none, product := Announced.none } }

/-- R108: the record that the header of a new station's frame makes, before the frame's body is used. -/
def State.entered (s : State) (h : LinkHeader) : Peer :=
  { station := h.sender.toNat, vehicle := h.vehicle.toNat, cohort := h.vehicle.toNat == s.supply.config.vehicle,
    state := .known, heard := s.clock, sequence := h.sequence, received := 1, loss := 0, timeouts := 0,
    unresponsive := none, busy := none, asks := 0, asked := none, congested := h.flags.getLsbD 0,
    parked := false, values := { block := Announced.none, product := Announced.none }, removalDue := false }

/-- R109: the one of two records that a new station displaces first: the one heard earlier, or at the same instant the higher numbered. -/
def Peer.goesBefore (p x : Peer) : Prop := p.heard < x.heard ∨ (p.heard = x.heard ∧ x.station < p.station)

/-- R109: the record that a new station displaces in a full table: the first STALE one without asks, or, without any such, the first KNOWN one
outside the cohort without asks. -/
def State.displaced (s : State) (p : Peer) : Prop :=
  p ∈ s.peers ∧ p.asks = 0 ∧
  (p.state = .stale ∧ (∀ x ∈ s.peers, x.state = .stale → x.asks = 0 → x = p ∨ p.goesBefore x) ∨
   p.state = .known ∧ p.cohort = false ∧ (∀ x ∈ s.peers, ¬ (x.state = .stale ∧ x.asks = 0)) ∧
    ∀ x ∈ s.peers, x.state = .known → x.cohort = false → x.asks = 0 → x = p ∨ p.goesBefore x)

/-- A slot as it was, but for a reservation that the wait list has granted it meanwhile (R70). -/
def Slot.keptAs (x y : Slot) : Prop := { y with admitted := x.admitted } = x

/-- R102: what a slot is that has drained: EMPTY, or, while an ask formed for it is outstanding, DRAINING with its manifest and its presence set
cleared. -/
def State.slotDrained (s : State) (i : SlotId) (y : Slot) : Prop :=
  (s.slotAsks i = [] → y = Slot.empty) ∧
  (s.slotAsks i ≠ [] → y.state = .draining ∧ y.domain = (s.slot i).domain ∧ y.gen = (s.slot i).gen ∧ y.manifest = none ∧
    y.presence = [] ∧ y.cursors = Vector.replicate 16 ApplyCursor.initial)

/-- R101: a slot that drains when the BASELINE of slot `i` enters VERIFIED: an earlier generation of its domain without a BASELINE manifest, and
not APPLYING. -/
def State.overtakenBy (s : State) (i j : SlotId) : Prop :=
  (s.slot j).domain = (s.slot i).domain ∧ (s.slot j).gen < (s.slot i).gen ∧
  (∀ m, (s.slot j).manifest = some m → m.kind ≠ .baseline) ∧
  ((s.slot j).state = .manifestWanted ∨ (s.slot j).state = .admitWait ∨ (s.slot j).state = .collecting ∨
    (s.slot j).state = .verified ∨ (s.slot j).state = .blocked)

/-- What the running out of an event leaves alone in a power state that it does not end (log entry 7): the lines; the SUP's state, its settling mark apart;
the lag list, the peer records less their asks, the serve queue and the manifest reads; the notice enables; the LNK's rate, its timers and the low-rate state; and record
places, segment places, the pool index, the start record, the barred list, the dip count and the start cause. -/
structure State.still (s t : State) : Prop where
  pins : t.pins = s.pins
  supply : { t.supply with settling := false } = { s.supply with settling := false }
  lag : t.lag = s.lag
  peers : ∀ n, (t.peer n).map Peer.unasked = (s.peer n).map Peer.unasked
  serve : t.fetch.serve = s.fetch.serve
  manifestReads : t.fetch.manifestReads = s.fetch.manifestReads
  enables : t.port.enables = s.port.enables
  asr : t.link.asr = s.link.asr
  increase : t.link.increase = s.link.increase
  lowRate : t.link.lowRate = s.link.lowRate
  decreaseHold : t.link.decreaseHold = s.link.decreaseHold
  decay : t.link.decay = s.link.decay
  announceAt : t.link.announceAt = s.link.announceAt
  places : t.store.places = s.store.places
  cells : t.store.cells = s.store.cells
  index : t.store.index = s.store.index
  startRecord : t.store.startRecord = s.store.startRecord
  barred : t.backup.barred = s.backup.barred
  dips : t.backup.dips = s.backup.dips
  cause : t.backup.cause = s.backup.cause

/-- The port is free to take a request: none is in progress and no response is unread (R195). -/
def State.portFree (s : State) : Prop := s.port.inProgress = none ∧ s.port.response = none

/-- R196: the state once a window that carries a request has ended on a busy port without having clocked out an unread response. -/
def State.overrunBy (s : State) : State :=
  { s with port := { s.port with
      overrun := true, counters := { s.port.counters with overruns := min 65535 (s.port.counters.overruns + 1) } } }

/-- RUN, PARKED or CLOSING, in which the port hands every request but a publish in CLOSING to its own rule (R197). -/
def State.serving (s : State) : Prop :=
  s.supply.power = .run ∨ s.supply.power = .parked ∨ s.supply.power = .closing

/-- The body bytes of a port request (section 12.4). -/
def requestBody : Instr → List Byte
  | .checkMedium m => toBytes 8 m.toNat
  | .getProduct n => toBytes 2 n.toNat
  | .setNoticeEnable e => toBytes 2 e.toNat
  | .publishManifest b => b
  | .publishSegment b => b
  | .commission b => b
  | _ => []

/-- The request kind of a command that is one of the eleven port requests. -/
def requestKindOf : Instr → Option RequestKind
  | .checkMedium _ => some .checkMedium
  | .getProduct _ => some .getProduct
  | .readStatus => some .readStatus
  | .readCounters => some .readCounters
  | .readNotices => some .readNotices
  | .setNoticeEnable _ => some .setNoticeEnable
  | .readLag => some .readLag
  | .publishManifest _ => some .publishManifest
  | .publishSegment _ => some .publishSegment
  | .parkEnd => some .parkEnd
  | .commission _ => some .commission
  | .responseRead _ => none
  | .requestOverrun _ => none
  | .requestBadFrame _ => none
  | .announceReceived _ _ => none
  | .manifestAskReceived _ _ => none
  | .manifestReceived _ _ => none
  | .segmentAskReceived _ _ => none
  | .segmentReceived _ _ => none
  | .declineReceived _ _ => none
  | .transmissionEnd => none
  | .csenseChange _ => none
  | .quietIntervalEnd => none
  | .backoffSlotEnd => none
  | .creditDue => none
  | .decreaseHoldExpiry => none
  | .decayTimerExpiry => none
  | .announcementTimerExpiry => none
  | .staleExpiry _ => none
  | .removalExpiry _ => none
  | .unresponsiveExpiry _ => none
  | .busyExpiry _ => none
  | .askTimeout => none
  | .serveReadComplete => none
  | .manifestReadComplete => none
  | .digestCompletion _ => none
  | .slotDrainEnd _ => none
  | .admissionGranted _ => none
  | .poolSegmentWriteCommit => none
  | .poolIndexWriteCommit => none
  | .poolWriteRetry => none
  | .publishSegmentQueueJoin => none
  | .poolRebuildComplete => none
  | .fullScanResume _ => none
  | .applyReadComplete _ => none
  | .bankRecordCommit _ => none
  | .bankHeaderWriteCommit _ => none
  | .compactionPlaceCommit _ => none
  | .scrubCheckCompletion _ => none
  | .scrubAgeHalf _ => none
  | .scrubAgeDue _ => none
  | .repairReadComplete _ => none
  | .repairCompletion _ => none
  | .recoveryRecordCommit _ => none
  | .erasurePlaceCommit _ => none
  | .cohortWaitExpiry _ => none
  | .supplyFall _ _ => none
  | .supplyRise _ _ => none
  | .supplyLoss _ => none
  | .ignitionOn => none
  | .ignitionOff => none
  | .resetTaken => none
  | .resetExtensionEnd => none
  | .wakeAsserted _ => none
  | .dipTimerExpiry => none
  | .parkedWindowExpiry => none
  | .stableRunExpiry => none
  | .startRecordReadComplete _ _ _ => none
  | .commissionEraseWriteCommit => none
  | .receiveFilterDrop _ => none

/-- R195, R209: the command is a window of `n` bytes that carries a request: one of the eleven requests, whose window is its frame alone (the
model's choice, log entry 58), a bad frame, or an overrun. -/
def carriesRequest (c : Instr) (n : Nat) : Prop :=
  ((requestKindOf c).isSome = true ∧ n = 5 + (requestBody c).length) ∨
  (∃ w kind, c = .requestBadFrame w ∧ readWindow w = .bad kind ∧ n = w.length) ∨ c = .requestOverrun n

/-! ## Words of the statements -/

/-- The port with a response placed for a request: none in progress, the overrun mark taken from the port and cleared (R195, R196). -/
def State.withResponse (s : State) (kind : Byte) (o : OutcomeCode) (body : List Byte) : State :=
  { s with port := { s.port with
      inProgress := none, overrun := false
      response := some { kind := kind, outcome := o.code, overrun := s.port.overrun, body := body } } }

/-- Between events, with nothing left to bring about: no message, pass, pool write, apply or request is due, the arbiter has no choice to
make and no serve read to begin, and no COLD start settles (log entry 7). -/
def State.rests (s : State) : Prop :=
  s.settleOnce = none ∧ s.arbiter = s ∧ s.beginServeRead = s ∧ s.settleCold = s

/-- A lookup: its request kind, domain and key (R199). -/
def lookupOf : Instr → Option (RequestKind × Domain × Nat)
  | .checkMedium m => some (.checkMedium, .block, m.toNat)
  | .getProduct n => some (.getProduct, .product, n.toNat)
  | _ => none

/-- R11: `f` is F(v) of a baseline list: the greatest entry at most `v`, or 0. -/
def IsFloor (l : List Gen) (v f : Gen) : Prop := (f ∈ l ∨ f = 0) ∧ f ≤ v ∧ ∀ g ∈ l, g ≤ v → g ≤ f

/-- R11: the record is live at `v` under the floor `f`. -/
def Record.lives (r : Record) (f v : Gen) : Prop :=
  f ≤ r.added ∧ r.added ≤ v ∧ (r.removed = none ∨ ∃ g, r.removed = some g ∧ v < g) ∧ r.good = true

/-- A link frame: its kind, header and body. -/
def frameOf : Instr → Option (FrameKind × LinkHeader × List Byte)
  | .announceReceived h b => some (.announce, h, b)
  | .manifestAskReceived h b => some (.manifestAsk, h, b)
  | .manifestReceived h b => some (.manifest, h, b)
  | .segmentAskReceived h b => some (.segmentAsk, h, b)
  | .segmentReceived h b => some (.segment, h, b)
  | .declineReceived h b => some (.decline, h, b)
  | _ => none

/-- R173: the frame is well formed: its body length is the number of body bytes and one its kind allows (R207), and its addressee is 0
in an ANNOUNCE and a station in any other frame. -/
def frameFormed (k : FrameKind) (h : LinkHeader) (body : List Byte) : Prop :=
  h.bodyLength.toNat = body.length ∧ bodyLengthOk k body.length = true ∧
  (if k = .announce then h.addressee = 0#16 else h.addressee ≠ 0#16 ∧ h.addressee ≠ 65535#16)

/-- R173: the frame is of this fleet and another station's. -/
def State.frameOurs (s : State) (h : LinkHeader) : Prop :=
  h.fleet = s.supply.config.fleet ∧ h.sender.toNat ≠ s.supply.config.station

/-- A frame that the receive filter passes (R173) in RUN or PARKED, from a sender number that the peer table takes (R107). -/
def State.frameTaken (s : State) (k : FrameKind) (h : LinkHeader) (body : List Byte) : Prop :=
  s.running = true ∧ frameFormed k h body ∧ s.frameOurs h ∧ h.sender ≠ 0#16 ∧ h.sender ≠ 65535#16

/-- The lines, the SUP's state but its settling mark, the record places, segment places, pool index and start record in store memory, the
barred list, the dip count and the start cause, and the notice enables are alike: what no frame of the link writes. -/
structure State.sameStore (s t : State) : Prop where
  pins : t.pins = s.pins
  supply : { t.supply with settling := false } = { s.supply with settling := false }
  places : t.store.places = s.store.places
  cells : t.store.cells = s.store.cells
  index : t.store.index = s.store.index
  startRecord : t.store.startRecord = s.store.startRecord
  barred : t.backup.barred = s.backup.barred
  dips : t.backup.dips = s.backup.dips
  cause : t.backup.cause = s.backup.cause
  enables : t.port.enables = s.port.enables

/-- The state with one counter counted (R202). -/
def State.counted (s : State) (f : Counters → Counters) : State :=
  { s with port := { s.port with counters := f s.port.counters } }

/-- R202: a counter goes up by 1 and stays at 65,535. -/
def upOne (n : Nat) : Nat := min 65535 (n + 1)

/-- R165: a transmission of the chosen frame `c` starts: its bytes stand on LTX with the own sequence counter and the congestion mark, the
counter goes up by 1, and a paced frame takes one credit, which starts the credit clock when it stood. -/
def State.starts (s : State) (c : Chosen) (t : State) : Prop :=
  t = { s with link := t.link } ∧
  (∃ c' : Chosen, t.link.chosen = some c' ∧ c'.cls = c.cls ∧ c'.frame = c.frame ∧ c'.phase = .sending ∧
    c'.line = frameBytes s.supply.config.fleet c.frame.kind s.supply.config.station s.supply.config.vehicle s.link.sequence
      (s.supply.config.congestion ≤ s.load) c.frame.addressee c.frame.body) ∧
  t.link.sequence = s.link.sequence + 1 ∧
  t.link.credit = (if c.cls = .announce then s.link.credit else s.link.credit - 1) ∧
  t.link.creditFrom = (if c.cls ≠ .announce ∧ s.link.creditFrom = none then some s.clock else s.link.creditFrom)

/-- R147: the advance test passes `g`: the cohort is of one, every KNOWN cohort member holds `g`, or one of them shows it or a later one. -/
def State.agrees (s : State) (d : Domain) (g : Gen) : Prop :=
  s.supply.config.cohortSize = 1 ∨
  (∀ p ∈ s.peers, p.cohort = true → p.state = .known → g ≤ (p.values.get d).held) ∨
  ∃ p ∈ s.peers, p.cohort = true ∧ p.state = .known ∧ g ≤ (p.values.get d).visible

/-- R71: the servable baseline of a domain is `g`: the highest generation whose servable entry is a BASELINE. -/
def State.sparedBaseline (s : State) (d : Domain) (g : Gen) : Prop :=
  (∃ x ∈ s.store.index.entries, x.manifest.domain = d ∧ x.manifest.kind = .baseline ∧ x.servable = true ∧ x.manifest.gen = g) ∧
  ∀ x ∈ s.store.index.entries, x.manifest.domain = d → x.manifest.kind = .baseline → x.servable = true → x.manifest.gen ≤ g

/-- R72: an eviction takes `a` before `b`: a generation that is not its domain's servable baseline first, then one that no KNOWN peer needs;
next the one further below its domain's held generation; and on equal distance BLOCK. -/
def State.givenUpBefore (s : State) (a b : ManifestEntry) : Prop :=
  let spared (x : ManifestEntry) : Prop := s.sparedBaseline x.manifest.domain x.manifest.gen
  let needed (x : ManifestEntry) : Prop :=
    spared x ∧ ∃ p ∈ s.peers, p.state = .known ∧ (p.values.get x.manifest.domain).needsBaseline = true
  let below (x : ManifestEntry) : Int := ((s.domain x.manifest.domain).held : Int) - (x.manifest.gen : Int)
  (¬ spared a ∧ spared b) ∨ (spared a ∧ ¬ needed a ∧ needed b) ∨
  ((spared a ↔ spared b) ∧ (needed a ↔ needed b) ∧
    (below b < below a ∨ below a = below b ∧ a.manifest.domain = .block ∧ b.manifest.domain = .product))

/-- R72: an entry that an eviction may take: verified and without a pin. -/
def State.evictable (s : State) (x : ManifestEntry) : Prop :=
  x ∈ s.store.index.entries ∧ x.verified = true ∧ ∀ p ∈ s.pool.pins, ¬ (p.domain = x.manifest.domain ∧ p.gen = x.manifest.gen)

/-- R72: the entry that the next eviction takes. -/
def State.evicts (s : State) (x : ManifestEntry) : Prop :=
  s.evictable x ∧ ∀ y, s.evictable y → y = x ∨ s.givenUpBefore x y

/-- R67: evictions take the listed generations one after the other, each because no place is free, and then one is. -/
def State.evictsInTurn (s : State) : List ManifestEntry → Prop
  | [] => lowestUnused 0 s.store.index.used < 65536
  | x :: xs => 65536 ≤ lowestUnused 0 s.store.index.used ∧ s.evicts x ∧ (s.removeEntry x).evictsInTurn xs

/-- Two entries of one domain and generation. -/
def ManifestEntry.sameGen (a b : ManifestEntry) : Prop := a.manifest.domain = b.manifest.domain ∧ a.manifest.gen = b.manifest.gen

/-- The pool index after evictions of the listed generations: their entries have left it, and the places of their segments are free (R72). -/
structure State.indexWithout (s : State) (xs : List ManifestEntry) (ix : PoolIndex) : Prop where
  entries : ∀ y, y ∈ ix.entries ↔ y ∈ s.store.index.entries ∧ ∀ x ∈ xs, ¬ y.sameGen x
  used : ∀ q, q ∈ ix.used ↔ q ∈ s.store.index.used ∧ ∀ x ∈ xs, ∀ c, placeGet q s.store.cells = some c → c.stamp ≠ x.stamp
  stampSource : ix.stampSource = s.store.index.stampSource

/-- R67: the newest slot of the wait list that holds places is `i`, with the entry `e`. -/
def State.newestHolder (s : State) (i : SlotId) (e : ManifestEntry) : Prop :=
  ∃ older newer, s.pool.waitList = older ++ i :: newer ∧ s.entry (s.slot i).domain (s.slot i).gen = some e ∧ e.present ≠ [] ∧
    ∀ j ∈ newer, ∀ x, s.entry (s.slot j).domain (s.slot j).gen = some x → x.present = []

/-- R66, R67: the segment write of `o` needs no eviction: a place is free, or the write stores nothing. -/
def State.freeFor (s : State) (o : Offer) : Prop :=
  lowestUnused 0 s.store.index.used < 65536 ∨ ∀ e, s.entry o.domain o.gen = some e → e.verified = true ∨ o.index ∈ e.present

/-- R67: the segment write of `o` finds no free place, and has one once generations of others are given up, or the newest slot of the wait
list that holds places is emptied. -/
def State.roomToMakeFor (s : State) (o : Offer) : Prop :=
  ∃ e, s.entry o.domain o.gen = some e ∧ e.verified = false ∧ o.index ∉ e.present ∧ 65536 ≤ lowestUnused 0 s.store.index.used ∧
    ((∃ xs, s.evictsInTurn xs ∧ xs.length ≤ 128 ∧ ∀ x ∈ xs, ¬ e.sameGen x) ∨
     (∀ x, ¬ s.evictable x) ∧ ∃ i h, s.newestHolder i h ∧ ¬ e.sameGen h ∧
      lowestUnused 0 (usedWithout s.store.cells h.stamp s.store.index.used) < 65536)

/-- R67: the segment write of `o` has to wait: it would be stored, no place is free, nothing can be given up, and no slot of the wait list
holds places. -/
def State.noRoomFor (s : State) (o : Offer) : Prop :=
  ∃ e, s.entry o.domain o.gen = some e ∧ e.verified = false ∧ o.index ∉ e.present ∧ 65536 ≤ lowestUnused 0 s.store.index.used ∧
    (∀ x, ¬ s.evictable x) ∧ ∀ i h, ¬ s.newestHolder i h

/-- R65: something pins the entry of a domain and generation. -/
def State.pinned (s : State) (d : Domain) (g : Gen) : Prop := ∃ p ∈ s.pool.pins, p.domain = d ∧ p.gen = g

/-- R65: a slot pins the entry of a domain and generation. -/
def State.slotPinned (s : State) (d : Domain) (g : Gen) : Prop :=
  ∃ p ∈ s.pool.pins, p.domain = d ∧ p.gen = g ∧ ∃ i, p.holder = .slot i

/-- What slot `i` is after a segment of an index new to it was stored (R88, R90, R95): the presence entry is added; the digest computation of a
COLLECTING slot begins when the set is whole; and a PUBLISH-SEGMENT that does not make it whole is answered STORED with the new count. The
messages `m` go out. -/
structure State.segmentAdded (s : State) (o : Offer) (i : SlotId) (m : List Msg) (u : State) : Prop where
  presence : (s.slot i).state = .collecting ∨ (s.slot i).state = .admitWait ∨ (s.slot i).presence.length + 1 ≠ (s.slot i).count →
    (∀ p : Presence, p ∈ (u.slot i).presence ↔ p ∈ (s.slot i).presence ∨
      p = { index := o.index, crc := segCrc o.bytes, bank := segBank o.bytes, ops := segOpCount o.bytes, source := o.source }) ∧
    (u.slot i).presence.length = (s.slot i).presence.length + 1 ∧ (u.slot i).state = (s.slot i).state ∧
    (∀ x ∈ s.todo.mail ++ m, x ∈ u.todo.mail) ∧ ∀ j, j ≠ i → u.slot j = s.slot j
  more : (s.slot i).presence.length + 1 ≠ (s.slot i).count ∨ (s.slot i).state = .admitWait →
    (u.slot i).digesting = (s.slot i).digesting ∧
    (o.publish = false → u.port.inProgress = s.port.inProgress ∧ u.port.response = s.port.response) ∧
    (o.publish = true → u.port.inProgress = none ∧ u.port.response = some
      { kind := RequestKind.publishSegment.code, outcome := OutcomeCode.stored.code, overrun := s.port.overrun
        body := toBytes 2 ((s.slot i).presence.length + 1) ++ toBytes 2 (s.slot i).count })
  whole : (s.slot i).presence.length + 1 = (s.slot i).count → (s.slot i).state = .collecting →
    (u.slot i).digesting = true ∧ u.port.response = s.port.response ∧
    u.port.inProgress = (if o.publish = true then some (.segmentDigest i) else s.port.inProgress)

/-- Outside CLOSING and DORMANT what the event still brings about writes no store memory. -/
def State.storeStays (u : State) : Prop :=
  u.supply.power ≠ .closing → u.supply.power ≠ .dormant →
    u.settle.store.cells = u.store.cells ∧ u.settle.store.index = u.store.index ∧ u.settle.store.places = u.store.places ∧
    u.settle.store.startRecord = u.store.startRecord

/-- The commit of the segment write `o` stores it for the entry `e`, the pool index being `ix` by then: the segment, tagged with the entry's
stamp and its index, stands in the lowest place free in `ix` (the lowest is the model's choice, log entry 4), index and place have joined the pool
index, no other segment place, no record place and no start record changes, the slot of the generation has the segment, and the messages `m` go
out. It is so in every power state, the holds of CLOSING and DIP-HOLD among them (R74). -/
def State.segmentCommits (s : State) (o : Offer) (e : ManifestEntry) (ix : PoolIndex) (m : List Msg) : Prop :=
  ∃ u : State, exec .poolSegmentWriteCommit s = .next u.settle ∧ u.supply.power = s.supply.power ∧ u.storeStays ∧
    placeGet (lowestUnused 0 ix.used) u.store.cells = some { stamp := e.stamp, index := o.index, bytes := o.bytes } ∧
    (∀ q, q ≠ lowestUnused 0 ix.used → placeGet q u.store.cells = placeGet q s.store.cells) ∧
    u.store.index = { ix.update { e with present := useInsert o.index e.present } with
      used := useInsert (lowestUnused 0 ix.used) ix.used } ∧
    u.store.places = s.store.places ∧ u.store.startRecord = s.store.startRecord ∧
    ∀ i : SlotId, s.slotHolding o.domain o.gen = some i → (s.slot i).entered = true →
      (∀ p ∈ (s.slot i).presence, p.index ≠ o.index) → s.segmentAdded o i m u

/-- The bank has no other work to turn to at the end of an operation (R25): no scrub due, no request waiting, no compaction wanted, no quiesce
to acknowledge and no hold. -/
structure Bank.unoccupied (k : Bank) : Prop where
  scrubDue : k.scrubDue = false
  waiting : k.waiting = none
  compactWanted : k.compactWanted = false
  hold : k.hold = .none
  quiesce : ∀ g, k.quiesce ≠ .requested g

/-- The commit of bank `b`'s header write ends its operation (R19, R25): the bank is IDLE with the header `h` and the quiesce `q`, the header
in store memory holds `h` with, unless `cursor`, the scrub cursor and age last written, the messages `m` go out, and neither another bank nor
any record place changes. -/
def State.operationEnds (s : State) (b : BankId) (h : BankHeader) (q : Quiesce) (m : List Msg) (cursor : Bool) : Prop :=
  ∃ u : State, exec (.bankHeaderWriteCommit b) s = .next u.settle ∧
    u.bank b = { s.bank b with
      state := .idle, work := .none, header := h, quiesce := q, scrubDue := false, fullScan := (u.bank b).fullScan } ∧
    u.store.headers[b] = StoredHeader.sealed (if cursor = true then h else
      { h with scrubCursor := s.store.headers[b].fields.scrubCursor, scrubAge := s.store.headers[b].fields.scrubAge }) ∧
    u.todo.mail = s.todo.mail ++ m ∧ u.store.places = s.store.places ∧ ∀ e, e ≠ b → u.bank e = s.bank e

/-- R57, R59: the bank's header at the end of its recovery: no open generation and, after a full scan, the free places counted and a scrub cursor
and age of 0. -/
def State.recoveredHeader (s : State) (b : BankId) : BankHeader :=
  if (s.bank b).fullScan = true then
    { (s.bank b).header with applyOpen := none, freeCount := 65536 - (s.places b).length, scrubCursor := 0, scrubAge := 0 }
  else { (s.bank b).header with applyOpen := none }

/-- R25, R57, R59: what follows the header write that ends a recovery, the compaction wanted flag being set as at every start (R21): a
quiesce that is REQUESTED is acknowledged; then comes a due scrub, else the waiting request, else the compaction at the visible generation, over
the record places from 0 on; under a pending hold the bank is HELD. `h` is the header of the recovered bank and `k` what store memory holds
of it. -/
structure State.afterRecovery (s : State) (b : BankId) (h k : BankHeader) (u : State) : Prop where
  quiesced : (s.bank b).hold = .none → ∀ g, (s.bank b).quiesce = .requested g →
    (u.bank b).quiesce = .inForce g ∧ .bankReport b (.quiesced g) ∈ u.todo.mail
  scrubs : (s.bank b).hold = .none → (s.bank b).scrubDue = true →
    (u.bank b).state = .scrubbing ∧ (u.bank b).compactWanted = true ∧
    (u.bank b).header = { h with scrubCursor := (u.bank b).header.scrubCursor } ∧ u.store.headers[b] = StoredHeader.sealed k
  compacts : (s.bank b).hold = .none → (s.bank b).scrubDue = false → (s.bank b).waiting = none →
    (u.bank b).state = .compacting ∧ (u.bank b).compactWanted = false ∧
    (u.bank b).header = { h with scrubCursor := (u.bank b).header.scrubCursor } ∧ u.store.headers[b] = StoredHeader.sealed k ∧
    ∃ c : CompactRun, c.visible = (s.domain (s.bankDomain b)).visible ∧ IsFloor h.baselines c.visible c.floor ∧ c.next = 0 ∧ c.freed = 0 ∧
      ((u.bank b).work = .compactHeader c ∨ ∃ p, (u.bank b).work = .compactFree c p)
  applies : ∀ r, (s.bank b).hold = .none → (s.bank b).scrubDue = false → (s.bank b).waiting = some r →
    (r.kind = .delta ∧ (s.bank b).quiesce = .absent ∧ h.applied + 1 = r.gen ∨
      r.kind = .baseline ∧ (s.bank b).quiesce = .inForce r.gen ∧ h.applied < r.gen) →
    (u.bank b).state = .applying ∧ (u.bank b).waiting = none ∧ (u.bank b).compactWanted = true ∧
    (u.bank b).work = (if r.segment = none then .advance r else .applyRead r) ∧ .bankReport b (.taken r.gen r.segment) ∈ u.todo.mail ∧
    (u.bank b).header = { h with applyOpen := if r.segment ≠ none ∧ r.first = true ∧ r.cursor = 0 then some r.gen else none } ∧
    u.store.headers[b] = StoredHeader.sealed
      { k with applyOpen := if r.segment ≠ none ∧ r.first = true ∧ r.cursor = 0 then some r.gen else none }
  held : (s.bank b).hold ≠ .none →
    (u.bank b).state = .held ∧ (u.bank b).prior = some .idle ∧ (u.bank b).header = h ∧ u.store.headers[b] = StoredHeader.sealed h

/-- R99, R145, R147: generation `g` of domain `d` is reported applied, its slot having been `i`: it becomes the held generation and joins the
pending list, whose entries that pass the advance test become visible at once; the domain header is written; the slot's pin is released; and the
slot has given the generation up: it is EMPTY, unless the opening pass of the event takes it for a later one. Where no other slot of the domain
drains and no slot waits for admission, the slot's reservation is released and no other slot changes. -/
structure State.appliedAt (s : State) (i : SlotId) (d : Domain) (g : Gen) (w : State) : Prop where
  held : (w.domain d).held = g
  pending : ∃ passed left, (s.domain d).pending ++ [g] = passed ++ left ∧ (∀ x ∈ passed, s.agrees d x) ∧
    (∀ x, left.head? = some x → ¬ s.agrees d x) ∧ (w.domain d).pending = left ∧
    (w.domain d).visible = (match passed.getLast? with
      | some v => v
      | none => (s.domain d).visible) ∧
    (passed = [] → (w.domain d).timer = (if (s.domain d).pending = [] then some (s.clock + s.supply.config.cohortWait * 1000000)
      else (s.domain d).timer)) ∧
    (passed ≠ [] → (w.domain d).timer = (if left = [] then none else some (s.clock + s.supply.config.cohortWait * 1000000)))
  header : w.domainWrites.get d = some (DomainHeader.sealed
    { held := g, visible := (w.domain d).visible, pending := (w.domain d).pending, check := 0 })
  slot : (w.slot i).manifest = none ∧ (w.slot i).presence = [] ∧ (w.slot i).state ≠ .applying ∧ (w.slot i).state ≠ .blocked
  empty : (∀ p ∈ s.peers, p.state = .known → (p.values.get d).held ≤ g ∧ ∀ x, (p.values.get d).baseline = some x → x ≤ g) →
    w.slot i = Slot.empty ∧
    ((∀ j, j ≠ i → (s.slot j).domain = d → (s.slot j).gen ≤ g → (s.slot j).state = .empty ∨ (s.slot j).state = .draining) →
      s.pool.waitList = [] → w.pool.reserved = s.pool.reserved - (s.slot i).count ∧ ∀ j, j ≠ i → w.slot j = s.slot j)
  unpinned : ∀ p ∈ w.pool.pins, ¬ (p.holder = .slot i ∧ p.domain = d ∧ p.gen = g)

/-- The volatile state of every block but the SUP is lost (R183, R189). -/
structure State.cleared (t : State) : Prop where
  banks : ∀ b : BankId, t.bank b = Bank.unstarted
  pool : t.pool = Pool.initial
  slots : ∀ i : SlotId, t.slot i = Slot.empty
  peers : t.peers = []
  fetch : t.fetch = Fetch.initial
  domains : ∀ d : Domain, t.domain d = Visibility.initial
  domainWrites : ∀ d : Domain, t.domainWrites.get d = none
  lag : t.lag = []
  link : t.link = Link.silent
  port : t.port = Port.cleared

/-- The beginning of a start (R184, R186): STARTING with the start record not yet read, the start cause record written, the volatile state of
the blocks lost; a COLD start clears the valid mark and the barred list. -/
structure State.startsAt (t : State) (c : Cause) (k : StartKind) : Prop where
  power : t.supply.power = .starting
  kind : t.supply.kind = k
  recordRead : t.supply.recordRead = false
  pendingStart : t.supply.pendingStart = false
  cause : t.backup.cause = { cause := c, kind := k, dips := t.backup.dips }
  cold : k = .cold → t.backup.valid = false ∧ t.backup.barred = []
  cleared : t.cleared

/-- The start of cause `c` that `t` begins out of `s` is of the kind that R184 gives RESET-LINE, IGNITION-WAKE and PROCESSOR-WAKE: WARM, with
the valid mark and the barred list kept, while the valid mark is set, the directory check agrees and the dip count is below 4; COLD
otherwise. A write in progress completes before (R183) and may mend the check, so a check that disagrees makes it COLD where there is none. -/
structure State.startsWake (s : State) (c : Cause) (t : State) : Prop where
  warm : s.backup.valid = true → s.backup.good = true → s.backup.dips < 4 → s.supply.erase = none →
    t.startsAt c .warm ∧ t.backup.barred = s.backup.barred ∧ t.backup.valid = true
  invalid : s.backup.valid = false → t.startsAt c .cold
  dipped : 4 ≤ s.backup.dips → s.supply.erase = none → t.startsAt c .cold
  broken : s.backup.good = false → (∀ b : BankId, (s.bank b).work = .none) → s.pool.writing = .none → s.supply.erase = none →
    t.startsAt c .cold

end Sys2Proof.Machine
end

