-- ==== Sys2Proof/Certificates/Slice0/Obligations.lean ====
section
/-! DEFINITION. The statements for the provers. -/

open Sys2Proof Sys2Proof.Machine

/-! ## The step, the invariant and the state after reset -/

/-- With a command at the front of the queue, a step is that command's effect on the state with the queue's rest. -/
def Obligations.StepTakesFrontCommand : Prop :=
  ∀ (c : Instr) (rest : List Instr) (s : State), step { s with pending := c :: rest } = exec c { s with pending := rest }

/-- On an empty queue the part's clock goes on by one microsecond in every powered state, the scrub age of every bank that is not
FAULTED by one in RUN and PARKED, and the domain header writes in progress complete; nothing else changes. The tick is the model's
choice (log entry 2), and so is the instant at which a domain header write completes (log entry 44). -/
def Obligations.EmptyQueueTicks : Prop :=
  ∀ s : State, s.pending = [] →
    (s.supply.power = .unpowered → step s = .next s) ∧
    (s.supply.power ≠ .unpowered → ∃ t : State, step s = .next t ∧
      t = { s with
        clock := s.clock + 1, banks := t.banks, domainWrites := { block := none, product := none }
        store := { s.store with domains := t.store.domains } } ∧
      (∀ d : Domain, t.store.domains.get d = (s.domainWrites.get d).getD (s.store.domains.get d)) ∧
      ∀ b : BankId, t.bank b =
        if s.running = true ∧ (s.bank b).state ≠ .faulted then
          { s.bank b with header := { (s.bank b).header with scrubAge := (s.bank b).header.scrubAge + 1 } }
        else s.bank b)

/-- Every command answers a next state in every state, and leaves the rest of the queue and the part's clock as they are (log entries 2
and 8). -/
def Obligations.EveryCommandAnswers : Prop :=
  ∀ (c : Instr) (s : State), ∃ t : State, exec c s = .next t ∧ t.pending = s.pending ∧ t.clock = s.clock

/-- Every step keeps the bounds and canonical forms of the state. -/
def Obligations.StepKeepsInvariant : Prop := ∀ s t : State, s.Inv → step s = .next t → t.Inv

/-- The state after reset has the bounds and canonical forms. -/
def Obligations.ResetHasInvariant : Prop := State.reset.Inv

/-- The state after reset is the beginning of the COLD start that the first supply brings: cause POWER-ON, dip count 0, valid mark
clear, barred list empty, port cleared, no peer, slot, ask, pin or lag entry, the LNK silent. That reset is this start, on a store that
nothing has written, is the model's choice (log entry 9). -/
def Obligations.ResetBeginsPowerOnStart : Prop :=
  State.reset.supply.power = .starting ∧ State.reset.supply.kind = .cold ∧
  State.reset.backup.cause = { cause := .powerOn, kind := .cold, dips := 0 } ∧
  State.reset.backup.dips = 0 ∧ State.reset.backup.valid = false ∧ State.reset.backup.barred = [] ∧
  State.reset.port = { inProgress := none, response := none, overrun := false, dropped := none, flags := 0, enables := 0,
                       counters := Counters.zero } ∧
  (∀ n ∈ Counters.zero.list, n = 0) ∧ State.reset.attention = false ∧ State.reset.ready = false ∧
  State.reset.peers = [] ∧ State.reset.lag = [] ∧ State.reset.fetch.asks = [] ∧ State.reset.fetch.serve = [] ∧
  State.reset.pool.pins = [] ∧ State.reset.pool.reserved = 0 ∧ State.reset.link = Link.silent ∧
  (∀ i : SlotId, State.reset.slot i = Slot.empty) ∧ (∀ b : BankId, (State.reset.bank b).state = .held) ∧
  State.reset.pending = []

/-- What an event brings about inside the part, outside CLOSING and DORMANT, leaves alone the lines, the SUP's state but its settling
mark, the lag list, the peer records but their asks, the serve queue and manifest reads, the enables, the LNK's rate and timers, the
record places, segment places, pool index, start record, barred list, dip count and start cause; and the queue and the clock (log entry
7). -/
def Obligations.EventRunsOutWithinBlocks : Prop :=
  ∀ s : State, s.supply.power ≠ .closing → s.supply.power ≠ .dormant →
    s.still s.settle ∧ s.settle.pending = s.pending ∧ s.settle.clock = s.clock

/-! ## The validator port -/

/-- R44: a lookup of a key that is not 0 is answered at once by the key's bank from its state; every answer carries the visible generation
and the CHECK-FAIL mark; and where no record of the key fails its check nothing but the response changes. `f` is F(V) of R11. -/
def Obligations.LookupAnsweredByBank : Prop :=
  ∀ (s : State) (c : Instr) (kind : RequestKind) (d : Domain) (key : Nat) (b : BankId) (f : Gen),
    lookupOf c = some (kind, d, key) → key ≠ 0 → s.serving → s.portFree →
    8 ≤ s.supply.config.nB → s.supply.config.nB ≤ 15 → b.val = bankOf s.supply.config.nB d key →
    IsFloor (s.bank b).header.baselines (s.domain d).visible f →
    ∃ (t : State) (o : OutcomeCode) (body : List Byte) (fails : Bool),
      exec c s = .next (t.withResponse kind.code o (toBytes 4 (s.domain d).visible ++ [if fails then 1 else 0] ++ body)) ∧
      t.port = s.port ∧ t.store = s.store ∧
      ((∀ pr ∈ s.places b, pr.2.key = key → pr.2.good = true) → t = s) ∧
      ((s.bank b).state = .recovering → o = .busy ∧ body = [] ∧ fails = false ∧ t = s) ∧
      ((s.bank b).state = .held → o = .hold ∧ body = [] ∧ fails = false ∧ t = s) ∧
      ((s.bank b).state = .faulted → o = .fault ∧ body = [] ∧ fails = false ∧ t = s) ∧
      ((s.bank b).state = .idle ∨ (s.bank b).state = .applying ∨ (s.bank b).state = .compacting ∨ (s.bank b).state = .scrubbing →
        (∀ g, (s.bank b).header.erasureMark = some g → (s.domain d).visible < g →
          o = .fault ∧ body = [] ∧ fails = false ∧ t = s) ∧
        ((∀ g, (s.bank b).header.erasureMark = some g → g ≤ (s.domain d).visible) →
          (fails = true ↔ ∃ pr ∈ s.places b, pr.2.key = key ∧ pr.2.good = false) ∧
          (∀ pr ∈ s.places b, pr.2.key = key → pr.2.lives f (s.domain d).visible →
            (∀ qr ∈ s.places b, qr.2.key = key → qr.2.lives f (s.domain d).visible → qr = pr) →
            o = (if d = .block then .listed else .found) ∧
            body = (if d = .block then pr.2.payload.stored ++ toBytes 4 pr.2.added
              else toBytes 2 pr.2.key ++ pr.2.payload.stored)) ∧
          ((∀ pr ∈ s.places b, pr.2.key = key → ¬ pr.2.lives f (s.domain d).visible) →
            o = (if d = .block then .clear else .notFound) ∧ body = [])))

/-- R45: a lookup that meets a failing record of its key in a bank that evaluates it makes the bank's scrub due, which an IDLE bank begins
at once; no other bank and nothing in store memory changes. -/
def Obligations.FailingRecordMakesScrubDue : Prop :=
  ∀ (s : State) (c : Instr) (kind : RequestKind) (d : Domain) (key : Nat) (b : BankId),
    lookupOf c = some (kind, d, key) → key ≠ 0 → s.serving → s.portFree →
    8 ≤ s.supply.config.nB → s.supply.config.nB ≤ 15 → b.val = bankOf s.supply.config.nB d key →
    (s.bank b).state = .idle ∨ (s.bank b).state = .applying ∨ (s.bank b).state = .compacting ∨ (s.bank b).state = .scrubbing →
    (∀ g, (s.bank b).header.erasureMark = some g → g ≤ (s.domain d).visible) →
    (∃ pr ∈ s.places b, pr.2.key = key ∧ pr.2.good = false) →
    ∃ t : State, exec c s = .next t ∧ (t.bank b).scrubDue = true ∧
      (t.bank b).state = (if (s.bank b).state = .idle then .scrubbing else (s.bank b).state) ∧
      (∀ e : BankId, e ≠ b → t.bank e = s.bank e) ∧ t = { s with banks := t.banks, port := t.port }

/-- A lookup of key 0 is answered BAD-KEY, and a window with a bad request frame BAD-FRAME with the first byte of the frame as its kind,
both with an empty body and nothing else changed. -/
def Obligations.BadKeyAndBadFrameAnswered : Prop :=
  (∀ (s : State) (c : Instr) (kind : RequestKind) (d : Domain), lookupOf c = some (kind, d, 0) → s.serving → s.portFree →
    exec c s = .next (s.withResponse kind.code .badKey [])) ∧
  (∀ (s : State) (window : List Byte) (kind : Byte), readWindow window = .bad kind → s.takesRequests = true → s.portFree →
    exec (.requestBadFrame window) s = .next (s.withResponse kind .badFrame []))

/-- A request with a body that its kind allows is answered STARTING in STARTING unless it is READ-STATUS, NOT-COMMISSIONED in
COMMISSIONING unless it is READ-STATUS or COMMISSION, and a publish is answered WRONG-STATE in CLOSING. -/
def Obligations.PowerStateTurnsRequestAway : Prop :=
  ∀ (s : State) (c : Instr) (kind : RequestKind), requestKindOf c = some kind → c.wf = true → s.portFree →
    (s.supply.power = .starting → kind ≠ .readStatus → exec c s = .next (s.withResponse kind.code .starting [])) ∧
    (s.supply.power = .commissioning → kind ≠ .readStatus → kind ≠ .commission →
      exec c s = .next (s.withResponse kind.code .notCommissioned [])) ∧
    (s.supply.power = .closing → kind = .publishManifest ∨ kind = .publishSegment →
      exec c s = .next (s.withResponse kind.code .wrongState []))

/-- In DIP-HOLD, DORMANT and UNPOWERED the port takes no request, reads out no response and counts nothing. -/
def Obligations.PortTakesNothingInDipOrDormant : Prop :=
  ∀ (s : State) (c : Instr), s.supply.power = .dipHold ∨ s.supply.power = .dormant ∨ s.supply.power = .unpowered →
    ((requestKindOf c).isSome = true ∨ (∃ n, c = .responseRead n) ∨ (∃ n, c = .requestOverrun n) ∨
      ∃ w, c = .requestBadFrame w) →
    exec c s = .next s

/-- A request while another is in progress or a response is unread is not taken: overruns is counted and the overrun mark set, and nothing else
changes when its window did not clock out a whole unread response (R196). A window that did reads that response too: the buffer is empty then, or
holds the DROPPED response that waited for it (R198), which carries the overrun mark and clears it, and an erase that waited for it begins (R193).
It is so for every window that carries a request: each of the eleven requests, a bad frame, and REQUEST_OVERRUN. That the window of a request is
its frame alone, 5 bytes and its body, is the model's choice (log entry 58). -/
def Obligations.RequestWhileBusyIsOverrun : Prop :=
  ∀ (s : State) (c : Instr) (n : Nat), s.takesRequests = true → s.port.inProgress ≠ none ∨ s.port.response ≠ none → carriesRequest c n →
    ((∀ r, s.port.response = some r → n < r.bytes.length) → exec c s = .next s.overrunBy) ∧
    (∀ r : Response, s.port.response = some r → r.bytes.length ≤ n →
      (s.port.dropped = none → exec c s = .next { s.overrunBy with
        port := { s.overrunBy.port with response := none }
        supply := { s.supply with erase := s.supply.erase.map Erase.begun } }) ∧
      (∀ k : Byte, s.port.dropped = some k → exec c s = .next { s.overrunBy with
        port := { s.overrunBy.port with
          inProgress := none, overrun := false, dropped := none
          response := some { kind := k, outcome := OutcomeCode.dropped.code, overrun := true, body := [] } }
        supply := { s.supply with erase := s.supply.erase.map Erase.begun } }))

/-- READ-STATUS is answered OK in every power state that takes requests, with a body of 136 bytes and nothing else changed: the power
state and the start cause record; for each domain the held and visible generations, the pending list (R143) and the needs-baseline flag
(R20); for each slot the state, domain, generation, presence count and segment count (R77, R200); the allowed send rate, the low-rate state, the
load, the five counts of the peer summary (R120), the bank states in bank order and the notice flags. That the flag of R20 is clear in
COMMISSIONING, whatever the stored bank headers hold, is the model's choice (log entry 53). -/
def Obligations.StatusAnswered : Prop :=
  ∀ s : State, s.takesRequests = true → s.portFree →
    ∃ body : List Byte, exec .readStatus s = .next (s.withResponse RequestKind.readStatus.code .ok body) ∧ body.length = 136 ∧
      body.take 5 = [s.supply.power.code, if s.supply.power = .starting then s.supply.kind.code else 0,
        s.backup.cause.cause.code, s.backup.cause.kind.code, BitVec.ofNat 8 s.backup.cause.dips] ∧
      (body.drop 5).take 44 = [Domain.block, Domain.product].flatMap (fun d =>
        toBytes 4 (s.domain d).held ++ toBytes 4 (s.domain d).visible ++ [BitVec.ofNat 8 (s.domain d).pending.length] ++
        toBytes 4 ((s.domain d).pending.getD 0 0) ++ toBytes 4 ((s.domain d).pending.getD 1 0) ++
        toBytes 4 ((s.domain d).pending.getD 2 0) ++
        [if ∃ b : BankId, s.bankDomain b = d ∧ (s.bank b).header.faultMark = true then 1 else 0]) ∧
      (body.drop 49).take 60 = (List.finRange 6).flatMap (fun i =>
        (s.slot i).state.code :: (if (s.slot i).state = .empty then [0, 0, 0, 0, 0]
          else domainCode (s.slot i).domain :: toBytes 4 (s.slot i).gen) ++
        toBytes 2 (s.slot i).presence.length ++
        toBytes 2 (match (s.slot i).manifest with
          | some m => m.count
          | none => 0)) ∧
      body.drop 109 = toBytes 2 s.link.asr ++ [s.link.lowRate.code, BitVec.ofNat 8 s.load] ++
        [BitVec.ofNat 8 (s.peers.countP (fun p => p.state == .known)),
         BitVec.ofNat 8 (s.peers.countP (fun p => p.state == .stale)),
         BitVec.ofNat 8 (s.peers.countP (fun p => p.state == .known && p.cohort)),
         BitVec.ofNat 8 (s.peers.countP (fun p => p.state == .known && p.parked)),
         BitVec.ofNat 8 (s.peers.countP (fun p => p.state == .known && p.congested))] ++
        (List.finRange 16).map (fun b => (s.bank b).state.code) ++ toBytes 2 s.port.flags.toNat

/-- READ-COUNTERS returns the sixteen counters in their order and clears none; READ-NOTICES returns the flags and clears them. -/
def Obligations.CountersAndNoticesAnswered : Prop :=
  ∀ s : State, s.serving → s.portFree →
    exec .readCounters s =
      .next (s.withResponse RequestKind.readCounters.code .ok (s.port.counters.list.flatMap (toBytes 2))) ∧
    (s.port.counters.list.flatMap (toBytes 2)).length = 32 ∧
    ∃ t : State, exec .readNotices s = .next t ∧
      t = { s.withResponse RequestKind.readNotices.code .ok (toBytes 2 s.port.flags.toNat) with port := t.port } ∧
      t.port = { (s.withResponse RequestKind.readNotices.code .ok (toBytes 2 s.port.flags.toNat)).port with flags := 0 } ∧
      t.attention = false

/-- SET-NOTICE-ENABLE replaces the enable set and returns it, and ATTENTION then stands for the flags that are set and enabled; a set with
a bit above the eleven is answered BAD-FRAME. -/
def Obligations.NoticeEnablesReplaced : Prop :=
  ∀ (s : State) (en : BitVec 16), s.serving → s.portFree →
    (en.toNat < 2048 → ∃ t : State, exec (.setNoticeEnable en) s = .next t ∧
      t = { s.withResponse RequestKind.setNoticeEnable.code .ok (toBytes 2 en.toNat) with port := t.port } ∧
      t.port = { (s.withResponse RequestKind.setNoticeEnable.code .ok (toBytes 2 en.toNat)).port with enables := en } ∧
      (t.attention = true ↔ s.port.flags &&& en ≠ 0#16)) ∧
    (2048 ≤ en.toNat → exec (.setNoticeEnable en) s = .next (s.withResponse RequestKind.setNoticeEnable.code .badFrame []))

/-- R203: READ-LAG takes the oldest entry of the lag list and answers LAG with its station, domain and generation, or EMPTY; the entry
leaves the list at the answer. -/
def Obligations.ReadLagTakesOldestEntry : Prop :=
  ∀ s : State, s.serving → s.portFree →
    (s.lag = [] → exec .readLag s = .next (s.withResponse RequestKind.readLag.code .empty [])) ∧
    (∀ (e : LagEntry) (rest : List LagEntry), s.lag = e :: rest →
      exec .readLag s = .next { s.withResponse RequestKind.readLag.code .lag
        (toBytes 2 e.station ++ domainCode e.domain :: toBytes 4 e.gen) with lag := rest })

/-- A PUBLISH-MANIFEST in RUN or PARKED, at rest: BAD-MANIFEST for fields out of range, BARRED for a digest on the barred list, OLD for a
generation at or below the held one or a DELTA that is not the next one, ACCEPTED-JOINED or CONFLICT by the digest of the manifest that the
slot of its generation holds; a slot of its generation in MANIFEST-WANTED offers it to the pool and has origin LOCAL from then on, but keeps
its origin while another manifest of it is with the pool already (that exception is the model's choice, log entry 34); NO-SLOT without room;
otherwise a slot is opened with origin LOCAL and offers it; that it stands in MANIFEST-WANTED while its manifest is with the pool is the model's
choice (log entry 56). An offered manifest keeps the request in progress. -/
def Obligations.PublishedManifestJudged : Prop :=
  ∀ (s : State) (body : List Byte), s.running = true → s.portFree → s.rests → body.length = 12 →
    (parseManifest body = none → exec (.publishManifest body) s =
      .next (s.withResponse RequestKind.publishManifest.code .badManifest [])) ∧
    ∀ m : Manifest, parseManifest body = some m →
      (m.digest ∈ s.backup.barred → exec (.publishManifest body) s =
        .next (s.withResponse RequestKind.publishManifest.code .barred [])) ∧
      (m.digest ∉ s.backup.barred →
        (m.gen ≤ (s.domain m.domain).held ∨ (m.kind = .delta ∧ m.gen ≠ (s.domain m.domain).held + 1) →
          exec (.publishManifest body) s = .next (s.withResponse RequestKind.publishManifest.code .old [])) ∧
        ((s.domain m.domain).held < m.gen → (m.kind = .delta → m.gen = (s.domain m.domain).held + 1) →
          (∀ (i : SlotId) (held : Manifest), s.slotHolding m.domain m.gen = some i → (s.slot i).manifest = some held →
            exec (.publishManifest body) s = .next (s.withResponse RequestKind.publishManifest.code
              (if held.digest = m.digest then .acceptedJoined else .conflict)
              (if held.digest = m.digest then [BitVec.ofNat 8 i.val, (s.slot i).state.code] else []))) ∧
          (∀ i : SlotId, s.slotHolding m.domain m.gen = some i → (s.slot i).manifest = none →
            ∃ t : State, exec (.publishManifest body) s = .next t.settle ∧
              (s.enterOutstanding i = false → t.slot i = { s.slot i with origin := .local }) ∧
              (s.enterOutstanding i = true → t.slot i = s.slot i) ∧
              (∀ j : SlotId, j ≠ i → t.slot j = s.slot j) ∧
              t.pool = { s.pool with indexQueue := s.pool.indexQueue ++ [.enter i m .request false] } ∧
              t.port = { s.port with inProgress := some .manifest } ∧ t = { s with slots := t.slots, pool := t.pool, port := t.port }) ∧
          (s.slotHolding m.domain m.gen = none → s.hasRoom m.domain = false →
            exec (.publishManifest body) s = .next (s.withResponse RequestKind.publishManifest.code .noSlot [])) ∧
          (∀ i : SlotId, s.slotHolding m.domain m.gen = none → s.hasRoom m.domain = true → (s.slot i).state = .empty →
            (∀ j : SlotId, j < i → (s.slot j).state ≠ .empty) →
            ∃ t : State, exec (.publishManifest body) s = .next t.settle ∧
              t.slot i = { Slot.empty with state := .manifestWanted, domain := m.domain, gen := m.gen, origin := .local } ∧
              (∀ j : SlotId, j ≠ i → t.slot j = s.slot j) ∧
              t.pool = { s.pool with indexQueue := s.pool.indexQueue ++ [.enter i m .request true] } ∧
              t.port = { s.port with inProgress := some .manifest } ∧
              t = { s with slots := t.slots, pool := t.pool, port := t.port, todo := { s.todo with askPass := true } })))

/-- A PUBLISH-SEGMENT in RUN or PARKED: BAD-SEGMENT, at rest, when its domain code, its segment CRC or its ops are not good; DUPLICATE, at
rest, when its index is present; offered to the pool's write queue when the slot of its generation is COLLECTING without its index and the
queue has a place, and held by the port when the queue has none. BAD-SEGMENT for a bad domain code is the model's reading (log entry 31); that
a write in progress which began without a free place keeps its place in the queue until its commit is its choice (log entry 16), and so is that
BAD-SEGMENT and DUPLICATE count no segment CRC failure, malformed frame or duplicate (log entry 47). -/
def Obligations.PublishedSegmentJudged : Prop :=
  ∀ (s : State) (body : List Byte), s.running = true → s.portFree → 16 ≤ body.length → body.length ≤ 256 →
    (s.rests → segDomain body = none ∨ segCrcGood body = false ∨ segOpsGood body = false →
      exec (.publishSegment body) s = .next (s.withResponse RequestKind.publishSegment.code .badSegment [])) ∧
    ∀ (d : Domain) (i : SlotId), segDomain body = some d → segCrcGood body = true → segOpsGood body = true →
      s.slotHolding d (segGen body) = some i → (s.slot i).state = .collecting → segIndex body < (s.slot i).count →
      (s.rests → (∃ p ∈ (s.slot i).presence, p.index = segIndex body) →
        exec (.publishSegment body) s = .next (s.withResponse RequestKind.publishSegment.code .duplicate
          (toBytes 2 (s.slot i).presence.length ++ toBytes 2 (s.slot i).count))) ∧
      ((∀ p ∈ (s.slot i).presence, p.index ≠ segIndex body) →
        (s.queueHasPlace = true → s.pool.held = false →
          exec (.publishSegment body) s = .next (State.settle { s with
            pool := { s.pool with queue := s.pool.queue ++
              [{ domain := d, gen := segGen body, index := segIndex body, bytes := body, source := .local, publish := true }] }
            port := { s.port with inProgress := some .segmentWrite } })) ∧
        (s.queueHasPlace = false →
          exec (.publishSegment body) s = .next (State.settle { s with port := { s.port with
            inProgress := some (.segmentHeld
              { domain := d, gen := segGen body, index := segIndex body, bytes := body, source := .local, publish := true }) } })))

/-- PARK-END is refused WRONG-STATE in RUN and CLOSING. A PARK-END in PARKED, answered ACCEPTED, the expiry of the parked window in PARKED,
and the ignition going off in RUN with a parked window of 0 bring the part into CLOSING: the parked window and the stable-run timer stop,
every ask is cancelled, the serve queue, the pool's write queue and the transmit classes are emptied, and the announcement and decay
timers stop. The closing hold takes effect at once in an IDLE bank, with the scrub cursor and age written to its header; it is pending in a
bank with an operation in hand, and leaves a FAULTED one that is not erasing as it is (R28). That it takes effect at once, too, in a RECOVERING
bank that waits for the pool is the model's choice (log entry 19; R28 and R60 give only the commit of a record write in progress). At the last
bank's held report, here that of a scrub's pass end, the part enters DORMANT, and not before (R189). -/
def Obligations.ClosingEntered : Prop :=
  (∀ s : State, s.supply.power = .run ∨ s.supply.power = .closing → s.portFree →
    exec .parkEnd s = .next (s.withResponse RequestKind.parkEnd.code .wrongState [])) ∧
  ∀ (s : State) (c : Instr),
    (c = .parkEnd ∧ s.supply.power = .parked ∧ s.portFree ∨
     c = .parkedWindowExpiry ∧ s.supply.power = .parked ∧ (∃ t, s.supply.parked = .running t ∧ t ≤ s.clock) ∨
     c = .ignitionOff ∧ s.supply.power = .run ∧ s.supply.ignition = true ∧ s.supply.config.parkedWindow = 0) →
    ∃ t : State, exec c s = .next t.settle ∧
      t.supply.power = .closing ∧ t.supply.parked = .stopped ∧ t.supply.stable = none ∧
      (c = .parkEnd → t.port.response =
        some { kind := RequestKind.parkEnd.code, outcome := OutcomeCode.accepted.code, overrun := s.port.overrun, body := [] }) ∧
      t.fetch.asks = [] ∧ t.fetch.serve = [] ∧ t.fetch.manifestReads = [] ∧ t.pool.queue = [] ∧ t.pool.waiting = false ∧
      t.pool.held = true ∧ t.link.chosen = none ∧ t.link.announce = none ∧ t.link.control = [] ∧ t.link.ask = [] ∧
      t.link.data = none ∧ t.link.announceAt = none ∧ t.link.decay = none ∧
      (∀ b : BankId,
        ((s.bank b).state = .idle →
          t.bank b = { s.bank b with state := .held, prior := some .idle, work := .none, hold := .none } ∧
          t.store.headers[b] = StoredHeader.sealed (s.bank b).header) ∧
        ((s.bank b).state ≠ .idle → (s.bank b).state ≠ .held → (s.bank b).work.busy = true →
          t.bank b = { s.bank b with hold := .closing } ∧ t.store.headers[b] = s.store.headers[b]) ∧
        (∀ r : ApplyRequest, (s.bank b).state = .applying → (s.bank b).work = .applyRead r →
          t.bank b = { s.bank b with hold := .closing } ∧ t.store.headers[b] = s.store.headers[b]) ∧
        (∀ p : Nat, (s.bank b).state = .recovering → (s.bank b).work = .recoverWait p →
          t.bank b = { s.bank b with state := .held, prior := some .recovering, work := .recoverPaused p, hold := .none } ∧
          t.store.headers[b] = StoredHeader.sealed (s.bank b).header) ∧
        ((s.bank b).state = .faulted → (s.bank b).work = .none → t.bank b = s.bank b)) ∧
      ∀ (u : State) (b : BankId) (next : Nat), u.supply.power = .closing → u.rests → (u.bank b).state = .scrubbing →
        (u.bank b).work = .scrubHeader next false → (u.bank b).scrubDue = true → (u.bank b).hold = .closing → next < 65536 →
        ((∀ e : BankId, e ≠ b → (u.bank e).state = .held ∨ (u.bank e).state = .faulted ∧ (u.bank e).work.busy = false) →
          u.supply.pendingStart = false → u.supply.ignition = false → u.pins.wake = false →
          ∃ v : State, exec (.bankHeaderWriteCommit b) u = .next v ∧ v.supply.power = .dormant ∧ v.cleared ∧ v.pins = u.pins) ∧
        (∀ e : BankId, e ≠ b → (u.bank e).state ≠ .held → (u.bank e).state ≠ .faulted →
          ∃ v : State, exec (.bankHeaderWriteCommit b) u = .next v ∧ v.supply.power = .closing ∧ (v.bank b).state = .held ∧
            (v.bank b).prior = some .scrubbing)

/-- COMMISSION is judged in COMMISSIONING with no erase armed or running: a record out of range or with its rates out of order is refused
BAD-RECORD; any other is answered ACCEPTED and arms the erase. While an erase is armed or running, and in RUN, PARKED and CLOSING, it is
refused WRONG-STATE. -/
def Obligations.CommissionJudged : Prop :=
  ∀ (s : State) (body : List Byte), s.portFree → Instr.wf (.commission body) = true →
    (s.supply.power = .commissioning → s.supply.erase = none →
      ((commissionRecord body).ok = true → exec (.commission body) s =
        .next { s.withResponse RequestKind.commission.code .accepted [] with
          supply := { s.supply with erase := some { record := commissionRecord body, write := none } } }) ∧
      ((commissionRecord body).ok = false → exec (.commission body) s =
        .next (s.withResponse RequestKind.commission.code .badRecord []))) ∧
    (s.supply.power = .commissioning ∧ s.supply.erase ≠ none ∨ s.serving →
      exec (.commission body) s = .next (s.withResponse RequestKind.commission.code .wrongState []))

/-- A window that has clocked out the whole unread response empties the response buffer; a DROPPED response that waits then takes its
place, and an armed COMMISSION erase begins with its first write. A window that ends sooner changes nothing. SDO carries FF hex while READY is
released and in DIP-HOLD, and else the response from its first byte and FF hex after its last (R195, R197, R209). A window of fill is a read of
the response, and one with a good request frame, at a free port, the request of that frame's code. -/
def Obligations.ResponseReadFreesBuffer : Prop :=
  (∀ (s : State) (n : Nat), s.ready = false ∨ s.supply.power = .dipHold → s.sdo n = List.replicate n 0xFF#8) ∧
  (∀ (s : State) (r : Response) (n : Nat), s.takesRequests = true → s.port.response = some r →
    (n ≤ r.bytes.length → s.sdo n = r.bytes.take n) ∧
    (r.bytes.length ≤ n → s.sdo n = r.bytes ++ List.replicate (n - r.bytes.length) 0xFF#8)) ∧
  (∀ (s : State) (sdi : List Byte), (∀ x ∈ sdi, x = 0xFF#8) → s.windowCommand sdi = .responseRead sdi.length) ∧
  (∀ (s : State) (sdi : List Byte) (kind : Byte) (body : List Byte), readWindow sdi = .request kind body → s.portFree →
    ∃ k : RequestKind, requestKindOf (s.windowCommand sdi) = some k ∧ k.code = kind) ∧
  ∀ (s : State) (r : Response) (n : Nat), s.takesRequests = true → s.port.response = some r →
    (n < r.bytes.length → exec (.responseRead n) s = .next s) ∧
    (r.bytes.length ≤ n →
      (s.port.dropped = none → s.supply.erase = none →
        exec (.responseRead n) s = .next { s with port := { s.port with response := none } }) ∧
      (∀ k : Byte, s.port.dropped = some k → s.supply.erase = none →
        exec (.responseRead n) s = .next { s with port := { s.port with
          inProgress := none, overrun := false, dropped := none
          response := some { kind := k, outcome := OutcomeCode.dropped.code, overrun := s.port.overrun, body := [] } } }) ∧
      (∀ rec : StartRecord, s.port.dropped = none → s.supply.erase = some { record := rec, write := none } →
        exec (.responseRead n) s = .next { s with
          port := { s.port with response := none }
          supply := { s.supply with erase := some { record := rec, write := some 1 } } }))

/-! ## Frames of the fleet link -/

/-- A frame of one of the six kinds, or the bytes of a RECEIVE_FILTER_DROP: outside RUN and PARKED it is discarded and nothing counted;
else one that is not well formed counts malformed frames, and a well-formed one of another fleet or from this station's own number counts
foreign frames; nothing else changes. -/
def Obligations.FramesFiltered : Prop :=
  (∀ (s : State) (c : Instr) (k : FrameKind) (h : LinkHeader) (body : List Byte), frameOf c = some (k, h, body) →
    (s.running = false → exec c s = .next s) ∧
    (s.running = true → ¬ frameFormed k h body →
      exec c s = .next (s.counted (fun n => { n with malformed := upOne n.malformed }))) ∧
    (s.running = true → frameFormed k h body → ¬ s.frameOurs h →
      exec c s = .next (s.counted (fun n => { n with foreign := upOne n.foreign })))) ∧
  ∀ (s : State) (frame : List Byte),
    (s.running = false → exec (.receiveFilterDrop frame) s = .next s) ∧
    (s.running = true → frame.length < 16 ∨ frameKindOfCode (byteAt frame 4) = none →
      exec (.receiveFilterDrop frame) s = .next (s.counted (fun n => { n with malformed := upOne n.malformed }))) ∧
    ∀ k : FrameKind, s.running = true → 16 ≤ frame.length → frameKindOfCode (byteAt frame 4) = some k →
      (¬ frameFormed k (headerOf frame) (frame.drop 16) →
        exec (.receiveFilterDrop frame) s = .next (s.counted (fun n => { n with malformed := upOne n.malformed }))) ∧
      (frameFormed k (headerOf frame) (frame.drop 16) → ¬ s.frameOurs (headerOf frame) →
        exec (.receiveFilterDrop frame) s = .next (s.counted (fun n => { n with foreign := upOne n.foreign })))

/-- No frame of the link writes a record place, a segment place, the pool index, the start record, the barred list, the dip count, the start
cause, the enables or the SUP's state. Domain and bank headers are not among these parts: an ANNOUNCE that completes the advance test writes
a domain header (R151). -/
def Obligations.FramesLeaveStore : Prop :=
  ∀ (s : State) (c : Instr), ((frameOf c).isSome = true ∨ ∃ w, c = .receiveFilterDrop w) →
    ∃ t : State, exec c s = .next t ∧ s.sameStore t

/-- The header of an ANNOUNCE, MANIFEST-ASK or SEGMENT-ASK that is taken refreshes its sender's record (R110): a gap of 256 or more in the
sequence clears the loss score, the received count, the timeouts, and the unresponsive and busy periods; a smaller one adds to the loss score,
capped at 15; every sixteenth frame received lowers it by 1. Every other record stays. -/
def Obligations.HeaderRefreshesRecord : Prop :=
  ∀ (s : State) (c : Instr) (k : FrameKind) (h : LinkHeader) (body : List Byte) (p : Peer),
    frameOf c = some (k, h, body) → k = .announce ∨ k = .manifestAsk ∨ k = .segmentAsk → s.frameTaken k h body →
    s.peer h.sender.toNat = some p →
    ∃ (t : State) (q : Peer), exec c s = .next t ∧ t.peer h.sender.toNat = some q ∧
      q.station = h.sender.toNat ∧ q.vehicle = h.vehicle.toNat ∧ (q.cohort = true ↔ h.vehicle.toNat = s.supply.config.vehicle) ∧
      q.state = .known ∧ q.heard = s.clock ∧ q.sequence = h.sequence ∧ q.congested = h.flags.getLsbD 0 ∧
      q.removalDue = false ∧ p.countsAfter h q ∧
      ∀ n, n ≠ h.sender.toNat → (t.peer n).map Peer.unasked = (s.peer n).map Peer.unasked

/-- A station without a record enters the table at its first taken frame, of whatever kind, while the table has room (R108), and in a full
table in the place of the record that R109 displaces; an ANNOUNCE that enters it brings its values, and no ask or ANNOUNCE changes any other
record. At a full table in which no record can be displaced it is refused and counted (R109). -/
def Obligations.NewStationEntersTable : Prop :=
  ∀ (s : State) (c : Instr) (k : FrameKind) (h : LinkHeader) (body : List Byte),
    frameOf c = some (k, h, body) → s.frameTaken k h body → s.peer h.sender.toNat = none →
    (∀ gone : Option Station,
      (s.peers.length < 48 ∧ gone = none ∨ 48 ≤ s.peers.length ∧ ∃ p, s.displaced p ∧ gone = some p.station) →
      ∃ (t : State) (q : Peer), exec c s = .next t ∧ t.peer h.sender.toNat = some q ∧ q.headed = (s.entered h).headed ∧
        (k = .manifestAsk ∨ k = .segmentAsk → q.unasked = s.entered h) ∧
        (k = .announce →
          (∀ (parked : Bool) (v : PerDomain Announced), parseAnnounce body = some (parked, v) →
            q.unasked = { s.entered h with parked := parked, values := v }) ∧
          (parseAnnounce body = none → q.unasked = s.entered h)) ∧
        (∀ n, gone = some n → t.peer n = none) ∧
        (k = .manifestAsk ∨ k = .segmentAsk ∨ k = .announce → ∀ n, n ≠ h.sender.toNat → gone ≠ some n →
          (t.peer n).map Peer.unasked = (s.peer n).map Peer.unasked)) ∧
    (48 ≤ s.peers.length →
      (∀ p ∈ s.peers, ¬ (p.state = .stale ∧ p.asks = 0) ∧ ¬ (p.state = .known ∧ p.cohort = false ∧ p.asks = 0)) →
      ∃ u : State, exec c s = .next u.settle ∧ u.settle.peer h.sender.toNat = none ∧
        u.port.counters.peerRefusals = upOne s.port.counters.peerRefusals)

/-- An ANNOUNCE that is taken, from a station with a record, restarts the decay timer; a body in range replaces the record's values and its
PARKED mark, and any other counts malformed frames and replaces neither (R111, R169). The values of a cohort member change the cohort view,
which is tested once in the event, after the frame's use (R147): until then no generation has become visible. -/
def Obligations.AnnounceTaken : Prop :=
  ∀ (s : State) (h : LinkHeader) (body : List Byte) (p : Peer), s.frameTaken .announce h body → s.peer h.sender.toNat = some p →
    ∃ u : State, exec (.announceReceived h body) s = .next u.settle ∧
      u.link.decay = some (s.clock + 4000000) ∧ u.settle.link.decay = some (s.clock + 4000000) ∧
      u.vis = s.vis ∧ u.domainWrites = s.domainWrites ∧
      (h.vehicle.toNat = s.supply.config.vehicle → parseAnnounce body ≠ none → u.todo.viewChanged = true) ∧
      ∃ q : Peer, u.settle.peer h.sender.toNat = some q ∧
        (∀ (parked : Bool) (v : PerDomain Announced), parseAnnounce body = some (parked, v) → q.parked = parked ∧ q.values = v) ∧
        (parseAnnounce body = none → q.parked = p.parked ∧ q.values = p.values ∧
          u.port.counters.malformed = upOne s.port.counters.malformed)

/-- A MANIFEST-ASK addressed to this station for a servable generation begins a manifest read for its sender; for another generation a
NOT-HELD decline is offered to the CONTROL class, which drops and counts it when all its eight places are taken (R140, R141). One addressed
elsewhere is not answered. -/
def Obligations.ManifestAskTaken : Prop :=
  ∀ (s : State) (h : LinkHeader) (body : List Byte), s.frameTaken .manifestAsk h body →
    (h.addressee.toNat ≠ s.supply.config.station →
      ∃ u : State, exec (.manifestAskReceived h body) s = .next u.settle ∧ u.fetch = s.fetch ∧
        u.settle.fetch.manifestReads = s.fetch.manifestReads ∧ u.link.control = s.link.control) ∧
    ∀ d : Domain, h.addressee.toNat = s.supply.config.station → domainOfCode (byteAt body 0) = some d →
      (s.servable d (field body 1 4) = true → ∃ t : State, exec (.manifestAskReceived h body) s = .next t ∧
        t.fetch.manifestReads = s.fetch.manifestReads ++ [{ peer := h.sender.toNat, domain := d, gen := field body 1 4 }] ∧
        t.fetch.serve = s.fetch.serve) ∧
      (s.servable d (field body 1 4) = false → ∃ u : State, exec (.manifestAskReceived h body) s = .next u.settle ∧
        u.fetch = s.fetch ∧
        (s.link.control.length < 8 → u.link.control = s.link.control ++
          [{ kind := .decline, addressee := h.sender.toNat
             body := domainCode d :: toBytes 4 (field body 1 4) ++ [1, 0, 0, 2], ask := none }]) ∧
        (8 ≤ s.link.control.length → u.link.control = s.link.control ∧
          u.port.counters.controlDrops = upOne s.port.counters.controlDrops))

/-- A manifest read that completes for a servable generation offers its MANIFEST to the CONTROL class (R140); that any number of them are in
progress together and the oldest completes is the model's choice (log entry 55; R140 gives no order). A serve read whose segment is good hands its
SEGMENT frame to the DATA class, and its serve entry moves to the queue's tail with the next index, or leaves the queue after its last (R138);
one taken of a generation that was not servable then drops its entry and offers an EVICTED decline (R139). A serve read begins for the queue's
head while no frame is formed or being formed, and takes the segment as it stands (R73, R138). -/
def Obligations.ReadsForPeersComplete : Prop :=
  (∀ (s : State) (r : ManifestRead) (rest : List ManifestRead) (e : ManifestEntry), s.fetch.manifestReads = r :: rest →
    s.entry r.domain r.gen = some e → e.servable = true → s.link.control.length < 8 →
    exec .manifestReadComplete s = .next (State.settle { s with
      fetch := { s.fetch with manifestReads := rest }
      link := { s.link with control := s.link.control ++
        [{ kind := .manifest, addressee := r.peer, body := e.manifest.body, ask := none }] } })) ∧
  ∀ (s : State) (x : ServeEntry) (rest : List ServeEntry), s.fetch.serve = x :: rest →
    (∀ (stamp : Nat) (bytes : List Byte), s.fetch.reading = some (.taken stamp bytes) → segCrcGood bytes = true →
      exec .serveReadComplete s = .next (State.settle { s with
        fetch := { s.fetch with
          reading := none
          serve := if x.remaining ≤ 1 then rest
            else rest ++ [{ x with next := x.next + 1, remaining := x.remaining - 1 }] }
        link := { s.link with data := some { kind := .segment, addressee := x.peer, body := bytes, ask := none } } })) ∧
    (s.fetch.reading = some .evicted → s.link.control.length < 8 →
      exec .serveReadComplete s = .next (State.settle { s with
        fetch := { s.fetch with reading := none, serve := rest }
        link := { s.link with control := s.link.control ++
          [{ kind := .decline, addressee := x.peer
             body := domainCode x.domain :: toBytes 4 x.gen ++ 2 :: toBytes 2 x.next ++ [3], ask := none }] } })) ∧
    (s.running = true → s.link.data = none → s.fetch.reading = none →
      (∀ (e : ManifestEntry) (p : Nat) (c : PoolCell), s.entry x.domain x.gen = some e → e.servable = true →
        s.cellOf e x.next = some (p, c) → s.beginServeRead = { s with
          fetch := { s.fetch with reading := some (.taken e.stamp c.bytes) } }) ∧
      (s.servable x.domain x.gen = false → s.beginServeRead = { s with
        fetch := { s.fetch with reading := some .evicted } }))

/-- A valid MANIFEST addressed to this station for a generation above the held one whose digest is not barred, with a slot open for its
generation: it is offered to the pool when the slot has none yet; when the slot has one, a manifest of the same digest changes no slot, and neither
does one of another digest, which counts a conflict and raises its notice (R83); a slot that waits in MANIFEST-WANTED with its fourth ask
asked is left out of this, since the end of that ask may take it to EMPTY (R82). The oldest manifest ask to the sender for that generation ends (R133). -/
def Obligations.ManifestTaken : Prop :=
  ∀ (s : State) (h : LinkHeader) (body : List Byte) (m : Manifest) (i : SlotId), s.frameTaken .manifest h body →
    h.addressee.toNat = s.supply.config.station → parseManifest body = some m → (s.domain m.domain).held < m.gen →
    m.digest ∉ s.backup.barred → s.slotHolding m.domain m.gen = some i →
    ∃ u : State, exec (.manifestReceived h body) s = .next u.settle ∧
      ((s.slot i).manifest = none →
        u.pool = { s.pool with indexQueue := s.pool.indexQueue ++ [.enter i m .peer false] }) ∧
      (∀ held : Manifest, (s.slot i).manifest = some held → u.pool = s.pool ∧
        (∀ j, (s.slot j).state ≠ .manifestWanted ∨ (s.slot j).asks < 4 → u.slot j = s.slot j) ∧
        (held.digest ≠ m.digest → u.port.counters.conflicts = upOne s.port.counters.conflicts ∧
          u.port.flags.getLsbD 7 = true)) ∧
      (∀ a : Ask, s.fetch.asks.find? (fun a => a.kind == .manifest && a.peer == h.sender.toNat && a.domain == m.domain &&
          a.gen == m.gen) = some a → u.fetch.asks = s.fetch.asks.filter (fun x => x.id != a.id)) ∧
      ((∀ a ∈ s.fetch.asks, ¬ (a.kind = .manifest ∧ a.peer = h.sender.toNat ∧ a.domain = m.domain ∧ a.gen = m.gen)) →
        u.fetch.asks = s.fetch.asks)

/-- A SEGMENT-ASK addressed to this station: a count of 0 or above 8, or a run past the generation's last index, counts malformed frames; a
run that an entry of the serve queue covers is absorbed; another one enters the queue while it holds fewer than 16 entries, and is declined
BUSY when it is full; one of a generation that is not servable is declined NOT-HELD with its first index, whatever run it names (R137). A
decline is offered to the CONTROL class, which drops and counts it when all its eight places are taken (R141). -/
def Obligations.SegmentAskTaken : Prop :=
  ∀ (s : State) (h : LinkHeader) (body : List Byte) (d : Domain) (g : Gen) (first count : Nat),
    s.frameTaken .segmentAsk h body → h.addressee.toNat = s.supply.config.station →
    domainOfCode (byteAt body 0) = some d → g = field body 1 4 → first = field body 5 2 → count = field body 7 1 →
    (count = 0 ∨ 8 < count → ∃ u : State, exec (.segmentAskReceived h body) s = .next u.settle ∧ u.fetch = s.fetch ∧
      u.port.counters.malformed = upOne s.port.counters.malformed) ∧
    (1 ≤ count → count ≤ 8 → s.servable d g = false → ∃ u : State, exec (.segmentAskReceived h body) s = .next u.settle ∧
      u.fetch = s.fetch ∧ u.port.counters.malformed = s.port.counters.malformed ∧
      (s.link.control.length < 8 → u.link.control = s.link.control ++
        [{ kind := .decline, addressee := h.sender.toNat
           body := domainCode d :: toBytes 4 g ++ 2 :: toBytes 2 first ++ [2], ask := none }]) ∧
      (8 ≤ s.link.control.length → u.link.control = s.link.control ∧
        u.port.counters.controlDrops = upOne s.port.counters.controlDrops)) ∧
    ∀ e : ManifestEntry, 1 ≤ count → count ≤ 8 → s.entry d g = some e → e.servable = true →
      (e.manifest.count < first + count → ∃ u : State, exec (.segmentAskReceived h body) s = .next u.settle ∧
        u.fetch = s.fetch ∧ u.port.counters.malformed = upOne s.port.counters.malformed) ∧
      (first + count ≤ e.manifest.count →
        ((∃ x ∈ s.fetch.serve, x.peer = h.sender.toNat ∧ x.domain = d ∧ x.gen = g ∧ x.next ≤ first ∧
            first + count ≤ x.next + x.remaining) →
          ∃ t : State, exec (.segmentAskReceived h body) s = .next t ∧ t.fetch.serve = s.fetch.serve) ∧
        ((∀ x ∈ s.fetch.serve, ¬ (x.peer = h.sender.toNat ∧ x.domain = d ∧ x.gen = g ∧ x.next ≤ first ∧
            first + count ≤ x.next + x.remaining)) →
          (s.fetch.serve.length < 16 → ∃ t : State, exec (.segmentAskReceived h body) s = .next t ∧
            t.fetch.serve = s.fetch.serve ++
              [{ peer := h.sender.toNat, domain := d, gen := g, next := first, remaining := count }]) ∧
          (16 ≤ s.fetch.serve.length →
            ∃ u : State, exec (.segmentAskReceived h body) s = .next u.settle ∧ u.fetch = s.fetch ∧
              (s.link.control.length < 8 → u.link.control = s.link.control ++
                [{ kind := .decline, addressee := h.sender.toNat
                   body := domainCode d :: toBytes 4 g ++ 2 :: toBytes 2 first ++ [1], ask := none }]) ∧
              (8 ≤ s.link.control.length → u.link.control = s.link.control ∧
                u.port.counters.controlDrops = upOne s.port.counters.controlDrops))))

/-- A SEGMENT, wherever addressed, from a station with a record whose header leaves its loss score as it is: a failing segment CRC is counted
and adds 4 to the sender's loss score, capped at 15 (R117); a segment that the COLLECTING slot of its generation has is counted a duplicate;
one that it misses is offered to the pool's write queue (R87). -/
def Obligations.SegmentTaken : Prop :=
  ∀ (s : State) (h : LinkHeader) (body : List Byte) (d : Domain) (p : Peer), s.frameTaken .segment h body →
    segDomain body = some d → s.peer h.sender.toNat = some p → h.sequence = p.sequence + 1 → p.received < 15 → p.loss ≤ 15 →
    (segCrcGood body = false → ∃ (u : State) (q : Peer), exec (.segmentReceived h body) s = .next u.settle ∧ u.pool = s.pool ∧
      u.port.counters.segmentCrc = upOne s.port.counters.segmentCrc ∧
      u.settle.peer h.sender.toNat = some q ∧ q.loss = min 15 (p.loss + 4)) ∧
    ∀ i : SlotId, segCrcGood body = true → segOpsGood body = true → s.slotHolding d (segGen body) = some i →
      (s.slot i).state = .collecting → segIndex body < (s.slot i).count →
      ((∃ x ∈ (s.slot i).presence, x.index = segIndex body) →
        ∃ u : State, exec (.segmentReceived h body) s = .next u.settle ∧ u.pool = s.pool ∧
          u.port.counters.duplicate = upOne s.port.counters.duplicate) ∧
      ((∀ x ∈ (s.slot i).presence, x.index ≠ segIndex body) → s.queueHasPlace = true → s.pool.held = false →
        ∃ u : State, exec (.segmentReceived h body) s = .next u.settle ∧
          u.pool = { s.pool with queue := s.pool.queue ++
            [{ domain := d, gen := segGen body, index := segIndex body, bytes := body, source := .peer h.sender.toNat,
               publish := false }] } ∧ u.slots = s.slots)

/-- A usable DECLINE addressed to this station, from a station with a record, is counted; the oldest ask that it matches ends, its sender's
timeouts return to 0, and a BUSY one makes the sender busy for 1 s, while a NOT-HELD or EVICTED one narrows the sender's servable range
(R134, R116). One that matches no ask ends none and leaves the record as the header left it (R110). -/
def Obligations.DeclineTaken : Prop :=
  ∀ (s : State) (h : LinkHeader) (body : List Byte) (b : DeclineBody) (p : Peer), s.frameTaken .decline h body →
    h.addressee.toNat = s.supply.config.station → parseDecline body = some b → s.peer h.sender.toNat = some p →
    ∃ (u : State) (q : Peer), exec (.declineReceived h body) s = .next u.settle ∧
      u.port.counters.declines = upOne s.port.counters.declines ∧ u.settle.peer h.sender.toNat = some q ∧
      ((∀ a ∈ s.fetch.asks, a.matchesDecline h.sender.toNat b = false) → u.fetch.asks = s.fetch.asks ∧
        q.state = .known ∧ q.heard = s.clock ∧ q.vehicle = h.vehicle.toNat ∧ q.sequence = h.sequence ∧
        q.congested = h.flags.getLsbD 0 ∧ q.parked = p.parked ∧ q.values = p.values ∧ q.removalDue = false ∧ p.countsAfter h q) ∧
      ∀ a : Ask, s.fetch.asks.find? (fun a => a.matchesDecline h.sender.toNat b) = some a →
        u.fetch.asks = s.fetch.asks.filter (fun x => x.id != a.id) ∧ q.timeouts = 0 ∧
        (b.reason = .busy → q.busy = some (s.clock + 1000000) ∧ q.values = p.values) ∧
        (b.reason ≠ .busy →
          (q.values.get b.domain).oldest = (match (p.values.get b.domain).oldest with
            | some o => if o ≤ b.gen then (if (p.values.get b.domain).held < b.gen + 1 then none else some (b.gen + 1)) else some o
            | none => none) ∧
          (q.values.get b.domain).baseline =
            (if (p.values.get b.domain).baseline = some b.gen then none else (p.values.get b.domain).baseline) ∧
          (∀ d : Domain, d ≠ b.domain → q.values.get d = p.values.get d))

/-! ## The transmitter, the rate and the link timers -/

/-- R131: at the end of the transmission of an ask's frame the ask is SENT and its timeout stands 600 ms later; a transmission end for a
frame whose ask has ended changes no ask. The end that follows a transmission cut off at a hold is not taken as the end of a sent frame,
whatever is being sent by then (R176; that the part counts such ends off is the model's choice, log entry 26). -/
def Obligations.TransmissionEndMakesAskSent : Prop :=
  (∀ s : State, 0 < s.link.cutOff →
    exec .transmissionEnd s = .next { s with link := { s.link with cutOff := s.link.cutOff - 1 } }) ∧
  ∀ (s : State) (c : Chosen), s.link.chosen = some c → c.phase = .sending → s.link.cutOff = 0 →
    ∃ t : State, exec .transmissionEnd s = .next t ∧
      (∀ id : Nat, c.frame.ask = some id → t.fetch.asks = s.fetch.asks.map (fun a =>
        if a.id = id then { a with sent := true, timeout := some (s.clock + 600000) } else a)) ∧
      ((∀ a ∈ s.fetch.asks, c.frame.ask ≠ some a.id) → t.fetch.asks = s.fetch.asks) ∧
      t.fetch.serve = s.fetch.serve ∧
      t = { s with fetch := t.fetch, link := t.link, port := { s.port with flags := t.port.flags }, draws := t.draws }

/-- Every sixteenth transmission end of a frame of a paced class raises the ASR by a sixteenth of PSR, at least 1, within MSR and PSR, and
the end of an ANNOUNCE changes neither the ASR nor the increase count (R167). At a change of the ASR the low-rate state becomes LOW at or
below the low threshold, and OK again at 4 above it, each with its notice (R170). No end of a transmission cut off at a hold is still to
come (R176, log entry 26). -/
def Obligations.PacedEndsRaiseRate : Prop :=
  ∀ (s : State) (c : Chosen), s.link.chosen = some c → c.phase = .sending → s.link.cutOff = 0 →
    ∃ t : State, exec .transmissionEnd s = .next t ∧
      (c.cls = .announce → t.link.asr = s.link.asr ∧ t.link.increase = s.link.increase) ∧
      (c.cls ≠ .announce → s.link.increase + 1 ≠ 16 → t.link.asr = s.link.asr ∧ t.link.increase = s.link.increase + 1) ∧
      (c.cls ≠ .announce → s.link.increase + 1 = 16 → t.link.increase = 0 ∧
        t.link.asr = max s.supply.config.msr (min s.supply.config.psr (s.link.asr + max 1 (s.supply.config.psr / 16)))) ∧
      (t.link.asr = s.link.asr → t.link.lowRate = s.link.lowRate) ∧
      (t.link.asr ≠ s.link.asr →
        (s.link.lowRate = .ok → t.link.asr ≤ s.supply.config.lowThreshold →
          t.link.lowRate = .low ∧ t.port.flags.getLsbD 2 = true) ∧
        (s.link.lowRate = .ok → s.supply.config.lowThreshold < t.link.asr → t.link.lowRate = .ok) ∧
        (s.link.lowRate = .low → s.supply.config.lowThreshold + 4 ≤ t.link.asr →
          t.link.lowRate = .ok ∧ t.port.flags.getLsbD 3 = true) ∧
        (s.link.lowRate = .low → t.link.asr < s.supply.config.lowThreshold + 4 → t.link.lowRate = .low))

/-- CSENSE turning busy returns a BACKOFF to DEFER with its count (R164). After three slot times of a clear channel a frame in DEFER is in
BACKOFF, or is sent at once at a count of 0; each clear slot time in BACKOFF lowers the count by 1, and at 0 the transmission starts. -/
def Obligations.ChannelAccessRuns : Prop :=
  (∀ (s : State) (busy : Bool), ∃ t : State, exec (.csenseChange busy) s = .next t ∧
    t = { s with
      pins := { s.pins with csense := busy, clearFrom := if s.pins.csense && !busy then s.clock else s.pins.clearFrom }
      link := { s.link with chosen := t.link.chosen, busySpans := t.link.busySpans, busyFrom := t.link.busyFrom } } ∧
    (busy = false → t.link.chosen = s.link.chosen) ∧
    (busy = true → t.link.chosen = s.link.chosen.map (fun c => if c.phase = .backoff then { c with phase := .defer } else c))) ∧
  (∀ (s : State) (c : Chosen), s.link.chosen = some c → c.phase = .defer → s.pins.csense = false →
    s.pins.clearFrom + 3 * Config.slotTime s.link.rateCode ≤ s.clock →
    (c.backoff = 0 → ∃ t : State, exec .quietIntervalEnd s = .next t ∧ s.starts c t) ∧
    (c.backoff ≠ 0 → exec .quietIntervalEnd s =
      .next { s with link := { s.link with chosen := some { c with phase := .backoff, slotFrom := s.clock } } })) ∧
  ∀ (s : State) (c : Chosen), s.link.chosen = some c → c.phase = .backoff → s.pins.csense = false →
    c.slotFrom + Config.slotTime s.link.rateCode ≤ s.clock →
    (c.backoff ≤ 1 → ∃ t : State, exec .backoffSlotEnd s = .next t ∧ s.starts c t) ∧
    (2 ≤ c.backoff → exec .backoffSlotEnd s =
      .next { s with link := { s.link with chosen := some { c with backoff := c.backoff - 1, slotFrom := s.clock } } })

/-- One ASR-th of a second after the credit clock started the credit goes up by 1, to at most 4, and the clock starts again while the credit
is below 4 (R166); what then waits may be chosen. The decrease hold ends at its expiry (R168). -/
def Obligations.CreditAndDecreaseHoldRun : Prop :=
  (∀ (s : State) (t0 : Nat), s.link.creditFrom = some t0 → 1000000 ≤ (s.clock - t0) * s.link.asr →
    exec .creditDue s = .next (State.transmitNext { s with link := { s.link with
      credit := min 4 (s.link.credit + 1), creditFrom := if s.link.credit + 1 < 4 then some s.clock else none } })) ∧
  ∀ (s : State) (t0 : Nat), s.link.decreaseHold = some t0 → t0 ≤ s.clock →
    exec .decreaseHoldExpiry s = .next { s with link := { s.link with decreaseHold := none } }

/-- R168: a frame that passes the receive filter with the congestion mark set, from any sender and to any station, returns the increase count
to 0; while the decrease hold does not run, the ASR falls by a quarter, at least 1, and the hold runs for 250 ms. -/
def Obligations.CongestionMarkHeard : Prop :=
  ∀ (s : State) (c : Instr) (k : FrameKind) (h : LinkHeader) (body : List Byte), frameOf c = some (k, h, body) →
    s.running = true → frameFormed k h body → s.frameOurs h → h.flags.getLsbD 0 = true →
    ∃ t : State, exec c s = .next t ∧ t.link.increase = 0 ∧
      (s.link.decreaseHold = none →
        t.link.asr = max s.supply.config.msr (min s.supply.config.psr (s.link.asr - max 1 (s.link.asr / 4))) ∧
        t.link.decreaseHold = some (s.clock + 250000)) ∧
      (s.link.decreaseHold ≠ none → t.link.asr = s.link.asr ∧ t.link.decreaseHold = s.link.decreaseHold)

/-- R169: at the decay timer's expiry the ASR is halved, not below MSR, the increase count returns to 0 and the timer runs for another 4 s;
it restarts at every ANNOUNCE that passes the receive filter, whatever its sender and body. -/
def Obligations.DecayHalvesRate : Prop :=
  (∀ (s : State) (t0 : Nat), s.link.decay = some t0 → t0 ≤ s.clock →
    ∃ t : State, exec .decayTimerExpiry s = .next t ∧
      t.link.asr = max s.supply.config.msr (min s.supply.config.psr (s.link.asr / 2)) ∧ t.link.increase = 0 ∧
      t.link.decay = some (s.clock + 4000000) ∧
      t = { s with link := t.link, port := { s.port with flags := t.port.flags } }) ∧
  ∀ (s : State) (h : LinkHeader) (body : List Byte), s.running = true → frameFormed .announce h body → s.frameOurs h →
    ∃ t : State, exec (.announceReceived h body) s = .next t ∧ t.link.decay = some (s.clock + 4000000)

/-- At its timer's expiry an ANNOUNCE of the station's values is formed, and the timer runs for a new period within 250 ms of 1,000 ms (R172;
the jitter is a free value, log entry 5). -/
def Obligations.AnnouncementFormed : Prop :=
  ∀ (s : State) (t0 : Nat), s.link.announceAt = some t0 → t0 ≤ s.clock →
    ∃ (u : State) (next : Nat), exec .announcementTimerExpiry s = .next u.transmitNext ∧
      u.link.announceAt = some next ∧ u.transmitNext.link.announceAt = some next ∧
      s.clock + 750000 ≤ next ∧ next ≤ s.clock + 1250000 ∧ u = { s with link := u.link, draws := s.draws + 1 } ∧
      (s.link.chosen = none → u.link.announce = some
        { kind := .announce, addressee := 0, ask := none
          body := (if s.supply.power = .parked then 2 else 1) ::
            announceBlockBytes (s.announced .block) (s.domain .block).pending.length ++
            announceBlockBytes (s.announced .product) (s.domain .product).pending.length })

/-! ## Peers and asks -/

/-- A record not heard for 8 s goes STALE, and one not heard for 60 s leaves the table, or is marked for it while asks to it are outstanding
(R112); the unresponsive period ends with the timeouts back at 0 (R115), and the busy period ends (R116). No other record changes. -/
def Obligations.PeerRecordsAge : Prop :=
  ∀ (s : State) (n : BitVec 16) (p : Peer), s.running = true → s.peer n.toNat = some p →
    (p.state = .known → p.heard + 8000000 ≤ s.clock → ∃ (t : State) (q : Peer), exec (.staleExpiry n) s = .next t ∧
      t.peer n.toNat = some q ∧ q.unasked = { p.unasked with state := .stale } ∧
      (∀ m, m ≠ n.toNat → (t.peer m).map Peer.unasked = (s.peer m).map Peer.unasked) ∧ s.sameStore t) ∧
    (p.state = .stale → p.heard + 60000000 ≤ s.clock → p.asks = 0 → ∃ t : State, exec (.removalExpiry n) s = .next t ∧
      t.peer n.toNat = none ∧
      (∀ m, m ≠ n.toNat → (t.peer m).map Peer.unasked = (s.peer m).map Peer.unasked) ∧ s.sameStore t) ∧
    (p.state = .stale → p.heard + 60000000 ≤ s.clock → p.asks ≠ 0 → ∃ t : State, exec (.removalExpiry n) s = .next t ∧
      t = { s with peers := t.peers } ∧ t.peer n.toNat = some { p with removalDue := true } ∧
      ∀ m, m ≠ n.toNat → t.peer m = s.peer m) ∧
    (∀ t0, p.unresponsive = some t0 → t0 ≤ s.clock → ∃ (t : State) (q : Peer), exec (.unresponsiveExpiry n) s = .next t ∧
      t.peer n.toNat = some q ∧ q.unasked = { p.unasked with unresponsive := none, timeouts := 0 } ∧
      (∀ m, m ≠ n.toNat → (t.peer m).map Peer.unasked = (s.peer m).map Peer.unasked) ∧ s.sameStore t) ∧
    (∀ t0, p.busy = some t0 → t0 ≤ s.clock → ∃ (t : State) (q : Peer), exec (.busyExpiry n) s = .next t ∧
      t.peer n.toNat = some q ∧ q.unasked = { p.unasked with busy := none } ∧
      (∀ m, m ≠ n.toNat → (t.peer m).map Peer.unasked = (s.peer m).map Peer.unasked) ∧ s.sameStore t)

/-- R135: the timeout of the one SENT ask that has reached it ends that ask, counts ask timeouts, and adds to its peer's loss score and
consecutive timeouts, the third of which makes the peer unresponsive for 10 s (R115); without a SENT ask that has reached its timeout nothing
expires. -/
def Obligations.AskTimesOut : Prop :=
  (∀ s : State, (∀ a ∈ s.fetch.asks, a.sent = true → ∀ t0, a.timeout = some t0 → s.clock < t0) →
    exec .askTimeout s = .next s) ∧
  ∀ (s : State) (a : Ask) (t0 : Nat), s.running = true → a ∈ s.fetch.asks → a.sent = true → a.timeout = some t0 → t0 ≤ s.clock →
    (∀ b ∈ s.fetch.asks, b.sent = true → ∀ t1, b.timeout = some t1 → t1 ≤ s.clock → b = a) →
    ∃ u : State, exec .askTimeout s = .next u.settle ∧ u.fetch.asks = s.fetch.asks.filter (fun x => x.id != a.id) ∧
      u.port.counters.askTimeouts = upOne s.port.counters.askTimeouts ∧
      ∀ p : Peer, s.peer a.peer = some p → p.removalDue = false →
        ∃ q : Peer, u.settle.peer a.peer = some q ∧ q.loss = min 15 (p.loss + 2) ∧ q.timeouts = min 3 (p.timeouts + 1) ∧
          q.values = p.values ∧ q.busy = p.busy ∧
          (p.timeouts = 2 → p.unresponsive = none → q.unresponsive = some (s.clock + 10000000)) ∧
          (p.timeouts < 2 ∨ p.unresponsive ≠ none → q.unresponsive = p.unresponsive)

/-! ## Assembly and the pool -/

/-- The digest of a slot completes (R90): a right one makes the slot VERIFIED and queues its VERIFIED write, and when the manifest is a BASELINE
the earlier slots of the domain that R101 names drain; a wrong one is counted, empties the presence set and queues the DIGEST-FAILED write,
and the slot collects again, but at the third failure, or the first of a LOCAL slot, its digest joins the barred list as the newest,
GEN-BARRED is raised and the slot drains (R91, R92). The PUBLISH-SEGMENT that waits for the digest is answered with the presence count and the
segment count; that DIGEST-FAIL carries the presence count after the set is emptied is the model's reading (log entry 35). -/
def Obligations.DigestJudged : Prop :=
  ∀ (s : State) (i : SlotId) (m : Manifest), (s.slot i).manifest = some m → (s.slot i).digesting = true →
    (digestOf m ((s.slot i).presence.map (·.crc)) = m.digest →
      ∃ u : State, exec (.digestCompletion i) s = .next u.settle ∧
        (s.port.inProgress = some (.segmentDigest i) → u.port.inProgress = none ∧ u.port.response = some
          { kind := RequestKind.publishSegment.code, outcome := OutcomeCode.verified.code, overrun := s.port.overrun
            body := toBytes 2 (s.slot i).presence.length ++ toBytes 2 m.count }) ∧
        (m.kind = .delta → u.slot i = { s.slot i with digesting := false, state := .verified } ∧
          (∀ j, j ≠ i → u.slot j = s.slot j) ∧
          u.pool = { s.pool with indexQueue := s.pool.indexQueue ++ [.verified (s.slot i).domain (s.slot i).gen] } ∧
          u = { s with slots := u.slots, pool := u.pool, port := u.port } ∧
          (s.port.inProgress ≠ some (.segmentDigest i) → u.port = s.port)) ∧
        (m.kind = .baseline →
          Slot.keptAs { s.slot i with digesting := false, state := .verified } (u.slot i) ∧
          (∀ j, j ≠ i → s.overtakenBy i j → s.slotDrained j (u.slot j)) ∧
          (∀ j, j ≠ i → ¬ s.overtakenBy i j → (s.slot j).keptAs (u.slot j)) ∧
          .verified (s.slot i).domain (s.slot i).gen ∈ u.pool.indexQueue)) ∧
    (digestOf m ((s.slot i).presence.map (·.crc)) ≠ m.digest →
      ∃ u : State, exec (.digestCompletion i) s = .next u.settle ∧
        u.port.counters.digestFailures = upOne s.port.counters.digestFailures ∧
        (s.port.inProgress = some (.segmentDigest i) → u.port.response = some
          { kind := RequestKind.publishSegment.code, outcome := OutcomeCode.digestFail.code, overrun := s.port.overrun
            body := toBytes 2 0 ++ toBytes 2 m.count }) ∧
        ((s.slot i).failures < 2 → (s.slot i).origin = .peer →
          u.backup = s.backup ∧ (u.slot i).state = (s.slot i).state ∧ (u.slot i).presence = [] ∧
          (u.slot i).failures = (s.slot i).failures + 1 ∧ (∀ j, j ≠ i → u.slot j = s.slot j) ∧
          u.pool = { s.pool with indexQueue := s.pool.indexQueue ++ [.digestFailed (s.slot i).domain (s.slot i).gen] }) ∧
        (2 ≤ (s.slot i).failures ∨ (s.slot i).origin = .local →
          u.backup.barred.getLast? = some m.digest ∧ u.backup.barred.length ≤ max 8 s.backup.barred.length ∧
          u.port.flags.getLsbD 8 = true ∧ s.slotDrained i (u.slot i) ∧ (∀ j, j ≠ i → (s.slot j).keptAs (u.slot j)) ∧
          .digestFailed (s.slot i).domain (s.slot i).gen ∈ u.pool.indexQueue))

/-- A DRAINING slot without an outstanding ask goes EMPTY (R102); a grant from the wait list takes its slot to COLLECTING, with its digest
computation begun when its presence set is whole (R70, R86), and one whose pool entry is verified to VERIFIED, where an index lost while it waited
stays lost and is offered to the FSE (R86, R93), the slot keeping in ADMIT-WAIT, as in VERIFIED, APPLYING and BLOCKED, what it recorded of an index
that the pool tells it is lost; the write at the head of the write queue, after a pin release when it waits, begins
when it has a free place or can be made one, and else waits at the head (R67); a queued index write begins ahead of it, waiting or not (R66; that
the pool's own index writes of R73 do so too is the model's choice, log entry 61; the entering of a manifest, which the pool judges first, is left to
IndexWriteCommits); the queue has a place while its offers and a write in progress
that began without a free place, which keeps its own (the model's choice, log entry 16), are fewer than four; and a held PUBLISH-SEGMENT joins the
write queue at a place of it (R66). -/
def Obligations.SlotAndQueueEventsRun : Prop :=
  (∀ (s : State) (i : SlotId), (s.slot i).state = .draining → s.slotAsks i = [] →
    exec (.slotDrainEnd i) s = .next (State.settle { s with
      slots := s.slots.set i Slot.empty, todo := { s.todo with openPass := { block := true, product := true } } })) ∧
  (∀ (s : State) (i : SlotId), i ∈ s.pool.grants →
    (∀ e, s.entry (s.slot i).domain (s.slot i).gen = some e → e.verified = false) →
    exec (.admissionGranted i) s = .next (State.settle { s with
      pool := { s.pool with grants := s.pool.grants.filter (· != i) }
      slots := s.slots.set i { s.slot i with
        state := .collecting, lost := [], digesting := (s.slot i).presence.length == (s.slot i).count }
      todo := { s.todo with askPass := true } })) ∧
  (∀ (s : State) (i : SlotId) (e : ManifestEntry), i ∈ s.pool.grants → i ∉ s.pool.waitList → s.entry (s.slot i).domain (s.slot i).gen = some e →
    e.verified = true → ∃ u : State, exec (.admissionGranted i) s = .next u.settle ∧
      u.slot i = { s.slot i with state := .verified } ∧ ((s.slot i).lost ≠ [] → u.todo.askPass = true)) ∧
  (∀ (s : State) (i : SlotId) (d : Domain) (g : Gen) (k : Nat) (p : Presence), s.slotHolding d g = some i →
    (s.slot i).presence.find? (fun q => q.index == k) = some p →
    (s.slot i).state = .admitWait ∨ (s.slot i).state = .verified ∨ (s.slot i).state = .applying ∨ (s.slot i).state = .blocked →
    (s.deliver (.indexLost d g k)).slot i = { s.slot i with
      presence := (s.slot i).presence.filter (fun q => q.index != k), lost := (s.slot i).lost ++ [p] }) ∧
  (∀ (s t : State) (o : Offer) (rest : List Offer), s.pool.writing = .none → s.pool.queue = o :: rest →
    (s.freeFor o ∧ t = { s with pool := { s.pool with
        queue := rest, waiting := false, retryDue := false, writing := .segment o false } } ∨
     s.roomToMakeFor o ∧ t = { s with pool := { s.pool with
        queue := rest, waiting := false, retryDue := false, writing := .segment o true } } ∨
     s.noRoomFor o ∧ t = { s with pool := { s.pool with waiting := true, retryDue := false } }) →
    (s.pool.waiting = true → s.pool.retryDue = true → exec .poolWriteRetry s = .next t) ∧
    (s.pool.waiting = false → s.pool.indexQueue = [] → s.poolPump 1 = t)) ∧
  (∀ (s : State) (w : IndexWrite) (rest : List IndexWrite), s.pool.writing = .none → s.pool.indexQueue = w :: rest →
    (∀ i m what opened, w ≠ .enter i m what opened) →
    s.poolReady = true ∧ s.poolPump 1 = { s with pool := { s.pool with indexQueue := rest, writing := .index w } }) ∧
  (∀ (s : State) (o : Offer), s.queueHasPlace = true ↔
    s.pool.queue.length + (match s.pool.writing with
      | .segment _ true => 1
      | _ => 0) < 4) ∧
  ∀ (s : State) (o : Offer), s.port.inProgress = some (.segmentHeld o) → s.queueHasPlace = true → s.pool.held = false →
    exec .publishSegmentQueueJoin s = .next (State.settle { s with
      pool := { s.pool with queue := s.pool.queue ++ [o] }
      port := { s.port with inProgress := some .segmentWrite } })

/-- The commit of a segment write stores the segment, tagged with its entry's stamp and its index, in the lowest free place (the lowest is the
model's choice, log entry 4); no other segment place and no record place changes (R62, R66), and the slot of the generation takes it (R88, R90,
R95). Where no place is free, generations are given up before, one whole one after the other until a place is free, in the order of R72; with
none to give up, the newest slot of the wait list that holds places is emptied, under a new stamp (R67); with neither the write, whose room a
pin has taken since it began, waits at the head of the write queue in the place that it kept (that it kept one is the model's choice, log entry 16,
and so is that a write that began with a free place and finds none, which no run brings about, goes on), and under a hold it is discarded (R74), its
PUBLISH-SEGMENT answered DROPPED (the model's choice, log entry 16). All this is so in every power state, the
holds of CLOSING and DIP-HOLD among them, in which the write in progress still completes (R74). A segment that its entry has by then is a
duplicate, is counted, and writes nothing; a PUBLISH-SEGMENT is answered DUPLICATE, whose counts are the pool entry's when no slot has them any
more (the model's reading, log entry 35). -/
def Obligations.SegmentWriteCommits : Prop :=
  ∀ (s : State) (o : Offer) (keepsPlace : Bool) (e : ManifestEntry), s.pool.writing = .segment o keepsPlace →
    s.entry o.domain o.gen = some e →
    (e.verified = false → o.index ∉ e.present →
      (∀ xs : List ManifestEntry, s.evictsInTurn xs → xs.length ≤ 128 → (∀ x ∈ xs, ¬ e.sameGen x) →
        ∃ ix : PoolIndex, s.indexWithout xs ix ∧ s.segmentCommits o e ix []) ∧
      (65536 ≤ lowestUnused 0 s.store.index.used → (∀ x, ¬ s.evictable x) →
        (∀ (i : SlotId) (h : ManifestEntry), s.newestHolder i h → ¬ e.sameGen h →
          lowestUnused 0 (usedWithout s.store.cells h.stamp s.store.index.used) < 65536 →
          s.segmentCommits o e
            { s.store.index.update { h with stamp := s.store.index.newStamp, present := [], verified := false } with
              used := usedWithout s.store.cells h.stamp s.store.index.used, stampSource := s.store.index.newStamp } [.slotEmptied i]) ∧
        ((∀ i h, ¬ s.newestHolder i h) →
          ∃ u : State, exec .poolSegmentWriteCommit s = .next u.settle ∧ u.store = s.store ∧ (∀ i, u.slot i = s.slot i) ∧
            (s.pool.held = false → keepsPlace = true → u.port = s.port ∧ u.pool = { s.pool with
              queue := o :: s.pool.queue, waiting := true, retryDue := false, writing := .none }) ∧
            (s.pool.held = false → keepsPlace = false → u = s) ∧
            (s.pool.held = true → u.pool = { s.pool with writing := .none } ∧
              u.port = (if o.publish = true then (s.withResponse RequestKind.publishSegment.code .dropped []).port else s.port))))) ∧
    (e.verified = true ∨ o.index ∈ e.present →
      ∃ u : State, exec .poolSegmentWriteCommit s = .next u.settle ∧ u.store = s.store ∧
        u.port.counters.duplicate = upOne s.port.counters.duplicate ∧
        (o.publish = true → ∃ body : List Byte, u.port.inProgress = none ∧ u.port.response = some
            { kind := RequestKind.publishSegment.code, outcome := OutcomeCode.duplicate.code, overrun := s.port.overrun, body := body } ∧
          (∀ i : SlotId, s.slotHolding o.domain o.gen = some i →
            body = toBytes 2 (s.slot i).presence.length ++ toBytes 2 (s.slot i).count) ∧
          (s.slotHolding o.domain o.gen = none → s.slotDraining o.domain o.gen = none →
            body = toBytes 2 e.present.length ++ toBytes 2 e.manifest.count)))

/-- The commit of an index write (R62, R68): a complete entry is marked verified; an unverified one whose digest failed is emptied under a new
stamp; an unverified one is removed with its places; and a manifest that its slot still wants gets an entry with a new stamp, its slot the
manifest, and, with room in the reservation, COLLECTING. In a table of 128 entries the generation that R72 gives up first leaves it for the new
entry; with none to give up the manifest is refused, and its slot stays MANIFEST-WANTED (R64; at the fourth ask's end R82 applies). The index
write of a failing segment removes an entry without pins with its places, and else takes the index and its place from it and clears its mark, a slot
that pins it being told; and the one for the last release of a repair pin removes an entry unverified and without pins still (R73). All this
is so in every power state: the holds of CLOSING and DIP-HOLD leave the index writes going (R74). The model's choices and readings here: that the
index write of a failing segment takes nothing from an entry that has a new stamp or has lost the index by then, that the one for a repair pin
removes nothing when the entry is pinned or verified again by then, and that a slot which pins the entry by then is told (log entry 15); and that a
manifest is judged again, and may be refused, when its write commits (log entry 23). -/
def Obligations.IndexWriteCommits : Prop :=
  ∀ (s : State) (d : Domain) (g : Gen),
    (∀ e : ManifestEntry, s.pool.writing = .index (.verified d g) → s.entry d g = some e → e.present.length = e.manifest.count →
      ∃ u : State, exec .poolIndexWriteCommit s = .next u.settle ∧ u.supply.power = s.supply.power ∧ u.storeStays ∧
        u.store = { s.store with index := s.store.index.update { e with verified := true } }) ∧
    (∀ e : ManifestEntry, s.pool.writing = .index (.digestFailed d g) → s.entry d g = some e → e.verified = false →
      ∃ u : State, exec .poolIndexWriteCommit s = .next u.settle ∧ u.supply.power = s.supply.power ∧ u.storeStays ∧
        u.store = { s.store with index :=
          { s.store.index.update { e with stamp := s.store.index.newStamp, present := [], verified := false } with
            used := usedWithout s.store.cells e.stamp s.store.index.used, stampSource := s.store.index.newStamp } }) ∧
    (∀ e : ManifestEntry, s.pool.writing = .index (.remove d g) → s.entry d g = some e → e.verified = false →
      ∃ u : State, exec .poolIndexWriteCommit s = .next u.settle ∧ u.supply.power = s.supply.power ∧ u.storeStays ∧ u.entry d g = none ∧
        u.store.index.used = usedWithout s.store.cells e.stamp s.store.index.used ∧
        u.store = { s.store with index := u.store.index }) ∧
    (∀ (e : ManifestEntry) (k : Nat), s.pool.writing = .index (.lost d g e.stamp k) → s.entry d g = some e → k ∈ e.present →
      (¬ s.pinned d g → ∃ u : State, exec .poolIndexWriteCommit s = .next u.settle ∧ u.supply.power = s.supply.power ∧ u.storeStays ∧
        u.entry d g = none ∧ u.store.index.used = usedWithout s.store.cells e.stamp s.store.index.used ∧
        u.store = { s.store with index := u.store.index }) ∧
      (∀ pc : Nat × PoolCell, s.pinned d g → s.cellOf e k = some pc →
        ∃ u : State, exec .poolIndexWriteCommit s = .next u.settle ∧ u.supply.power = s.supply.power ∧ u.storeStays ∧
          (s.slotPinned d g → .indexLost d g k ∈ u.todo.mail) ∧
          u.store = { s.store with index :=
            { s.store.index.update { e with present := e.present.filter (· != k), verified := false } with
              used := s.store.index.used.filter (· != pc.1) } })) ∧
    (∀ (e : ManifestEntry) (n k : Nat), s.pool.writing = .index (.lost d g n k) → s.entry d g = some e → e.stamp ≠ n ∨ k ∉ e.present →
      ∃ u : State, exec .poolIndexWriteCommit s = .next u.settle ∧ u = { s with pool := { s.pool with writing := .none } }) ∧
    (∀ e : ManifestEntry, s.pool.writing = .index (.unpinned d g) → s.entry d g = some e →
      (e.verified = false → ¬ s.pinned d g → ∃ u : State, exec .poolIndexWriteCommit s = .next u.settle ∧
        u.supply.power = s.supply.power ∧ u.storeStays ∧ u.entry d g = none ∧ u.pool.retryDue = s.pool.waiting ∧
        u.store.index.used = usedWithout s.store.cells e.stamp s.store.index.used ∧ u.store = { s.store with index := u.store.index }) ∧
      (e.verified = true ∨ s.pinned d g → ∃ u : State, exec .poolIndexWriteCommit s = .next u.settle ∧
        u = { s with pool := { s.pool with writing := .none } })) ∧
    ∀ (i : SlotId) (m : Manifest), s.pool.writing = .index (.enter i m .peer false) → m.domain = d → m.gen = g →
      (s.slot i).state = .manifestWanted → (s.slot i).domain = d → (s.slot i).gen = g → s.entry d g = none →
      (∀ ix : PoolIndex, (s.slot i).presence = [] → 1 ≤ m.count → s.pool.reserved + m.count ≤ 65536 →
        (s.store.index.entries.length < 128 ∧ ix = s.store.index ∨
          128 ≤ s.store.index.entries.length ∧ ∃ x, s.evicts x ∧ ix = { s.store.index with
            entries := s.store.index.entries.filter (fun y => !(y.manifest.domain == x.manifest.domain && y.manifest.gen == x.manifest.gen))
            used := usedWithout s.store.cells x.stamp s.store.index.used }) →
        ∃ u : State, exec .poolIndexWriteCommit s = .next u.settle ∧ u.supply.power = s.supply.power ∧ u.storeStays ∧
          u.store = { s.store with index := { ix with
            entries := ix.entries ++
              [ManifestEntry.sealed { manifest := m, stamp := ix.newStamp, verified := false, present := [], check := 0 }]
            stampSource := ix.newStamp } } ∧
          u.pool.reserved = s.pool.reserved + m.count ∧
          u.pool.pins = s.pool.pins ++ [{ holder := .slot i, domain := d, gen := g }] ∧
          u.slot i = { s.slot i with state := .collecting, manifest := some m, entered := true, admitted := true, digesting := false }) ∧
      (128 ≤ s.store.index.entries.length → (∀ x, ¬ s.evictable x) → (s.slot i).asks < 4 →
        ∃ u : State, exec .poolIndexWriteCommit s = .next u.settle ∧ u.supply.power = s.supply.power ∧ u.storeStays ∧
          u.store = s.store ∧ u.slot i = s.slot i ∧ u.pool.pins = s.pool.pins)

/-- The pool's restoration ends a start (R187): START is raised, the part is in RUN, or in PARKED with a fresh parked window while the
ignition is off, the stable-run timer runs, the ASR stands at ISR with the decay timer running (R177), and a first ANNOUNCE is due; with the
ignition off and a parked window of 0 the part is in CLOSING. -/
def Obligations.RestorationEndsStart : Prop :=
  ∀ s : State, s.supply.power = .starting → s.supply.recordRead = true → s.pool.restored = false →
    ∃ u : State, exec .poolRebuildComplete s = .next u.settle ∧
      (s.supply.ignition = true ∨ s.supply.config.parkedWindow ≠ 0 → ∃ next : Nat,
        u.settle.supply.power = (if s.supply.ignition = true then .run else .parked) ∧
        u.settle.supply.parked = (if s.supply.ignition = true then .stopped
          else .running (s.clock + s.supply.config.parkedWindow * 60000000)) ∧
        u.settle.supply.stable = some (s.clock + 60000000) ∧ u.settle.link.asr = s.supply.config.isr ∧
        u.settle.link.lowRate = .ok ∧ u.settle.link.increase = 0 ∧ u.settle.link.decreaseHold = none ∧
        u.settle.link.decay = some (s.clock + 4000000) ∧ u.settle.link.announceAt = some next ∧
        s.clock + 750000 ≤ next ∧ next ≤ s.clock + 1250000 ∧ u.port.flags.getLsbD 10 = true) ∧
      (s.supply.ignition = false → s.supply.config.parkedWindow = 0 → u.supply.power = .closing)

/-! ## Visibility -/

/-- The cohort wait timer of a domain expires (R150): its visible generation goes past the head of the pending list and past every next entry
that the advance test passes (R147, R151), with the domain header written, GEN-VISIBLE raised, and the timer running for another cohort wait
while entries are left; the KNOWN cohort members that do not hold the head raise COHORT-LAG and stand in the lag list with it. An event that
has changed the cohort view makes the advance tests of both domains at the view as it stands, before anything else that it still has to bring
about: each domain goes past every entry that its test passes in one visibility advance, with one header write, or stays as it is (R147, R151). -/
def Obligations.CohortWaitAdvances : Prop :=
  (∀ (s : State) (d : Domain), s.todo.viewChanged = true →
    ∃ (w : State) (passed left : List Gen), s.settleOnce = some w ∧ w.todo.viewChanged = false ∧ (s.domain d).pending = passed ++ left ∧
      (∀ x ∈ passed, s.agrees d x) ∧ (∀ x, left.head? = some x → ¬ s.agrees d x) ∧
      (passed = [] → w.domain d = s.domain d ∧ w.domainWrites.get d = s.domainWrites.get d) ∧
      (∀ v, passed.getLast? = some v →
        w.domain d = { held := (s.domain d).held, visible := v, pending := left
                       timer := if left = [] then none else some (s.clock + s.supply.config.cohortWait * 1000000) } ∧
        w.domainWrites.get d = some (DomainHeader.sealed { held := (s.domain d).held, visible := v, pending := left, check := 0 }) ∧
        w.store.domains.get d = (s.domainWrites.get d).getD (s.store.domains.get d) ∧
        w.port.flags.getLsbD (if d = .block then 0 else 1) = true)) ∧
  ∀ (s : State) (d : Domain) (t0 : Nat) (g : Gen) (rest : List Gen), (s.domain d).timer = some t0 → t0 ≤ s.clock →
    (s.domain d).pending = g :: rest →
    ∃ (u : State) (passed left : List Gen), exec (.cohortWaitExpiry d) s = .next u.settle ∧ rest = passed ++ left ∧
      (∀ x ∈ passed, s.agrees d x) ∧ (∀ x, left.head? = some x → ¬ s.agrees d x) ∧
      u.domain d = { held := (s.domain d).held, visible := (g :: passed).getLast (by simp), pending := left
                     timer := if left = [] then none else some (s.clock + s.supply.config.cohortWait * 1000000) } ∧
      (∀ e, e ≠ d → u.domain e = s.domain e) ∧
      u.domainWrites.get d = some (DomainHeader.sealed
        { held := (s.domain d).held, visible := (u.domain d).visible, pending := left, check := 0 }) ∧
      u.port.flags.getLsbD (if d = .block then 0 else 1) = true ∧
      ((∀ p ∈ s.peers, p.cohort = true → p.state = .known → g ≤ (p.values.get d).held) → u.lag = s.lag ∧
        u.port.flags.getLsbD 4 = s.port.flags.getLsbD 4) ∧
      (∀ p ∈ s.peers, p.cohort = true → p.state = .known → (p.values.get d).held < g → u.port.flags.getLsbD 4 = true ∧
        (s.lag.length + s.peers.length ≤ 14 → { station := p.station, domain := d, gen := g } ∈ u.lag)) ∧
      u = { s with
        vis := u.vis, domainWrites := u.domainWrites, lag := u.lag, todo := u.todo
        store := { s.store with domains := u.store.domains }
        port := { s.port with flags := u.port.flags } }

/-! ## The supply controller -/

/-- A fall of the supply below the hold threshold in STARTING, RUN, PARKED or CLOSING is a dip (R190): DIP-HOLD with the prior power state, the
dip timer running for 1,500 ms and the stable-run timer stopped, the dip count up by 1, the request in progress dropped, asks, serving and
pool writes not in progress ended, and the LNK silent; an IDLE bank is HELD with its scrub cursor and age written, and a bank with a write,
check or repair in progress goes on to its end. Without that fall a reading changes the lines alone. -/
def Obligations.DipEntered : Prop :=
  ∀ (s : State) (mv : Nat) (v24 : Bool), s.risesAboveRun mv v24 = false →
    (¬ (mv < Config.holdThreshold v24 ∧ Config.holdThreshold s.pins.vsel24 ≤ s.pins.vsense) ∨
      s.supply.power = .unpowered ∨ s.supply.power = .commissioning ∨ s.supply.power = .dipHold ∨ s.supply.power = .dormant →
      exec (.supplyFall mv v24) s = .next { s with pins := { s.pins with vsense := mv, vsel24 := v24 } }) ∧
    (mv < Config.holdThreshold v24 → Config.holdThreshold s.pins.vsel24 ≤ s.pins.vsense →
      s.supply.power = .starting ∨ s.supply.power = .run ∨ s.supply.power = .parked ∨ s.supply.power = .closing →
      ∃ u : State, exec (.supplyFall mv v24) s = .next u.settle ∧ u.pins = { s.pins with vsense := mv, vsel24 := v24 } ∧
        u.supply = { s.supply with
          power := .dipHold, prior := some s.supply.power, dipTimer := some (s.clock + 1500000), stable := none } ∧
        u.backup.dips = min 255 (s.backup.dips + 1) ∧
        u.port.inProgress = none ∧ u.port.response = s.port.response ∧
        u.port.dropped = (match s.port.inProgress with
          | some .manifest => some RequestKind.publishManifest.code
          | some _ => some RequestKind.publishSegment.code
          | none => s.port.dropped) ∧
        u.fetch.asks = [] ∧ u.fetch.serve = [] ∧ u.fetch.manifestReads = [] ∧ u.pool.queue = [] ∧ u.pool.waiting = false ∧
        u.pool.held = true ∧ u.link.chosen = none ∧ u.link.announce = none ∧ u.link.control = [] ∧ u.link.ask = [] ∧
        u.link.data = none ∧ u.link.announceAt = none ∧ u.link.decay = none ∧
        ∀ b : BankId,
          ((s.bank b).state = .idle →
            u.bank b = { s.bank b with state := .held, prior := some .idle, work := .none, hold := .none } ∧
            u.store.headers[b] = StoredHeader.sealed (s.bank b).header) ∧
          ((s.bank b).state ≠ .idle → (s.bank b).state ≠ .held → (s.bank b).work.busy = true →
            u.bank b = { s.bank b with hold := .dip } ∧ u.store.headers[b] = s.store.headers[b]))

/-- A rise of the supply above the run threshold: out of UNPOWERED it begins a COLD start of cause POWER-ON with dip count 0 (R181, R184); in
DIP-HOLD with a dip count of 4 or more a COLD start of cause DIP-RESTART, and with less it resumes the prior power state by the ignition and
the parked window, with the stable-run timer running for 60 s, or passes to DORMANT (R191). In DORMANT it begins the start that the part waits
for there (R181, R183, R189), outside a reset's extension: of cause RESET-LINE when one is pending, else IGNITION-WAKE with the ignition on, else
PROCESSOR-WAKE with WAKE asserted, WARM or COLD by the directory and the dip count (R184); with none of these, and in every other power state, CLOSING with a bank still to be HELD among them, a reading
changes the lines alone. -/
def Obligations.SupplyRiseActs : Prop :=
  ∀ (s : State) (mv : Nat) (v24 : Bool), s.risesAboveRun mv v24 = true →
    (s.supply.power = .unpowered → ∃ t : State, exec (.supplyRise mv v24) s = .next t ∧ t.startsAt .powerOn .cold ∧
      t.backup.dips = 0 ∧ t.supply.ignition = s.pins.ign ∧ t.pins = { s.pins with vsense := mv, vsel24 := v24 }) ∧
    (s.supply.power = .dipHold → 4 ≤ s.backup.dips → s.supply.erase = none →
      ∃ t : State, exec (.supplyRise mv v24) s = .next t ∧ t.startsAt .dipRestart .cold ∧ t.backup.dips = s.backup.dips) ∧
    (s.supply.power = .dipHold → s.backup.dips < 4 →
      (∀ (p q : Power) (w : ParkedTimer), s.supply.prior = some p →
        (q = .run ∧ w = .stopped ∧ s.supply.ignition = true ∧ (p = .run ∨ p = .parked ∨ p = .closing) ∨
         q = .parked ∧ s.supply.ignition = false ∧ p = .run ∧ s.supply.config.parkedWindow ≠ 0 ∧
            w = .running (s.clock + s.supply.config.parkedWindow * 60000000) ∨
         q = .parked ∧ s.supply.ignition = false ∧ p = .parked ∧ w = s.supply.parked ∧ ∃ x, w = .running x) →
        ∃ u : State, exec (.supplyRise mv v24) s = .next u.settle ∧
          u.supply = { s.supply with
            power := q, prior := none, dipTimer := none, parked := w, stable := some (s.clock + 60000000) } ∧
          u.pool.held = false ∧ u.link.decay = some (s.clock + 4000000) ∧ u.link.announceAt.isSome = true ∧
          u.backup.dips = s.backup.dips ∧
          (∀ k, s.port.dropped = some k → s.port.response = none → u.port.dropped = none ∧ u.port.response = some
            { kind := k, outcome := OutcomeCode.dropped.code, overrun := s.port.overrun, body := [] }) ∧
          ∀ b : BankId, (s.bank b).state = .held → (s.bank b).prior = some .idle → (s.bank b).work = .none →
            (s.bank b).unoccupied → ¬ s.scrubInterval < 2 * (s.bank b).header.scrubAge →
            u.bank b = { s.bank b with state := .idle, prior := none }) ∧
      (s.supply.prior = some .starting → ∃ u : State, exec (.supplyRise mv v24) s = .next u.settle ∧
        u.supply = { s.supply with power := .starting, prior := none, dipTimer := none } ∧ u.pool.held = false) ∧
      (s.supply.ignition = false → s.supply.pendingStart = false → s.pins.wake = false →
        s.supply.prior = some .closing ∨ (s.supply.prior = some .run ∧ s.supply.config.parkedWindow = 0) ∨
          (s.supply.prior = some .parked ∧ ∀ x, s.supply.parked ≠ .running x) →
        ∃ t : State, exec (.supplyRise mv v24) s = .next t ∧ t.supply.power = .dormant ∧ t.cleared)) ∧
    (s.supply.power ≠ .unpowered → s.supply.power ≠ .dipHold → s.supply.power ≠ .closing → s.supply.power ≠ .dormant →
      s.rests → exec (.supplyRise mv v24) s = .next { s with pins := { s.pins with vsense := mv, vsel24 := v24 } }) ∧
    (s.supply.power = .closing → s.rests → (∃ b : BankId, (s.bank b).state ≠ .held ∧
        ((s.bank b).state = .faulted → (s.bank b).work.busy = true)) →
      exec (.supplyRise mv v24) s = .next { s with pins := { s.pins with vsense := mv, vsel24 := v24 } }) ∧
    (s.supply.power = .dormant → s.rests →
      (∀ c : Cause, s.supply.resetting = none →
        (s.supply.pendingStart = true ∧ c = .resetLine ∨
          s.supply.pendingStart = false ∧ s.supply.ignition = true ∧ c = .ignitionWake ∨
          s.supply.pendingStart = false ∧ s.supply.ignition = false ∧ s.pins.wake = true ∧ c = .processorWake) →
        ∃ t : State, exec (.supplyRise mv v24) s = .next t ∧ s.startsWake c t) ∧
      (s.supply.resetting ≠ none ∨ s.supply.pendingStart = false ∧ s.supply.ignition = false ∧ s.pins.wake = false →
        exec (.supplyRise mv v24) s = .next { s with pins := { s.pins with vsense := mv, vsel24 := v24 } }))

/-- Loss of supply leaves UNPOWERED with the volatile state lost, and store and backup memory as they were but for the writes in progress
(R181): an adding record write left unfinished leaves a record whose check fails in its place and no other place of the bank changed, and a
domain header write left unfinished a header whose check fails (R143). A reset loses the volatile state; a domain header write that has not
completed then completes (R183) or leaves the header as its previous write made it (R143), by whether it has begun; and the reset begins, at the end of its extension of 20 ms, a start of cause RESET-LINE above the run
threshold (R183); WAKE in DORMANT begins one of cause PROCESSOR-WAKE (R189). Each such start is WARM when the directory is valid and its check
agrees and the dip count is below 4, and COLD otherwise (R184). The model's choices here: that the torn
place is the lowest free one (log entry 4) and that every write in progress is torn or none (log entry 29), that the extension is shown as
DORMANT with a mark and counted from the reset (log entry 27), that a domain header write is in progress until the next tick, and that a free
value tells at a reset whether it has begun (log entry 44). -/
def Obligations.SupplyLossAndResetAct : Prop :=
  ∀ s : State, s.supply.power ≠ .unpowered →
    (∀ unfinished : Bool, ∃ t : State, exec (.supplyLoss unfinished) s = .next t ∧ t.supply.power = .unpowered ∧ t.pins.vsense = 0 ∧
      t.supply.ignition = false ∧ t.supply.pendingStart = false ∧ t.cleared ∧
      ((∀ b : BankId, (s.bank b).work = .none) → s.pool.writing = .none → s.supply.erase = none →
        t.store = { s.store with domains := t.store.domains } ∧ t.backup = s.backup ∧
        ∀ d : Domain, (s.domainWrites.get d = none → t.store.domains.get d = s.store.domains.get d) ∧
          ∀ h : DomainHeader, s.domainWrites.get d = some h →
            (unfinished = false → t.store.domains.get d = h) ∧
            (unfinished = true → (t.store.domains.get d).good = false)) ∧
      ∀ (b : BankId) (run : ApplyRun), unfinished = true → (s.bank b).work = .applyAdd run → s.supply.erase = none →
        lowestFree 0 (s.places b) < 65536 →
        (∃ r : Record, placeGet (lowestFree 0 (s.places b)) (t.places b) = some r ∧ r.good = false) ∧
        ∀ q, q ≠ lowestFree 0 (s.places b) → placeGet q (t.places b) = placeGet q (s.places b)) ∧
    (∃ t : State, exec .resetTaken s = .next t ∧ t.supply.power = .dormant ∧ t.supply.resetting = some (s.clock + 20000) ∧ t.cleared ∧
      t.pins = s.pins ∧ ((∀ b : BankId, (s.bank b).work = .none) → s.pool.writing = .none → s.supply.erase = none →
        t.store = { s.store with domains := t.store.domains } ∧ t.backup = s.backup ∧
        ∀ d : Domain, (s.domainWrites.get d = none → t.store.domains.get d = s.store.domains.get d) ∧
          ∀ h : DomainHeader, s.domainWrites.get d = some h →
            t.store.domains.get d = h ∨ t.store.domains.get d = s.store.domains.get d)) ∧
    (∀ t0 : Nat, s.supply.power = .dormant → s.supply.resetting = some t0 → s.clock < t0 → exec .resetExtensionEnd s = .next s) ∧
    (∀ t0 : Nat, s.supply.power = .dormant → s.supply.resetting = some t0 → t0 ≤ s.clock →
      (s.pins.vsense ≤ Config.runThreshold s.pins.vsel24 → exec .resetExtensionEnd s =
        .next { s with supply := { s.supply with resetting := none, pendingStart := true } }) ∧
      (Config.runThreshold s.pins.vsel24 < s.pins.vsense →
        ∃ t : State, exec .resetExtensionEnd s = .next t ∧ s.startsWake .resetLine t)) ∧
    (s.supply.power = .dormant → s.supply.resetting = none → s.supply.pendingStart = false → s.supply.ignition = false →
      (∀ level : Bool, level = false ∨ s.pins.vsense ≤ Config.runThreshold s.pins.vsel24 →
        exec (.wakeAsserted level) s = .next { s with pins := { s.pins with wake := level } }) ∧
      (Config.runThreshold s.pins.vsel24 < s.pins.vsense →
        ∃ t : State, exec (.wakeAsserted true) s = .next t ∧ s.startsWake .processorWake t))

/-- The debounced ignition coming on takes PARKED to RUN with the parked window stopped, CLOSING back to RUN, and DORMANT to a start of cause
IGNITION-WAKE, WARM or COLD by the directory and the dip count (R184); going off it takes RUN to PARKED with a fresh parked window, or to CLOSING with a window of 0 (R182, R188, R189). The parked
window's expiry takes PARKED to CLOSING and is kept as expired in DIP-HOLD; the dip timer's takes DIP-HOLD to DORMANT; the stable-run
timer's sets the dip count to 0 (R190, R191). -/
def Obligations.IgnitionAndTimersAct : Prop :=
  ∀ s : State,
    (s.supply.ignition = false → s.supply.power = .parked → exec .ignitionOn s = .next { s with
      pins := { s.pins with ign := true }, supply := { s.supply with ignition := true, power := .run, parked := .stopped } }) ∧
    (s.supply.ignition = false → s.supply.power = .closing → ∃ u : State, exec .ignitionOn s = .next u.settle ∧
      u.supply = { s.supply with
        ignition := true, power := .run, prior := none, dipTimer := none, parked := .stopped, stable := some (s.clock + 60000000) } ∧
      u.pool.held = false ∧ u.link.decay = some (s.clock + 4000000) ∧ u.link.announceAt.isSome = true) ∧
    (s.supply.ignition = false → s.supply.power = .dormant → s.supply.resetting = none → s.supply.pendingStart = false →
      Config.runThreshold s.pins.vsel24 < s.pins.vsense →
      ∃ t : State, exec .ignitionOn s = .next t ∧ s.startsWake .ignitionWake t ∧ t.supply.ignition = true) ∧
    (s.supply.ignition = true → s.supply.power = .run →
      (s.supply.config.parkedWindow ≠ 0 → exec .ignitionOff s = .next (State.settle { s with
        pins := { s.pins with ign := false }
        supply := { s.supply with
          ignition := false, power := .parked, parked := .running (s.clock + s.supply.config.parkedWindow * 60000000) } })) ∧
      (s.supply.config.parkedWindow = 0 → ∃ u : State, exec .ignitionOff s = .next u.settle ∧ u.supply.power = .closing ∧
        u.supply.ignition = false)) ∧
    (∀ t0 : Nat, s.supply.power = .dipHold → s.supply.dipTimer = some t0 → t0 ≤ s.clock →
      s.pins.vsense ≤ Config.runThreshold s.pins.vsel24 →
      ∃ t : State, exec .dipTimerExpiry s = .next t ∧ t.supply.power = .dormant ∧ t.cleared) ∧
    (∀ t0 : Nat, s.supply.parked = .running t0 → t0 ≤ s.clock →
      (s.supply.power = .parked → ∃ u : State, exec .parkedWindowExpiry s = .next u.settle ∧ u.supply.power = .closing ∧
        u.supply.parked = .stopped) ∧
      (s.supply.power = .dipHold → exec .parkedWindowExpiry s = .next { s with supply := { s.supply with parked := .expired } })) ∧
    (∀ t0 : Nat, s.supply.stable = some t0 → t0 ≤ s.clock → exec .stableRunExpiry s = .next { s with
      supply := { s.supply with stable := none }, backup := { s.backup with dips := 0 } })

/-- The start record has been read (R186): with a bad record, or with STRAP2 in any start but that of a COMMISSION, the part is in COMMISSIONING
with START raised (R193); otherwise the record is in force, the visibility values are those of the domain headers (R144), and the banks
enter their start states (R21): FAULTED with an unreadable header or a fault mark, RECOVERING in a COLD start, and in a WARM one RECOVERING
with a generation open and else at work on a compaction. That STRAP0 is bit 0 of the link rate code and STRAP1 bit 1 is the
model's choice (log entry 28). -/
def Obligations.StartRecordJudged : Prop :=
  ∀ (s : State) (a b c : Bool), s.supply.power = .starting → s.supply.recordRead = false →
    (parseStartRecord s.store.startRecord = none ∨ (c = true ∧ s.backup.cause.cause ≠ .commissioned) →
      ∃ t : State, exec (.startRecordReadComplete a b c) s = .next t ∧ t.supply.power = .commissioning ∧
        t.port.flags.getLsbD 10 = true ∧ t.link.rateCode = (if a = true then 1 else 0) + (if b = true then 2 else 0) ∧
        t.banks = s.banks ∧ t.store.places = s.store.places ∧ t.store.headers = s.store.headers) ∧
    ∀ r : StartRecord, parseStartRecord s.store.startRecord = some r → (c = false ∨ s.backup.cause.cause = .commissioned) →
      s.pool.restored = false →
      ∃ u : State, exec (.startRecordReadComplete a b c) s = .next u.settle ∧ u.supply = { s.supply with recordRead := true, config := r } ∧
        u.link.rateCode = (if a = true then 1 else 0) + (if b = true then 2 else 0) ∧ u.store.places = s.store.places ∧
        (∀ d : Domain, (s.store.domains.get d).good = true → u.domain d =
          { held := (s.store.domains.get d).held, visible := (s.store.domains.get d).visible
            pending := (s.store.domains.get d).pending, timer := none }) ∧
        ∀ e : BankId,
          (s.store.headers[e].good = false → (u.bank e).state = .faulted ∧ (u.bank e).header.faultMark = true) ∧
          (s.store.headers[e].good = true → s.supply.kind = .cold →
            (u.bank e).state = (if s.store.headers[e].fields.faultMark = true then .faulted else .recovering) ∧
            (s.store.headers[e].fields.faultMark = false → (u.bank e).fullScan = true ∧ (u.bank e).header.scrubCursor = 0 ∧
              (u.bank e).header.scrubAge = 0 ∧ (s.places e = [] → (u.bank e).work = .recoverHeader))) ∧
          (s.store.headers[e].good = true → s.supply.kind = .warm →
            (u.bank e).state = (if s.backup.headers[e].faultMark = true then .faulted
              else if s.backup.headers[e].applyOpen = none then .compacting else .recovering))

/-- The five writes of a COMMISSION erase commit in their order (R193): the start record fails its check and the valid mark is clear; every bank
is empty under an erased header; the pool index is empty; the domain headers hold 0, and the lag list, the barred list and the dip count are
cleared; and the new start record is written, at which a COLD start of cause COMMISSIONED begins. -/
def Obligations.CommissionEraseWrites : Prop :=
  ∀ (s : State) (r : StartRecord) (n : Nat), s.supply.erase = some { record := r, write := some n } →
    ∃ t : State, exec .commissionEraseWriteCommit s = .next t ∧
      (n < 5 → t.supply = { s.supply with erase := some { record := r, write := some (n + 1) } } ∧ t.port = s.port ∧ t.banks = s.banks) ∧
      (n = 1 → t.backup.valid = false ∧ t.store.places = s.store.places ∧ t.store.index = s.store.index ∧
        parseStartRecord t.store.startRecord = none) ∧
      (n = 2 → (∀ b : BankId, t.places b = [] ∧ t.store.headers[b] = StoredHeader.sealed BankHeader.erased) ∧
        t.store.index = s.store.index ∧ t.store.cells = s.store.cells) ∧
      (n = 3 → t.store.index = { entries := [], used := [], stampSource := 0 } ∧ t.store.places = s.store.places) ∧
      (n = 4 → (∀ d : Domain, t.store.domains.get d = DomainHeader.sealed { held := 0, visible := 0, pending := [], check := 0 } ∧
          (t.domain d).held = 0 ∧ (t.domain d).visible = 0 ∧ (t.domain d).pending = []) ∧
        t.lag = [] ∧ t.backup.barred = [] ∧ t.backup.dips = 0 ∧ t.store.places = s.store.places) ∧
      (n = 5 → (∀ b : BankId, (s.bank b).work = .none) → s.pool.writing = .none →
        t.startsAt .commissioned .cold ∧ t.store = { s.store with startRecord := r.bytes } ∧ t.backup.dips = s.backup.dips)

/-! ## The store banks -/

/-- The record commits of an apply (R33): the adding commit puts a sealed record of the op's key and payload, added at the applied generation,
into the lowest free place (the lowest is the model's choice, log entry 4) and lowers the free count by 1 in the header; the ending commit sets the removed generation of the current
record. No other place of any bank changes. A pending dip hold stops the apply there (R27); else a LIST or PUT goes on from its ending to
its adding write, and the last op of a last segment to the advance (R34). -/
def Obligations.ApplyRecordCommits : Prop :=
  ∀ (s : State) (b : BankId) (run : ApplyRun) (op : Op), (run.ops.drop run.cursor).head? = some op →
    (∀ pl : Payload, (s.bank b).work = .applyAdd run → op.payload = some pl → lowestFree 0 (s.places b) < 65536 →
      ∃ u : State, exec (.bankRecordCommit b) s = .next u.settle ∧
        placeGet (lowestFree 0 (s.places b)) (u.places b) = some (Record.sealed
          { key := op.key, payload := pl, added := run.request.gen, removed := none, check := 0 }) ∧
        (∀ q, q ≠ lowestFree 0 (s.places b) → placeGet q (u.places b) = placeGet q (s.places b)) ∧
        (∀ e, e ≠ b → u.places e = s.places e ∧ u.bank e = s.bank e) ∧
        (u.bank b).header.freeCount = (s.bank b).header.freeCount - 1 ∧
        u.store.headers[b].fields.freeCount = (s.bank b).header.freeCount - 1 ∧
        ((s.bank b).hold = .dip → (u.bank b).state = .held ∧ (u.bank b).prior = some .applying ∧
          (u.bank b).work = .applyPaused { run with cursor := run.cursor + 1, endDone := false }) ∧
        ((s.bank b).hold ≠ .dip → run.ops.length = run.cursor + 1 → run.request.last = true →
          (u.bank b).work = .advance run.request)) ∧
    (∀ (p : Nat) (r : Record), (s.bank b).work = .applyEnd run p → placeGet p (s.places b) = some r → p < 65536 →
      ∃ u : State, exec (.bankRecordCommit b) s = .next u.settle ∧
        placeGet p (u.places b) = some (Record.sealed { r with removed := some run.request.gen }) ∧
        (∀ q, q ≠ p → placeGet q (u.places b) = placeGet q (s.places b)) ∧
        (∀ e, e ≠ b → u.places e = s.places e ∧ u.bank e = s.bank e) ∧
        (u.bank b).header.freeCount = (s.bank b).header.freeCount ∧
        ((s.bank b).hold = .dip → (u.bank b).state = .held ∧ (u.bank b).prior = some .applying ∧
          (u.bank b).work = .applyPaused (if op.payload = none then { run with cursor := run.cursor + 1, endDone := false }
            else { run with endDone := true })) ∧
        ((s.bank b).hold ≠ .dip → op.payload ≠ none → (u.bank b).work = .applyAdd { run with endDone := true }))

/-- The header write that ends an operation commits at a bank that has nothing else to do: the bank is IDLE, and its header, in the bank and in
store memory, carries what the operation changes: an advance the applied generation and the baseline list (R34), a compaction the baselines
from F(V) up and an erasure mark above V (R40), the last pass of a scrub a cursor and age of 0 (R50), a recovery no open generation and after
a full scan the counted free places (R57, R59), an erasure an empty bank with the baseline as its erasure mark (R43). A pass end before the
last writes the cursor and goes on (R50), and that of a due scrub does so whatever waits (R48). The erasure's waiting request is taken up next:
the bank is APPLYING, TAKEN is reported, and a first segment opens the generation in the header (R43, R30, R31); an erasure whose request was
withdrawn meanwhile takes its mark from the quiesce in force (the model's choice, log entry 40). No record place changes. A recovery after a
start ends with the compaction wanted flag set (R21), and the bank goes on to its due scrub, its waiting request or that compaction (R25, R57,
R59). And where an advance is the last of its generation, every other bank having advanced, the ADVANCED report has the generation applied: it
is the held generation and pending, its slot EMPTY (R97, R99, R145). -/
def Obligations.HeaderCommitEndsOperation : Prop :=
  (∀ (s : State) (b : BankId) (k : BankHeader), (s.bank b).work = .recoverHeader → (s.bank b).compactWanted = true →
    k = (if (s.bank b).fullScan = true then s.recoveredHeader b else
      { s.recoveredHeader b with scrubCursor := s.store.headers[b].fields.scrubCursor, scrubAge := s.store.headers[b].fields.scrubAge }) →
    ∃ u : State, exec (.bankHeaderWriteCommit b) s = .next u.settle ∧ u.store.places = s.store.places ∧
      (∀ e, e ≠ b → u.bank e = s.bank e) ∧ (u.bank b).fullScan = false ∧ s.afterRecovery b (s.recoveredHeader b) k u) ∧
  (∀ (s : State) (b : BankId) (r : ApplyRequest) (i : SlotId), (s.bank b).work = .advance r → s.todo.mail = [] →
    ((s.slot i).state = .applying ∨ (s.slot i).state = .blocked) → (s.slot i).domain = s.bankDomain b → (s.slot i).gen = r.gen →
    (s.slot i).lost = [] → i ∉ s.pool.waitList →
    (∀ j, j ≠ i → (s.slot j).domain = s.bankDomain b → (s.slot j).state ≠ .applying ∧ (s.slot j).state ≠ .blocked) →
    (∀ e ∈ s.banksOf (s.bankDomain b), e ≠ b → (s.slot i).cursors[e].phase = .advanced) →
    ∃ u w : State, exec (.bankHeaderWriteCommit b) s = .next u.settle ∧ u.settleOnce = some w ∧
      s.appliedAt i (s.bankDomain b) r.gen w) ∧
  ∀ (s : State) (b : BankId) (h : BankHeader) (q : Quiesce) (m : List Msg), ¬ s.scrubInterval < 2 * h.scrubAge →
    (∀ r : ApplyRequest, (s.bank b).work = .advance r → (s.bank b).unoccupied →
      q = (if r.kind = .baseline then .absent else (s.bank b).quiesce) → m = [.bankReport b (.advanced r.gen)] →
      h = { (s.bank b).header with
        applied := r.gen, applyOpen := none
        baselines := if r.kind = .baseline then addBaseline (s.bank b).header.baselines (s.domain (s.bankDomain b)).visible r.gen
          else (s.bank b).header.baselines } → s.operationEnds b h q m false) ∧
    (∀ c : CompactRun, (s.bank b).work = .compactHeader c → (s.bank b).unoccupied → q = (s.bank b).quiesce →
      m = [.bankReport b (.compacted c.freed)] →
      h = { (s.bank b).header with
        baselines := (s.bank b).header.baselines.filter (fun g => c.floor ≤ g)
        erasureMark := match (s.bank b).header.erasureMark with
          | some g => if g ≤ c.visible then none else some g
          | none => none } → s.operationEnds b h q m false) ∧
    (∀ next : Nat, (s.bank b).work = .scrubHeader next false →
      (65536 ≤ next → Bank.unoccupied { s.bank b with scrubDue := false } → q = (s.bank b).quiesce → m = [] →
        h = { (s.bank b).header with scrubCursor := 0, scrubAge := 0 } → s.operationEnds b h q m true) ∧
      (next < 65536 → (s.bank b).unoccupied ∨ (s.bank b).scrubDue = true ∧ (s.bank b).hold = .none →
        ∃ u : State, exec (.bankHeaderWriteCommit b) s = .next u.settle ∧ (u.bank b).state = (s.bank b).state ∧
          u.store.headers[b] = StoredHeader.sealed { (s.bank b).header with scrubCursor := next } ∧
          ((placesIn next (stepEnd next) (s.places b)).head? = none → (u.bank b).work = .scrubHeader (stepEnd next) false) ∧
          (∀ x, (placesIn next (stepEnd next) (s.places b)).head? = some x → (u.bank b).work = .scrubCheck x.1 ∧
            (u.bank b).header.scrubCursor = x.1))) ∧
    ((s.bank b).work = .recoverHeader → (s.bank b).unoccupied → q = (s.bank b).quiesce → m = [] →
      h = (if (s.bank b).fullScan = true then
          { (s.bank b).header with
            applyOpen := none, freeCount := 65536 - (s.places b).length, scrubCursor := 0, scrubAge := 0 }
        else { (s.bank b).header with applyOpen := none }) → s.operationEnds b h q m (s.bank b).fullScan) ∧
    (∀ r : ApplyRequest, (s.bank b).work = .eraseHeader → (s.bank b).waiting = some r → r.kind = .baseline →
      (s.bank b).header.applied < r.gen → (s.bank b).quiesce = .inForce r.gen → (s.bank b).scrubDue = false → (s.bank b).hold = .none →
      h = { (s.bank b).header with
        freeCount := 65536, baselines := [], faultMark := false, erasureMark := some r.gen, scrubCursor := 0, scrubAge := 0
        applyOpen := if r.segment ≠ none ∧ r.first = true ∧ r.cursor = 0 then some r.gen else none } →
      ∃ u : State, exec (.bankHeaderWriteCommit b) s = .next u.settle ∧
        u.bank b = { s.bank b with
          state := .applying, waiting := none, header := h
          work := if r.segment = none then .advance r else .applyRead r } ∧
        u.store.headers[b] = StoredHeader.sealed h ∧ u.todo.mail = s.todo.mail ++ [.bankReport b (.taken r.gen r.segment)] ∧
        u.store.places = s.store.places ∧ ∀ e, e ≠ b → u.bank e = s.bank e) ∧
    (∀ g : Gen, (s.bank b).work = .eraseHeader → (s.bank b).unoccupied → (s.bank b).quiesce = .inForce g → q = .inForce g → m = [] →
      h = { (s.bank b).header with
        freeCount := 65536, baselines := [], applyOpen := none, faultMark := false, erasureMark := some g
        scrubCursor := 0, scrubAge := 0 } → s.operationEnds b h q m true)

/-- The commits that free a place: of a dead record (R39), of an erasure (R43), and of recovery's records added above the applied generation
(R57). The place is free, the free count is up by 1 in both headers, and no other place of any bank changes; recovery's other write clears
the removed generation of its record. A pending hold stops a compaction under a dip, an erasure and a recovery there. -/
def Obligations.PlacesFreed : Prop :=
  ∀ (s : State) (b : BankId) (p : Nat), Memory.wf 65536 (s.places b) = true →
    (∀ (c : Instr), (c = .compactionPlaceCommit b ∧ (∃ k, (s.bank b).work = .compactFree k p) ∨
        c = .erasurePlaceCommit b ∧ (s.bank b).work = .eraseFree p ∨
        c = .recoveryRecordCommit b ∧ (s.bank b).work = .recoverWrite p ∧
          ∃ r, placeGet p (s.places b) = some r ∧ (s.bank b).header.applied < r.added) →
      ∃ u : State, exec c s = .next u.settle ∧ placeGet p (u.places b) = none ∧
        (∀ q, q ≠ p → placeGet q (u.places b) = placeGet q (s.places b)) ∧
        (∀ e, e ≠ b → u.places e = s.places e ∧ u.bank e = s.bank e) ∧
        (u.bank b).header.freeCount = min 65536 ((s.bank b).header.freeCount + 1) ∧
        u.store.headers[b].fields.freeCount = min 65536 ((s.bank b).header.freeCount + 1) ∧
        (c = .compactionPlaceCommit b → (s.bank b).hold = .dip → (u.bank b).state = .held ∧ (u.bank b).prior = some .compacting) ∧
        (c = .recoveryRecordCommit b → (s.bank b).hold ≠ .none →
          (u.bank b).state = .held ∧ (u.bank b).work = .recoverPaused (p + 1)) ∧
        (c = .erasurePlaceCommit b → (s.bank b).hold ≠ .none → (u.bank b).work = .erasePaused)) ∧
    ∀ r : Record, (s.bank b).work = .recoverWrite p → placeGet p (s.places b) = some r → r.added ≤ (s.bank b).header.applied →
      p < 65536 →
      ∃ u : State, exec (.recoveryRecordCommit b) s = .next u.settle ∧
        placeGet p (u.places b) = some (Record.sealed { r with removed := none }) ∧
        (∀ q, q ≠ p → placeGet q (u.places b) = placeGet q (s.places b)) ∧
        (∀ e, e ≠ b → u.places e = s.places e ∧ u.bank e = s.bank e) ∧
        (u.bank b).header.freeCount = (s.bank b).header.freeCount

/-- A scrub goes on past a good record to the next used place of its pass, or to the pass end (R50); a failing record whose added generation is
not servable makes the bank FAULTED, with the fault mark in both headers and BANK-FAULT raised (R52, R55). An IDLE bank with nothing to do
begins a scrub when its age has passed half the interval (R48), and at the interval its scrub is due (R49): in a HELD bank it waits for the
resume (R23, R29), and a FAULTED one ignores it. -/
def Obligations.ScrubRuns : Prop :=
  ∀ (s : State) (b : BankId),
    (∀ (p : Nat) (r : Record), (s.bank b).work = .scrubCheck p → placeGet p (s.places b) = some r →
      (r.good = true → (s.bank b).hold ≠ .dip → (s.bank b).header.scrubCursor = p →
        ∃ u : State, exec (.scrubCheckCompletion b) s = .next u.settle ∧ u = { s with banks := u.banks } ∧
          (∀ e, e ≠ b → u.bank e = s.bank e) ∧
          ((placesIn (p + 1) (stepEnd p) (s.places b)).head? = none →
            u.bank b = { s.bank b with work := .scrubHeader (stepEnd p) false }) ∧
          (∀ x, (placesIn (p + 1) (stepEnd p) (s.places b)).head? = some x →
            u.bank b = { s.bank b with
              work := .scrubCheck x.1, header := { (s.bank b).header with scrubCursor := x.1 } })) ∧
      (r.good = false → (s.bank b).header.applied < r.added ∨ s.servable (s.bankDomain b) r.added = false →
        ∃ u : State, exec (.scrubCheckCompletion b) s = .next u.settle ∧ (u.bank b).state = .faulted ∧
          (u.bank b).header.faultMark = true ∧ u.store.headers[b].fields.faultMark = true ∧
          u.store.headers[b].good = true ∧ u.port.flags.getLsbD 6 = true ∧ u.store.places = s.store.places ∧
          ∀ e, e ≠ b → u.bank e = s.bank e)) ∧
    (s.running = true →
      (s.bank b).state = .idle → (s.bank b).unoccupied → s.scrubInterval < 2 * (s.bank b).header.scrubAge →
        ∃ t : State, exec (.scrubAgeHalf b) s = .next t ∧ t = { s with banks := t.banks } ∧ (t.bank b).state = .scrubbing ∧
          ∀ e, e ≠ b → t.bank e = s.bank e) ∧
    (s.started = true →
      ((s.bank b).state ≠ .faulted → s.scrubInterval ≤ (s.bank b).header.scrubAge →
        ∃ t : State, exec (.scrubAgeDue b) s = .next t ∧ t = { s with banks := t.banks } ∧ (t.bank b).scrubDue = true ∧
          (t.bank b).state = (if (s.bank b).state = .idle then .scrubbing else (s.bank b).state) ∧
          ((s.bank b).state ≠ .idle → t.bank b = { s.bank b with scrubDue := true }) ∧
          ∀ e, e ≠ b → t.bank e = s.bank e) ∧
      ((s.bank b).state = .faulted → exec (.scrubAgeDue b) s = .next s))

/-- A repair's reads and its write (R52 to R54): with segments of the added generation left, a read adds their ops on the key and goes on; an
added generation that has left the pool makes the bank FAULTED; an op on the key in a later generation gives the rewritten record that
removed generation, and the open generation read without one gives it none. The write puts the record into its place, or frees it, counts
the repair, raises SCRUB-REPAIR and releases the repair's pins, in a scrub and in the full scan of a COLD start alike (R54, R59); pins of the
bank are left then only where the full scan has met a failing record in a later place in the same event and has begun its repair. A full scan
waiting for the pool goes on at its restoration. -/
def Obligations.RepairRuns : Prop :=
  ∀ (s : State) (b : BankId),
    (∀ r : RepairRun, (s.bank b).work = .repair r →
      (∀ (i j : Nat) (left : List Nat) (ops : List Op) (e : ManifestEntry) (pc : Nat × PoolCell),
        r.phase = .collect (i :: j :: left) ops →
        s.entry (s.bankDomain b) r.added = some e → i ∈ e.present → s.cellOf e i = some pc → segCrcGood pc.2.bytes = true →
        ∃ u : State, exec (.repairReadComplete b) s = .next u.settle ∧ u = { s with banks := u.banks } ∧
          u.bank b = { s.bank b with work := .repair { r with
            phase := .collect (j :: left) (ops ++ opsOn s.supply.config.nB (s.bankDomain b) e.manifest.kind b r.key pc.2.bytes) } } ∧
          ∀ e, e ≠ b → u.bank e = s.bank e) ∧
      (∀ (i : Nat) (left : List Nat) (ops : List Op), r.phase = .collect (i :: left) ops →
        s.entry (s.bankDomain b) r.added = none →
        ∃ u : State, exec (.repairReadComplete b) s = .next u.settle ∧ (u.bank b).state = .faulted ∧
          (u.bank b).header.faultMark = true ∧ u.store.places = s.store.places) ∧
      (∀ (g : Gen) (i : Nat) (left : List Nat) (v : Payload) (e : ManifestEntry) (pc : Nat × PoolCell), r.version = some v →
        s.entry (s.bankDomain b) g = some e → i ∈ e.present → s.cellOf e i = some pc → segCrcGood pc.2.bytes = true →
        (r.phase = .walk g (i :: left) →
          opsOn s.supply.config.nB (s.bankDomain b) e.manifest.kind b r.key pc.2.bytes ≠ [] →
          ∃ u : State, exec (.repairReadComplete b) s = .next u.settle ∧ (u.bank b).work = .repair { r with
            phase := .rewrite { key := r.key, payload := v, added := r.added, removed := some g, check := 0 } }) ∧
        (r.phase = .openCheck g [i] →
          opsOn s.supply.config.nB (s.bankDomain b) e.manifest.kind b r.key pc.2.bytes = [] →
          ∃ u : State, exec (.repairReadComplete b) s = .next u.settle ∧ (u.bank b).work = .repair { r with
            phase := .rewrite { key := r.key, payload := v, added := r.added, removed := none, check := 0 } })) ∧
      (r.phase = .free ∨ (∃ rec, r.phase = .rewrite rec) →
        ∃ u : State, exec (.repairCompletion b) s = .next u.settle ∧
          u.port.counters.repairs = upOne s.port.counters.repairs ∧ u.port.flags.getLsbD 9 = true ∧
          (r.fullScan = false ∨ (s.bank b).hold ≠ .none → ∀ x ∈ u.pool.pins, x.holder ≠ .repair b) ∧
          (r.fullScan = true → ∀ x ∈ u.pool.pins, x.holder = .repair b →
            ∃ q : RepairRun, (u.bank b).work = .repair q ∧ r.place < q.place ∧ q.fullScan = true ∧ x.domain = s.bankDomain b ∧
              x.gen = q.added) ∧
          (∀ rec, r.phase = .rewrite rec → r.place < 65536 → placeGet r.place (u.places b) = some rec.sealed) ∧
          (r.phase = .free → Memory.wf 65536 (s.places b) = true → placeGet r.place (u.places b) = none) ∧
          (∀ q, q ≠ r.place → placeGet q (u.places b) = placeGet q (s.places b)) ∧
          ∀ e, e ≠ b → u.places e = s.places e ∧ u.bank e = s.bank e)) ∧
    (∀ p : Nat, (s.bank b).work = .recoverWait p →
      (s.pool.restored = false → exec (.fullScanResume b) s = .next s) ∧
      (s.pool.restored = true → (s.bank b).fullScan = true → Memory.wf 65536 (s.places b) = true →
        ∀ r : Record, placeGet p (s.places b) = some r → r.good = false → r.added ≤ (s.bank b).header.applied →
          (s.servable (s.bankDomain b) r.added = false →
            ∃ u : State, exec (.fullScanResume b) s = .next u.settle ∧ (u.bank b).state = .faulted ∧
              (u.bank b).header.faultMark = true ∧ u.store.places = s.store.places) ∧
          (s.servable (s.bankDomain b) r.added = true → s.indicesNaming (s.bankDomain b) r.added b ≠ [] →
            ∃ u : State, exec (.fullScanResume b) s = .next u.settle ∧ (u.bank b).work = .repair
                { place := p, key := r.key, added := r.added, version := none, fullScan := true
                  phase := .collect (s.indicesNaming (s.bankDomain b) r.added b) [] } ∧
              u.pool.pins = s.pool.pins ++ [{ holder := .repair b, domain := s.bankDomain b, gen := r.added }])))

/-- The apply read of a segment completes (R31, R73): a good segment's ops are taken from the op cursor on, a first LIST or PUT without a
current record going on to its adding write, with one to its ending write, and without a free place to BANK-FULL and a compaction (R36); a
segment whose check disagrees is reported READ-FAIL (R93), its index write joins those that wait for the pool's arbiter (R66), and the GAU is told
of the index when a slot pins the entry (R73; that it is told at once is the model's choice, log entry 15); one whose index has left the present set
is reported READ-FAIL with no index write; and one whose generation has left the pool, or whose slot has drained while the generation is not
servable, whatever slot holds that by now, ends the request without a report. A HELD bank keeps the segment for its resume. -/
def Obligations.ApplyReadBegins : Prop :=
  ∀ (s : State) (b : BankId) (r : ApplyRequest) (k : Nat), (s.bank b).work = .applyRead r → r.segment = some k →
    (s.entry (s.bankDomain b) r.gen = none ∨ r.drained = true ∧ s.servable (s.bankDomain b) r.gen = false →
      (s.bank b).state ≠ .held → (s.bank b).unoccupied →
      ¬ s.scrubInterval < 2 * (s.bank b).header.scrubAge →
      ∃ u : State, exec (.applyReadComplete b) s = .next u.settle ∧ u = { s with banks := u.banks } ∧
        u.bank b = { s.bank b with state := .idle, work := .none } ∧ ∀ e, e ≠ b → u.bank e = s.bank e) ∧
    (∀ e : ManifestEntry, s.entry (s.bankDomain b) r.gen = some e → k ∉ e.present → (r.drained = true → e.servable = true) →
      (s.bank b).state ≠ .held →
      ∃ u : State, exec (.applyReadComplete b) s = .next u.settle ∧ .bankReport b (.readFail r.gen r.segment r.cursor) ∈ u.todo.mail ∧
        u.store.places = s.store.places ∧ u.store.index = s.store.index ∧ u.pool = s.pool) ∧
    ∀ (e : ManifestEntry) (pc : Nat × PoolCell), s.entry (s.bankDomain b) r.gen = some e → k ∈ e.present →
      (r.drained = true → e.servable = true) → s.cellOf e k = some pc →
      (segCrcGood pc.2.bytes = false → (s.bank b).state ≠ .held →
        ∃ u : State, exec (.applyReadComplete b) s = .next u.settle ∧ .bankReport b (.readFail r.gen r.segment r.cursor) ∈ u.todo.mail ∧
          (s.slotPinned (s.bankDomain b) r.gen → .indexLost (s.bankDomain b) r.gen k ∈ u.todo.mail) ∧
          u.store.places = s.store.places ∧ u.store.index = s.store.index ∧
          u.pool = { s.pool with indexQueue := s.pool.indexQueue ++ [.lost (s.bankDomain b) r.gen e.stamp k] }) ∧
      (segCrcGood pc.2.bytes = true →
        ((s.bank b).state = .held → ∃ u : State, exec (.applyReadComplete b) s = .next u.settle ∧ u.bank b = { s.bank b with
          work := .applyPaused { request := r, ops := (segOps pc.2.bytes).getD [], cursor := r.cursor, endDone := false } }) ∧
        ∀ (ops rest : List Op) (op : Op) (pl : Payload), (s.bank b).state ≠ .held → segOps pc.2.bytes = some ops →
          ops.drop r.cursor = op :: rest → op.wellFormed (s.bankDomain b) r.kind = true →
          op.wellPlaced s.supply.config.nB (s.bankDomain b) b = true → op.payload = some pl →
          ∃ u : State, exec (.applyReadComplete b) s = .next u.settle ∧ u.store.places = s.store.places ∧
            ((s.bank b).header.freeCount ≠ 0 →
              currentPlace (s.places b) op.key (applyFloor (s.bank b) r) = none →
              (u.bank b).work = .applyAdd { request := r, ops := ops, cursor := r.cursor, endDone := false }) ∧
            (∀ p, (s.bank b).header.freeCount ≠ 0 →
              currentPlace (s.places b) op.key (applyFloor (s.bank b) r) = some p →
              (u.bank b).work = .applyEnd { request := r, ops := ops, cursor := r.cursor, endDone := false } p) ∧
            ((s.bank b).header.freeCount = 0 → .bankReport b (.bankFull r.gen r.segment r.cursor) ∈ u.todo.mail ∧
              ((s.bank b).hold = .none → (u.bank b).state = .compacting)))
end

