-- ==== Sys2Proof/Laws/State.lean ====
section
/-! SUPPORT. One lemma per field of State for each named update, and what reading an updated bank, slot or domain gives. -/

namespace Sys2Proof.Machine

variable (s : State)

/-! ## setBank -/

@[simp] theorem State.setBank_clock (b : BankId) (k : Bank) : (s.setBank b k).clock = s.clock := rfl
@[simp] theorem State.setBank_pins (b : BankId) (k : Bank) : (s.setBank b k).pins = s.pins := rfl
@[simp] theorem State.setBank_supply (b : BankId) (k : Bank) : (s.setBank b k).supply = s.supply := rfl
@[simp] theorem State.setBank_backup (b : BankId) (k : Bank) : (s.setBank b k).backup = s.backup := rfl
@[simp] theorem State.setBank_store (b : BankId) (k : Bank) : (s.setBank b k).store = s.store := rfl
@[simp] theorem State.setBank_banks (b : BankId) (k : Bank) : (s.setBank b k).banks = s.banks.set b k := rfl
@[simp] theorem State.setBank_pool (b : BankId) (k : Bank) : (s.setBank b k).pool = s.pool := rfl
@[simp] theorem State.setBank_slots (b : BankId) (k : Bank) : (s.setBank b k).slots = s.slots := rfl
@[simp] theorem State.setBank_peers (b : BankId) (k : Bank) : (s.setBank b k).peers = s.peers := rfl
@[simp] theorem State.setBank_fetch (b : BankId) (k : Bank) : (s.setBank b k).fetch = s.fetch := rfl
@[simp] theorem State.setBank_vis (b : BankId) (k : Bank) : (s.setBank b k).vis = s.vis := rfl
@[simp] theorem State.setBank_domainWrites (b : BankId) (k : Bank) : (s.setBank b k).domainWrites = s.domainWrites := rfl
@[simp] theorem State.setBank_lag (b : BankId) (k : Bank) : (s.setBank b k).lag = s.lag := rfl
@[simp] theorem State.setBank_link (b : BankId) (k : Bank) : (s.setBank b k).link = s.link := rfl
@[simp] theorem State.setBank_port (b : BankId) (k : Bank) : (s.setBank b k).port = s.port := rfl
@[simp] theorem State.setBank_draws (b : BankId) (k : Bank) : (s.setBank b k).draws = s.draws := rfl
@[simp] theorem State.setBank_todo (b : BankId) (k : Bank) : (s.setBank b k).todo = s.todo := rfl
@[simp] theorem State.setBank_pending (b : BankId) (k : Bank) : (s.setBank b k).pending = s.pending := rfl

/-! ## banking -/

@[simp] theorem State.banking_clock (b : BankId) (f : Bank → Bank) : (s.banking b f).clock = s.clock := rfl
@[simp] theorem State.banking_pins (b : BankId) (f : Bank → Bank) : (s.banking b f).pins = s.pins := rfl
@[simp] theorem State.banking_supply (b : BankId) (f : Bank → Bank) : (s.banking b f).supply = s.supply := rfl
@[simp] theorem State.banking_backup (b : BankId) (f : Bank → Bank) : (s.banking b f).backup = s.backup := rfl
@[simp] theorem State.banking_store (b : BankId) (f : Bank → Bank) : (s.banking b f).store = s.store := rfl
@[simp] theorem State.banking_banks (b : BankId) (f : Bank → Bank) : (s.banking b f).banks = s.banks.set b (f (s.bank b)) := rfl
@[simp] theorem State.banking_pool (b : BankId) (f : Bank → Bank) : (s.banking b f).pool = s.pool := rfl
@[simp] theorem State.banking_slots (b : BankId) (f : Bank → Bank) : (s.banking b f).slots = s.slots := rfl
@[simp] theorem State.banking_peers (b : BankId) (f : Bank → Bank) : (s.banking b f).peers = s.peers := rfl
@[simp] theorem State.banking_fetch (b : BankId) (f : Bank → Bank) : (s.banking b f).fetch = s.fetch := rfl
@[simp] theorem State.banking_vis (b : BankId) (f : Bank → Bank) : (s.banking b f).vis = s.vis := rfl
@[simp] theorem State.banking_domainWrites (b : BankId) (f : Bank → Bank) : (s.banking b f).domainWrites = s.domainWrites := rfl
@[simp] theorem State.banking_lag (b : BankId) (f : Bank → Bank) : (s.banking b f).lag = s.lag := rfl
@[simp] theorem State.banking_link (b : BankId) (f : Bank → Bank) : (s.banking b f).link = s.link := rfl
@[simp] theorem State.banking_port (b : BankId) (f : Bank → Bank) : (s.banking b f).port = s.port := rfl
@[simp] theorem State.banking_draws (b : BankId) (f : Bank → Bank) : (s.banking b f).draws = s.draws := rfl
@[simp] theorem State.banking_todo (b : BankId) (f : Bank → Bank) : (s.banking b f).todo = s.todo := rfl
@[simp] theorem State.banking_pending (b : BankId) (f : Bank → Bank) : (s.banking b f).pending = s.pending := rfl

/-! ## heading -/

@[simp] theorem State.heading_clock (b : BankId) (f : BankHeader → BankHeader) : (s.heading b f).clock = s.clock := rfl
@[simp] theorem State.heading_pins (b : BankId) (f : BankHeader → BankHeader) : (s.heading b f).pins = s.pins := rfl
@[simp] theorem State.heading_supply (b : BankId) (f : BankHeader → BankHeader) : (s.heading b f).supply = s.supply := rfl
@[simp] theorem State.heading_backup (b : BankId) (f : BankHeader → BankHeader) : (s.heading b f).backup = s.backup := rfl
@[simp] theorem State.heading_store (b : BankId) (f : BankHeader → BankHeader) : (s.heading b f).store = s.store := rfl
@[simp] theorem State.heading_banks (b : BankId) (f : BankHeader → BankHeader) : (s.heading b f).banks = s.banks.set b { s.bank b with header := f (s.bank b).header } := rfl
@[simp] theorem State.heading_pool (b : BankId) (f : BankHeader → BankHeader) : (s.heading b f).pool = s.pool := rfl
@[simp] theorem State.heading_slots (b : BankId) (f : BankHeader → BankHeader) : (s.heading b f).slots = s.slots := rfl
@[simp] theorem State.heading_peers (b : BankId) (f : BankHeader → BankHeader) : (s.heading b f).peers = s.peers := rfl
@[simp] theorem State.heading_fetch (b : BankId) (f : BankHeader → BankHeader) : (s.heading b f).fetch = s.fetch := rfl
@[simp] theorem State.heading_vis (b : BankId) (f : BankHeader → BankHeader) : (s.heading b f).vis = s.vis := rfl
@[simp] theorem State.heading_domainWrites (b : BankId) (f : BankHeader → BankHeader) : (s.heading b f).domainWrites = s.domainWrites := rfl
@[simp] theorem State.heading_lag (b : BankId) (f : BankHeader → BankHeader) : (s.heading b f).lag = s.lag := rfl
@[simp] theorem State.heading_link (b : BankId) (f : BankHeader → BankHeader) : (s.heading b f).link = s.link := rfl
@[simp] theorem State.heading_port (b : BankId) (f : BankHeader → BankHeader) : (s.heading b f).port = s.port := rfl
@[simp] theorem State.heading_draws (b : BankId) (f : BankHeader → BankHeader) : (s.heading b f).draws = s.draws := rfl
@[simp] theorem State.heading_todo (b : BankId) (f : BankHeader → BankHeader) : (s.heading b f).todo = s.todo := rfl
@[simp] theorem State.heading_pending (b : BankId) (f : BankHeader → BankHeader) : (s.heading b f).pending = s.pending := rfl

/-! ## working -/

@[simp] theorem State.working_clock (b : BankId) (w : BankWork) : (s.working b w).clock = s.clock := rfl
@[simp] theorem State.working_pins (b : BankId) (w : BankWork) : (s.working b w).pins = s.pins := rfl
@[simp] theorem State.working_supply (b : BankId) (w : BankWork) : (s.working b w).supply = s.supply := rfl
@[simp] theorem State.working_backup (b : BankId) (w : BankWork) : (s.working b w).backup = s.backup := rfl
@[simp] theorem State.working_store (b : BankId) (w : BankWork) : (s.working b w).store = s.store := rfl
@[simp] theorem State.working_banks (b : BankId) (w : BankWork) : (s.working b w).banks = s.banks.set b { s.bank b with work := w } := rfl
@[simp] theorem State.working_pool (b : BankId) (w : BankWork) : (s.working b w).pool = s.pool := rfl
@[simp] theorem State.working_slots (b : BankId) (w : BankWork) : (s.working b w).slots = s.slots := rfl
@[simp] theorem State.working_peers (b : BankId) (w : BankWork) : (s.working b w).peers = s.peers := rfl
@[simp] theorem State.working_fetch (b : BankId) (w : BankWork) : (s.working b w).fetch = s.fetch := rfl
@[simp] theorem State.working_vis (b : BankId) (w : BankWork) : (s.working b w).vis = s.vis := rfl
@[simp] theorem State.working_domainWrites (b : BankId) (w : BankWork) : (s.working b w).domainWrites = s.domainWrites := rfl
@[simp] theorem State.working_lag (b : BankId) (w : BankWork) : (s.working b w).lag = s.lag := rfl
@[simp] theorem State.working_link (b : BankId) (w : BankWork) : (s.working b w).link = s.link := rfl
@[simp] theorem State.working_port (b : BankId) (w : BankWork) : (s.working b w).port = s.port := rfl
@[simp] theorem State.working_draws (b : BankId) (w : BankWork) : (s.working b w).draws = s.draws := rfl
@[simp] theorem State.working_todo (b : BankId) (w : BankWork) : (s.working b w).todo = s.todo := rfl
@[simp] theorem State.working_pending (b : BankId) (w : BankWork) : (s.working b w).pending = s.pending := rfl

/-! ## setSlot -/

@[simp] theorem State.setSlot_clock (i : SlotId) (x : Slot) : (s.setSlot i x).clock = s.clock := rfl
@[simp] theorem State.setSlot_pins (i : SlotId) (x : Slot) : (s.setSlot i x).pins = s.pins := rfl
@[simp] theorem State.setSlot_supply (i : SlotId) (x : Slot) : (s.setSlot i x).supply = s.supply := rfl
@[simp] theorem State.setSlot_backup (i : SlotId) (x : Slot) : (s.setSlot i x).backup = s.backup := rfl
@[simp] theorem State.setSlot_store (i : SlotId) (x : Slot) : (s.setSlot i x).store = s.store := rfl
@[simp] theorem State.setSlot_banks (i : SlotId) (x : Slot) : (s.setSlot i x).banks = s.banks := rfl
@[simp] theorem State.setSlot_pool (i : SlotId) (x : Slot) : (s.setSlot i x).pool = s.pool := rfl
@[simp] theorem State.setSlot_slots (i : SlotId) (x : Slot) : (s.setSlot i x).slots = s.slots.set i x := rfl
@[simp] theorem State.setSlot_peers (i : SlotId) (x : Slot) : (s.setSlot i x).peers = s.peers := rfl
@[simp] theorem State.setSlot_fetch (i : SlotId) (x : Slot) : (s.setSlot i x).fetch = s.fetch := rfl
@[simp] theorem State.setSlot_vis (i : SlotId) (x : Slot) : (s.setSlot i x).vis = s.vis := rfl
@[simp] theorem State.setSlot_domainWrites (i : SlotId) (x : Slot) : (s.setSlot i x).domainWrites = s.domainWrites := rfl
@[simp] theorem State.setSlot_lag (i : SlotId) (x : Slot) : (s.setSlot i x).lag = s.lag := rfl
@[simp] theorem State.setSlot_link (i : SlotId) (x : Slot) : (s.setSlot i x).link = s.link := rfl
@[simp] theorem State.setSlot_port (i : SlotId) (x : Slot) : (s.setSlot i x).port = s.port := rfl
@[simp] theorem State.setSlot_draws (i : SlotId) (x : Slot) : (s.setSlot i x).draws = s.draws := rfl
@[simp] theorem State.setSlot_todo (i : SlotId) (x : Slot) : (s.setSlot i x).todo = s.todo := rfl
@[simp] theorem State.setSlot_pending (i : SlotId) (x : Slot) : (s.setSlot i x).pending = s.pending := rfl

/-! ## slotting -/

@[simp] theorem State.slotting_clock (i : SlotId) (f : Slot → Slot) : (s.slotting i f).clock = s.clock := rfl
@[simp] theorem State.slotting_pins (i : SlotId) (f : Slot → Slot) : (s.slotting i f).pins = s.pins := rfl
@[simp] theorem State.slotting_supply (i : SlotId) (f : Slot → Slot) : (s.slotting i f).supply = s.supply := rfl
@[simp] theorem State.slotting_backup (i : SlotId) (f : Slot → Slot) : (s.slotting i f).backup = s.backup := rfl
@[simp] theorem State.slotting_store (i : SlotId) (f : Slot → Slot) : (s.slotting i f).store = s.store := rfl
@[simp] theorem State.slotting_banks (i : SlotId) (f : Slot → Slot) : (s.slotting i f).banks = s.banks := rfl
@[simp] theorem State.slotting_pool (i : SlotId) (f : Slot → Slot) : (s.slotting i f).pool = s.pool := rfl
@[simp] theorem State.slotting_slots (i : SlotId) (f : Slot → Slot) : (s.slotting i f).slots = s.slots.set i (f (s.slot i)) := rfl
@[simp] theorem State.slotting_peers (i : SlotId) (f : Slot → Slot) : (s.slotting i f).peers = s.peers := rfl
@[simp] theorem State.slotting_fetch (i : SlotId) (f : Slot → Slot) : (s.slotting i f).fetch = s.fetch := rfl
@[simp] theorem State.slotting_vis (i : SlotId) (f : Slot → Slot) : (s.slotting i f).vis = s.vis := rfl
@[simp] theorem State.slotting_domainWrites (i : SlotId) (f : Slot → Slot) : (s.slotting i f).domainWrites = s.domainWrites := rfl
@[simp] theorem State.slotting_lag (i : SlotId) (f : Slot → Slot) : (s.slotting i f).lag = s.lag := rfl
@[simp] theorem State.slotting_link (i : SlotId) (f : Slot → Slot) : (s.slotting i f).link = s.link := rfl
@[simp] theorem State.slotting_port (i : SlotId) (f : Slot → Slot) : (s.slotting i f).port = s.port := rfl
@[simp] theorem State.slotting_draws (i : SlotId) (f : Slot → Slot) : (s.slotting i f).draws = s.draws := rfl
@[simp] theorem State.slotting_todo (i : SlotId) (f : Slot → Slot) : (s.slotting i f).todo = s.todo := rfl
@[simp] theorem State.slotting_pending (i : SlotId) (f : Slot → Slot) : (s.slotting i f).pending = s.pending := rfl

/-! ## setPlaces -/

@[simp] theorem State.setPlaces_clock (b : BankId) (l : List (Nat × Record)) : (s.setPlaces b l).clock = s.clock := rfl
@[simp] theorem State.setPlaces_pins (b : BankId) (l : List (Nat × Record)) : (s.setPlaces b l).pins = s.pins := rfl
@[simp] theorem State.setPlaces_supply (b : BankId) (l : List (Nat × Record)) : (s.setPlaces b l).supply = s.supply := rfl
@[simp] theorem State.setPlaces_backup (b : BankId) (l : List (Nat × Record)) : (s.setPlaces b l).backup = s.backup := rfl
@[simp] theorem State.setPlaces_store (b : BankId) (l : List (Nat × Record)) : (s.setPlaces b l).store = { s.store with places := s.store.places.set b l } := rfl
@[simp] theorem State.setPlaces_banks (b : BankId) (l : List (Nat × Record)) : (s.setPlaces b l).banks = s.banks := rfl
@[simp] theorem State.setPlaces_pool (b : BankId) (l : List (Nat × Record)) : (s.setPlaces b l).pool = s.pool := rfl
@[simp] theorem State.setPlaces_slots (b : BankId) (l : List (Nat × Record)) : (s.setPlaces b l).slots = s.slots := rfl
@[simp] theorem State.setPlaces_peers (b : BankId) (l : List (Nat × Record)) : (s.setPlaces b l).peers = s.peers := rfl
@[simp] theorem State.setPlaces_fetch (b : BankId) (l : List (Nat × Record)) : (s.setPlaces b l).fetch = s.fetch := rfl
@[simp] theorem State.setPlaces_vis (b : BankId) (l : List (Nat × Record)) : (s.setPlaces b l).vis = s.vis := rfl
@[simp] theorem State.setPlaces_domainWrites (b : BankId) (l : List (Nat × Record)) : (s.setPlaces b l).domainWrites = s.domainWrites := rfl
@[simp] theorem State.setPlaces_lag (b : BankId) (l : List (Nat × Record)) : (s.setPlaces b l).lag = s.lag := rfl
@[simp] theorem State.setPlaces_link (b : BankId) (l : List (Nat × Record)) : (s.setPlaces b l).link = s.link := rfl
@[simp] theorem State.setPlaces_port (b : BankId) (l : List (Nat × Record)) : (s.setPlaces b l).port = s.port := rfl
@[simp] theorem State.setPlaces_draws (b : BankId) (l : List (Nat × Record)) : (s.setPlaces b l).draws = s.draws := rfl
@[simp] theorem State.setPlaces_todo (b : BankId) (l : List (Nat × Record)) : (s.setPlaces b l).todo = s.todo := rfl
@[simp] theorem State.setPlaces_pending (b : BankId) (l : List (Nat × Record)) : (s.setPlaces b l).pending = s.pending := rfl

/-! ## setDomain -/

@[simp] theorem State.setDomain_clock (d : Domain) (v : Visibility) : (s.setDomain d v).clock = s.clock := rfl
@[simp] theorem State.setDomain_pins (d : Domain) (v : Visibility) : (s.setDomain d v).pins = s.pins := rfl
@[simp] theorem State.setDomain_supply (d : Domain) (v : Visibility) : (s.setDomain d v).supply = s.supply := rfl
@[simp] theorem State.setDomain_backup (d : Domain) (v : Visibility) : (s.setDomain d v).backup = s.backup := rfl
@[simp] theorem State.setDomain_store (d : Domain) (v : Visibility) : (s.setDomain d v).store = s.store := rfl
@[simp] theorem State.setDomain_banks (d : Domain) (v : Visibility) : (s.setDomain d v).banks = s.banks := rfl
@[simp] theorem State.setDomain_pool (d : Domain) (v : Visibility) : (s.setDomain d v).pool = s.pool := rfl
@[simp] theorem State.setDomain_slots (d : Domain) (v : Visibility) : (s.setDomain d v).slots = s.slots := rfl
@[simp] theorem State.setDomain_peers (d : Domain) (v : Visibility) : (s.setDomain d v).peers = s.peers := rfl
@[simp] theorem State.setDomain_fetch (d : Domain) (v : Visibility) : (s.setDomain d v).fetch = s.fetch := rfl
@[simp] theorem State.setDomain_vis (d : Domain) (v : Visibility) : (s.setDomain d v).vis = s.vis.set d v := rfl
@[simp] theorem State.setDomain_domainWrites (d : Domain) (v : Visibility) : (s.setDomain d v).domainWrites = s.domainWrites := rfl
@[simp] theorem State.setDomain_lag (d : Domain) (v : Visibility) : (s.setDomain d v).lag = s.lag := rfl
@[simp] theorem State.setDomain_link (d : Domain) (v : Visibility) : (s.setDomain d v).link = s.link := rfl
@[simp] theorem State.setDomain_port (d : Domain) (v : Visibility) : (s.setDomain d v).port = s.port := rfl
@[simp] theorem State.setDomain_draws (d : Domain) (v : Visibility) : (s.setDomain d v).draws = s.draws := rfl
@[simp] theorem State.setDomain_todo (d : Domain) (v : Visibility) : (s.setDomain d v).todo = s.todo := rfl
@[simp] theorem State.setDomain_pending (d : Domain) (v : Visibility) : (s.setDomain d v).pending = s.pending := rfl

/-! ## writeIndex -/

@[simp] theorem State.writeIndex_clock (ix : PoolIndex) : (s.writeIndex ix).clock = s.clock := rfl
@[simp] theorem State.writeIndex_pins (ix : PoolIndex) : (s.writeIndex ix).pins = s.pins := rfl
@[simp] theorem State.writeIndex_supply (ix : PoolIndex) : (s.writeIndex ix).supply = s.supply := rfl
@[simp] theorem State.writeIndex_backup (ix : PoolIndex) : (s.writeIndex ix).backup = Backup.sealed { s.backup with index := ix } := rfl
@[simp] theorem State.writeIndex_store (ix : PoolIndex) : (s.writeIndex ix).store = { s.store with index := ix } := rfl
@[simp] theorem State.writeIndex_banks (ix : PoolIndex) : (s.writeIndex ix).banks = s.banks := rfl
@[simp] theorem State.writeIndex_pool (ix : PoolIndex) : (s.writeIndex ix).pool = s.pool := rfl
@[simp] theorem State.writeIndex_slots (ix : PoolIndex) : (s.writeIndex ix).slots = s.slots := rfl
@[simp] theorem State.writeIndex_peers (ix : PoolIndex) : (s.writeIndex ix).peers = s.peers := rfl
@[simp] theorem State.writeIndex_fetch (ix : PoolIndex) : (s.writeIndex ix).fetch = s.fetch := rfl
@[simp] theorem State.writeIndex_vis (ix : PoolIndex) : (s.writeIndex ix).vis = s.vis := rfl
@[simp] theorem State.writeIndex_domainWrites (ix : PoolIndex) : (s.writeIndex ix).domainWrites = s.domainWrites := rfl
@[simp] theorem State.writeIndex_lag (ix : PoolIndex) : (s.writeIndex ix).lag = s.lag := rfl
@[simp] theorem State.writeIndex_link (ix : PoolIndex) : (s.writeIndex ix).link = s.link := rfl
@[simp] theorem State.writeIndex_port (ix : PoolIndex) : (s.writeIndex ix).port = s.port := rfl
@[simp] theorem State.writeIndex_draws (ix : PoolIndex) : (s.writeIndex ix).draws = s.draws := rfl
@[simp] theorem State.writeIndex_todo (ix : PoolIndex) : (s.writeIndex ix).todo = s.todo := rfl
@[simp] theorem State.writeIndex_pending (ix : PoolIndex) : (s.writeIndex ix).pending = s.pending := rfl

/-! ## post -/

@[simp] theorem State.post_clock (m : Msg) : (s.post m).clock = s.clock := rfl
@[simp] theorem State.post_pins (m : Msg) : (s.post m).pins = s.pins := rfl
@[simp] theorem State.post_supply (m : Msg) : (s.post m).supply = s.supply := rfl
@[simp] theorem State.post_backup (m : Msg) : (s.post m).backup = s.backup := rfl
@[simp] theorem State.post_store (m : Msg) : (s.post m).store = s.store := rfl
@[simp] theorem State.post_banks (m : Msg) : (s.post m).banks = s.banks := rfl
@[simp] theorem State.post_pool (m : Msg) : (s.post m).pool = s.pool := rfl
@[simp] theorem State.post_slots (m : Msg) : (s.post m).slots = s.slots := rfl
@[simp] theorem State.post_peers (m : Msg) : (s.post m).peers = s.peers := rfl
@[simp] theorem State.post_fetch (m : Msg) : (s.post m).fetch = s.fetch := rfl
@[simp] theorem State.post_vis (m : Msg) : (s.post m).vis = s.vis := rfl
@[simp] theorem State.post_domainWrites (m : Msg) : (s.post m).domainWrites = s.domainWrites := rfl
@[simp] theorem State.post_lag (m : Msg) : (s.post m).lag = s.lag := rfl
@[simp] theorem State.post_link (m : Msg) : (s.post m).link = s.link := rfl
@[simp] theorem State.post_port (m : Msg) : (s.post m).port = s.port := rfl
@[simp] theorem State.post_draws (m : Msg) : (s.post m).draws = s.draws := rfl
@[simp] theorem State.post_todo (m : Msg) : (s.post m).todo = { s.todo with mail := s.todo.mail ++ [m] } := rfl
@[simp] theorem State.post_pending (m : Msg) : (s.post m).pending = s.pending := rfl

/-! ## wantOpening -/

@[simp] theorem State.wantOpening_clock : (s.wantOpening).clock = s.clock := rfl
@[simp] theorem State.wantOpening_pins : (s.wantOpening).pins = s.pins := rfl
@[simp] theorem State.wantOpening_supply : (s.wantOpening).supply = s.supply := rfl
@[simp] theorem State.wantOpening_backup : (s.wantOpening).backup = s.backup := rfl
@[simp] theorem State.wantOpening_store : (s.wantOpening).store = s.store := rfl
@[simp] theorem State.wantOpening_banks : (s.wantOpening).banks = s.banks := rfl
@[simp] theorem State.wantOpening_pool : (s.wantOpening).pool = s.pool := rfl
@[simp] theorem State.wantOpening_slots : (s.wantOpening).slots = s.slots := rfl
@[simp] theorem State.wantOpening_peers : (s.wantOpening).peers = s.peers := rfl
@[simp] theorem State.wantOpening_fetch : (s.wantOpening).fetch = s.fetch := rfl
@[simp] theorem State.wantOpening_vis : (s.wantOpening).vis = s.vis := rfl
@[simp] theorem State.wantOpening_domainWrites : (s.wantOpening).domainWrites = s.domainWrites := rfl
@[simp] theorem State.wantOpening_lag : (s.wantOpening).lag = s.lag := rfl
@[simp] theorem State.wantOpening_link : (s.wantOpening).link = s.link := rfl
@[simp] theorem State.wantOpening_port : (s.wantOpening).port = s.port := rfl
@[simp] theorem State.wantOpening_draws : (s.wantOpening).draws = s.draws := rfl
@[simp] theorem State.wantOpening_todo : (s.wantOpening).todo = { s.todo with openPass := { block := true, product := true } } := rfl
@[simp] theorem State.wantOpening_pending : (s.wantOpening).pending = s.pending := rfl

/-! ## wantOpeningOf -/

@[simp] theorem State.wantOpeningOf_clock (d : Domain) : (s.wantOpeningOf d).clock = s.clock := rfl
@[simp] theorem State.wantOpeningOf_pins (d : Domain) : (s.wantOpeningOf d).pins = s.pins := rfl
@[simp] theorem State.wantOpeningOf_supply (d : Domain) : (s.wantOpeningOf d).supply = s.supply := rfl
@[simp] theorem State.wantOpeningOf_backup (d : Domain) : (s.wantOpeningOf d).backup = s.backup := rfl
@[simp] theorem State.wantOpeningOf_store (d : Domain) : (s.wantOpeningOf d).store = s.store := rfl
@[simp] theorem State.wantOpeningOf_banks (d : Domain) : (s.wantOpeningOf d).banks = s.banks := rfl
@[simp] theorem State.wantOpeningOf_pool (d : Domain) : (s.wantOpeningOf d).pool = s.pool := rfl
@[simp] theorem State.wantOpeningOf_slots (d : Domain) : (s.wantOpeningOf d).slots = s.slots := rfl
@[simp] theorem State.wantOpeningOf_peers (d : Domain) : (s.wantOpeningOf d).peers = s.peers := rfl
@[simp] theorem State.wantOpeningOf_fetch (d : Domain) : (s.wantOpeningOf d).fetch = s.fetch := rfl
@[simp] theorem State.wantOpeningOf_vis (d : Domain) : (s.wantOpeningOf d).vis = s.vis := rfl
@[simp] theorem State.wantOpeningOf_domainWrites (d : Domain) : (s.wantOpeningOf d).domainWrites = s.domainWrites := rfl
@[simp] theorem State.wantOpeningOf_lag (d : Domain) : (s.wantOpeningOf d).lag = s.lag := rfl
@[simp] theorem State.wantOpeningOf_link (d : Domain) : (s.wantOpeningOf d).link = s.link := rfl
@[simp] theorem State.wantOpeningOf_port (d : Domain) : (s.wantOpeningOf d).port = s.port := rfl
@[simp] theorem State.wantOpeningOf_draws (d : Domain) : (s.wantOpeningOf d).draws = s.draws := rfl
@[simp] theorem State.wantOpeningOf_todo (d : Domain) : (s.wantOpeningOf d).todo = { s.todo with openPass := s.todo.openPass.set d true } := rfl
@[simp] theorem State.wantOpeningOf_pending (d : Domain) : (s.wantOpeningOf d).pending = s.pending := rfl

/-! ## wantAsking -/

@[simp] theorem State.wantAsking_clock : (s.wantAsking).clock = s.clock := rfl
@[simp] theorem State.wantAsking_pins : (s.wantAsking).pins = s.pins := rfl
@[simp] theorem State.wantAsking_supply : (s.wantAsking).supply = s.supply := rfl
@[simp] theorem State.wantAsking_backup : (s.wantAsking).backup = s.backup := rfl
@[simp] theorem State.wantAsking_store : (s.wantAsking).store = s.store := rfl
@[simp] theorem State.wantAsking_banks : (s.wantAsking).banks = s.banks := rfl
@[simp] theorem State.wantAsking_pool : (s.wantAsking).pool = s.pool := rfl
@[simp] theorem State.wantAsking_slots : (s.wantAsking).slots = s.slots := rfl
@[simp] theorem State.wantAsking_peers : (s.wantAsking).peers = s.peers := rfl
@[simp] theorem State.wantAsking_fetch : (s.wantAsking).fetch = s.fetch := rfl
@[simp] theorem State.wantAsking_vis : (s.wantAsking).vis = s.vis := rfl
@[simp] theorem State.wantAsking_domainWrites : (s.wantAsking).domainWrites = s.domainWrites := rfl
@[simp] theorem State.wantAsking_lag : (s.wantAsking).lag = s.lag := rfl
@[simp] theorem State.wantAsking_link : (s.wantAsking).link = s.link := rfl
@[simp] theorem State.wantAsking_port : (s.wantAsking).port = s.port := rfl
@[simp] theorem State.wantAsking_draws : (s.wantAsking).draws = s.draws := rfl
@[simp] theorem State.wantAsking_todo : (s.wantAsking).todo = { s.todo with askPass := true } := rfl
@[simp] theorem State.wantAsking_pending : (s.wantAsking).pending = s.pending := rfl

/-! ## changeView -/

@[simp] theorem State.changeView_clock : (s.changeView).clock = s.clock := rfl
@[simp] theorem State.changeView_pins : (s.changeView).pins = s.pins := rfl
@[simp] theorem State.changeView_supply : (s.changeView).supply = s.supply := rfl
@[simp] theorem State.changeView_backup : (s.changeView).backup = s.backup := rfl
@[simp] theorem State.changeView_store : (s.changeView).store = s.store := rfl
@[simp] theorem State.changeView_banks : (s.changeView).banks = s.banks := rfl
@[simp] theorem State.changeView_pool : (s.changeView).pool = s.pool := rfl
@[simp] theorem State.changeView_slots : (s.changeView).slots = s.slots := rfl
@[simp] theorem State.changeView_peers : (s.changeView).peers = s.peers := rfl
@[simp] theorem State.changeView_fetch : (s.changeView).fetch = s.fetch := rfl
@[simp] theorem State.changeView_vis : (s.changeView).vis = s.vis := rfl
@[simp] theorem State.changeView_domainWrites : (s.changeView).domainWrites = s.domainWrites := rfl
@[simp] theorem State.changeView_lag : (s.changeView).lag = s.lag := rfl
@[simp] theorem State.changeView_link : (s.changeView).link = s.link := rfl
@[simp] theorem State.changeView_port : (s.changeView).port = s.port := rfl
@[simp] theorem State.changeView_draws : (s.changeView).draws = s.draws := rfl
@[simp] theorem State.changeView_todo : (s.changeView).todo = { s.todo with viewChanged := true } := rfl
@[simp] theorem State.changeView_pending : (s.changeView).pending = s.pending := rfl

/-! ## peerReport -/

@[simp] theorem State.peerReport_clock : (s.peerReport).clock = s.clock := rfl
@[simp] theorem State.peerReport_pins : (s.peerReport).pins = s.pins := rfl
@[simp] theorem State.peerReport_supply : (s.peerReport).supply = s.supply := rfl
@[simp] theorem State.peerReport_backup : (s.peerReport).backup = s.backup := rfl
@[simp] theorem State.peerReport_store : (s.peerReport).store = s.store := rfl
@[simp] theorem State.peerReport_banks : (s.peerReport).banks = s.banks := rfl
@[simp] theorem State.peerReport_pool : (s.peerReport).pool = s.pool := rfl
@[simp] theorem State.peerReport_slots : (s.peerReport).slots = s.slots := rfl
@[simp] theorem State.peerReport_peers : (s.peerReport).peers = s.peers := rfl
@[simp] theorem State.peerReport_fetch : (s.peerReport).fetch = s.fetch := rfl
@[simp] theorem State.peerReport_vis : (s.peerReport).vis = s.vis := rfl
@[simp] theorem State.peerReport_domainWrites : (s.peerReport).domainWrites = s.domainWrites := rfl
@[simp] theorem State.peerReport_lag : (s.peerReport).lag = s.lag := rfl
@[simp] theorem State.peerReport_link : (s.peerReport).link = s.link := rfl
@[simp] theorem State.peerReport_port : (s.peerReport).port = s.port := rfl
@[simp] theorem State.peerReport_draws : (s.peerReport).draws = s.draws := rfl
@[simp] theorem State.peerReport_todo : (s.peerReport).todo = { s.todo with openPass := { block := true, product := true }, askPass := true } := rfl
@[simp] theorem State.peerReport_pending : (s.peerReport).pending = s.pending := rfl

/-! ## raise -/

@[simp] theorem State.raise_clock (n : Notice) : (s.raise n).clock = s.clock := rfl
@[simp] theorem State.raise_pins (n : Notice) : (s.raise n).pins = s.pins := rfl
@[simp] theorem State.raise_supply (n : Notice) : (s.raise n).supply = s.supply := rfl
@[simp] theorem State.raise_backup (n : Notice) : (s.raise n).backup = s.backup := rfl
@[simp] theorem State.raise_store (n : Notice) : (s.raise n).store = s.store := rfl
@[simp] theorem State.raise_banks (n : Notice) : (s.raise n).banks = s.banks := rfl
@[simp] theorem State.raise_pool (n : Notice) : (s.raise n).pool = s.pool := rfl
@[simp] theorem State.raise_slots (n : Notice) : (s.raise n).slots = s.slots := rfl
@[simp] theorem State.raise_peers (n : Notice) : (s.raise n).peers = s.peers := rfl
@[simp] theorem State.raise_fetch (n : Notice) : (s.raise n).fetch = s.fetch := rfl
@[simp] theorem State.raise_vis (n : Notice) : (s.raise n).vis = s.vis := rfl
@[simp] theorem State.raise_domainWrites (n : Notice) : (s.raise n).domainWrites = s.domainWrites := rfl
@[simp] theorem State.raise_lag (n : Notice) : (s.raise n).lag = s.lag := rfl
@[simp] theorem State.raise_link (n : Notice) : (s.raise n).link = s.link := rfl
@[simp] theorem State.raise_port (n : Notice) : (s.raise n).port = { s.port with flags := s.port.flags ||| n.mask } := rfl
@[simp] theorem State.raise_draws (n : Notice) : (s.raise n).draws = s.draws := rfl
@[simp] theorem State.raise_todo (n : Notice) : (s.raise n).todo = s.todo := rfl
@[simp] theorem State.raise_pending (n : Notice) : (s.raise n).pending = s.pending := rfl

/-! ## counting -/

@[simp] theorem State.counting_clock (f : Counters → Counters) : (s.counting f).clock = s.clock := rfl
@[simp] theorem State.counting_pins (f : Counters → Counters) : (s.counting f).pins = s.pins := rfl
@[simp] theorem State.counting_supply (f : Counters → Counters) : (s.counting f).supply = s.supply := rfl
@[simp] theorem State.counting_backup (f : Counters → Counters) : (s.counting f).backup = s.backup := rfl
@[simp] theorem State.counting_store (f : Counters → Counters) : (s.counting f).store = s.store := rfl
@[simp] theorem State.counting_banks (f : Counters → Counters) : (s.counting f).banks = s.banks := rfl
@[simp] theorem State.counting_pool (f : Counters → Counters) : (s.counting f).pool = s.pool := rfl
@[simp] theorem State.counting_slots (f : Counters → Counters) : (s.counting f).slots = s.slots := rfl
@[simp] theorem State.counting_peers (f : Counters → Counters) : (s.counting f).peers = s.peers := rfl
@[simp] theorem State.counting_fetch (f : Counters → Counters) : (s.counting f).fetch = s.fetch := rfl
@[simp] theorem State.counting_vis (f : Counters → Counters) : (s.counting f).vis = s.vis := rfl
@[simp] theorem State.counting_domainWrites (f : Counters → Counters) : (s.counting f).domainWrites = s.domainWrites := rfl
@[simp] theorem State.counting_lag (f : Counters → Counters) : (s.counting f).lag = s.lag := rfl
@[simp] theorem State.counting_link (f : Counters → Counters) : (s.counting f).link = s.link := rfl
@[simp] theorem State.counting_port (f : Counters → Counters) : (s.counting f).port = { s.port with counters := f s.port.counters } := rfl
@[simp] theorem State.counting_draws (f : Counters → Counters) : (s.counting f).draws = s.draws := rfl
@[simp] theorem State.counting_todo (f : Counters → Counters) : (s.counting f).todo = s.todo := rfl
@[simp] theorem State.counting_pending (f : Counters → Counters) : (s.counting f).pending = s.pending := rfl

/-! ## linked -/

@[simp] theorem State.linked_clock (f : Link → Link) : (s.linked f).clock = s.clock := rfl
@[simp] theorem State.linked_pins (f : Link → Link) : (s.linked f).pins = s.pins := rfl
@[simp] theorem State.linked_supply (f : Link → Link) : (s.linked f).supply = s.supply := rfl
@[simp] theorem State.linked_backup (f : Link → Link) : (s.linked f).backup = s.backup := rfl
@[simp] theorem State.linked_store (f : Link → Link) : (s.linked f).store = s.store := rfl
@[simp] theorem State.linked_banks (f : Link → Link) : (s.linked f).banks = s.banks := rfl
@[simp] theorem State.linked_pool (f : Link → Link) : (s.linked f).pool = s.pool := rfl
@[simp] theorem State.linked_slots (f : Link → Link) : (s.linked f).slots = s.slots := rfl
@[simp] theorem State.linked_peers (f : Link → Link) : (s.linked f).peers = s.peers := rfl
@[simp] theorem State.linked_fetch (f : Link → Link) : (s.linked f).fetch = s.fetch := rfl
@[simp] theorem State.linked_vis (f : Link → Link) : (s.linked f).vis = s.vis := rfl
@[simp] theorem State.linked_domainWrites (f : Link → Link) : (s.linked f).domainWrites = s.domainWrites := rfl
@[simp] theorem State.linked_lag (f : Link → Link) : (s.linked f).lag = s.lag := rfl
@[simp] theorem State.linked_link (f : Link → Link) : (s.linked f).link = f s.link := rfl
@[simp] theorem State.linked_port (f : Link → Link) : (s.linked f).port = s.port := rfl
@[simp] theorem State.linked_draws (f : Link → Link) : (s.linked f).draws = s.draws := rfl
@[simp] theorem State.linked_todo (f : Link → Link) : (s.linked f).todo = s.todo := rfl
@[simp] theorem State.linked_pending (f : Link → Link) : (s.linked f).pending = s.pending := rfl

/-! ## porting -/

@[simp] theorem State.porting_clock (f : Port → Port) : (s.porting f).clock = s.clock := rfl
@[simp] theorem State.porting_pins (f : Port → Port) : (s.porting f).pins = s.pins := rfl
@[simp] theorem State.porting_supply (f : Port → Port) : (s.porting f).supply = s.supply := rfl
@[simp] theorem State.porting_backup (f : Port → Port) : (s.porting f).backup = s.backup := rfl
@[simp] theorem State.porting_store (f : Port → Port) : (s.porting f).store = s.store := rfl
@[simp] theorem State.porting_banks (f : Port → Port) : (s.porting f).banks = s.banks := rfl
@[simp] theorem State.porting_pool (f : Port → Port) : (s.porting f).pool = s.pool := rfl
@[simp] theorem State.porting_slots (f : Port → Port) : (s.porting f).slots = s.slots := rfl
@[simp] theorem State.porting_peers (f : Port → Port) : (s.porting f).peers = s.peers := rfl
@[simp] theorem State.porting_fetch (f : Port → Port) : (s.porting f).fetch = s.fetch := rfl
@[simp] theorem State.porting_vis (f : Port → Port) : (s.porting f).vis = s.vis := rfl
@[simp] theorem State.porting_domainWrites (f : Port → Port) : (s.porting f).domainWrites = s.domainWrites := rfl
@[simp] theorem State.porting_lag (f : Port → Port) : (s.porting f).lag = s.lag := rfl
@[simp] theorem State.porting_link (f : Port → Port) : (s.porting f).link = s.link := rfl
@[simp] theorem State.porting_port (f : Port → Port) : (s.porting f).port = f s.port := rfl
@[simp] theorem State.porting_draws (f : Port → Port) : (s.porting f).draws = s.draws := rfl
@[simp] theorem State.porting_todo (f : Port → Port) : (s.porting f).todo = s.todo := rfl
@[simp] theorem State.porting_pending (f : Port → Port) : (s.porting f).pending = s.pending := rfl

/-! ## fetching -/

@[simp] theorem State.fetching_clock (f : Fetch → Fetch) : (s.fetching f).clock = s.clock := rfl
@[simp] theorem State.fetching_pins (f : Fetch → Fetch) : (s.fetching f).pins = s.pins := rfl
@[simp] theorem State.fetching_supply (f : Fetch → Fetch) : (s.fetching f).supply = s.supply := rfl
@[simp] theorem State.fetching_backup (f : Fetch → Fetch) : (s.fetching f).backup = s.backup := rfl
@[simp] theorem State.fetching_store (f : Fetch → Fetch) : (s.fetching f).store = s.store := rfl
@[simp] theorem State.fetching_banks (f : Fetch → Fetch) : (s.fetching f).banks = s.banks := rfl
@[simp] theorem State.fetching_pool (f : Fetch → Fetch) : (s.fetching f).pool = s.pool := rfl
@[simp] theorem State.fetching_slots (f : Fetch → Fetch) : (s.fetching f).slots = s.slots := rfl
@[simp] theorem State.fetching_peers (f : Fetch → Fetch) : (s.fetching f).peers = s.peers := rfl
@[simp] theorem State.fetching_fetch (f : Fetch → Fetch) : (s.fetching f).fetch = f s.fetch := rfl
@[simp] theorem State.fetching_vis (f : Fetch → Fetch) : (s.fetching f).vis = s.vis := rfl
@[simp] theorem State.fetching_domainWrites (f : Fetch → Fetch) : (s.fetching f).domainWrites = s.domainWrites := rfl
@[simp] theorem State.fetching_lag (f : Fetch → Fetch) : (s.fetching f).lag = s.lag := rfl
@[simp] theorem State.fetching_link (f : Fetch → Fetch) : (s.fetching f).link = s.link := rfl
@[simp] theorem State.fetching_port (f : Fetch → Fetch) : (s.fetching f).port = s.port := rfl
@[simp] theorem State.fetching_draws (f : Fetch → Fetch) : (s.fetching f).draws = s.draws := rfl
@[simp] theorem State.fetching_todo (f : Fetch → Fetch) : (s.fetching f).todo = s.todo := rfl
@[simp] theorem State.fetching_pending (f : Fetch → Fetch) : (s.fetching f).pending = s.pending := rfl

/-! ## supplying -/

@[simp] theorem State.supplying_clock (f : Supply → Supply) : (s.supplying f).clock = s.clock := rfl
@[simp] theorem State.supplying_pins (f : Supply → Supply) : (s.supplying f).pins = s.pins := rfl
@[simp] theorem State.supplying_supply (f : Supply → Supply) : (s.supplying f).supply = f s.supply := rfl
@[simp] theorem State.supplying_backup (f : Supply → Supply) : (s.supplying f).backup = s.backup := rfl
@[simp] theorem State.supplying_store (f : Supply → Supply) : (s.supplying f).store = s.store := rfl
@[simp] theorem State.supplying_banks (f : Supply → Supply) : (s.supplying f).banks = s.banks := rfl
@[simp] theorem State.supplying_pool (f : Supply → Supply) : (s.supplying f).pool = s.pool := rfl
@[simp] theorem State.supplying_slots (f : Supply → Supply) : (s.supplying f).slots = s.slots := rfl
@[simp] theorem State.supplying_peers (f : Supply → Supply) : (s.supplying f).peers = s.peers := rfl
@[simp] theorem State.supplying_fetch (f : Supply → Supply) : (s.supplying f).fetch = s.fetch := rfl
@[simp] theorem State.supplying_vis (f : Supply → Supply) : (s.supplying f).vis = s.vis := rfl
@[simp] theorem State.supplying_domainWrites (f : Supply → Supply) : (s.supplying f).domainWrites = s.domainWrites := rfl
@[simp] theorem State.supplying_lag (f : Supply → Supply) : (s.supplying f).lag = s.lag := rfl
@[simp] theorem State.supplying_link (f : Supply → Supply) : (s.supplying f).link = s.link := rfl
@[simp] theorem State.supplying_port (f : Supply → Supply) : (s.supplying f).port = s.port := rfl
@[simp] theorem State.supplying_draws (f : Supply → Supply) : (s.supplying f).draws = s.draws := rfl
@[simp] theorem State.supplying_todo (f : Supply → Supply) : (s.supplying f).todo = s.todo := rfl
@[simp] theorem State.supplying_pending (f : Supply → Supply) : (s.supplying f).pending = s.pending := rfl

/-! ## writeHeader -/

@[simp] theorem State.writeHeader_clock (b : BankId) : (s.writeHeader b).clock = s.clock := rfl
@[simp] theorem State.writeHeader_pins (b : BankId) : (s.writeHeader b).pins = s.pins := rfl
@[simp] theorem State.writeHeader_supply (b : BankId) : (s.writeHeader b).supply = s.supply := rfl
@[simp] theorem State.writeHeader_banks (b : BankId) : (s.writeHeader b).banks = s.banks := rfl
@[simp] theorem State.writeHeader_pool (b : BankId) : (s.writeHeader b).pool = s.pool := rfl
@[simp] theorem State.writeHeader_slots (b : BankId) : (s.writeHeader b).slots = s.slots := rfl
@[simp] theorem State.writeHeader_peers (b : BankId) : (s.writeHeader b).peers = s.peers := rfl
@[simp] theorem State.writeHeader_fetch (b : BankId) : (s.writeHeader b).fetch = s.fetch := rfl
@[simp] theorem State.writeHeader_vis (b : BankId) : (s.writeHeader b).vis = s.vis := rfl
@[simp] theorem State.writeHeader_domainWrites (b : BankId) : (s.writeHeader b).domainWrites = s.domainWrites := rfl
@[simp] theorem State.writeHeader_lag (b : BankId) : (s.writeHeader b).lag = s.lag := rfl
@[simp] theorem State.writeHeader_link (b : BankId) : (s.writeHeader b).link = s.link := rfl
@[simp] theorem State.writeHeader_port (b : BankId) : (s.writeHeader b).port = s.port := rfl
@[simp] theorem State.writeHeader_draws (b : BankId) : (s.writeHeader b).draws = s.draws := rfl
@[simp] theorem State.writeHeader_todo (b : BankId) : (s.writeHeader b).todo = s.todo := rfl
@[simp] theorem State.writeHeader_pending (b : BankId) : (s.writeHeader b).pending = s.pending := rfl

/-! ## writeScrubHeader -/

@[simp] theorem State.writeScrubHeader_clock (b : BankId) : (s.writeScrubHeader b).clock = s.clock := rfl
@[simp] theorem State.writeScrubHeader_pins (b : BankId) : (s.writeScrubHeader b).pins = s.pins := rfl
@[simp] theorem State.writeScrubHeader_supply (b : BankId) : (s.writeScrubHeader b).supply = s.supply := rfl
@[simp] theorem State.writeScrubHeader_banks (b : BankId) : (s.writeScrubHeader b).banks = s.banks := rfl
@[simp] theorem State.writeScrubHeader_pool (b : BankId) : (s.writeScrubHeader b).pool = s.pool := rfl
@[simp] theorem State.writeScrubHeader_slots (b : BankId) : (s.writeScrubHeader b).slots = s.slots := rfl
@[simp] theorem State.writeScrubHeader_peers (b : BankId) : (s.writeScrubHeader b).peers = s.peers := rfl
@[simp] theorem State.writeScrubHeader_fetch (b : BankId) : (s.writeScrubHeader b).fetch = s.fetch := rfl
@[simp] theorem State.writeScrubHeader_vis (b : BankId) : (s.writeScrubHeader b).vis = s.vis := rfl
@[simp] theorem State.writeScrubHeader_domainWrites (b : BankId) : (s.writeScrubHeader b).domainWrites = s.domainWrites := rfl
@[simp] theorem State.writeScrubHeader_lag (b : BankId) : (s.writeScrubHeader b).lag = s.lag := rfl
@[simp] theorem State.writeScrubHeader_link (b : BankId) : (s.writeScrubHeader b).link = s.link := rfl
@[simp] theorem State.writeScrubHeader_port (b : BankId) : (s.writeScrubHeader b).port = s.port := rfl
@[simp] theorem State.writeScrubHeader_draws (b : BankId) : (s.writeScrubHeader b).draws = s.draws := rfl
@[simp] theorem State.writeScrubHeader_todo (b : BankId) : (s.writeScrubHeader b).todo = s.todo := rfl
@[simp] theorem State.writeScrubHeader_pending (b : BankId) : (s.writeScrubHeader b).pending = s.pending := rfl

/-! ## commitDomainHeader -/

@[simp] theorem State.commitDomainHeader_clock (d : Domain) : (s.commitDomainHeader d).clock = s.clock := by
  unfold State.commitDomainHeader; split <;> rfl
@[simp] theorem State.commitDomainHeader_pins (d : Domain) : (s.commitDomainHeader d).pins = s.pins := by
  unfold State.commitDomainHeader; split <;> rfl
@[simp] theorem State.commitDomainHeader_supply (d : Domain) : (s.commitDomainHeader d).supply = s.supply := by
  unfold State.commitDomainHeader; split <;> rfl
@[simp] theorem State.commitDomainHeader_backup (d : Domain) : (s.commitDomainHeader d).backup = s.backup := by
  unfold State.commitDomainHeader; split <;> rfl
@[simp] theorem State.commitDomainHeader_banks (d : Domain) : (s.commitDomainHeader d).banks = s.banks := by
  unfold State.commitDomainHeader; split <;> rfl
@[simp] theorem State.commitDomainHeader_pool (d : Domain) : (s.commitDomainHeader d).pool = s.pool := by
  unfold State.commitDomainHeader; split <;> rfl
@[simp] theorem State.commitDomainHeader_slots (d : Domain) : (s.commitDomainHeader d).slots = s.slots := by
  unfold State.commitDomainHeader; split <;> rfl
@[simp] theorem State.commitDomainHeader_peers (d : Domain) : (s.commitDomainHeader d).peers = s.peers := by
  unfold State.commitDomainHeader; split <;> rfl
@[simp] theorem State.commitDomainHeader_fetch (d : Domain) : (s.commitDomainHeader d).fetch = s.fetch := by
  unfold State.commitDomainHeader; split <;> rfl
@[simp] theorem State.commitDomainHeader_vis (d : Domain) : (s.commitDomainHeader d).vis = s.vis := by
  unfold State.commitDomainHeader; split <;> rfl
@[simp] theorem State.commitDomainHeader_lag (d : Domain) : (s.commitDomainHeader d).lag = s.lag := by
  unfold State.commitDomainHeader; split <;> rfl
@[simp] theorem State.commitDomainHeader_link (d : Domain) : (s.commitDomainHeader d).link = s.link := by
  unfold State.commitDomainHeader; split <;> rfl
@[simp] theorem State.commitDomainHeader_port (d : Domain) : (s.commitDomainHeader d).port = s.port := by
  unfold State.commitDomainHeader; split <;> rfl
@[simp] theorem State.commitDomainHeader_draws (d : Domain) : (s.commitDomainHeader d).draws = s.draws := by
  unfold State.commitDomainHeader; split <;> rfl
@[simp] theorem State.commitDomainHeader_todo (d : Domain) : (s.commitDomainHeader d).todo = s.todo := by
  unfold State.commitDomainHeader; split <;> rfl
@[simp] theorem State.commitDomainHeader_pending (d : Domain) : (s.commitDomainHeader d).pending = s.pending := by
  unfold State.commitDomainHeader; split <;> rfl

/-! ## commitDomainHeaders -/

@[simp] theorem State.commitDomainHeaders_clock : (s.commitDomainHeaders).clock = s.clock := by
  simp [State.commitDomainHeaders]
@[simp] theorem State.commitDomainHeaders_pins : (s.commitDomainHeaders).pins = s.pins := by
  simp [State.commitDomainHeaders]
@[simp] theorem State.commitDomainHeaders_supply : (s.commitDomainHeaders).supply = s.supply := by
  simp [State.commitDomainHeaders]
@[simp] theorem State.commitDomainHeaders_backup : (s.commitDomainHeaders).backup = s.backup := by
  simp [State.commitDomainHeaders]
@[simp] theorem State.commitDomainHeaders_banks : (s.commitDomainHeaders).banks = s.banks := by
  simp [State.commitDomainHeaders]
@[simp] theorem State.commitDomainHeaders_pool : (s.commitDomainHeaders).pool = s.pool := by
  simp [State.commitDomainHeaders]
@[simp] theorem State.commitDomainHeaders_slots : (s.commitDomainHeaders).slots = s.slots := by
  simp [State.commitDomainHeaders]
@[simp] theorem State.commitDomainHeaders_peers : (s.commitDomainHeaders).peers = s.peers := by
  simp [State.commitDomainHeaders]
@[simp] theorem State.commitDomainHeaders_fetch : (s.commitDomainHeaders).fetch = s.fetch := by
  simp [State.commitDomainHeaders]
@[simp] theorem State.commitDomainHeaders_vis : (s.commitDomainHeaders).vis = s.vis := by
  simp [State.commitDomainHeaders]
@[simp] theorem State.commitDomainHeaders_lag : (s.commitDomainHeaders).lag = s.lag := by
  simp [State.commitDomainHeaders]
@[simp] theorem State.commitDomainHeaders_link : (s.commitDomainHeaders).link = s.link := by
  simp [State.commitDomainHeaders]
@[simp] theorem State.commitDomainHeaders_port : (s.commitDomainHeaders).port = s.port := by
  simp [State.commitDomainHeaders]
@[simp] theorem State.commitDomainHeaders_draws : (s.commitDomainHeaders).draws = s.draws := by
  simp [State.commitDomainHeaders]
@[simp] theorem State.commitDomainHeaders_todo : (s.commitDomainHeaders).todo = s.todo := by
  simp [State.commitDomainHeaders]
@[simp] theorem State.commitDomainHeaders_pending : (s.commitDomainHeaders).pending = s.pending := by
  simp [State.commitDomainHeaders]

/-! ## writeDomainHeader -/

@[simp] theorem State.writeDomainHeader_clock (d : Domain) : (s.writeDomainHeader d).clock = s.clock := by
  simp [State.writeDomainHeader]
@[simp] theorem State.writeDomainHeader_pins (d : Domain) : (s.writeDomainHeader d).pins = s.pins := by
  simp [State.writeDomainHeader]
@[simp] theorem State.writeDomainHeader_supply (d : Domain) : (s.writeDomainHeader d).supply = s.supply := by
  simp [State.writeDomainHeader]
@[simp] theorem State.writeDomainHeader_backup (d : Domain) : (s.writeDomainHeader d).backup = s.backup := by
  simp [State.writeDomainHeader]
@[simp] theorem State.writeDomainHeader_store (d : Domain) : (s.writeDomainHeader d).store = (s.commitDomainHeader d).store := by
  simp [State.writeDomainHeader]
@[simp] theorem State.writeDomainHeader_banks (d : Domain) : (s.writeDomainHeader d).banks = s.banks := by
  simp [State.writeDomainHeader]
@[simp] theorem State.writeDomainHeader_pool (d : Domain) : (s.writeDomainHeader d).pool = s.pool := by
  simp [State.writeDomainHeader]
@[simp] theorem State.writeDomainHeader_slots (d : Domain) : (s.writeDomainHeader d).slots = s.slots := by
  simp [State.writeDomainHeader]
@[simp] theorem State.writeDomainHeader_peers (d : Domain) : (s.writeDomainHeader d).peers = s.peers := by
  simp [State.writeDomainHeader]
@[simp] theorem State.writeDomainHeader_fetch (d : Domain) : (s.writeDomainHeader d).fetch = s.fetch := by
  simp [State.writeDomainHeader]
@[simp] theorem State.writeDomainHeader_vis (d : Domain) : (s.writeDomainHeader d).vis = s.vis := by
  simp [State.writeDomainHeader]
@[simp] theorem State.writeDomainHeader_lag (d : Domain) : (s.writeDomainHeader d).lag = s.lag := by
  simp [State.writeDomainHeader]
@[simp] theorem State.writeDomainHeader_link (d : Domain) : (s.writeDomainHeader d).link = s.link := by
  simp [State.writeDomainHeader]
@[simp] theorem State.writeDomainHeader_port (d : Domain) : (s.writeDomainHeader d).port = s.port := by
  simp [State.writeDomainHeader]
@[simp] theorem State.writeDomainHeader_draws (d : Domain) : (s.writeDomainHeader d).draws = s.draws := by
  simp [State.writeDomainHeader]
@[simp] theorem State.writeDomainHeader_todo (d : Domain) : (s.writeDomainHeader d).todo = s.todo := by
  simp [State.writeDomainHeader]
@[simp] theorem State.writeDomainHeader_pending (d : Domain) : (s.writeDomainHeader d).pending = s.pending := by
  simp [State.writeDomainHeader]

/-! ## Reading back -/

@[simp] theorem State.setBank_bank (b : BankId) (k : Bank) : (s.setBank b k).bank b = k := by
  simp [State.bank, State.setBank]

theorem State.setBank_bank_other (b c : BankId) (k : Bank) (h : c ≠ b) : (s.setBank b k).bank c = s.bank c := by
  have h' : b.val ≠ c.val := fun e => h (Fin.ext e.symm)
  simp [State.bank, State.setBank, h']

@[simp] theorem State.banking_bank (b : BankId) (f : Bank → Bank) : (s.banking b f).bank b = f (s.bank b) :=
  State.setBank_bank s b _

theorem State.banking_bank_other (b c : BankId) (f : Bank → Bank) (h : c ≠ b) : (s.banking b f).bank c = s.bank c :=
  State.setBank_bank_other s b c _ h

@[simp] theorem State.working_bank (b : BankId) (w : BankWork) :
    (s.working b w).bank b = { s.bank b with work := w } := State.setBank_bank s b _

@[simp] theorem State.heading_bank (b : BankId) (f : BankHeader → BankHeader) :
    (s.heading b f).bank b = { s.bank b with header := f (s.bank b).header } := State.setBank_bank s b _

@[simp] theorem State.setSlot_slot (i : SlotId) (x : Slot) : (s.setSlot i x).slot i = x := by
  simp [State.slot, State.setSlot]

theorem State.setSlot_slot_other (i j : SlotId) (x : Slot) (h : j ≠ i) : (s.setSlot i x).slot j = s.slot j := by
  have h' : i.val ≠ j.val := fun e => h (Fin.ext e.symm)
  simp [State.slot, State.setSlot, h']

@[simp] theorem State.slotting_slot (i : SlotId) (f : Slot → Slot) : (s.slotting i f).slot i = f (s.slot i) :=
  State.setSlot_slot s i _

@[simp] theorem State.setPlaces_places (b : BankId) (l : List (Nat × Record)) : (s.setPlaces b l).places b = l := by
  simp [State.places, State.setPlaces]

theorem State.setPlaces_places_other (b c : BankId) (l : List (Nat × Record)) (h : c ≠ b) :
    (s.setPlaces b l).places c = s.places c := by
  have h' : b.val ≠ c.val := fun e => h (Fin.ext e.symm)
  simp [State.places, State.setPlaces, h']

@[simp] theorem PerDomain.set_get {α : Type} (x : PerDomain α) (d : Domain) (a : α) : (x.set d a).get d = a := by
  cases d <;> rfl

theorem PerDomain.set_get_other {α : Type} (x : PerDomain α) (d e : Domain) (a : α) (h : e ≠ d) :
    (x.set d a).get e = x.get e := by
  cases d <;> cases e <;> first | rfl | exact absurd rfl h

@[simp] theorem State.setDomain_domain (d : Domain) (v : Visibility) : (s.setDomain d v).domain d = v :=
  PerDomain.set_get s.vis d v

/-- The header write that a domain header write puts in progress (R143). -/
@[simp] theorem State.writeDomainHeader_get (d : Domain) : (s.writeDomainHeader d).domainWrites.get d =
    some (DomainHeader.sealed
      { held := (s.domain d).held, visible := (s.domain d).visible, pending := (s.domain d).pending, check := 0 }) := by
  simp [State.writeDomainHeader, State.domain]

@[simp] theorem State.commitDomainHeader_domainWrites (d : Domain) :
    (s.commitDomainHeader d).domainWrites = s.domainWrites.set d none := by
  unfold State.commitDomainHeader
  split
  · next h => cases d <;> simp_all [PerDomain.get, PerDomain.set] <;> simp [← h]
  · rfl

/-- R143: the write in progress is the header in store memory once it completes. -/
theorem State.commitDomainHeader_header (d : Domain) :
    (s.commitDomainHeader d).store.domains.get d = (s.domainWrites.get d).getD (s.store.domains.get d) := by
  unfold State.commitDomainHeader
  split
  · next h => rw [h]; rfl
  · next h => rw [h]; exact PerDomain.set_get _ _ _

/-- The header of the other domain stays. -/
theorem State.commitDomainHeader_other (d e : Domain) (h : e ≠ d) :
    (s.commitDomainHeader d).store.domains.get e = s.store.domains.get e := by
  unfold State.commitDomainHeader
  split
  · rfl
  · exact PerDomain.set_get_other _ _ _ _ h

/-- With no write of it in progress a domain header stays. -/
theorem State.commitDomainHeader_none (d : Domain) (h : s.domainWrites.get d = none) : s.commitDomainHeader d = s := by
  unfold State.commitDomainHeader; rw [h]

/-- R143: what the beginning of a domain header write changes. -/
theorem State.writeDomainHeader_shape (d : Domain) : s.writeDomainHeader d = { s with
    store := { s.store with domains := (s.commitDomainHeader d).store.domains }
    domainWrites := s.domainWrites.set d (some (DomainHeader.sealed
      { held := (s.domain d).held, visible := (s.domain d).visible, pending := (s.domain d).pending, check := 0 })) } := by
  have set_set : ∀ {α : Type} (x : PerDomain α) (a b : α), (x.set d a).set d b = x.set d b := by intros; cases d <;> rfl
  unfold State.writeDomainHeader State.commitDomainHeader
  split <;> simp [State.domain, set_set]

/-- A domain header write begins and ends with the domain headers alone in store memory. -/
theorem State.commitDomainHeader_store (d : Domain) :
    (s.commitDomainHeader d).store = { s.store with domains := (s.commitDomainHeader d).store.domains } := by
  unfold State.commitDomainHeader; split <;> rfl

theorem State.commitDomainHeaders_store :
    s.commitDomainHeaders.store = { s.store with domains := s.commitDomainHeaders.store.domains } := by
  rw [State.commitDomainHeaders, State.commitDomainHeader_store, State.commitDomainHeader_store s .block]

/-! ## Header checks -/

theorem check_torn (x : BitVec 16) : (~~~x == x) = false := by
  rw [beq_eq_false_iff_ne]
  intro h
  have := congrArg (fun y => y.getLsbD 0) h
  simp at this

/-- A header, entry or directory written with its check recomputed is good, and a torn one is not (R206). -/
@[simp] theorem StoredHeader.sealed_good (h : BankHeader) : (StoredHeader.sealed h).good = true := beq_self_eq_true _
@[simp] theorem StoredHeader.torn_good (h : StoredHeader) : h.torn.good = false := check_torn _
@[simp] theorem DomainHeader.sealed_good (h : DomainHeader) : h.sealed.good = true := beq_self_eq_true _
@[simp] theorem DomainHeader.torn_good (h : DomainHeader) : h.torn.good = false := check_torn _
@[simp] theorem ManifestEntry.sealed_good (e : ManifestEntry) : e.sealed.good = true := beq_self_eq_true _
@[simp] theorem ManifestEntry.torn_good (e : ManifestEntry) : e.torn.good = false := check_torn _
@[simp] theorem Backup.sealed_good (k : Backup) : k.sealed.good = true := beq_self_eq_true _

@[simp] theorem StoredHeader.sealed_fields (h : BankHeader) : (StoredHeader.sealed h).fields = h := rfl
@[simp] theorem DomainHeader.sealed_held (h : DomainHeader) : h.sealed.held = h.held := rfl
@[simp] theorem DomainHeader.sealed_visible (h : DomainHeader) : h.sealed.visible = h.visible := rfl
@[simp] theorem DomainHeader.sealed_pending (h : DomainHeader) : h.sealed.pending = h.pending := rfl
@[simp] theorem ManifestEntry.sealed_manifest (e : ManifestEntry) : e.sealed.manifest = e.manifest := rfl
@[simp] theorem ManifestEntry.sealed_stamp (e : ManifestEntry) : e.sealed.stamp = e.stamp := rfl
@[simp] theorem ManifestEntry.sealed_verified (e : ManifestEntry) : e.sealed.verified = e.verified := rfl
@[simp] theorem ManifestEntry.sealed_present (e : ManifestEntry) : e.sealed.present = e.present := rfl

/-- R143: what the completion of the header writes in progress changes. -/
theorem State.commitDomainHeaders_shape : s.commitDomainHeaders = { s with
    domainWrites := { block := none, product := none }
    store := { s.store with domains := s.commitDomainHeaders.store.domains } } := by
  have one : ∀ (s : State) (d : Domain), s.commitDomainHeader d = { s with
      domainWrites := s.domainWrites.set d none
      store := { s.store with domains := (s.commitDomainHeader d).store.domains } } := by
    intro s d
    have h1 := s.commitDomainHeader_domainWrites d
    unfold State.commitDomainHeader at h1 ⊢
    cases h : s.domainWrites.get d <;> simp only [h] at h1 ⊢
    rw [← h1]
  unfold State.commitDomainHeaders
  have a := one s .block
  generalize s.commitDomainHeader .block = t at a ⊢
  have b := one t .product
  generalize t.commitDomainHeader .product = u at b ⊢
  generalize u.store.domains = q at b ⊢
  subst b
  generalize t.store.domains = q' at a ⊢
  subst a
  rfl

theorem State.commitDomainHeaders_header (d : Domain) :
    s.commitDomainHeaders.store.domains.get d = (s.domainWrites.get d).getD (s.store.domains.get d) := by
  unfold State.commitDomainHeaders
  cases d
  · rw [State.commitDomainHeader_other _ _ _ (by decide), State.commitDomainHeader_header]
  · rw [State.commitDomainHeader_header, State.commitDomainHeader_domainWrites,
      PerDomain.set_get_other _ _ _ _ (by decide), State.commitDomainHeader_other _ _ _ (by decide)]

theorem State.setDomain_domain_other (d e : Domain) (v : Visibility) (h : e ≠ d) :
    (s.setDomain d v).domain e = s.domain e := PerDomain.set_get_other s.vis d e v h

end Sys2Proof.Machine
end

