-- ==== Sys2Proof/Laws/Keeps.lean ====
section
/-! SUPPORT. What every operation of the part keeps: the queue, the clock, the invariant, and for the operations that run inside an event
the parts that `State.still` names. Each operation has one lemma `<operation>_ok`. -/

namespace Sys2Proof.Machine

/-- `s` was reached from `x` with the queue and clock as they were and the invariant kept; with `L`, by operations of the running out
of an event. -/
structure Ok (L : Bool) (x s : State) : Prop where
  pending : s.pending = x.pending
  clock : s.clock = x.clock
  inv : x.Inv → s.Inv
  still : L = true → x.still s

/-- What the invariant and `State.still` read of a state. -/
def State.seen (s : State) :=
  ((s.pending, s.clock, s.pins, { s.supply with settling := false }, s.lag, s.peers.length, s.pool.queueLoad,
    fun n => (s.peer n).map Peer.unasked, s.peers.map Peer.station),
   (s.fetch.serve, s.fetch.manifestReads, s.fetch.asks.length, s.port.enables, s.port.flags, s.port.counters),
   (s.link.asr, s.link.increase, s.link.lowRate, s.link.decreaseHold, s.link.decay, s.link.announceAt, s.link.control.length,
    s.link.credit, s.link.dataWait),
   (s.store.places, s.store.cells, s.store.index, s.store.startRecord, s.backup.barred, s.backup.dips, s.backup.cause))

theorem State.still_refl (s : State) : s.still s := by constructor <;> first | rfl | exact fun _ => rfl

theorem State.still_trans {s t u : State} (h : s.still t) (k : t.still u) : s.still u where
  pins := k.pins.trans h.pins
  supply := k.supply.trans h.supply
  lag := k.lag.trans h.lag
  peers := fun n => (k.peers n).trans (h.peers n)
  serve := k.serve.trans h.serve
  manifestReads := k.manifestReads.trans h.manifestReads
  enables := k.enables.trans h.enables
  asr := k.asr.trans h.asr
  increase := k.increase.trans h.increase
  lowRate := k.lowRate.trans h.lowRate
  decreaseHold := k.decreaseHold.trans h.decreaseHold
  decay := k.decay.trans h.decay
  announceAt := k.announceAt.trans h.announceAt
  places := k.places.trans h.places
  cells := k.cells.trans h.cells
  index := k.index.trans h.index
  startRecord := k.startRecord.trans h.startRecord
  barred := k.barred.trans h.barred
  dips := k.dips.trans h.dips
  cause := k.cause.trans h.cause

theorem Ok.refl (L : Bool) (s : State) : Ok L s s := ⟨rfl, rfl, id, fun _ => s.still_refl⟩

theorem Ok.trans {L : Bool} {x s t : State} (h : Ok L x s) (k : Ok L s t) : Ok L x t :=
  ⟨k.pending.trans h.pending, k.clock.trans h.clock, fun i => k.inv (h.inv i), fun e => State.still_trans (h.still e) (k.still e)⟩

/-- An operation that changes nothing of what is read. -/
theorem Ok.of_seen {L : Bool} {s t : State} (e : t.seen = s.seen) : Ok L s t := by
  simp only [State.seen, Prod.mk.injEq] at e
  obtain ⟨⟨e1, e2, e3, e4, e5, e6, e7, e7a, e7b⟩, ⟨e8, e9, e10, e11, e12, e13⟩, ⟨e14, e15, e16, e17, e18, e19, e20, e21, e22⟩,
    e23, e24, e25, e26, e27, e28, e29⟩ := e
  refine ⟨e1, e2, fun i => ?_, fun _ => ?_⟩
  · obtain ⟨h1, h2, h3, h4, h5, h6, h7, h8, h9, h10, h10a, h11, h12, h13, h14, h15⟩ := i
    constructor
    · intro b; unfold State.places at *; rw [e23]; exact h1 b
    · rw [e24]; exact h2
    · rw [e13]; exact h3
    · rw [e12]; exact h4
    · rw [e11]; exact h5
    · rw [e10]; exact h6
    · rw [e8]; exact h7
    · rw [e20]; exact h8
    · rw [e5]; exact h9
    · rw [e6]; exact h10
    · rw [e7b]; exact h10a
    · rw [e27]; exact h11
    · rw [e7]; exact h12
    · rw [e21]; exact h13
    · rw [e22]; exact h14
    · rw [e28]; exact h15
  · constructor <;> first | assumption | exact fun n => congrFun e7a n

/-- Inside a larger operation. -/
theorem Ok.seen {L : Bool} {x s t : State} (h : Ok L x s) (e : t.seen = s.seen) : Ok L x t := h.trans (Ok.of_seen e)

/-- With L = false only the queue, the clock and the invariant are asked for. -/
theorem Ok.mk' {L : Bool} {x s t : State} (h : Ok L x s) (hL : L = false) (e1 : t.pending = s.pending) (e2 : t.clock = s.clock)
    (hi : s.Inv → t.Inv) : Ok L x t :=
  ⟨e1.trans h.pending, e2.trans h.clock, fun i => hi (h.inv i), fun e => by rw [hL] at e; exact absurd e (by decide)⟩

theorem Ok.ite {L : Bool} {x a b : State} {p : Prop} [Decidable p] (ha : Ok L x a) (hb : Ok L x b) :
    Ok L x (if p then a else b) := by
  split
  · exact ha
  · exact hb

/-- A fold of an operation that keeps. -/
theorem Ok.foldl {L : Bool} {x : State} {α : Type} {f : State → α → State} (hf : ∀ s a, Ok L x s → Ok L x (f s a)) :
    ∀ (l : List α) (s : State), Ok L x s → Ok L x (l.foldl f s)
  | [], _, h => h
  | a :: l, s, h => Ok.foldl hf l (f s a) (hf s a h)

variable {L : Bool} {x s : State}

/-! ## Updates that change nothing read -/

theorem setBank_ok (h : Ok L x s) (b : BankId) (k : Bank) : Ok L x (s.setBank b k) := h.seen rfl
theorem setSlot_ok (h : Ok L x s) (i : SlotId) (y : Slot) : Ok L x (s.setSlot i y) := h.seen rfl
theorem setDomain_ok (h : Ok L x s) (d : Domain) (v : Visibility) : Ok L x (s.setDomain d v) := h.seen rfl
theorem writeHeader_ok (h : Ok L x s) (b : BankId) : Ok L x (s.writeHeader b) := h.seen rfl
theorem writeScrubHeader_ok (h : Ok L x s) (b : BankId) : Ok L x (s.writeScrubHeader b) := h.seen rfl
theorem commitDomainHeader_seen (s : State) (d : Domain) : (s.commitDomainHeader d).seen = s.seen := by
  unfold State.commitDomainHeader; split <;> rfl

theorem commitDomainHeader_ok (h : Ok L x s) (d : Domain) : Ok L x (s.commitDomainHeader d) := h.seen (commitDomainHeader_seen s d)
theorem commitDomainHeaders_ok (h : Ok L x s) : Ok L x s.commitDomainHeaders := commitDomainHeader_ok (commitDomainHeader_ok h _) _
theorem writeDomainHeader_ok (h : Ok L x s) (d : Domain) : Ok L x (s.writeDomainHeader d) :=
  (commitDomainHeader_ok h d).seen rfl
theorem post_ok (h : Ok L x s) (m : Msg) : Ok L x (s.post m) := h.seen rfl
theorem wantOpening_ok (h : Ok L x s) : Ok L x s.wantOpening := h.seen rfl
theorem wantOpeningOf_ok (h : Ok L x s) (d : Domain) : Ok L x (s.wantOpeningOf d) := h.seen rfl
theorem wantAsking_ok (h : Ok L x s) : Ok L x s.wantAsking := h.seen rfl
theorem changeView_ok (h : Ok L x s) : Ok L x s.changeView := h.seen rfl
theorem peerReport_ok (h : Ok L x s) : Ok L x s.peerReport := h.seen rfl
theorem draw_ok (h : Ok L x s) : Ok L x s.draw.2 := h.seen rfl
theorem banking_ok (h : Ok L x s) (b : BankId) (f : Bank → Bank) : Ok L x (s.banking b f) := h.seen rfl
theorem heading_ok (h : Ok L x s) (b : BankId) (f : BankHeader → BankHeader) : Ok L x (s.heading b f) := h.seen rfl
theorem working_ok (h : Ok L x s) (b : BankId) (w : BankWork) : Ok L x (s.working b w) := h.seen rfl
theorem slotting_ok (h : Ok L x s) (i : SlotId) (f : Slot → Slot) : Ok L x (s.slotting i f) := h.seen rfl
theorem report_ok (h : Ok L x s) (b : BankId) (r : BankReport) : Ok L x (s.report b r) := h.seen rfl

/-! ## Places -/

theorem placesFrom_mono {α : Type} {hi : Nat} : ∀ (l : List (Nat × α)) (a b : Nat), a ≤ b → placesFrom b hi l = true →
    placesFrom a hi l = true
  | [], _, _, _, _ => rfl
  | (q, _) :: _, _, _, h, k => by
    simp only [placesFrom, Bool.and_eq_true, decide_eq_true_eq] at k ⊢
    exact ⟨⟨Nat.le_trans h k.1.1, k.1.2⟩, k.2⟩

theorem placeSet_from {α : Type} {hi p : Nat} (hp : p < hi) (y : α) : ∀ (l : List (Nat × α)) (lo : Nat), lo ≤ p →
    placesFrom lo hi l = true → placesFrom lo hi (placeSet p y l) = true
  | [], lo, h, _ => by simp [placeSet, placesFrom, h, hp]
  | (q, b) :: l, lo, h, k => by
    simp only [placesFrom, Bool.and_eq_true, decide_eq_true_eq] at k
    unfold placeSet
    split
    · rename_i hq
      simp only [placesFrom, Bool.and_eq_true, decide_eq_true_eq]
      exact ⟨⟨h, hp⟩, ⟨hq, k.1.2⟩, k.2⟩
    · split
      · rename_i hq
        subst hq
        simp only [placesFrom, Bool.and_eq_true, decide_eq_true_eq]
        exact ⟨⟨h, hp⟩, k.2⟩
      · simp only [placesFrom, Bool.and_eq_true, decide_eq_true_eq]
        exact ⟨k.1, placeSet_from hp y l (q + 1) (by omega) k.2⟩

/-- A write of a place keeps the canonical form. -/
theorem placeSet_wf {α : Type} {hi p : Nat} (hp : p < hi) (y : α) {l : List (Nat × α)} (h : Memory.wf hi l = true) :
    Memory.wf hi (placeSet p y l) = true := placeSet_from hp y l 0 (Nat.zero_le p) h

/-- A write keeps the canonical form, whatever place it names. -/
theorem placeWrite_wf {α : Type} {hi : Nat} (p : Nat) (y : α) {l : List (Nat × α)} (h : Memory.wf hi l = true) :
    Memory.wf hi (placeWrite hi p y l) = true := by
  unfold placeWrite
  split
  · rename_i hp; exact placeSet_wf hp y h
  · exact h

theorem placeFree_from {α : Type} {hi : Nat} (p : Nat) : ∀ (l : List (Nat × α)) (lo : Nat), placesFrom lo hi l = true →
    placesFrom lo hi (placeFree p l) = true
  | [], _, _ => rfl
  | (q, b) :: l, lo, k => by
    have k' := k
    simp only [placesFrom, Bool.and_eq_true, decide_eq_true_eq] at k
    unfold placeFree
    split
    · exact placesFrom_mono l lo (q + 1) (by omega) k.2
    · simp only [placesFrom, Bool.and_eq_true, decide_eq_true_eq]
      exact ⟨k.1, placeFree_from p l (q + 1) k.2⟩

/-- The freeing of a place keeps the canonical form. -/
theorem placeFree_wf {α : Type} {hi : Nat} (p : Nat) {l : List (Nat × α)} (h : Memory.wf hi l = true) :
    Memory.wf hi (placeFree p l) = true := placeFree_from p l 0 h

/-- The places of state after a write read it at its place. -/
theorem placeGet_set {α : Type} (p : Nat) (y : α) : ∀ l : List (Nat × α), placeGet p (placeSet p y l) = some y
  | [] => by simp [placeSet, placeGet]
  | (q, b) :: l => by
    unfold placeSet
    split
    · simp [placeGet]
    · split
      · simp [placeGet]
      · rename_i h1 h2
        have : ¬ q = p := fun e => h2 e.symm
        simp [placeGet, this, placeGet_set p y l]

/-- A write leaves every other place as it was. -/
theorem placeGet_set_other {α : Type} (p q : Nat) (h : q ≠ p) (y : α) : ∀ l : List (Nat × α),
    placeGet q (placeSet p y l) = placeGet q l
  | [] => by simp [placeSet, placeGet, Ne.symm h]
  | (r, b) :: l => by
    unfold placeSet
    split
    · simp [placeGet, Ne.symm h]
    · split
      · rename_i h1 h2; subst h2; simp [placeGet, Ne.symm h]
      · simp only [placeGet]; split
        · rfl
        · exact placeGet_set_other p q h y l

theorem placeGet_none_of_from {α : Type} {hi : Nat} : ∀ (l : List (Nat × α)) (lo p : Nat), p < lo → placesFrom lo hi l = true →
    placeGet p l = none
  | [], _, _, _, _ => rfl
  | (q, b) :: l, lo, p, h, k => by
    simp only [placesFrom, Bool.and_eq_true, decide_eq_true_eq] at k
    simp only [placeGet]
    rw [if_neg (by omega)]
    exact placeGet_none_of_from l (q + 1) p (by omega) k.2

theorem placeGet_free_from {α : Type} {hi : Nat} (p : Nat) : ∀ (l : List (Nat × α)) (lo : Nat), placesFrom lo hi l = true →
    placeGet p (placeFree p l) = none
  | [], _, _ => rfl
  | (q, b) :: l, lo, k => by
    simp only [placesFrom, Bool.and_eq_true, decide_eq_true_eq] at k
    unfold placeFree
    split
    · rename_i e; subst e; exact placeGet_none_of_from l (q + 1) q (by omega) k.2
    · rename_i e; simp only [placeGet, if_neg e]; exact placeGet_free_from p l (q + 1) k.2

/-- A freed place is free, in canonical form. -/
theorem placeGet_free {α : Type} {hi : Nat} (p : Nat) {l : List (Nat × α)} (h : Memory.wf hi l = true) :
    placeGet p (placeFree p l) = none := placeGet_free_from p l 0 h

/-- A freeing leaves every other place as it was. -/
theorem placeGet_free_other {α : Type} (p q : Nat) (h : q ≠ p) : ∀ l : List (Nat × α), placeGet q (placeFree p l) = placeGet q l
  | [] => rfl
  | (r, b) :: l => by
    unfold placeFree
    split
    · rename_i e; subst e; simp [placeGet, Ne.symm h]
    · simp only [placeGet]; split
      · rfl
      · exact placeGet_free_other p q h l

/-- Replacing the places of one bank by places in canonical form keeps the invariant. -/
theorem setPlaces_ok (h : Ok L x s) (hL : L = false) (b : BankId) (l : List (Nat × Record))
    (hl : s.Inv → Memory.wf Config.bankPlaces l = true) : Ok L x (s.setPlaces b l) :=
  h.mk' hL rfl rfl (fun i => { i with
    places := fun c => by
      by_cases e : c = b
      · subst e; rw [State.setPlaces_places]; exact hl i
      · rw [State.setPlaces_places_other _ _ _ _ e]; exact i.places c })

/-! ## Notice flags and counters -/

theorem flags_lt (a : BitVec 16) (n : Notice) (h : a.toNat < 2048) : (a ||| n.mask).toNat < 2048 := by
  rw [BitVec.toNat_or]
  have hm : n.mask.toNat < 2 ^ 11 := by cases n <;> decide
  exact Nat.or_lt_two_pow (n := 11) h hm

theorem raise_ok (h : Ok L x s) (n : Notice) : Ok L x (s.raise n) :=
  h.trans ⟨rfl, rfl, fun i => { i with flags := flags_lt _ n i.flags }, fun _ => { s.still_refl with }⟩

theorem bumpBy_le (k n : Nat) : bumpBy k n ≤ 65535 := by unfold bumpBy; omega

theorem Counters.bounded_iff (c : Counters) : c.bounded ↔
    (c.foreign ≤ 65535 ∧ c.malformed ≤ 65535 ∧ c.segmentCrc ≤ 65535 ∧ c.duplicate ≤ 65535 ∧ c.discardedDrain ≤ 65535 ∧
     c.controlDrops ≤ 65535 ∧ c.peerRefusals ≤ 65535 ∧ c.askTimeouts ≤ 65535 ∧ c.declines ≤ 65535 ∧ c.digestFailures ≤ 65535 ∧
     c.conflicts ≤ 65535 ∧ c.misplaced ≤ 65535 ∧ c.malformedOps ≤ 65535 ∧ c.redundant ≤ 65535 ∧ c.repairs ≤ 65535 ∧
     c.overruns ≤ 65535) := by
  simp [Counters.bounded, Counters.list]

theorem counting_ok (h : Ok L x s) (f : Counters → Counters) (hf : ∀ c : Counters, c.bounded → (f c).bounded) :
    Ok L x (s.counting f) :=
  h.trans ⟨rfl, rfl, fun i => { i with counters := hf _ i.counters }, fun _ => { s.still_refl with }⟩

theorem countForeign_ok (h : Ok L x s) : Ok L x s.countForeign := counting_ok h _ (fun c hc => by
  rw [Counters.bounded_iff] at hc ⊢; exact ⟨bumpBy_le _ _, hc.2⟩)
theorem countMalformed_ok (h : Ok L x s) : Ok L x s.countMalformed := counting_ok h _ (fun c hc => by
  rw [Counters.bounded_iff] at hc ⊢; simp [hc, bumpBy_le])
theorem countSegmentCrc_ok (h : Ok L x s) : Ok L x s.countSegmentCrc := counting_ok h _ (fun c hc => by
  rw [Counters.bounded_iff] at hc ⊢; simp [hc, bumpBy_le])
theorem countDuplicate_ok (h : Ok L x s) : Ok L x s.countDuplicate := counting_ok h _ (fun c hc => by
  rw [Counters.bounded_iff] at hc ⊢; simp [hc, bumpBy_le])
theorem countDiscardedDrain_ok (h : Ok L x s) : Ok L x s.countDiscardedDrain := counting_ok h _ (fun c hc => by
  rw [Counters.bounded_iff] at hc ⊢; simp [hc, bumpBy_le])
theorem countControlDrop_ok (h : Ok L x s) : Ok L x s.countControlDrop := counting_ok h _ (fun c hc => by
  rw [Counters.bounded_iff] at hc ⊢; simp [hc, bumpBy_le])
theorem countPeerRefusal_ok (h : Ok L x s) : Ok L x s.countPeerRefusal := counting_ok h _ (fun c hc => by
  rw [Counters.bounded_iff] at hc ⊢; simp [hc, bumpBy_le])
theorem countAskTimeout_ok (h : Ok L x s) : Ok L x s.countAskTimeout := counting_ok h _ (fun c hc => by
  rw [Counters.bounded_iff] at hc ⊢; simp [hc, bumpBy_le])
theorem countDecline_ok (h : Ok L x s) : Ok L x s.countDecline := counting_ok h _ (fun c hc => by
  rw [Counters.bounded_iff] at hc ⊢; simp [hc, bumpBy_le])
theorem countDigestFailure_ok (h : Ok L x s) : Ok L x s.countDigestFailure := counting_ok h _ (fun c hc => by
  rw [Counters.bounded_iff] at hc ⊢; simp [hc, bumpBy_le])
theorem countConflict_ok (h : Ok L x s) : Ok L x s.countConflict := counting_ok h _ (fun c hc => by
  rw [Counters.bounded_iff] at hc ⊢; simp [hc, bumpBy_le])
theorem countMisplaced_ok (h : Ok L x s) (k : Nat) : Ok L x (s.countMisplaced k) := counting_ok h _ (fun c hc => by
  rw [Counters.bounded_iff] at hc ⊢; simp [hc, bumpBy_le])
theorem countMalformedOp_ok (h : Ok L x s) : Ok L x s.countMalformedOp := counting_ok h _ (fun c hc => by
  rw [Counters.bounded_iff] at hc ⊢; simp [hc, bumpBy_le])
theorem countRedundant_ok (h : Ok L x s) : Ok L x s.countRedundant := counting_ok h _ (fun c hc => by
  rw [Counters.bounded_iff] at hc ⊢; simp [hc, bumpBy_le])
theorem countRepair_ok (h : Ok L x s) : Ok L x s.countRepair := counting_ok h _ (fun c hc => by
  rw [Counters.bounded_iff] at hc ⊢; simp [hc, bumpBy_le])
theorem countOverrun_ok (h : Ok L x s) : Ok L x s.countOverrun := counting_ok h _ (fun c hc => by
  rw [Counters.bounded_iff] at hc ⊢; simp [hc, bumpBy_le])

end Sys2Proof.Machine
end

