-- ==== Sys2Proof/Laws/KeepsPool.lean ====
section
/-! SUPPORT. What the operations of the segment pool and of the fleet link controller keep. -/

namespace Sys2Proof.Machine

variable {L : Bool} {x s : State}

/-! ## The pool -/

theorem writeIndex_ok (h : Ok L x s) (hL : L = false) (ix : PoolIndex) : Ok L x (s.writeIndex ix) :=
  h.mk' hL rfl rfl (fun i => { i with })

theorem removeEntry_ok (h : Ok L x s) (hL : L = false) (e : ManifestEntry) : Ok L x (s.removeEntry e) :=
  (writeIndex_ok h hL _).seen rfl

theorem emptyEntry_ok (h : Ok L x s) (hL : L = false) (e : ManifestEntry) : Ok L x (s.emptyEntry e) := writeIndex_ok h hL _

theorem makeRoom_ok (hL : L = false) : ∀ (n : Nat) (s t : State), Ok L x s → s.makeRoom n = some t → Ok L x t
  | 0, _, _, _, e => by simp [State.makeRoom] at e
  | n + 1, s, t, h, e => by
    unfold State.makeRoom at e
    split at e
    · cases e; exact h
    · split at e
      · exact makeRoom_ok hL n _ t (removeEntry_ok h hL _) e
      · split at e
        · exact makeRoom_ok hL n _ t (post_ok (emptyEntry_ok h hL _) _) e
        · cases e

theorem pin_ok (h : Ok L x s) (y : PinHolder) (d : Domain) (g : Gen) : Ok L x (s.pin y d g) := h.seen rfl
theorem pinReleased_ok (h : Ok L x s) : Ok L x s.pinReleased := h.seen rfl
theorem unpinSlot_ok (h : Ok L x s) (i : SlotId) (d : Domain) (g : Gen) : Ok L x (s.unpinSlot i d g) := h.seen rfl
theorem unpinSlots_ok (h : Ok L x s) (d : Domain) (g : Gen) : Ok L x (s.unpinSlots d g) := h.seen rfl

theorem queueIndex_ok (h : Ok L x s) (w : IndexWrite) : Ok L x (s.queueIndex w) := h.seen rfl

theorem dropUnpinned_ok (h : Ok L x s) (d : Domain) (g : Gen) : Ok L x (s.dropUnpinned d g) := by
  unfold State.dropUnpinned
  split
  · exact Ok.ite (queueIndex_ok h _) h
  · exact h

theorem unpinRepair_ok (h : Ok L x s) (b : BankId) : Ok L x (s.unpinRepair b) := by
  unfold State.unpinRepair
  extract_lets mine p s1 s2
  have h2 : Ok L x s2 := Ok.foldl (fun s p h => dropUnpinned_ok h _ _) mine s1 (h.seen rfl)
  exact Ok.ite h2 (pinReleased_ok h2)

theorem enterManifest_ok (h : Ok L x s) (hL : L = false) (i : SlotId) (m : Manifest) : Ok L x (s.enterManifest i m) := by
  unfold State.enterManifest
  extract_lets s1 ix stamp s2
  have h1 : Ok L x s1 := by
    refine Ok.ite h ?_
    split
    · exact removeEntry_ok h hL _
    · exact h
  exact pin_ok (writeIndex_ok h1 hL _) _ _ _

theorem markVerified_ok (h : Ok L x s) (hL : L = false) (d : Domain) (g : Gen) : Ok L x (s.markVerified d g) := by
  unfold State.markVerified
  split
  · exact Ok.ite (writeIndex_ok h hL _) h
  · exact h

theorem digestFailedWrite_ok (h : Ok L x s) (hL : L = false) (d : Domain) (g : Gen) : Ok L x (s.digestFailedWrite d g) := by
  unfold State.digestFailedWrite
  split
  · exact Ok.ite h (emptyEntry_ok h hL _)
  · exact h

theorem drainedWrite_ok (h : Ok L x s) (hL : L = false) (d : Domain) (g : Gen) : Ok L x (s.drainedWrite d g) := by
  unfold State.drainedWrite
  split
  · exact Ok.ite (unpinSlots_ok h _ _) (pinReleased_ok (removeEntry_ok h hL _))
  · exact h

theorem writeCell_ok (h : Ok L x s) (hL : L = false) (p : Nat) (c : PoolCell) :
    Ok L x { s with store := { s.store with cells := placeWrite Config.poolPlaces p c s.store.cells } } :=
  h.mk' hL rfl rfl (fun i => { i with cells := placeWrite_wf p c i.cells })

theorem writeSegment_ok (h : Ok L x s) (hL : L = false) (o : Offer) : Ok L x (s.writeSegment o).2 := by
  unfold State.writeSegment
  split
  · exact h
  · split
    · exact h
    · split
      · exact h
      · rename_i t ht
        have h1 := makeRoom_ok hL _ _ _ h ht
        split
        · exact h1
        · exact writeIndex_ok (writeCell_ok h1 hL _ _) hL _

/-- The write in progress keeps at most one place of the write queue. -/
theorem queuePlaces_le (w : PoolWrite) : w.queuePlaces ≤ 1 := by
  unfold PoolWrite.queuePlaces
  split <;> omega

/-- A change of the pool that puts nothing more into the write queue. -/
theorem pool_ok (h : Ok L x s) {p : Pool} (hp : p.queueLoad ≤ s.pool.queueLoad) : Ok L x { s with pool := p } :=
  h.trans ⟨rfl, rfl, fun i => { i with queue := Nat.le_trans hp i.queue }, fun _ => { s.still_refl with }⟩

/-- A write that begins, or ends, in place of the one in progress, and keeps no place in the queue. -/
theorem writing_ok (h : Ok L x s) {p : Pool} (hq : p.queue = s.pool.queue) (hw : p.writing.queuePlaces = 0) : Ok L x { s with pool := p } :=
  pool_ok h (by unfold Pool.queueLoad; rw [hq, hw]; omega)

/-- A write that is taken leaves the queue, or keeps its place in it; one that waits has not left it. -/
theorem takeWrite_ok (h : Ok L x s) {o : Offer} {rest : List Offer} (hq : s.pool.queue = o :: rest) : Ok L x (s.takeWrite o rest) := by
  unfold State.takeWrite
  split
  · exact h.seen rfl
  · refine pool_ok h ?_
    have := queuePlaces_le (.segment o (s.writeRoom o == .evicts))
    unfold Pool.queueLoad
    rw [hq, List.length_cons]
    dsimp only
    omega

/-- A segment write that waits has changed nothing. -/
theorem writeSegment_waits {o : Offer} (h : (s.writeSegment o).1 = .waits) : (s.writeSegment o).2 = s := by
  unfold State.writeSegment at h ⊢
  split
  · rfl
  · rename_i e he
    simp only [he] at h
    split
    · rfl
    · rename_i hc
      simp only [hc, if_false, Bool.false_eq_true] at h
      split
      · rfl
      · rename_i t ht
        simp only [ht] at h
        split at h <;> simp at h

theorem queueOffer_ok (h : Ok L x s) (o : Offer) (hq : s.queueHasPlace = true) : Ok L x (s.queueOffer o) :=
  h.trans ⟨rfl, rfl, fun i => { i with
    queue := by
      have hq : s.pool.queue.length + s.pool.writing.queuePlaces < Config.writeQueuePlaces := of_decide_eq_true hq
      show (s.pool.queue ++ [o]).length + s.pool.writing.queuePlaces ≤ _
      simp only [List.length_append, List.length_cons, List.length_nil]
      omega }, fun _ => { s.still_refl with }⟩

theorem tellLost_ok (h : Ok L x s) (d : Domain) (g : Gen) (k : Nat) : Ok L x (s.tellLost d g k) := Ok.ite (post_ok h _) h

theorem readFailure_ok (h : Ok L x s) (e : ManifestEntry) (k : Nat) : Ok L x (s.readFailure e k) :=
  tellLost_ok (queueIndex_ok h _) _ _ _

/-- All that a failing read does: its index write waits for the arbiter, and the GAU may be told. -/
theorem readFailure_eq (s : State) (e : ManifestEntry) (k : Nat) : s.readFailure e k = { s with
    pool := { s.pool with indexQueue := s.pool.indexQueue ++ [.lost e.manifest.domain e.manifest.gen e.stamp k] }
    todo := (s.readFailure e k).todo } := by
  unfold State.readFailure State.tellLost
  split <;> rfl

/-- All that the release of a pin does to the entry it leaves: an index write may wait for the arbiter. -/
theorem dropUnpinned_eq (s : State) (d : Domain) (g : Gen) : s.dropUnpinned d g = { s with
    pool := { s.pool with indexQueue := (s.dropUnpinned d g).pool.indexQueue } } := by
  unfold State.dropUnpinned
  split
  · split <;> rfl
  · rfl

theorem lostWrite_ok (h : Ok L x s) (hL : L = false) (d : Domain) (g : Gen) (n k : Nat) : Ok L x (s.lostWrite d g n k) := by
  unfold State.lostWrite
  split
  · exact h
  · exact Ok.ite h (Ok.ite (removeEntry_ok h hL _) (tellLost_ok (writeIndex_ok h hL _) _ _ _))

theorem unpinnedWrite_ok (h : Ok L x s) (hL : L = false) (d : Domain) (g : Gen) : Ok L x (s.unpinnedWrite d g) := by
  unfold State.unpinnedWrite
  split
  · exact Ok.ite (pinReleased_ok (removeEntry_ok h hL _)) h
  · exact h

theorem readCell_ok (h : Ok L x s) (e : ManifestEntry) (k : Nat) : Ok L x (s.readCell e k).2 := by
  unfold State.readCell
  split
  · split
    · exact h
    · exact readFailure_ok h _ _
  · exact readFailure_ok h _ _

theorem applyRead_ok (h : Ok L x s) (d : Domain) (g : Gen) (k : Nat) (b : Bool) : Ok L x (s.applyRead d g k b).2 := by
  unfold State.applyRead
  split
  · exact h
  · split
    · exact h
    · split
      · exact readCell_ok h _ _
      · exact h

theorem repairRead_ok (h : Ok L x s) (d : Domain) (g : Gen) (k : Nat) : Ok L x (s.repairRead d g k).2 := by
  unfold State.repairRead
  split
  · exact h
  · split
    · exact readCell_ok h _ _
    · exact h

theorem serveRead_ok (h : Ok L x s) (d : Domain) (g : Gen) (k : Nat) (r : ServeRead) :
    Ok L x (s.serveRead d g k r).2 := by
  unfold State.serveRead
  split
  · exact h
  · split
    · exact h
    · split
      · split
        · exact readFailure_ok h _ _
        · exact h
      · exact h

theorem requestAdmission_ok (h : Ok L x s) (i : SlotId) : Ok L x (s.requestAdmission i).2 := by
  unfold State.requestAdmission
  extract_lets n s1
  split
  · exact h.seen rfl
  · exact h.seen rfl

theorem walkWaitList_ok : ∀ (l : List SlotId) (s : State), Ok L x s → Ok L x (s.walkWaitList l)
  | [], _, h => h
  | i :: l, s, h => by
    unfold State.walkWaitList
    extract_lets n s1
    refine Ok.ite (walkWaitList_ok l _ (setSlot_ok ?_ _ _)) (walkWaitList_ok l s h)
    exact h.seen rfl

theorem releaseReservation_ok (h : Ok L x s) (n : Nat) : Ok L x (s.releaseReservation n) := by
  unfold State.releaseReservation
  exact walkWaitList_ok _ _ (h.seen rfl)

theorem withdrawAdmission_ok (h : Ok L x s) (i : SlotId) : Ok L x (s.withdrawAdmission i) := h.seen rfl

theorem holdPool_ok (h : Ok L x s) : Ok L x s.holdPool :=
  pool_ok h (by unfold Pool.queueLoad; simp only [List.length_nil]; omega)

theorem resumePool_ok (h : Ok L x s) : Ok L x s.resumePool := h.seen rfl
theorem restoreIndex_ok (h : Ok L x s) (hL : L = false) : Ok L x s.restoreIndex := writeIndex_ok h hL _

/-! ## The fleet link controller -/

/-- A change of the LNK's state that leaves the fields read. -/
theorem linked_ok (h : Ok L x s) (hL : L = false) (f : Link → Link)
    (hf : s.link.control.length ≤ Config.controlPlaces → (f s.link).control.length ≤ Config.controlPlaces)
    (hc : s.link.credit ≤ 4 → (f s.link).credit ≤ 4) (hd : s.link.dataWait ≤ 3 → (f s.link).dataWait ≤ 3) :
    Ok L x (s.linked f) :=
  h.mk' hL rfl rfl (fun i => { i with control := hf i.control, credit := hc i.credit, dataWait := hd i.dataWait })

theorem followChannel_ok (h : Ok L x s) : Ok L x s.followChannel := by
  unfold State.followChannel
  split
  · exact h
  · split
    · exact h.seen rfl
    · exact h.seen rfl
    · exact h

theorem lowRateTest_ok (h : Ok L x s) (hL : L = false) : Ok L x s.lowRateTest := by
  unfold State.lowRateTest
  extract_lets low
  split
  · exact Ok.ite (raise_ok (linked_ok h hL _ id id id) _) h
  · exact Ok.ite (raise_ok (linked_ok h hL _ id id id) _) h

theorem changeAsr_ok (h : Ok L x s) (hL : L = false) (v : Nat) : Ok L x (s.changeAsr v) := by
  unfold State.changeAsr
  extract_lets v s1
  exact Ok.ite h (lowRateTest_ok (linked_ok h hL _ id id id) hL)

theorem pacedEnd_ok (h : Ok L x s) (hL : L = false) : Ok L x s.pacedEnd := by
  unfold State.pacedEnd
  exact Ok.ite (changeAsr_ok (linked_ok h hL _ id id id) hL _) (linked_ok h hL _ id id id)

theorem markHeard_ok (h : Ok L x s) (hL : L = false) : Ok L x s.markHeard := by
  unfold State.markHeard
  extract_lets s1 s2
  have h1 : Ok L x s1 := linked_ok h hL _ id id id
  exact Ok.ite h1 (linked_ok (changeAsr_ok h1 hL _) hL _ id id id)

theorem startDecay_ok (h : Ok L x s) (hL : L = false) : Ok L x s.startDecay := linked_ok h hL _ id id id

theorem offerControl_ok (h : Ok L x s) (f : OutFrame) : Ok L x (s.offerControl f).2 := by
  unfold State.offerControl
  split
  · rename_i hc
    exact h.trans ⟨rfl, rfl, fun i => { i with
      control := by
        simp only [State.linked, List.length_append, List.length_cons, List.length_nil]
        omega }, fun _ => { s.still_refl with }⟩
  · exact countControlDrop_ok h

theorem offerAsk_ok (h : Ok L x s) (f : OutFrame) : Ok L x (s.offerAsk f) := h.seen rfl

/-- A change of the credit and the DATA wait count within their bounds. -/
theorem credit_ok (h : Ok L x s) (f : Link → Link)
    (hs : ({ s with link := { f s.link with credit := s.link.credit, dataWait := s.link.dataWait, control := s.link.control } } :
      State).seen = s.seen)
    (hf : s.link.control.length ≤ Config.controlPlaces → (f s.link).control.length ≤ Config.controlPlaces)
    (hc : s.link.credit ≤ 4 → (f s.link).credit ≤ 4) (hd : s.link.dataWait ≤ 3 → (f s.link).dataWait ≤ 3) :
    Ok L x (s.linked f) := by
  have k : Ok L s _ := Ok.of_seen hs
  refine h.trans ⟨rfl, rfl, fun i => { i with control := hf i.control, credit := hc i.credit, dataWait := hd i.dataWait },
    fun e => ?_⟩
  have r := k.still e
  exact { s.still_refl with
    asr := r.asr, increase := r.increase, lowRate := r.lowRate, decreaseHold := r.decreaseHold, decay := r.decay
    announceAt := r.announceAt }

theorem startTransmission_ok (h : Ok L x s) : Ok L x s.startTransmission := by
  unfold State.startTransmission
  split
  · exact h
  · extract_lets line s1
    refine followChannel_ok (credit_ok h _ rfl id ?_ ?_)
    · intro hc; dsimp only; split <;> omega
    · intro hd; dsimp only; split
      · omega
      · split <;> omega

theorem beginAccess_ok (h : Ok L x s) (cls : TxClass) (f : OutFrame) : Ok L x (s.beginAccess cls f) := by
  unfold State.beginAccess
  extract_lets c
  refine Ok.ite (startTransmission_ok (h.seen rfl)) ?_
  exact h.seen rfl

theorem arbiter_ok (h : Ok L x s) : Ok L x s.arbiter := by
  unfold State.arbiter
  split
  · exact h
  · extract_lets paced
    split
    · refine beginAccess_ok ?_ _ _; exact h.seen rfl
    · split
      · refine beginAccess_ok ?_ _ _; exact h.seen rfl
      · split
        · exact h
        · split
          · rename_i f rest he
            exact beginAccess_ok (credit_ok h _ rfl (fun hc => by
              rw [he] at hc; exact Nat.le_of_succ_le hc) id id) _ _
          · split
            · refine beginAccess_ok ?_ _ _; exact h.seen rfl
            · split
              · refine beginAccess_ok ?_ _ _; exact h.seen rfl
              · exact h

theorem withdrawFrame_ok (h : Ok L x s) (id_ : Nat) : Ok L x (s.withdrawFrame id_) :=
  credit_ok h _ rfl (fun hc => Nat.le_trans (List.length_filter_le _ _) hc) id id

theorem placeAnnounce_same (l : Link) (f : OutFrame) : (l.placeAnnounce f).control = l.control ∧
    (l.placeAnnounce f).credit = l.credit ∧ (l.placeAnnounce f).dataWait = l.dataWait := by
  unfold Link.placeAnnounce
  split
  · split <;> exact ⟨rfl, rfl, rfl⟩
  · exact ⟨rfl, rfl, rfl⟩

theorem formAnnounce_ok (h : Ok L x s) (hL : L = false) : Ok L x s.formAnnounce := by
  unfold State.formAnnounce
  extract_lets f
  refine linked_ok (draw_ok h) hL _ ?_ ?_ ?_
  · intro hc; dsimp only; rw [(placeAnnounce_same _ f).1]; exact hc
  · intro hc; dsimp only; rw [(placeAnnounce_same _ f).2.1]; exact hc
  · intro hc; dsimp only; rw [(placeAnnounce_same _ f).2.2]; exact hc

theorem silenceLink_ok (h : Ok L x s) (hL : L = false) : Ok L x s.silenceLink :=
  followChannel_ok (linked_ok h hL _ (fun _ => Nat.zero_le _) id id)

theorem resumeLink_ok (h : Ok L x s) (hL : L = false) : Ok L x s.resumeLink := formAnnounce_ok (startDecay_ok h hL) hL

theorem startLink_ok (h : Ok L x s) (hL : L = false) : Ok L x s.startLink := by
  unfold State.startLink
  refine followChannel_ok (startDecay_ok ?_ hL)
  exact (draw_ok h).mk' hL rfl rfl (fun i => { i with
    control := Nat.zero_le _, credit := Nat.le_refl _, dataWait := Nat.zero_le _ })

end Sys2Proof.Machine
end

