-- ==== Sys2Proof/Laws/KeepsPeer.lean ====
section
/-! SUPPORT. What the operations of visibility, the peer table and the fetch and serve engine keep. -/

namespace Sys2Proof.Machine

variable {L : Bool} {x s : State}

/-! ## Visibility -/

theorem requestCompaction_ok (h : Ok L x s) (d : Domain) : Ok L x (s.requestCompaction d) :=
  Ok.foldl (fun _ _ h => post_ok h _) _ _ h

theorem advanceVisible_ok (h : Ok L x s) (d : Domain) (p r : List Gen) : Ok L x (s.advanceVisible d p r) := by
  unfold State.advanceVisible
  split
  · exact h
  · exact wantOpeningOf_ok (requestCompaction_ok (raise_ok (writeDomainHeader_ok (setDomain_ok h _ _) _) _) _) _

theorem advanceTest_ok (h : Ok L x s) (d : Domain) : Ok L x (s.advanceTest d) := advanceVisible_ok h _ _ _
theorem advanceTests_ok (h : Ok L x s) : Ok L x s.advanceTests := advanceTest_ok (advanceTest_ok h _) _

/-- A new lag list within its bound. -/
theorem lag_ok (h : Ok L x s) (hL : L = false) (l : List LagEntry)
    (hl : s.lag.length ≤ Config.lagEntries → l.length ≤ Config.lagEntries) : Ok L x { s with lag := l } :=
  h.mk' hL rfl rfl (fun i => { i with lag := hl i.lag })

theorem lagEnter_length (l : List LagEntry) (e : LagEntry) (h : l.length ≤ Config.lagEntries) :
    (lagEnter l e).length ≤ Config.lagEntries := by
  have hc : Config.lagEntries = 14 := rfl
  unfold lagEnter
  split
  · simpa using h
  · split
    · rename_i hl; simp only [List.length_append, List.length_cons, List.length_nil]; omega
    · simp only [List.length_append, List.length_cons, List.length_nil, List.length_drop]; omega

theorem lagEnters_length {α : Type} (f : α → LagEntry) : ∀ (m : List α) (l : List LagEntry), l.length ≤ Config.lagEntries →
    (m.foldl (fun l p => lagEnter l (f p)) l).length ≤ Config.lagEntries
  | [], _, h => h
  | p :: m, l, h => lagEnters_length f m _ (lagEnter_length l (f p) h)

theorem cohortExpired_ok (h : Ok L x s) (hL : L = false) (d : Domain) : Ok L x (s.cohortExpired d) := by
  unfold State.cohortExpired
  split
  · exact h
  · extract_lets lagging s1 s2
    have h1 : Ok L x s1 := lag_ok h hL _ (lagEnters_length _ _ _)
    exact advanceVisible_ok (Ok.ite h1 (raise_ok h1 _)) _ _ _

theorem appendApplied_ok (h : Ok L x s) (d : Domain) (g : Gen) : Ok L x (s.appendApplied d g) := setDomain_ok h _ _

theorem memberLeft_ok (h : Ok L x s) (hL : L = false) (n : Station) : Ok L x (s.memberLeft n) :=
  changeView_ok (lag_ok h hL _ (fun k => Nat.le_trans (List.length_filter_le _ _) k))

theorem memberValues_ok (h : Ok L x s) (hL : L = false) (n : Station) (v : PerDomain Announced) :
    Ok L x (s.memberValues n v) :=
  changeView_ok (lag_ok h hL _ (fun k => Nat.le_trans (List.length_filter_le _ _) k))

theorem takeDomainHeader_ok (h : Ok L x s) (d : Domain) (l : List BankId) : Ok L x (s.takeDomainHeader d l) := by
  unfold State.takeDomainHeader
  extract_lets hd applied v
  exact Ok.ite (setDomain_ok h _ _) (writeDomainHeader_ok (setDomain_ok h _ _) _)

theorem startVisibility_ok (h : Ok L x s) : Ok L x s.startVisibility := by
  refine advanceTests_ok ?_
  exact h.seen rfl

/-! ## The peer table -/

theorem requestCompaction_peers (d : Domain) : ∀ (l : List BankId) (s : State),
    (l.foldl (fun s b => s.post (.bankRequest b .compact)) s).peers = s.peers
  | [], _ => rfl
  | _ :: l, s => requestCompaction_peers d l _

theorem advanceVisible_peers (s : State) (d : Domain) (p r : List Gen) : (s.advanceVisible d p r).peers = s.peers := by
  unfold State.advanceVisible
  split
  · rfl
  · rw [State.wantOpeningOf_peers]; unfold State.requestCompaction; rw [requestCompaction_peers d]
    rw [State.raise_peers, State.writeDomainHeader_peers, State.setDomain_peers]

theorem advanceTests_peers (s : State) : s.advanceTests.peers = s.peers := by
  unfold State.advanceTests State.advanceTest
  rw [advanceVisible_peers, advanceVisible_peers]

/-- The stations of the table stay as they are when a record is replaced. -/
theorem setPeer_stations (s : State) (p : Peer) : (s.setPeer p).peers.map Peer.station = s.peers.map Peer.station := by
  unfold State.setPeer
  simp only [List.map_map]
  refine List.map_congr_left (fun q _ => ?_)
  simp only [Function.comp]
  split
  · rename_i e; exact (beq_iff_eq.mp e).symm
  · rfl

theorem setPeer_ok (h : Ok L x s) (hL : L = false) (p : Peer) : Ok L x (s.setPeer p) :=
  h.mk' hL rfl rfl (fun i => { i with
    peers := by simpa [State.setPeer] using i.peers
    stations := by rw [setPeer_stations]; exact i.stations })

theorem removePeer_ok (h : Ok L x s) (hL : L = false) (p : Peer) : Ok L x (s.removePeer p) := by
  unfold State.removePeer
  extract_lets s1
  have h1 : Ok L x s1 := peerReport_ok (h.mk' hL rfl rfl (fun i => { i with
    peers := Nat.le_trans (List.length_filter_le _ _) i.peers
    stations := i.stations.sublist (List.Sublist.map _ List.filter_sublist) }))
  exact Ok.ite (memberLeft_ok h1 hL _) h1

theorem removePeer_peers (s : State) (p : Peer) : (s.removePeer p).peers = s.peers.filter (fun q => q.station != p.station) := by
  unfold State.removePeer
  extract_lets s1
  split
  · rfl
  · rfl

theorem addPeer_ok (h : Ok L x s) (hL : L = false) (hd : LinkHeader)
    (hn : x.Inv → s.peers.length < Config.peerRecords) (hp : ∀ q ∈ s.peers, q.station ≠ hd.sender.toNat) :
    Ok L x (s.addPeer hd) := by
  unfold State.addPeer
  extract_lets p s1
  have h1 : Ok L x s1 := peerReport_ok ⟨h.pending, h.clock, fun i => { h.inv i with
    peers := by
      have := hn i
      simp only [List.length_append, List.length_cons, List.length_nil]; omega
    stations := by
      rw [List.map_append, List.nodup_append]
      refine ⟨(h.inv i).stations, by simp, ?_⟩
      intro a ha b hb
      obtain ⟨q, hq, rfl⟩ := List.mem_map.mp ha
      simp only [List.map_cons, List.map_nil, List.mem_singleton] at hb
      subst hb
      exact hp q hq },
    fun e => absurd (hL.symm.trans e) (by decide)⟩
  exact Ok.ite (changeView_ok h1) h1

theorem firstBy_mem {α : Type} (before : α → α → Bool) : ∀ (l : List α) (a : α), firstBy before l = some a → a ∈ l
  | [], _, e => by simp [firstBy] at e
  | b :: l, a, e => by
    unfold firstBy at e
    split at e
    · cases e; exact List.mem_cons_self
    · rename_i c hc
      split at e
      · cases e; exact List.mem_cons_of_mem _ (firstBy_mem before l _ hc)
      · cases e; exact List.mem_cons_self

theorem displaceable_mem (s : State) (p : Peer) (e : s.displaceable = some p) : p ∈ s.peers := by
  unfold State.displaceable at e
  rw [Option.or_eq_some_iff] at e
  rcases e with e | e
  · exact (List.mem_filter.mp (firstBy_mem _ _ _ e)).1
  · exact (List.mem_filter.mp (firstBy_mem _ _ _ e.2)).1

theorem filter_length_lt {α : Type} (f : α → Bool) (a : α) (l : List α) (ha : a ∈ l) (hf : f a = false) :
    (l.filter f).length < l.length := by
  have h1 : (l.filter f).length ≠ l.length := by
    intro e
    rw [List.length_filter_eq_length_iff] at e
    exact absurd (e a ha) (by simp [hf])
  have h2 := List.length_filter_le f l
  omega

theorem enterPeer_ok (h : Ok L x s) (hL : L = false) (hd : LinkHeader)
    (hp : ∀ q ∈ s.peers, q.station ≠ hd.sender.toNat) : Ok L x (s.enterPeer hd) := by
  unfold State.enterPeer
  split
  · rename_i hn
    exact addPeer_ok h hL hd (fun _ => hn) hp
  · split
    · rename_i p hm
      refine addPeer_ok (removePeer_ok h hL p) hL hd (fun i => ?_) (fun q hq => ?_)
      · have h1 := filter_length_lt (fun q : Peer => q.station != p.station) p s.peers (displaceable_mem s p hm) (by simp)
        have h2 := (h.inv i).peers
        rw [removePeer_peers]
        omega
      · rw [removePeer_peers] at hq
        exact hp q (List.mem_filter.mp hq).1
    · exact countPeerRefusal_ok h

theorem cohortHeader_ok (h : Ok L x s) (hL : L = false) (p q : Peer) : Ok L x (s.cohortHeader p q) := by
  unfold State.cohortHeader
  exact Ok.ite (memberLeft_ok h hL _) (Ok.ite (changeView_ok h) h)

theorem refreshPeer_ok (h : Ok L x s) (hL : L = false) (p : Peer) (hd : LinkHeader) : Ok L x (s.refreshPeer p hd) := by
  unfold State.refreshPeer
  extract_lets q s1 s2
  have h1 : Ok L x s1 := setPeer_ok h hL _
  exact cohortHeader_ok (Ok.ite (peerReport_ok h1) h1) hL _ _

theorem takeHeader_ok (h : Ok L x s) (hL : L = false) (hd : LinkHeader) : Ok L x (s.takeHeader hd) := by
  unfold State.takeHeader
  split
  · exact refreshPeer_ok h hL _ _
  · rename_i hn
    refine enterPeer_ok h hL _ (fun q hq e => ?_)
    unfold State.peer at hn
    exact absurd (List.find?_eq_none.mp hn q hq) (by simpa using e)

theorem takeAnnounce_ok (h : Ok L x s) (hL : L = false) (n : Station) (pk : Bool) (v : PerDomain Announced) :
    Ok L x (s.takeAnnounce n pk v) := by
  unfold State.takeAnnounce
  split
  · exact h
  · rename_i p _
    extract_lets s1
    have h1 : Ok L x s1 := peerReport_ok (setPeer_ok h hL _)
    exact Ok.ite (memberValues_ok h1 hL _ _) h1

/-- The record found is one of the table's, of that station. -/
theorem peer_found {n : Station} {p : Peer} (h : s.peer n = some p) : p ∈ s.peers ∧ p.station = n :=
  ⟨List.mem_of_find?_eq_some h, by simpa using List.find?_some h⟩

/-- A record replaced by one of its own station is found in its place, and no other one changes. -/
theorem setPeer_peer (s : State) (p q : Peer) (hp : s.peer p.station = some q) (n : Station) :
    (s.setPeer p).peer n = if n = p.station then some p else s.peer n := by
  unfold State.peer State.setPeer at *
  simp only [List.find?_map]
  split
  · rename_i e
    subst e
    have e : ((fun x : Peer => x.station == p.station) ∘ fun x => if (x.station == p.station) = true then p else x) =
        fun x : Peer => x.station == p.station := by
      funext y
      simp only [Function.comp]
      split
      · rename_i h; rw [h]; simp
      · rfl
    rw [e, hp]
    have h1 : q.station = p.station := by simpa using List.find?_some hp
    simp [h1]
  · rename_i e
    have e2 : ((fun x : Peer => x.station == n) ∘ fun x => if (x.station == p.station) = true then p else x) =
        fun x : Peer => x.station == n := by
      funext y
      simp only [Function.comp]
      split
      · rename_i h
        have h' : y.station = p.station := beq_iff_eq.mp h
        simp [h', Ne.symm e]
      · rfl
    rw [e2]
    cases hf : s.peers.find? (fun x => x.station == n) with
    | none => rfl
    | some y =>
      have h1 : y.station = n := by simpa using List.find?_some hf
      simp [h1, e]

theorem peerAsked_ok (h : Ok L x s) (n : Station) : Ok L x (s.peerAsked n) := by
  unfold State.peerAsked
  split
  · exact h
  · rename_i p hp
    refine peerReport_ok (h.trans ⟨rfl, rfl, fun i => (setPeer_ok (L := false) (Ok.refl _ s) rfl _).inv i, fun _ => { s.still_refl with
      peers := fun m => ?_ }⟩)
    have hn : p.station = n := (peer_found hp).2
    rw [setPeer_peer s { p with asks := p.asks + 1, asked := some s.clock } p (by rw [← hn] at hp; exact hp)]
    split
    · rename_i e
      have e' : m = n := e.trans hn
      rw [e', hp]; rfl
    · rfl

theorem peerAskEnded_ok (h : Ok L x s) (hL : L = false) (n : Station) (e : AskEnd) : Ok L x (s.peerAskEnded n e) := by
  unfold State.peerAskEnded
  split
  · exact h
  · extract_lets q s1
    have h1 : Ok L x s1 := peerReport_ok (setPeer_ok h hL _)
    exact Ok.ite (removePeer_ok h1 hL _) h1

theorem peerSegmentFailure_ok (h : Ok L x s) (hL : L = false) (n : Station) : Ok L x (s.peerSegmentFailure n) := by
  unfold State.peerSegmentFailure
  split
  · exact h
  · extract_lets q s1
    have h1 : Ok L x s1 := setPeer_ok h hL _
    exact Ok.ite (peerReport_ok h1) h1

/-! ## The fetch and serve engine -/

/-- A change of the FSE's state within its bounds. -/
theorem fetching_ok (h : Ok L x s) (hL : L = false) (f : Fetch → Fetch)
    (ha : s.Inv → (f s.fetch).asks.length ≤ Config.askEntries) (hs : s.Inv → (f s.fetch).serve.length ≤ Config.serveEntries) :
    Ok L x (s.fetching f) :=
  h.mk' hL rfl rfl (fun i => { i with asks := ha i, serve := hs i })

theorem vacate_ok (h : Ok L x s) (i : SlotId) : Ok L x (s.vacate i) := wantOpening_ok (setSlot_ok h _ _)

theorem manifestAskEnded_ok (h : Ok L x s) (i : SlotId) : Ok L x (s.manifestAskEnded i) := by
  unfold State.manifestAskEnded
  exact Ok.ite (vacate_ok h _) h

theorem endAsk_ok (h : Ok L x s) (hL : L = false) (a : Ask) (e : AskEnd) : Ok L x (s.endAsk a e) := by
  unfold State.endAsk
  extract_lets s1 s2 s3 s4
  have h1 : Ok L x s1 := fetching_ok h hL _ (fun i => Nat.le_trans (List.length_filter_le _ _) i.asks) (fun i => i.serve)
  have h3 : Ok L x s3 := peerAskEnded_ok (withdrawFrame_ok h1 _) hL _ _
  exact wantAsking_ok (Ok.ite (manifestAskEnded_ok h3 _) h3)

theorem indexArrived_ok (h : Ok L x s) (hL : L = false) (d : Domain) (g : Gen) (k : Nat) : Ok L x (s.indexArrived d g k) := by
  unfold State.indexArrived
  extract_lets mine done s1
  have h1 : Ok L x s1 := fetching_ok h hL _ (fun i => by simpa using i.asks) (fun i => i.serve)
  exact Ok.foldl (fun s a h => endAsk_ok h hL _ _) done s1 h1

theorem manifestAnswered_ok (h : Ok L x s) (hL : L = false) (n : Station) (d : Domain) (g : Gen) :
    Ok L x (s.manifestAnswered n d g) := by
  unfold State.manifestAnswered
  split
  · exact endAsk_ok h hL _ _
  · exact h

theorem takeDecline_ok (h : Ok L x s) (hL : L = false) (n : Station) (b : DeclineBody) : Ok L x (s.takeDecline n b) := by
  unfold State.takeDecline
  extract_lets s1
  have h1 : Ok L x s1 := countDecline_ok h
  split
  · exact endAsk_ok h1 hL _ _
  · exact h1

theorem askSent_ok (h : Ok L x s) (k : Nat) : Ok L x (s.askSent k) :=
  h.seen (by simp only [State.seen, State.askSent, State.fetching, List.length_map]; rfl)

theorem enterAsk_ok (h : Ok L x s) (a : Ask) (hn : s.fetch.asks.length < Config.askEntries) : Ok L x (s.enterAsk a) := by
  unfold State.enterAsk
  extract_lets s1
  have h1 : Ok L x s1 := h.trans ⟨rfl, rfl, fun i => { i with
    asks := by simp only [s1, State.fetching, List.length_append, List.length_cons, List.length_nil]; omega },
    fun _ => { s.still_refl with }⟩
  exact peerAsked_ok h1 _

theorem offerControl_fetch (s : State) (f : OutFrame) : (s.offerControl f).2.fetch = s.fetch := by
  unfold State.offerControl
  split <;> rfl

theorem formManifestAsk_ok (h : Ok L x s) (n : Servable) (hn : s.fetch.asks.length < Config.askEntries) :
    Ok L x (s.formManifestAsk n).2 := by
  unfold State.formManifestAsk
  extract_lets y a
  have h1 := offerControl_ok h { kind := .manifestAsk, addressee := n.peer.station, body := genPrefix y.domain y.gen, ask := some a.id }
  have h2 := offerControl_fetch s { kind := .manifestAsk, addressee := n.peer.station, body := genPrefix y.domain y.gen, ask := some a.id }
  generalize s.offerControl { kind := .manifestAsk, addressee := n.peer.station, body := genPrefix y.domain y.gen, ask := some a.id } = r
    at h1 h2
  obtain ⟨c, t⟩ := r
  cases c
  · exact h1
  · refine enterAsk_ok (setSlot_ok h1 _ _) _ ?_
    simp only [State.setSlot_fetch] at h2 ⊢
    rw [h2]; exact hn

theorem formSegmentAsk_ok (h : Ok L x s) (n : Servable) (k c : Nat) (hn : s.fetch.asks.length < Config.askEntries) :
    Ok L x (s.formSegmentAsk n k c) := enterAsk_ok (offerAsk_ok h _) _ hn

theorem askingPass_ok : ∀ (n : Nat) (s : State) (skip : List SlotId), Ok L x s → Ok L x (s.askingPass skip n)
  | 0, _, _, h => h
  | n + 1, s, skip, h => by
    unfold State.askingPass
    split
    · exact h
    · rename_i hn
      split
      · exact h
      · rename_i y _
        split
        · have h1 := formManifestAsk_ok h y (Nat.lt_of_not_le hn)
          generalize s.formManifestAsk y = r at h1
          obtain ⟨c, t⟩ := r
          cases c
          · exact askingPass_ok n _ _ h1
          · exact askingPass_ok n _ _ h1
        · exact askingPass_ok n _ _ (formSegmentAsk_ok h y _ _ (Nat.lt_of_not_le hn))
        · exact askingPass_ok n _ _ (formSegmentAsk_ok h y _ _ (Nat.lt_of_not_le hn))

theorem answerPeer_ok (h : Ok L x s) (k : FrameKind) (n : Station) (b : List Byte) : Ok L x (s.answerPeer k n b) :=
  offerControl_ok h _

theorem decline_ok (h : Ok L x s) (n : Station) (d : Domain) (g : Gen) (k : AskKind) (i : Nat) (r : DeclineReason) :
    Ok L x (s.decline n d g k i r) := offerControl_ok h _

theorem takeSegmentAsk_ok (h : Ok L x s) (hL : L = false) (n : Station) (d : Domain) (g : Gen) (k c : Nat) :
    Ok L x (s.takeSegmentAsk n d g k c) := by
  unfold State.takeSegmentAsk
  refine Ok.ite (countMalformed_ok h) (Ok.ite (decline_ok h _ _ _ _ _ _) ?_)
  extract_lets total
  refine Ok.ite (countMalformed_ok h) (Ok.ite h ?_)
  split
  · exact decline_ok h _ _ _ _ _ _
  · rename_i hn
    refine fetching_ok h hL _ (fun i => i.asks) (fun _ => ?_)
    simp only [List.length_append, List.length_cons, List.length_nil]; omega

theorem takeManifestAsk_ok (h : Ok L x s) (hL : L = false) (n : Station) (d : Domain) (g : Gen) :
    Ok L x (s.takeManifestAsk n d g) := by
  unfold State.takeManifestAsk
  exact Ok.ite (fetching_ok h hL _ (fun i => i.asks) (fun i => i.serve)) (decline_ok h _ _ _ _ _ _)

theorem beginServeRead_ok (h : Ok L x s) : Ok L x s.beginServeRead := by
  unfold State.beginServeRead
  split
  · exact h
  · exact Ok.ite (h.seen rfl) h

theorem serveTurn_length (e : ServeEntry) (rest : List ServeEntry) : (serveTurn e rest).length ≤ rest.length + 1 := by
  unfold serveTurn
  split
  · omega
  · simp

theorem serveReadDone_ok (h : Ok L x s) (hL : L = false) (v : ServeRead) : Ok L x (s.serveReadDone v) := by
  refine h.trans ?_
  have r : Ok L s s := Ok.refl L s
  unfold State.serveReadDone
  split
  · exact fetching_ok r hL _ (fun i => i.asks) (fun i => i.serve)
  · rename_i e rest he
    have h1 := serveRead_ok r e.domain e.gen e.next v
    generalize s.serveRead e.domain e.gen e.next v = q at h1
    obtain ⟨a, t⟩ := q
    have hl : s.Inv → rest.length + 1 ≤ Config.serveEntries := fun i => by have := i.serve; rw [he] at this; exact this
    have key (l : List ServeEntry) (hk : l.length ≤ rest.length + 1) :
        Ok L s (t.fetching (fun f => { f with reading := none, serve := l })) :=
      ⟨h1.pending, h1.clock, fun i => { h1.inv i with serve := Nat.le_trans hk (hl i) },
        fun e => absurd (hL.symm.trans e) (by decide)⟩
    cases a
    · refine Ok.seen (key _ (serveTurn_length _ _)) rfl
    · exact decline_ok (key _ (Nat.le_succ _)) _ _ _ _ _ _
    · exact decline_ok (key _ (Nat.le_succ _)) _ _ _ _ _ _

theorem manifestReadDone_ok (h : Ok L x s) (hL : L = false) : Ok L x s.manifestReadDone := by
  unfold State.manifestReadDone
  split
  · exact h
  · rename_i r rest _
    extract_lets s1
    have h1 : Ok L x s1 := fetching_ok h hL _ (fun i => i.asks) (fun i => i.serve)
    split
    · exact Ok.ite (answerPeer_ok h1 _ _ _) (decline_ok h1 _ _ _ _ _ _)
    · exact decline_ok h1 _ _ _ _ _ _

theorem vacateDrained_ok (h : Ok L x s) : Ok L x s.vacateDrained :=
  Ok.foldl (fun _ _ h => Ok.ite (vacate_ok h _) h) _ _ h

theorem holdFetch_ok (h : Ok L x s) (hL : L = false) : Ok L x s.holdFetch := by
  unfold State.holdFetch
  extract_lets s1 s2
  have h1 : Ok L x s1 := Ok.foldl (fun s a h => endAsk_ok h hL _ _) _ _ h
  have h2 : Ok L x s2 := by
    show Ok L x (match s1.fetch.reading, s1.fetch.serve with
      | some r, e :: _ => (s1.serveRead e.domain e.gen e.next r).2
      | _, _ => s1)
    split
    · exact serveRead_ok h1 _ _ _ _
    · exact h1
  exact vacateDrained_ok (fetching_ok h2 hL _ (fun i => i.asks) (fun _ => Nat.zero_le _))

end Sys2Proof.Machine
end

