-- ==== Sys2Proof/Laws/KeepsBank.lean ====
section
/-! SUPPORT. What the operations of the store banks keep. -/

namespace Sys2Proof.Machine

variable {L : Bool} {x s : State}

theorem freePlace_ok (h : Ok L x s) (hL : L = false) (b : BankId) (p : Nat) : Ok L x (s.freePlace b p) := by
  unfold State.freePlace
  exact writeHeader_ok (heading_ok (setPlaces_ok h hL b _ (fun i => placeFree_wf p (i.places b))) _ _) _

theorem writeRecord_ok (h : Ok L x s) (hL : L = false) (b : BankId) (p : Nat) (r : Record) : Ok L x (s.writeRecord b p r) :=
  setPlaces_ok h hL b _ (fun i => placeWrite_wf p _ (i.places b))

theorem markFailing_ok (h : Ok L x s) (b : BankId) (ps : List Nat) : Ok L x (s.markFailing b ps) := banking_ok h _ _

theorem goHeld_ok (h : Ok L x s) (b : BankId) (p : BankState) (w : BankWork) : Ok L x (s.goHeld b p w) :=
  writeScrubHeader_ok (banking_ok h _ _) _

theorem compactOn_ok (h : Ok L x s) (b : BankId) (c : CompactRun) (n : Nat) : Ok L x (s.compactOn b c n) := by
  unfold State.compactOn
  extract_lets rest keep s1
  have h1 : Ok L x s1 := markFailing_ok h _ _
  split
  · exact working_ok h1 _ _
  · exact Ok.ite (working_ok h1 _ _) (goHeld_ok h1 _ _ _)

theorem beginCompaction_ok (h : Ok L x s) (b : BankId) : Ok L x (s.beginCompaction b) :=
  compactOn_ok (banking_ok h _ _) _ _ _

theorem scrubOn_ok (h : Ok L x s) (b : BankId) (k n : Nat) : Ok L x (s.scrubOn b k n) := by
  unfold State.scrubOn
  split
  · exact working_ok (heading_ok h _ _) _ _
  · exact working_ok h _ _

theorem beginScrub_ok (h : Ok L x s) (b : BankId) : Ok L x (s.beginScrub b) := scrubOn_ok (banking_ok h _ _) _ _ _

theorem pauseScrub_ok (h : Ok L x s) (b : BankId) (k : Nat) : Ok L x (s.pauseScrub b k) :=
  goHeld_ok (Ok.ite h (heading_ok h _ _)) _ _ _

theorem scrubPast_ok (h : Ok L x s) (b : BankId) (p : Nat) : Ok L x (s.scrubPast b p) := by
  unfold State.scrubPast
  exact Ok.ite (pauseScrub_ok h _ _) (scrubOn_ok h _ _ _)

theorem eraseOn_ok (h : Ok L x s) (b : BankId) : Ok L x (s.eraseOn b) := by
  unfold State.eraseOn
  split <;> exact working_ok h _ _

theorem requestFaulted_ok (h : Ok L x s) (b : BankId) (r : ApplyRequest) : Ok L x (s.requestFaulted b r) :=
  Ok.ite (eraseOn_ok (banking_ok h _ _) _) (report_ok h _ _)

theorem beginRequest_ok (h : Ok L x s) (b : BankId) (r : ApplyRequest) : Ok L x (s.beginRequest b r) := by
  unfold State.beginRequest
  extract_lets s1 s2
  have h2 : Ok L x s2 := report_ok (banking_ok h _ _) _ _
  split
  · exact working_ok h2 _ _
  · exact working_ok (Ok.ite (writeHeader_ok (heading_ok h2 _ _) _) h2) _ _

theorem acknowledge_ok (h : Ok L x s) (b : BankId) : Ok L x (s.acknowledge b) := by
  unfold State.acknowledge
  split
  · exact report_ok (banking_ok h _ _) _ _
  · exact h

theorem afterApplies_ok (h : Ok L x s) (b : BankId) : Ok L x (s.afterApplies b) :=
  Ok.ite (beginCompaction_ok h _) (Ok.ite (beginScrub_ok h _) (banking_ok h _ _))

theorem nextWork_ok (h : Ok L x s) (b : BankId) : Ok L x (s.nextWork b) := by
  unfold State.nextWork
  refine Ok.ite (goHeld_ok h _ _ _) ?_
  extract_lets s1
  have h1 : Ok L x s1 := acknowledge_ok (banking_ok h _ _) _
  refine Ok.ite (beginScrub_ok h1 _) ?_
  split
  · exact afterApplies_ok h1 _
  · split
    · exact beginRequest_ok h1 _ _
    · exact afterApplies_ok (report_ok (banking_ok h1 _ _) _ _) _

theorem takeApply_ok (h : Ok L x s) (b : BankId) (r : ApplyRequest) : Ok L x (s.takeApply b r) := by
  unfold State.takeApply
  split
  · exact requestFaulted_ok h _ _
  · split
    · exact beginRequest_ok h _ _
    · exact report_ok h _ _
  · exact banking_ok h _ _

theorem takeQuiesce_ok (h : Ok L x s) (b : BankId) (g : Gen) : Ok L x (s.takeQuiesce b g) := by
  unfold State.takeQuiesce
  exact Ok.ite (acknowledge_ok (banking_ok h _ _) _) (banking_ok h _ _)

theorem takeCompact_ok (h : Ok L x s) (b : BankId) : Ok L x (s.takeCompact b) := by
  unfold State.takeCompact
  split
  · exact h
  · exact beginCompaction_ok h _
  · exact banking_ok h _ _

theorem takeRequest_ok (h : Ok L x s) (b : BankId) (r : BankRequest) : Ok L x (s.takeRequest b r) := by
  cases r
  · exact takeApply_ok h _ _
  · exact takeQuiesce_ok h _ _
  · exact takeCompact_ok h _

/-! ## Segment apply -/

theorem bankFull_ok (h : Ok L x s) (b : BankId) (r : ApplyRun) : Ok L x (s.bankFull b r) := by
  unfold State.bankFull
  extract_lets s1 s2
  have h2 : Ok L x s2 := banking_ok (report_ok h _ _) _ _
  exact Ok.ite (goHeld_ok h2 _ _ _) (beginCompaction_ok h2 _)

theorem segmentEnd_ok (h : Ok L x s) (b : BankId) (r : ApplyRequest) : Ok L x (s.segmentEnd b r) :=
  Ok.ite (working_ok h _ _) (nextWork_ok (report_ok h _ _) _)

theorem applyOn_ok (b : BankId) : ∀ (ops : List Op) (run : ApplyRun) (s : State), Ok L x s → Ok L x (s.applyOn b run ops)
  | [], _, _, h => segmentEnd_ok h _ _
  | op :: rest, run, s, h => by
    unfold State.applyOn
    extract_lets d skipped l current s1
    refine Ok.ite (applyOn_ok b rest _ _ (countMalformedOp_ok h)) (Ok.ite (applyOn_ok b rest _ _ (countMisplaced_ok h _)) ?_)
    have h1 : Ok L x s1 := markFailing_ok h _ _
    split
    · refine Ok.ite (bankFull_ok h1 _ _) ?_
      clear_value current
      split
      · exact working_ok h1 _ _
      · exact working_ok h1 _ _
    · exact working_ok h1 _ _
    · exact applyOn_ok b rest _ _ (countRedundant_ok h1)

theorem applyResume_ok (h : Ok L x s) (b : BankId) (r : ApplyRun) : Ok L x (s.applyResume b r) :=
  Ok.ite (working_ok h _ _) (applyOn_ok b _ _ _ h)

theorem applyStep_ok (h : Ok L x s) (b : BankId) (r : ApplyRun) : Ok L x (s.applyStep b r) :=
  Ok.ite (goHeld_ok h _ _ _) (applyResume_ok h _ _)

theorem applyEndWrite_ok (h : Ok L x s) (hL : L = false) (b : BankId) (r : ApplyRun) (p : Nat) :
    Ok L x (s.applyEndWrite b r p) := by
  unfold State.applyEndWrite
  split
  · exact writeRecord_ok h hL _ _ _
  · exact h

theorem applyEndCommit_ok (h : Ok L x s) (hL : L = false) (b : BankId) (r : ApplyRun) (p : Nat) :
    Ok L x (s.applyEndCommit b r p) := by
  unfold State.applyEndCommit
  extract_lets s1
  have h1 : Ok L x s1 := applyEndWrite_ok h hL _ _ _
  split <;> exact applyStep_ok h1 _ _

theorem applyAddWrite_ok (h : Ok L x s) (hL : L = false) (b : BankId) (r : ApplyRun) : Ok L x (s.applyAddWrite b r) := by
  unfold State.applyAddWrite
  split
  · exact h
  · split
    · exact h
    · exact writeHeader_ok (heading_ok (writeRecord_ok h hL _ _ _) _ _) _

theorem applyAddCommit_ok (h : Ok L x s) (hL : L = false) (b : BankId) (r : ApplyRun) : Ok L x (s.applyAddCommit b r) :=
  applyStep_ok (applyAddWrite_ok h hL _ _) _ _

theorem advanceWrite_ok (h : Ok L x s) (b : BankId) (r : ApplyRequest) : Ok L x (s.advanceWrite b r) :=
  writeHeader_ok (banking_ok h _ _) _

theorem advanceCommit_ok (h : Ok L x s) (b : BankId) (r : ApplyRequest) : Ok L x (s.advanceCommit b r) :=
  nextWork_ok (report_ok (advanceWrite_ok h _ _) _ _) _

theorem applyReadEnded_ok (h : Ok L x s) (b : BankId) (r : ApplyRequest) (f : Bool) : Ok L x (s.applyReadEnded b r f) := by
  unfold State.applyReadEnded
  extract_lets s1
  have h1 : Ok L x s1 := Ok.ite (banking_ok (report_ok h _ _) _ _) h
  exact Ok.ite (banking_ok h1 _ _) (nextWork_ok h1 _)

theorem applyReadDone_ok (h : Ok L x s) (b : BankId) (r : ApplyRequest) : Ok L x (s.applyReadDone b r) := by
  unfold State.applyReadDone
  have h1 := applyRead_ok h (s.bankDomain b) r.gen (r.segment.getD 0) r.drained
  generalize s.applyRead (s.bankDomain b) r.gen (r.segment.getD 0) r.drained = q at h1
  obtain ⟨a, t⟩ := q
  cases a
  · exact Ok.ite (working_ok h1 _ _) (applyResume_ok h1 _ _)
  · exact applyReadEnded_ok h1 _ _ _
  · exact applyReadEnded_ok h1 _ _ _

/-! ## FAULTED, recovery and repair -/

theorem enterFaulted_ok (h : Ok L x s) (b : BankId) : Ok L x (s.enterFaulted b) := by
  unfold State.enterFaulted
  extract_lets needed s1 old waiting s2 s3 s4 s5
  have h3 : Ok L x s3 := raise_ok (writeHeader_ok (banking_ok (unpinRepair_ok h _) _ _) _) _
  have h4 : Ok L x s4 := by
    show Ok L x (match waiting with
      | some r => s3.report b (.refused r.gen r.segment .fault)
      | none => s3)
    clear_value waiting
    split
    · exact report_ok h3 _ _
    · exact h3
  have h5 : Ok L x s5 := acknowledge_ok h4 _
  exact Ok.ite h5 (wantOpeningOf_ok h5 _)

theorem recoverOn_ok (f : State → BankId → Nat → State) (hf : ∀ s b p, Ok L x s → Ok L x (f s b p)) (h : Ok L x s)
    (b : BankId) (n : Nat) : Ok L x (State.recoverOn f s b n) := by
  unfold State.recoverOn
  extract_lets k rest keep s1
  have h1 : Ok L x s1 := markFailing_ok h _ _
  split
  · exact working_ok h1 _ _
  · exact Ok.ite (working_ok h1 _ _) (Ok.ite (hf _ _ _ h1) (working_ok h1 _ _))

theorem repairing_ok (h : Ok L x s) (b : BankId) (r : RepairRun) : Ok L x (s.repairing b r) := working_ok h _ _

theorem repairFound_ok (h : Ok L x s) (b : BankId) (r : RepairRun) (g : Option Gen) : Ok L x (s.repairFound b r g) := by
  unfold State.repairFound
  split <;> exact repairing_ok h _ _

theorem repairWalked_ok (h : Ok L x s) (b : BankId) (r : RepairRun) : Ok L x (s.repairWalked b r) := by
  unfold State.repairWalked
  split
  · exact repairFound_ok h _ _ _
  · extract_lets d s1
    have h1 : Ok L x s1 := pin_ok h _ _ _
    refine Ok.ite ?_ (enterFaulted_ok h _)
    split
    · exact repairFound_ok h1 _ _ _
    · exact repairing_ok h1 _ _

theorem repairWalk_ok (b : BankId) (r : RepairRun) : ∀ (n : Nat) (g : Gen) (s : State), Ok L x s →
    Ok L x (s.repairWalk b r n g)
  | 0, _, _, h => enterFaulted_ok h _
  | n + 1, g, s, h => by
    unfold State.repairWalk
    extract_lets d s1
    have h1 : Ok L x s1 := pin_ok h _ _ _
    refine Ok.ite (repairWalked_ok h _ _) (Ok.ite (repairFound_ok h _ _ _) (Ok.ite ?_ (enterFaulted_ok h _)))
    split
    · exact repairWalk_ok b r n _ _ h1
    · exact repairing_ok h1 _ _

theorem repairDecide_ok (h : Ok L x s) (b : BankId) (r : RepairRun) (ops : List Op) :
    Ok L x (s.repairDecide b r ops) := by
  unfold State.repairDecide
  refine Ok.ite (enterFaulted_ok h _) ?_
  split
  · exact repairing_ok h _ _
  · exact Ok.ite (repairing_ok h _ _) (repairWalk_ok _ _ _ _ _ h)

theorem beginRepair_ok (h : Ok L x s) (b : BankId) (p : Nat) (f : Bool) : Ok L x (s.beginRepair b p f) := by
  unfold State.beginRepair
  split
  · exact h
  · extract_lets d s1 run
    have h1 : Ok L x s1 := pin_ok h _ _ _
    refine Ok.ite (enterFaulted_ok h _) ?_
    split
    · exact repairDecide_ok h1 _ _ _
    · exact repairing_ok h1 _ _

theorem recoverFrom_ok (h : Ok L x s) (b : BankId) (n : Nat) : Ok L x (s.recoverFrom b n) :=
  recoverOn_ok _ (fun _ _ _ h => beginRepair_ok h _ _ _) h _ _

theorem repairReadDone_ok (h : Ok L x s) (b : BankId) (r : RepairRun) : Ok L x (s.repairReadDone b r) := by
  unfold State.repairReadDone
  extract_lets d nB
  split
  · rename_i i left ops _
    have h1 := repairRead_ok h d r.added i
    generalize s.repairRead d r.added i = q at h1
    obtain ⟨a, t⟩ := q
    cases a
    · cases left
      · exact repairDecide_ok h1 _ _ _
      · exact repairing_ok h1 _ _
    · exact enterFaulted_ok h1 _
    · exact enterFaulted_ok h1 _
  · rename_i g i left _
    have h1 := repairRead_ok h d g i
    generalize s.repairRead d g i = q at h1
    obtain ⟨a, t⟩ := q
    cases a
    · dsimp only
      split
      · exact repairFound_ok h1 _ _ _
      · exact repairWalk_ok _ _ _ _ _ h1
      · exact repairing_ok h1 _ _
    · exact enterFaulted_ok h1 _
    · exact enterFaulted_ok h1 _
  · rename_i g i left _
    have h1 := repairRead_ok h d g i
    generalize s.repairRead d g i = q at h1
    obtain ⟨a, t⟩ := q
    cases a
    · dsimp only
      split
      · exact enterFaulted_ok h1 _
      · exact repairFound_ok h1 _ _ _
      · exact repairing_ok h1 _ _
    · exact enterFaulted_ok h1 _
    · exact enterFaulted_ok h1 _
  · exact h

theorem pastRepair_ok (h : Ok L x s) (b : BankId) (r : RepairRun) : Ok L x (s.pastRepair b r) :=
  Ok.ite (Ok.ite (goHeld_ok h _ _ _) (recoverFrom_ok h _ _)) (scrubPast_ok h _ _)

theorem repairWrite_ok (h : Ok L x s) (hL : L = false) (b : BankId) (r : RepairRun) : Ok L x (s.repairWrite b r) := by
  unfold State.repairWrite
  split
  · exact writeRecord_ok h hL _ _ _
  · exact freePlace_ok h hL _ _
  · exact h

theorem repairDone_ok (h : Ok L x s) (hL : L = false) (b : BankId) (r : RepairRun) : Ok L x (s.repairDone b r) :=
  Ok.ite (pastRepair_ok (unpinRepair_ok (raise_ok (countRepair_ok (repairWrite_ok h hL _ _)) _) _) _ _) h

/-! ## Commits -/

theorem scrubChecked_ok (h : Ok L x s) (b : BankId) (p : Nat) : Ok L x (s.scrubChecked b p) := by
  unfold State.scrubChecked
  split
  · exact scrubPast_ok h _ _
  · exact Ok.ite (scrubPast_ok h _ _) (beginRepair_ok h _ _ _)

theorem scrubPassWrite_ok (h : Ok L x s) (b : BankId) (n : Nat) (r : Bool) : Ok L x (s.scrubPassWrite b n r) :=
  Ok.ite (writeScrubHeader_ok h _) (Ok.ite (writeScrubHeader_ok (banking_ok h _ _) _) (writeScrubHeader_ok (heading_ok h _ _) _))

theorem scrubPassEnd_ok (h : Ok L x s) (b : BankId) (n : Nat) (r : Bool) : Ok L x (s.scrubPassEnd b n r) := by
  unfold State.scrubPassEnd
  extract_lets s1
  have h1 : Ok L x s1 := scrubPassWrite_ok h _ _ _
  refine Ok.ite (Ok.ite (pauseScrub_ok h1 _ _) (scrubOn_ok h1 _ _ _)) (Ok.ite (nextWork_ok h1 _) ?_)
  exact Ok.ite (nextWork_ok h1 _) (Ok.ite (goHeld_ok h1 _ _ _) (scrubOn_ok h1 _ _ _))

theorem resumeScrub_ok (h : Ok L x s) (b : BankId) (k : Nat) : Ok L x (s.resumeScrub b k) := by
  unfold State.resumeScrub
  exact Ok.ite (Ok.ite (scrubOn_ok h _ _ _) (Ok.ite (nextWork_ok h _) (scrubOn_ok h _ _ _))) (scrubOn_ok h _ _ _)

theorem compactCommit_ok (h : Ok L x s) (hL : L = false) (b : BankId) (c : CompactRun) (p : Nat) :
    Ok L x (s.compactCommit b c p) := by
  unfold State.compactCommit
  extract_lets s1 c1
  have h1 : Ok L x s1 := freePlace_ok h hL _ _
  split
  · exact goHeld_ok h1 _ _ _
  · exact compactOn_ok h1 _ _ _
  · exact compactOn_ok h1 _ _ _

theorem compactEndWrite_ok (h : Ok L x s) (b : BankId) (c : CompactRun) : Ok L x (s.compactEndWrite b c) :=
  writeHeader_ok (heading_ok h _ _) _

theorem compactEnd_ok (h : Ok L x s) (b : BankId) (c : CompactRun) : Ok L x (s.compactEnd b c) :=
  nextWork_ok (report_ok (compactEndWrite_ok h _ _) _ _) _

theorem recoverPlace_ok (h : Ok L x s) (hL : L = false) (b : BankId) (p : Nat) : Ok L x (s.recoverPlace b p) := by
  unfold State.recoverPlace
  split
  · exact h
  · exact Ok.ite (freePlace_ok h hL _ _) (writeRecord_ok h hL _ _ _)

theorem recoverCommit_ok (h : Ok L x s) (hL : L = false) (b : BankId) (p : Nat) : Ok L x (s.recoverCommit b p) := by
  unfold State.recoverCommit
  extract_lets s1
  have h1 : Ok L x s1 := recoverPlace_ok h hL _ _
  exact Ok.ite (goHeld_ok h1 _ _ _) (recoverFrom_ok h1 _ _)

theorem recoverEndWrite_ok (h : Ok L x s) (b : BankId) : Ok L x (s.recoverEndWrite b) := by
  unfold State.recoverEndWrite
  extract_lets s1 used s2
  have h1 : Ok L x s1 := heading_ok h _ _
  exact Ok.ite (writeScrubHeader_ok (banking_ok h1 _ _) _) (writeHeader_ok h1 _)

theorem recoverEnd_ok (h : Ok L x s) (b : BankId) : Ok L x (s.recoverEnd b) := nextWork_ok (recoverEndWrite_ok h _) _

theorem eraseCommit_ok (h : Ok L x s) (hL : L = false) (b : BankId) (p : Nat) : Ok L x (s.eraseCommit b p) := by
  unfold State.eraseCommit
  extract_lets s1
  have h1 : Ok L x s1 := freePlace_ok h hL _ _
  exact Ok.ite (banking_ok h1 _ _) (eraseOn_ok h1 _)

theorem eraseEndWrite_ok (h : Ok L x s) (b : BankId) : Ok L x (s.eraseEndWrite b) := writeScrubHeader_ok (banking_ok h _ _) _

theorem eraseEnd_ok (h : Ok L x s) (b : BankId) : Ok L x (s.eraseEnd b) := by
  unfold State.eraseEnd
  extract_lets d s1 s2
  have h1 : Ok L x s1 := eraseEndWrite_ok h _
  exact nextWork_ok (Ok.ite h1 (wantOpeningOf_ok h1 _)) _

theorem headerCommit_ok (h : Ok L x s) (b : BankId) : Ok L x (s.headerCommit b) := by
  unfold State.headerCommit
  split
  · exact advanceCommit_ok h _ _
  · exact compactEnd_ok h _ _
  · exact scrubPassEnd_ok h _ _ _
  · exact recoverEnd_ok h _
  · exact eraseEnd_ok h _
  · exact h

theorem finishWrite_ok (h : Ok L x s) (hL : L = false) (b : BankId) : Ok L x (s.finishWrite b) := by
  unfold State.finishWrite
  split
  · exact applyEndWrite_ok h hL _ _ _
  · exact applyAddWrite_ok h hL _ _
  · exact advanceWrite_ok h _ _
  · exact freePlace_ok h hL _ _
  · exact compactEndWrite_ok h _ _
  · exact scrubPassWrite_ok h _ _ _
  · exact repairWrite_ok h hL _ _
  · exact recoverPlace_ok h hL _ _
  · exact recoverEndWrite_ok h _
  · exact freePlace_ok h hL _ _
  · exact eraseEndWrite_ok h _
  · exact h

/-! ## Holds, resumes, starts, lookups -/

theorem holdBank_ok (h : Ok L x s) (b : BankId) (p : HoldPending) : Ok L x (s.holdBank b p) := by
  unfold State.holdBank
  extract_lets k
  split
  · exact h
  · exact goHeld_ok h _ _ _
  · refine Ok.ite (banking_ok h _ _) ?_
    split
    · exact Ok.ite (goHeld_ok h _ _ _) (banking_ok h _ _)
    · exact goHeld_ok h _ _ _
    · exact h

theorem resumeBank_ok (h : Ok L x s) (b : BankId) : Ok L x (s.resumeBank b) := by
  unfold State.resumeBank
  extract_lets k
  split
  · exact h
  · extract_lets s1
    have h1 : Ok L x s1 := banking_ok h _ _
    split
    · exact applyResume_ok h1 _ _
    · exact compactOn_ok h1 _ _ _
    · exact resumeScrub_ok h1 _ _
    · exact recoverFrom_ok h1 _ _
    · exact h1
    · exact nextWork_ok h1 _
  · exact Ok.ite (eraseOn_ok (banking_ok h _ _) _) (banking_ok h _ _)

theorem faultUnreadable_ok (h : Ok L x s) (b : BankId) : Ok L x (s.faultUnreadable b) :=
  raise_ok (writeScrubHeader_ok (setBank_ok h _ _) _) _

theorem startBank_ok (h : Ok L x s) (b : BankId) : Ok L x (s.startBank b) := by
  unfold State.startBank
  extract_lets hd
  refine Ok.ite (faultUnreadable_ok h _) (Ok.ite (raise_ok (setBank_ok h _ _) _) ?_)
  split
  · exact recoverFrom_ok (setBank_ok h _ _) _ _
  · exact Ok.ite (recoverFrom_ok (setBank_ok h _ _) _ _) (nextWork_ok (setBank_ok h _ _) _)

theorem startBanks_ok (h : Ok L x s) : Ok L x s.startBanks := Ok.foldl (fun _ _ h => startBank_ok h _) _ _ h

theorem lookupEffect_ok (h : Ok L x s) (b : BankId) (k : Nat) : Ok L x (s.lookupEffect b k) := by
  unfold State.lookupEffect
  extract_lets s1
  have h1 : Ok L x s1 := markFailing_ok h _ _
  exact Ok.ite (Ok.ite (beginScrub_ok h1 _) h1) h

end Sys2Proof.Machine
end

