-- ==== Sys2Proof/Laws/KeepsAssembly.lean ====
section
/-! SUPPORT. What the port's answers and the operations of generation assembly keep. -/

namespace Sys2Proof.Machine

variable {L : Bool} {x s : State}

/-! ## Answers -/

/-- A change of the port's state outside its flags, enables and counters. -/
theorem porting_ok (h : Ok L x s) (f : Port → Port) (hf : (s.porting f).seen = s.seen) : Ok L x (s.porting f) := h.seen hf

theorem respondCode_ok (h : Ok L x s) (k : Byte) (o : OutcomeCode) (b : List Byte) : Ok L x (s.respondCode k o b) := h.seen rfl
theorem respond_ok (h : Ok L x s) (k : RequestKind) (o : OutcomeCode) (b : List Byte) : Ok L x (s.respond k o b) := h.seen rfl

theorem answerManifest_ok (h : Ok L x s) (w : EnterFor) (o : OutcomeCode) (b : List Byte) : Ok L x (s.answerManifest w o b) :=
  Ok.ite (respond_ok h _ _ _) h

/-! ## Draining and opening -/

theorem withdrawWaiting_ok (h : Ok L x s) (d : Domain) (g : Gen) : Ok L x (s.withdrawWaiting d g) :=
  Ok.foldl (fun _ _ h => banking_ok h _ _) _ _ h

theorem tellDraining_ok (h : Ok L x s) (i : SlotId) : Ok L x (s.tellDraining i) := by
  unfold State.tellDraining
  extract_lets y
  refine Ok.ite h ?_
  split
  · exact Ok.ite (unpinSlot_ok h _ _ _) (queueIndex_ok h _)
  · exact h

theorem answerDrained_ok (h : Ok L x s) (i : SlotId) (d : Domain) (g : Gen) : Ok L x (s.answerDrained i d g) :=
  Ok.ite (respond_ok h _ _ _) h

theorem drainSlot_ok (h : Ok L x s) (i : SlotId) : Ok L x (s.drainSlot i) := by
  unfold State.drainSlot
  extract_lets y s1 s2 s3 s4 s5
  have h2 : Ok L x s2 := setSlot_ok (withdrawAdmission_ok (tellDraining_ok h _) _) _ _
  have h3 : Ok L x s3 := Ok.ite (releaseReservation_ok h2 _) h2
  have h4 : Ok L x s4 := withdrawWaiting_ok h3 _ _
  exact wantAsking_ok (answerDrained_ok (Ok.ite (vacate_ok h4 _) h4) _ _ _)

theorem openSlot_ok (h : Ok L x s) (d : Domain) (g : Gen) (o : Origin) (r : SlotId × State) (e : s.openSlot d g o = some r) :
    Ok L x r.2 := by
  unfold State.openSlot at e
  split at e
  · cases e
  · cases e; exact wantAsking_ok (setSlot_ok h _ _)

theorem openWanted_ok (d : Domain) : ∀ (n : Nat) (s : State), Ok L x s → Ok L x (s.openWanted d n)
  | 0, _, h => h
  | n + 1, s, h => by
    unfold State.openWanted
    split
    · exact h
    · refine Ok.ite h (Ok.ite ?_ (Ok.ite ?_ h))
      · split
        · rename_i e; exact openWanted_ok d n _ (openSlot_ok h _ _ _ _ e)
        · exact h
      · split
        · exact h
        · extract_lets s1
          have h1 : Ok L x s1 := drainSlot_ok h _
          refine Ok.ite ?_ h1
          split
          · rename_i e; exact openWanted_ok d n _ (openSlot_ok h1 _ _ _ _ e)
          · exact h1

theorem drainHeld_ok (h : Ok L x s) (d : Domain) : Ok L x (s.drainHeld d) :=
  Ok.foldl (fun _ _ h => Ok.ite (drainSlot_ok h _) h) _ _ h

theorem openingPass_ok (h : Ok L x s) (d : Domain) : Ok L x (s.openingPass d) := openWanted_ok d _ _ (drainHeld_ok h _)

/-! ## Verification, admission and manifests -/

theorem verifiedDrains_ok (h : Ok L x s) (i : SlotId) : Ok L x (s.verifiedDrains i) := by
  unfold State.verifiedDrains
  extract_lets y
  exact Ok.ite h (Ok.foldl (fun _ _ h => Ok.ite (drainSlot_ok h _) h) _ _ h)

theorem slotAdmitted_ok (h : Ok L x s) (i : SlotId) : Ok L x (s.slotAdmitted i) := by
  unfold State.slotAdmitted
  refine Ok.ite ?_ (wantAsking_ok (setSlot_ok h _ _))
  have h1 := verifiedDrains_ok (setSlot_ok h i { s.slot i with state := .verified }) i
  exact Ok.ite h1 (wantAsking_ok h1)

theorem askAdmission_ok (h : Ok L x s) (i : SlotId) : Ok L x (s.askAdmission i) := by
  unfold State.askAdmission
  have h1 := requestAdmission_ok h i
  generalize s.requestAdmission i = q at h1
  obtain ⟨a, t⟩ := q
  cases a
  · exact slotting_ok h1 _ _
  · exact slotAdmitted_ok h1 _

theorem adopt_ok (h : Ok L x s) (i : SlotId) (e : ManifestEntry) : Ok L x (s.adopt i e) :=
  askAdmission_ok (pin_ok (setSlot_ok h _ _) _ _ _) _

theorem publishTurnedDown_ok (h : Ok L x s) (i : SlotId) (o : Bool) : Ok L x (s.publishTurnedDown i o) :=
  Ok.ite (vacate_ok h _) (manifestAskEnded_ok (slotting_ok h _ _) _)

theorem manifestEntered_ok (h : Ok L x s) (i : SlotId) (m : Manifest) (w : EnterFor) : Ok L x (s.manifestEntered i m w) :=
  answerManifest_ok (askAdmission_ok (slotting_ok h _ _) _) _ _ _

theorem manifestExists_ok (h : Ok L x s) (i : SlotId) (m : Manifest) (w : EnterFor) (o : Bool) (e : ManifestEntry) :
    Ok L x (s.manifestExists i m w o e) :=
  Ok.ite (answerManifest_ok (adopt_ok h _ _) _ _ _)
    (Ok.ite (adopt_ok (raise_ok (countConflict_ok h) _) _ _) (answerManifest_ok (publishTurnedDown_ok h _ _) _ _ _))

theorem manifestRefused_ok (h : Ok L x s) (i : SlotId) (w : EnterFor) (o : Bool) : Ok L x (s.manifestRefused i w o) :=
  Ok.ite (manifestAskEnded_ok h _) (answerManifest_ok (publishTurnedDown_ok h _ _) _ _ _)

theorem manifestLate_ok (h : Ok L x s) (i : SlotId) (m : Manifest) (w : EnterFor) : Ok L x (s.manifestLate i m w) := by
  unfold State.manifestLate
  exact Ok.ite (Ok.ite h (raise_ok (countConflict_ok h) _)) (Ok.ite (answerManifest_ok h _ _ _) (answerManifest_ok h _ _ _))

theorem claimOrigin_ok (h : Ok L x s) (i : SlotId) (w : EnterFor) : Ok L x (s.claimOrigin i w) := Ok.ite h (slotting_ok h _ _)

theorem takeEnter_ok (h : Ok L x s) (i : SlotId) (m : Manifest) (w : EnterFor) (o : Bool) : Ok L x (s.takeEnter i m w o) := by
  unfold State.takeEnter
  refine Ok.ite ?_ (Ok.ite (manifestLate_ok h _ _ _) (answerManifest_ok h _ _ _))
  extract_lets s1
  have h1 : Ok L x s1 := claimOrigin_ok h _ _
  split
  · exact writing_ok h1 rfl rfl
  · exact manifestExists_ok h1 _ _ _ _ _
  · exact manifestRefused_ok h1 _ _ _

theorem commitEnter_ok (h : Ok L x s) (hL : L = false) (i : SlotId) (m : Manifest) (w : EnterFor) (o : Bool) :
    Ok L x (s.commitEnter i m w o) := by
  unfold State.commitEnter
  refine Ok.ite ?_ (Ok.ite (manifestLate_ok h _ _ _) (answerManifest_ok h _ _ _))
  split
  · exact manifestEntered_ok (enterManifest_ok h hL _ _) _ _ _
  · exact manifestExists_ok h _ _ _ _ _
  · exact manifestRefused_ok h _ _ _

theorem commitVerified_ok (h : Ok L x s) (hL : L = false) (d : Domain) (g : Gen) : Ok L x (s.commitVerified d g) := by
  unfold State.commitVerified
  extract_lets s1
  have h1 : Ok L x s1 := markVerified_ok h hL _ _
  split
  · exact Ok.ite (respond_ok h1 _ _ _) h1
  · exact h1

theorem commitIndex_ok (h : Ok L x s) (hL : L = false) (w : IndexWrite) : Ok L x (s.commitIndex w) := by
  unfold State.commitIndex
  split
  · exact commitEnter_ok h hL _ _ _ _
  · exact commitVerified_ok h hL _ _
  · exact digestFailedWrite_ok h hL _ _
  · exact drainedWrite_ok h hL _ _
  · exact lostWrite_ok h hL _ _ _ _
  · exact unpinnedWrite_ok h hL _ _

theorem poolPump_ok : ∀ (n : Nat) (s : State), Ok L x s → Ok L x (s.poolPump n)
  | 0, _, h => h
  | n + 1, s, h => by
    unfold State.poolPump
    refine Ok.ite h ?_
    split
    · refine poolPump_ok n _ (takeEnter_ok ?_ _ _ _ _); exact h.seen rfl
    · exact writing_ok h rfl rfl
    · split
      · rename_i hq; exact takeWrite_ok h hq
      · exact h

theorem takeManifest_ok (h : Ok L x s) (m : Manifest) : Ok L x (s.takeManifest m) := by
  unfold State.takeManifest
  extract_lets d
  refine Ok.ite h (Ok.ite (countConflict_ok h) ?_)
  split
  · split
    · exact queueIndex_ok h _
    · exact Ok.ite h (raise_ok (countConflict_ok h) _)
  · refine Ok.ite ?_ h
    split
    · rename_i e; exact queueIndex_ok (openSlot_ok h _ _ _ _ e) _
    · exact h

theorem offerPublished_ok (h : Ok L x s) (i : SlotId) (m : Manifest) (o : Bool) : Ok L x (s.offerPublished i m o) :=
  (queueIndex_ok (Ok.ite h (claimOrigin_ok h _ _)) _).seen rfl

theorem publishManifest_ok (h : Ok L x s) (m : Option Manifest) : Ok L x (s.publishManifest m) := by
  unfold State.publishManifest
  split
  · exact respond_ok h _ _ _
  · extract_lets d hd
    refine Ok.ite (respond_ok h _ _ _) (Ok.ite (respond_ok h _ _ _) ?_)
    split
    · split
      · exact Ok.ite (respond_ok h _ _ _) (respond_ok h _ _ _)
      · exact offerPublished_ok h _ _ _
    · refine Ok.ite ?_ (respond_ok h _ _ _)
      split
      · rename_i e; exact offerPublished_ok (openSlot_ok h _ _ _ _ e) _ _ _
      · exact respond_ok h _ _ _

/-! ## Segments -/

theorem takeSegment_ok (h : Ok L x s) (hL : L = false) (n : Station) (d : Domain) (b : List Byte) :
    Ok L x (s.takeSegment n d b) := by
  unfold State.takeSegment
  split
  · exact peerSegmentFailure_ok (countSegmentCrc_ok h) hL _
  · exact countMalformed_ok h
  · exact indexArrived_ok (countDiscardedDrain_ok h) hL _ _ _
  · exact h
  · exact countMalformed_ok h
  · exact countDuplicate_ok h
  · exact peerSegmentFailure_ok (countSegmentCrc_ok h) hL _
  · split
    · rename_i hq
      rw [Bool.and_eq_true] at hq
      exact queueOffer_ok h _ hq.1
    · exact wantAsking_ok h

theorem publishSegment_ok (h : Ok L x s) (b : List Byte) : Ok L x (s.publishSegment b) := by
  unfold State.publishSegment
  split
  · exact respond_ok h _ _ _
  · extract_lets g
    split
    all_goals first | exact respond_ok h _ _ _ | skip
    split
    · rename_i hq
      rw [Bool.and_eq_true] at hq
      exact (queueOffer_ok h _ hq.1).seen rfl
    · exact h.seen rfl

theorem joinQueue_ok (h : Ok L x s) : Ok L x s.joinQueue := by
  unfold State.joinQueue
  split
  · split
    · rename_i hq
      rw [Bool.and_eq_true] at hq
      exact (queueOffer_ok h _ hq.1).seen rfl
    · exact h
  · exact h

theorem answerSegment_ok (h : Ok L x s) (o : Offer) (c : OutcomeCode) : Ok L x (s.answerSegment o c) :=
  Ok.ite (respond_ok h _ _ _) h

/-- R145: the append, the opening pass and one header write. -/
theorem reportApplied_ok (h : Ok L x s) (d : Domain) (g : Gen) : Ok L x (s.reportApplied d g) := by
  unfold State.reportApplied
  extract_lets s1
  have h1 : Ok L x s1 := openingPass_ok (appendApplied_ok h d g) _
  exact Ok.ite (writeDomainHeader_ok h1 _) (advanceTest_ok h1 _)

theorem completeApplied_ok (h : Ok L x s) (i : SlotId) : Ok L x (s.completeApplied i) := by
  unfold State.completeApplied
  refine Ok.ite h ?_
  extract_lets y s1 s2
  have h2 : Ok L x s2 := releaseReservation_ok (setSlot_ok (unpinSlot_ok h _ _ _) _ _) _
  exact reportApplied_ok (vacate_ok h2 _) _ _

theorem segmentStored_ok (h : Ok L x s) (hL : L = false) (o : Offer) : Ok L x (s.segmentStored o) := by
  unfold State.segmentStored
  split
  · exact answerSegment_ok (indexArrived_ok h hL _ _ _) _ _
  · extract_lets y z s1 s2 s3 s4
    have h1 : Ok L x s1 := indexArrived_ok (setSlot_ok h _ _) hL _ _ _
    have h2 : Ok L x s2 := slotting_ok h1 _ _
    have h3 : Ok L x s3 := queueIndex_ok h1 _
    have h4 : Ok L x s4 := Ok.ite (h3.seen rfl) h3
    exact Ok.ite (answerSegment_ok h1 _ _) (Ok.ite (Ok.ite (h2.seen rfl) h2) (completeApplied_ok h4 _))

theorem answerDuplicate_ok (h : Ok L x s) (o : Offer) : Ok L x (s.answerDuplicate o) := Ok.ite (respond_ok h _ _ _) h

theorem discardOffer_ok (h : Ok L x s) (o : Offer) : Ok L x (s.discardOffer o) := Ok.ite (respond_ok h _ _ _) h

/-- A write that is denied room goes back to the place that it kept. -/
theorem deniedRoom_ok (h : Ok L x s) (o : Offer) (k : Bool) (hw : s.pool.writing = .none)
    (hq : k = true → x.Inv → s.pool.queue.length < Config.writeQueuePlaces) : Ok L x (s.deniedRoom o k) := by
  unfold State.deniedRoom
  refine Ok.ite (discardOffer_ok h _) ?_
  split
  · rename_i hk
    refine ⟨h.pending, h.clock, fun i => { h.inv i with queue := ?_ }, fun e => State.still_trans (h.still e) { s.still_refl with }⟩
    have := hq hk i
    show (o :: s.pool.queue).length + s.pool.writing.queuePlaces ≤ _
    rw [hw, List.length_cons]
    exact this
  · exact writing_ok h rfl rfl

theorem commitSegment_ok (h : Ok L x s) (hL : L = false) (o : Offer) (k : Bool) (hw : s.pool.writing = .none)
    (hq : k = true → x.Inv → s.pool.queue.length < Config.writeQueuePlaces) : Ok L x (s.commitSegment o k) := by
  unfold State.commitSegment
  have hs : (s.writeSegment o).1 = .waits → (s.writeSegment o).2 = s := writeSegment_waits
  have h1 := writeSegment_ok h hL o
  generalize s.writeSegment o = q at h1 hs
  obtain ⟨a, t⟩ := q
  cases a
  · exact segmentStored_ok h1 hL _
  · exact answerDuplicate_ok (countDuplicate_ok h1) _
  · exact answerSegment_ok (countDiscardedDrain_ok h1) _ _
  · cases (hs rfl : t = s)
    exact deniedRoom_ok h _ _ hw hq

theorem retryWrite_ok (h : Ok L x s) : Ok L x s.retryWrite := by
  unfold State.retryWrite
  split
  · rename_i hq; exact takeWrite_ok h hq
  · exact h

/-! ## Digests -/

theorem answerDigest_ok (h : Ok L x s) (i : SlotId) (c : OutcomeCode) : Ok L x (s.answerDigest i c) :=
  Ok.ite (respond_ok h _ _ _) h

theorem bar_length (l : List (BitVec 32)) (d : BitVec 32) (h : l.length ≤ Config.barredDigests) :
    (bar l d).length ≤ Config.barredDigests := by
  have hc : Config.barredDigests = 8 := rfl
  have h1 : (l.filter (· != d)).length ≤ 8 := Nat.le_trans (List.length_filter_le _ _) (hc ▸ h)
  unfold bar
  dsimp only
  split
  · rename_i hl; simp only [List.length_append, List.length_cons, List.length_nil]; omega
  · simp only [List.length_append, List.length_cons, List.length_nil, List.length_drop]; omega

theorem abandon_ok (h : Ok L x s) (hL : L = false) (i : SlotId) (d : BitVec 32) : Ok L x (s.abandon i d) := by
  unfold State.abandon
  refine drainSlot_ok (raise_ok ?_ _) _
  exact h.mk' hL rfl rfl (fun k => { k with barred := bar_length _ _ k.barred })

theorem digestFailure_ok (h : Ok L x s) (hL : L = false) (i : SlotId) (m : Manifest) : Ok L x (s.digestFailure i m) := by
  unfold State.digestFailure
  extract_lets y s1 s2 s3
  have h3 : Ok L x s3 := answerDigest_ok (setSlot_ok (queueIndex_ok (countDigestFailure_ok h) _) _ _) _ _
  exact Ok.ite (abandon_ok h3 hL _ _) (wantAsking_ok h3)

theorem digestDone_ok (h : Ok L x s) (hL : L = false) (i : SlotId) : Ok L x (s.digestDone i) := by
  unfold State.digestDone
  extract_lets y
  split
  · exact Ok.ite (verifiedDrains_ok (answerDigest_ok (queueIndex_ok (setSlot_ok h _ _) _) _ _) _) (digestFailure_ok h hL _ _)
  · exact h

/-! ## Applying -/

theorem beginApply_ok (h : Ok L x s) (i : SlotId) : Ok L x (s.beginApply i) := setSlot_ok (countMisplaced_ok h _) _ _

theorem cursoring_ok (h : Ok L x s) (i : SlotId) (b : BankId) (f : ApplyCursor → ApplyCursor) :
    Ok L x (s.cursoring i b f) := slotting_ok h _ _

theorem drive_ok (h : Ok L x s) (i : SlotId) (b : BankId) (q : Bool) : Ok L x (s.drive i b q) :=
  Ok.ite (post_ok (cursoring_ok h _ _ _) _) (post_ok (cursoring_ok h _ _ _) _)

theorem block_ok (h : Ok L x s) (i : SlotId) (c : BlockCause) : Ok L x (s.block i c) := by
  unfold State.block
  extract_lets y s1 s2 overtaken
  have h1 : Ok L x s1 := setSlot_ok h _ _
  have h2 : Ok L x s2 := Ok.ite (raise_ok h1 _) h1
  exact Ok.ite (drainSlot_ok h2 _) h2

theorem unblock_ok (h : Ok L x s) (i : SlotId) : Ok L x (s.unblock i) := Ok.ite (setSlot_ok h _ _) h
theorem quiesced_ok (h : Ok L x s) (i : SlotId) : Ok L x (s.quiesced i) := Ok.ite (setSlot_ok h _ _) h

theorem refusedFault_ok (h : Ok L x s) (i : SlotId) (b : BankId) : Ok L x (s.refusedFault i b) := by
  unfold State.refusedFault
  extract_lets y s1
  have h1 : Ok L x s1 := cursoring_ok h _ _ _
  exact Ok.ite (unblock_ok (cursoring_ok h _ _ _) _) (Ok.ite (block_ok h1 _ _) (slotting_ok h1 _ _))

theorem reportFor_ok (h : Ok L x s) (i : SlotId) (b : BankId) (r : BankReport) : Ok L x (s.reportFor i b r) := by
  unfold State.reportFor
  extract_lets y
  split
  · exact unblock_ok (cursoring_ok h _ _ _) _
  · exact h
  · exact completeApplied_ok (cursoring_ok h _ _ _) _
  · exact completeApplied_ok (cursoring_ok h _ _ _) _
  · exact cursoring_ok h _ _ _
  · exact refusedFault_ok h _ _
  · exact cursoring_ok h _ _ _
  · exact cursoring_ok h _ _ _
  · exact quiesced_ok (cursoring_ok h _ _ _) _
  · exact Ok.ite (Ok.ite (cursoring_ok h _ _ _) (Ok.ite (block_ok h _ _) h)) h

theorem takeReport_ok (h : Ok L x s) (b : BankId) (r : BankReport) : Ok L x (s.takeReport b r) := by
  unfold State.takeReport
  split
  · exact h
  · extract_lets s1
    have h1 : Ok L x s1 := cursoring_ok h _ _ _
    split
    · exact Ok.ite (reportFor_ok h1 _ _ _) h1
    · exact reportFor_ok h1 _ _ _

theorem takeIndexLost_ok (h : Ok L x s) (d : Domain) (g : Gen) (k : Nat) : Ok L x (s.takeIndexLost d g k) := by
  unfold State.takeIndexLost
  split
  · exact h
  · extract_lets y
    split
    · exact h
    · exact wantAsking_ok (setSlot_ok h _ _)

theorem takeSlotEmptied_ok (h : Ok L x s) (i : SlotId) : Ok L x (s.takeSlotEmptied i) := slotting_ok h _ _

/-! ## Restoration -/

theorem restoreEntry_ok (h : Ok L x s) (i : SlotId) (e : ManifestEntry) : Ok L x (s.restoreEntry i e) :=
  askAdmission_ok (pin_ok (setSlot_ok h _ _) _ _ _) _

theorem restoreFrom_ok (d : Domain) : ∀ (l : List ManifestEntry) (s : State), Ok L x s → Ok L x (s.restoreFrom d l)
  | [], _, h => h
  | e :: l, s, h => by
    unfold State.restoreFrom
    refine Ok.ite h ?_
    split
    · exact h
    · exact restoreFrom_ok d l _ (restoreEntry_ok h _ _)

theorem restoreSlots_ok (h : Ok L x s) (hL : L = false) : Ok L x s.restoreSlots :=
  Ok.foldl (fun _ _ h => Ok.ite (removeEntry_ok h hL _) h) _ _ (restoreFrom_ok _ _ _ (restoreFrom_ok _ _ _ h))

end Sys2Proof.Machine
end

