-- ==== Sys2Proof/Laws/KeepsSupply.lean ====
section
/-! SUPPORT. What the running out of an event, and the operations of the supply controller, keep. -/

namespace Sys2Proof.Machine

variable {L : Bool} {x s : State}

/-- A change of the SUP's state. -/
theorem supplying_ok (h : Ok L x s) (hL : L = false) (f : Supply → Supply) : Ok L x (s.supplying f) :=
  h.mk' hL rfl rfl (fun i => { i with })

/-! ## Writes in progress -/

theorem finishIndexWrite_ok (h : Ok L x s) (hL : L = false) (w : IndexWrite) : Ok L x (s.finishIndexWrite w) := by
  unfold State.finishIndexWrite
  split
  · exact Ok.ite (enterManifest_ok h hL _ _) h
  · exact markVerified_ok h hL _ _
  · exact digestFailedWrite_ok h hL _ _
  · exact drainedWrite_ok h hL _ _
  · exact lostWrite_ok h hL _ _ _ _
  · exact unpinnedWrite_ok h hL _ _

theorem finishPoolWrite_ok (h : Ok L x s) (hL : L = false) : Ok L x s.finishPoolWrite := by
  unfold State.finishPoolWrite
  split
  · exact h
  · exact finishIndexWrite_ok h hL _
  · exact writeSegment_ok h hL _

theorem finishIndexQueue_ok (h : Ok L x s) (hL : L = false) : Ok L x s.finishIndexQueue :=
  Ok.foldl (fun _ _ h => finishIndexWrite_ok h hL _) _ _ h

theorem eraseBank_ok (h : Ok L x s) (hL : L = false) (b : BankId) : Ok L x (s.eraseBank b) :=
  (setPlaces_ok h hL b [] (fun _ => rfl)).seen rfl

theorem eraseDomain_ok (h : Ok L x s) (d : Domain) : Ok L x (s.eraseDomain d) :=
  commitDomainHeader_ok (writeDomainHeader_ok (setDomain_ok h _ _) _) _

theorem eraseWrite_ok (h : Ok L x s) (hL : L = false) (r : StartRecord) (n : Nat) : Ok L x (s.eraseWrite r n) := by
  unfold State.eraseWrite
  split
  · exact h.mk' hL rfl rfl (fun i => { i with })
  · exact Ok.foldl (fun _ _ h => eraseBank_ok h hL _) _ _ h
  · exact writeIndex_ok h hL _
  · extract_lets s1
    have h1 : Ok L x s1 := eraseDomain_ok (eraseDomain_ok h _) _
    exact h1.mk' hL rfl rfl (fun i => { i with lag := Nat.zero_le _, barred := Nat.zero_le _, dips := Nat.zero_le _ })
  · exact h.mk' hL rfl rfl (fun i => { i with })
  · exact h

theorem finishEraseWrite_ok (h : Ok L x s) (hL : L = false) : Ok L x s.finishEraseWrite := by
  unfold State.finishEraseWrite
  split
  · split
    · exact eraseWrite_ok h hL _ _
    · exact h
  · exact h

theorem finishWrites_ok (h : Ok L x s) (hL : L = false) : Ok L x s.finishWrites :=
  finishEraseWrite_ok (finishPoolWrite_ok (Ok.foldl (fun _ _ h => finishWrite_ok h hL _) _ _ h) hL) hL

theorem Counters.zero_bounded : Counters.zero.bounded := by
  rw [Counters.bounded_iff]; decide

theorem dropBlocks_ok (h : Ok L x s) (hL : L = false) : Ok L x s.dropBlocks :=
  h.mk' hL rfl rfl (fun i => { i with
    counters := Counters.zero_bounded, flags := by show (0 : BitVec 16).toNat < 2048; decide
    enables := by show (0 : BitVec 16).toNat < 2048; decide
    asks := Nat.zero_le _, serve := Nat.zero_le _, control := Nat.zero_le _, lag := Nat.zero_le _, peers := Nat.zero_le _, stations := List.nodup_nil
    queue := Nat.zero_le _, credit := Nat.le_refl _, dataWait := Nat.zero_le _ })

theorem enterDormant_ok (h : Ok L x s) (hL : L = false) : Ok L x s.enterDormant := by
  unfold State.enterDormant
  extract_lets s1
  have h1 : Ok L x s1 := dropBlocks_ok (finishIndexQueue_ok (finishWrites_ok h hL) hL) hL
  exact supplying_ok h1 hL _

theorem beginStart_ok (h : Ok L x s) (hL : L = false) (c : Cause) : Ok L x (s.beginStart c) := by
  unfold State.beginStart
  extract_lets s1 kind dips s2
  have h1 : Ok L x s1 := dropBlocks_ok (finishWrites_ok h hL) hL
  clear_value s1
  have h2 : Ok L x s2 := supplying_ok h1 hL _
  have hb : s2.backup.dips = s1.backup.dips := rfl
  clear_value s2
  refine h2.mk' hL rfl rfl (fun i => { i with barred := ?_, dips := ?_ })
  · dsimp only; split
    · exact Nat.zero_le _
    · exact i.barred
  · show dips ≤ 255
    dsimp only [dips]; split
    · exact Nat.zero_le _
    · exact hb ▸ i.dips

theorem dormantStart_ok (h : Ok L x s) (hL : L = false) : Ok L x s.dormantStart := by
  unfold State.dormantStart
  exact Ok.ite (Ok.ite (beginStart_ok h hL _) (Ok.ite (beginStart_ok h hL _) (Ok.ite (beginStart_ok h hL _) h))) h

/-! ## Holds and resumes -/

theorem holdBanks_ok (h : Ok L x s) (p : HoldPending) : Ok L x (s.holdBanks p) := Ok.foldl (fun _ _ h => holdBank_ok h _ _) _ _ h

theorem dropQueuedPublish_ok (h : Ok L x s) : Ok L x s.dropQueuedPublish := Ok.ite (respond_ok h _ _ _) h

theorem unasked_queuePlaces (w : PoolWrite) : w.unasked.queuePlaces = w.queuePlaces := by
  rcases w with _ | _ | ⟨_, _ | _⟩ <;> rfl

theorem dropRequest_ok (h : Ok L x s) : Ok L x s.dropRequest := by
  unfold State.dropRequest
  split
  · exact h
  · extract_lets t
    have ht : Ok L x t := h.seen rfl
    refine pool_ok ht ?_
    unfold Pool.queueLoad
    dsimp only
    rw [unasked_queuePlaces]

theorem enterClosing_ok (h : Ok L x s) (hL : L = false) : Ok L x s.enterClosing := by
  unfold State.enterClosing
  extract_lets s1
  have h1 : Ok L x s1 := supplying_ok h hL _
  exact silenceLink_ok (holdFetch_ok (holdPool_ok (holdBanks_ok (dropQueuedPublish_ok h1) _)) hL) hL

theorem enterDip_ok (h : Ok L x s) (hL : L = false) : Ok L x s.enterDip := by
  unfold State.enterDip
  extract_lets s1 k s2
  have h1 : Ok L x s1 := supplying_ok h hL _
  have h2 : Ok L x s2 := h1.mk' hL rfl rfl (fun i => { i with dips := Nat.min_le_left _ _ })
  exact silenceLink_ok (holdFetch_ok (holdPool_ok (holdBanks_ok (dropRequest_ok h2) _)) hL) hL

theorem placeDropped_ok (h : Ok L x s) : Ok L x s.placeDropped := by
  unfold State.placeDropped
  split
  · exact h.seen rfl
  · exact h

theorem resumeBanks_ok (h : Ok L x s) : Ok L x s.resumeBanks := Ok.foldl (fun _ _ h => resumeBank_ok h _) _ _ h

theorem resumeRunning_ok (h : Ok L x s) (hL : L = false) (p : Power) (k : ParkedTimer) : Ok L x (s.resumeRunning p k) := by
  unfold State.resumeRunning
  extract_lets s1
  have h1 : Ok L x s1 := supplying_ok h hL _
  exact peerReport_ok (placeDropped_ok (resumeLink_ok (resumeBanks_ok (resumePool_ok h1)) hL))

theorem resumeStarting_ok (h : Ok L x s) (hL : L = false) : Ok L x s.resumeStarting := by
  unfold State.resumeStarting
  extract_lets s1
  have h1 : Ok L x s1 := supplying_ok h hL _
  exact placeDropped_ok (resumeBanks_ok (resumePool_ok h1))

theorem dipResume_ok (h : Ok L x s) (hL : L = false) : Ok L x s.dipResume := by
  unfold State.dipResume
  split
  all_goals first
    | with_reducible exact resumeStarting_ok h hL
    | with_reducible exact resumeRunning_ok h hL _ _
    | with_reducible exact enterDormant_ok h hL
    | exact Ok.ite (enterDormant_ok h hL) (resumeRunning_ok h hL _ _)

theorem dipRise_ok (h : Ok L x s) (hL : L = false) : Ok L x s.dipRise := by
  unfold State.dipRise
  exact Ok.ite (dipResume_ok h hL) (beginStart_ok h hL _)

theorem park_ok (h : Ok L x s) (hL : L = false) : Ok L x s.park := by
  unfold State.park
  exact Ok.ite (enterClosing_ok h hL) (supplying_ok h hL _)
theorem unpark_ok (h : Ok L x s) (hL : L = false) : Ok L x s.unpark := supplying_ok h hL _

theorem endOfStart_ok (h : Ok L x s) (hL : L = false) : Ok L x s.endOfStart := by
  unfold State.endOfStart
  extract_lets s1 s2
  have h1 : Ok L x s1 := supplying_ok h hL _
  have h2 : Ok L x s2 := peerReport_ok (startVisibility_ok (formAnnounce_ok (startLink_ok (raise_ok h1 _) hL) hL))
  exact Ok.ite (enterClosing_ok h2 hL) h2

theorem settleCold_ok (h : Ok L x s) : Ok L x s.settleCold := by
  unfold State.settleCold
  exact Ok.ite (h.seen rfl) h

theorem closingEnds_ok (h : Ok L x s) (hL : L = false) : Ok L x s.closingEnds := by
  unfold State.closingEnds
  exact Ok.ite (enterDormant_ok h hL) h

/-! ## Loss of supply -/

theorem tearPlace_ok (h : Ok L x s) (hL : L = false) (b : BankId) (p : Nat) : Ok L x (s.tearPlace b p) :=
  setPlaces_ok (draw_ok h) hL b _ (fun i => placeWrite_wf p _ (i.places b))

theorem tearHeader_ok (h : Ok L x s) (b : BankId) : Ok L x (s.tearHeader b) := h.seen rfl

theorem tearBank_ok (h : Ok L x s) (hL : L = false) (b : BankId) : Ok L x (s.tearBank b) := by
  unfold State.tearBank
  split
  all_goals first
    | exact tearPlace_ok h hL _ _
    | exact tearHeader_ok h _
    | exact Ok.ite (tearPlace_ok h hL _ _) h
    | exact h

theorem tearEntry_ok (h : Ok L x s) (hL : L = false) (d : Domain) (g : Gen) : Ok L x (s.tearEntry d g) :=
  h.mk' hL rfl rfl (fun i => { i with })

theorem tearPool_ok (h : Ok L x s) (hL : L = false) : Ok L x s.tearPool := by
  unfold State.tearPool
  split
  all_goals first
    | exact h
    | exact tearEntry_ok h hL _ _
    | exact Ok.ite (tearEntry_ok h hL _ _) h
    | exact Ok.ite h (tearEntry_ok h hL _ _)

theorem tearDomain_ok (h : Ok L x s) (d : Domain) : Ok L x (s.tearDomain d) := Ok.ite (h.seen rfl) h

theorem tearErase_ok (h : Ok L x s) (hL : L = false) : Ok L x s.tearErase := by
  unfold State.tearErase
  split
  · split
    · exact eraseWrite_ok h hL _ _
    · exact Ok.foldl (fun _ _ h => tearHeader_ok h _) _ _ h
    · exact h.seen rfl
    · exact h
  · exact h

theorem tearWrites_ok (h : Ok L x s) (hL : L = false) : Ok L x s.tearWrites :=
  tearDomain_ok (tearDomain_ok (tearErase_ok (tearPool_ok (Ok.foldl (fun _ _ h => tearBank_ok h hL _) _ _ h) hL) hL) _) _

theorem loseSupply_ok (h : Ok L x s) (hL : L = false) (u : Bool) : Ok L x (s.loseSupply u) := by
  unfold State.loseSupply
  extract_lets s1 s2 p
  have h1 : Ok L x s1 := dropBlocks_ok (Ok.ite (tearWrites_ok h hL) (commitDomainHeaders_ok (finishWrites_ok h hL))) hL
  have h2 : Ok L x s2 := supplying_ok h1 hL _
  exact h2.mk' hL rfl rfl (fun i => { i with })

/-! ## The running out of an event -/

theorem deliver_ok (h : Ok L x s) (m : Msg) : Ok L x (s.deliver m) := by
  cases m
  · exact takeRequest_ok h _ _
  · exact takeReport_ok h _ _
  · exact takeIndexLost_ok h _ _ _
  · exact takeSlotEmptied_ok h _

theorem openingPasses_ok (h : Ok L x s) (w : PerDomain Bool) : Ok L x (s.openingPasses w) := by
  unfold State.openingPasses
  refine Ok.ite ?_ h
  extract_lets s1
  have h1 : Ok L x s1 := Ok.ite (openingPass_ok h _) h
  exact Ok.ite (openingPass_ok h1 _) h1

theorem viewTests_ok (h : Ok L x s) : Ok L x s.viewTests := by
  refine advanceTests_ok ?_
  exact h.seen rfl

theorem settleOnce_ok (h : Ok L x s) (t : State) (e : s.settleOnce = some t) : Ok L x t := by
  unfold State.settleOnce at e
  split at e
  · cases e; exact viewTests_ok h
  split at e
  · cases e
    refine deliver_ok ?_ _
    exact h.seen rfl
  · split at e
    · cases e; exact poolPump_ok _ _ h
    · split at e
      · cases e
        refine openingPasses_ok ?_ _
        exact h.seen rfl
      · split at e
        · cases e; exact beginApply_ok h _
        · split at e
          · cases e; exact drive_ok h _ _ _
          · split at e
            · extract_lets k s1 at e
              have h1 : Ok L x s1 := h.seen rfl
              cases e
              exact Ok.ite (askingPass_ok _ _ _ h1) h1
            · cases e

theorem settleLoop_ok : ∀ (n : Nat) (s : State), Ok L x s → Ok L x (s.settleLoop n)
  | 0, _, h => h
  | n + 1, s, h => by
    unfold State.settleLoop
    split
    · exact h
    · rename_i e; exact settleLoop_ok n _ (settleOnce_ok h _ e)

/-- The part of `settle` before CLOSING may end. -/
theorem settled_ok (h : Ok L x s) : Ok L x (s.settleLoop 4096).arbiter.beginServeRead.settleCold :=
  settleCold_ok (beginServeRead_ok (arbiter_ok (settleLoop_ok _ _ h)))

theorem settle_ok (h : Ok L x s) (hL : L = false) : Ok L x s.settle :=
  dormantStart_ok (closingEnds_ok (settled_ok h) hL) hL

end Sys2Proof.Machine
end

