-- ==== Sys2Proof/Laws/Settle.lean ====
section
/-! SUPPORT. What the running out of an event leaves alone in RUN and PARKED. -/

namespace Sys2Proof.Machine

variable {s : State}

/-- The power state is part of what `State.still` keeps. -/
theorem State.still.power {s t : State} (h : s.still t) : t.supply.power = s.supply.power := by
  have e := congrArg Supply.power h.supply
  exact e
theorem State.still.config {s t : State} (h : s.still t) : t.supply.config = s.supply.config := by
  have e := congrArg Supply.config h.supply
  exact e

/-- Outside CLOSING and DORMANT the running out of an event ends no power state. -/
theorem settle_eq (h1 : s.supply.power ≠ .closing) (h2 : s.supply.power ≠ .dormant) :
    s.settle = (s.settleLoop 4096).arbiter.beginServeRead.settleCold := by
  unfold State.settle
  have k : Ok true s (s.settleLoop 4096).arbiter.beginServeRead.settleCold := settled_ok (Ok.refl true s)
  generalize (s.settleLoop 4096).arbiter.beginServeRead.settleCold = t at k
  have hp := (k.still rfl).power
  have e1 : t.closingEnds = t := by
    unfold State.closingEnds
    rw [if_neg]
    simp [hp, h1]
  rw [e1]
  unfold State.dormantStart
  rw [if_neg]
  simp [hp, h2]

theorem running_power (h : s.running = true) : s.supply.power ≠ .closing ∧ s.supply.power ≠ .dormant := by
  unfold State.running at h
  constructor <;> intro e <;> simp [e] at h

/-- Where the event is already at rest there is nothing to bring about. -/
theorem settleLoop_rest (h : s.settleOnce = none) : ∀ n, s.settleLoop n = s
  | 0 => rfl
  | n + 1 => by unfold State.settleLoop; rw [h]

/-- Outside CLOSING and DORMANT the running out of an event leaves alone what `State.still` names. -/
theorem settle_still (h1 : s.supply.power ≠ .closing) (h2 : s.supply.power ≠ .dormant) : s.still s.settle := by
  rw [settle_eq h1 h2]
  exact (settled_ok (Ok.refl true s)).still rfl

theorem settle_still_running (h : s.running = true) : s.still s.settle :=
  settle_still (running_power h).1 (running_power h).2

theorem settle_pending (s : State) : s.settle.pending = s.pending := (settle_ok (Ok.refl false s) rfl).pending
theorem settle_clock (s : State) : s.settle.clock = s.clock := (settle_ok (Ok.refl false s) rfl).clock
theorem settle_inv (h : s.Inv) : s.settle.Inv := (settle_ok (Ok.refl false s) rfl).inv h

/-- Outside CLOSING and DORMANT the running out of an event writes no store memory. -/
theorem storeStays (u : State) : u.storeStays := fun h1 h2 =>
  have k := settle_still h1 h2
  ⟨k.cells, k.index, k.places, k.startRecord⟩

/-! ## At rest -/

/-- Following the channel changes the busy spans alone. -/
theorem followChannel_eq (s : State) : s.followChannel = { s with link := { s.link with
    busySpans := s.followChannel.link.busySpans, busyFrom := s.followChannel.link.busyFrom } } := by
  unfold State.followChannel
  split
  · rfl
  · split <;> rfl

/-- A transmission leaves its frame chosen. -/
theorem startTransmission_chosen {c : Chosen} (h : s.link.chosen = some c) : s.startTransmission.link.chosen.isSome = true := by
  unfold State.startTransmission
  rw [h]
  dsimp only
  rw [followChannel_eq]
  rfl

/-- Channel access leaves its frame chosen. -/
theorem beginAccess_chosen (cls : TxClass) (f : OutFrame) : (s.beginAccess cls f).link.chosen.isSome = true := by
  unfold State.beginAccess
  extract_lets c
  split
  · exact startTransmission_chosen rfl
  · rfl

/-- What the arbiter leaves as it is has a frame chosen already, or is not in service, or has no frame to choose. -/
theorem arbiter_rest : s.arbiter = s ↔ s.link.chosen.isSome = true ∨ s.running = false ∨
    s.link.announce = none ∧ (1 ≤ s.link.credit → s.link.control = [] ∧ s.link.ask = [] ∧ s.link.data = none) := by
  by_cases hc : s.link.chosen.isSome = true
  · simp [State.arbiter, hc]
  by_cases hr : s.running = false
  · simp [State.arbiter, hr]
  have no : ∀ (t : State), t.link.chosen.isSome = true → t ≠ s := by
    intro t h e; rw [e] at h; exact hc h
  simp only [Bool.not_eq_false] at hr
  unfold State.arbiter
  simp only [hc, hr, Bool.not_true, Bool.or_false, if_false, Bool.false_eq_true, false_or, Bool.true_eq_false]
  constructor
  · intro h
    split at h
    · exact absurd h (no _ (beginAccess_chosen _ _))
    · rename_i hx
      split at h
      · exact absurd h (no _ (beginAccess_chosen _ _))
      · rename_i ha
        refine ⟨ha, fun hp => ?_⟩
        simp only [hp, decide_true, Bool.not_true, if_false, Bool.false_eq_true] at h
        split at h
        · exact absurd h (no _ (beginAccess_chosen _ _))
        · rename_i h1
          split at h
          · exact absurd h (no _ (beginAccess_chosen _ _))
          · rename_i h2
            split at h
            · exact absurd h (no _ (beginAccess_chosen _ _))
            · rename_i h3; exact ⟨h1, h2, h3⟩
  · rintro ⟨ha, hp⟩
    by_cases h1 : 1 ≤ s.link.credit
    · obtain ⟨a, b, c⟩ := hp h1
      simp [ha, a, b, c]
    · simp [ha, h1]

/-- An event is at rest when none of the things that `settleOnce` looks for is due. -/
theorem settleOnce_none : s.settleOnce = none ↔ s.todo.viewChanged = false ∧ s.todo.mail = [] ∧ s.poolReady = false ∧ (s.todo.openPass.block || s.todo.openPass.product) = false ∧
    (s.nextApply .block).or (s.nextApply .product) = none ∧ s.nextDrive = none ∧ s.todo.askPass = false := by
  unfold State.settleOnce
  constructor
  · intro h
    split at h
    · exact absurd h (by simp)
    rename_i hv
    split at h
    · exact absurd h (by simp)
    · rename_i hm
      split at h
      · exact absurd h (by simp)
      rename_i hp
      split at h
      · exact absurd h (by simp)
      rename_i ho
      split at h
      · exact absurd h (by simp)
      rename_i ha
      split at h
      · exact absurd h (by simp)
      rename_i hd
      split at h
      · exact absurd h (by simp)
      rename_i hk
      exact ⟨by simpa using hv, hm, by simpa using hp, Bool.eq_false_iff.mpr ho, ha, hd, by simpa using hk⟩
  · rintro ⟨v, a, b, c, d, e, f⟩
    rw [a]; simp only [v, b, c, d, e, f, Bool.false_eq_true, if_false]

/-- No serve read begins while none waits, or one is in progress, or a frame is formed, or the part is not in service. -/
theorem beginServeRead_rest : s.beginServeRead = s ↔
    s.fetch.serve = [] ∨ (s.running && s.link.data.isNone && s.fetch.reading.isNone) = false := by
  unfold State.beginServeRead
  constructor
  · intro h
    split at h
    · rename_i he; exact .inl he
    · split at h
      · rename_i hc
        have := congrArg (fun t => t.fetch.reading) h
        simp only [State.fetching] at this
        simp [← this] at hc
      · rename_i hc; exact .inr (Bool.eq_false_iff.mpr hc)
  · intro h
    split
    · rfl
    · rename_i he
      rcases h with h | h
      · rw [he] at h; cases h
      · rw [h]; rfl

/-- No COLD start settles. -/
theorem settleCold_rest : s.settleCold = s ↔
    (s.supply.settling && s.started && s.pool.restored && allBanks.all (fun b => (s.bank b).scanned)) = false := by
  unfold State.settleCold
  constructor
  · intro h
    split at h
    · rename_i hc
      have := congrArg (fun t => t.supply.settling) h
      simp only [State.supplying] at this
      simp [← this] at hc
    · rename_i hc; exact Bool.eq_false_iff.mpr hc
  · intro h
    rw [h]; rfl

/-- Whether an event is at rest does not depend on the port. -/
theorem rests_port (h : s.rests) (p : Port) : State.rests { s with port := p } :=
  have k1 := settleOnce_none.mp h.1
  have k2 := arbiter_rest.mp h.2.1
  have k3 := beginServeRead_rest.mp h.2.2.1
  have k4 := settleCold_rest.mp h.2.2.2
  ⟨settleOnce_none.mpr k1, arbiter_rest.mpr k2, beginServeRead_rest.mpr k3, settleCold_rest.mpr k4⟩

/-- An event that is at rest has run out. -/
theorem settle_rest (hr : s.rests) (h1 : s.supply.power ≠ .closing) (h2 : s.supply.power ≠ .dormant) : s.settle = s := by
  obtain ⟨a, b, c, d⟩ := hr
  rw [settle_eq h1 h2, settleLoop_rest a, b, c, d]

end Sys2Proof.Machine
end

