-- ==== Sys2Proof/Laws/Exec.lean ====
section
/-! SUPPORT. What every command keeps: the queue, the clock and the invariant. -/

namespace Sys2Proof.Machine

variable {s : State}

/-- The command answers a next state that keeps. -/
def Keeps (s : State) (r : Host.Outcome State Fault Refusal) : Prop := ∃ t, r = .next t ∧ Ok false s t

theorem Keeps.of {s t : State} (h : Ok false s t) : Keeps s (.next t) := ⟨t, rfl, h⟩

theorem ok (s : State) : Ok false s s := Ok.refl false s

/-! ## The port -/

theorem overrun_ok {x : State} (h : Ok false x s) : Ok false x s.overrun := (countOverrun_ok h).seen rfl

theorem responseRead_ok {x : State} (h : Ok false x s) (n : Nat) : Ok false x (s.responseRead n) := by
  unfold State.responseRead
  split
  · exact h
  · refine Ok.ite (supplying_ok (placeDropped_ok ?_) rfl _) h
    exact h.seen rfl

theorem overrunWindow_ok {x : State} (h : Ok false x s) (n : Nat) : Ok false x (s.overrunWindow n) := responseRead_ok (overrun_ok h) _

theorem request_ok (k : RequestKind) (n : Nat) (b : Bool) (f : State → State) (hf : b = true → Ok false s (f s)) :
    Ok false s (s.request k n b f) := by
  unfold State.request
  refine Ok.ite (ok s) (Ok.ite (overrunWindow_ok (ok s) _) ?_)
  split
  · exact respond_ok (ok s) _ _ _
  · rename_i hb
    split
    · exact respond_ok (ok s) _ _ _
    · exact hf (by simpa using hb)

theorem answerLookup_ok (k : RequestKind) (d : Domain) (n : Nat) : Ok false s (s.answerLookup k d n) := by
  unfold State.answerLookup
  refine Ok.ite (respond_ok (ok s) _ _ _) ?_
  unfold State.lookupAnswered
  extract_lets b v t
  have h : Ok false s t := lookupEffect_ok (ok s) _ _
  split <;> exact respond_ok h _ _ _

theorem execCheckMedium_keeps (m : BitVec 64) : Keeps s (execCheckMedium m s) :=
  .of (request_ok _ _ _ _ fun _ => answerLookup_ok _ _ _)
theorem execGetProduct_keeps (n : BitVec 16) : Keeps s (execGetProduct n s) :=
  .of (request_ok _ _ _ _ fun _ => answerLookup_ok _ _ _)
theorem execReadStatus_keeps : Keeps s (execReadStatus s) := .of (request_ok _ _ _ _ fun _ => respond_ok (ok s) _ _ _)
theorem execReadCounters_keeps : Keeps s (execReadCounters s) := .of (request_ok _ _ _ _ fun _ => respond_ok (ok s) _ _ _)

theorem execReadNotices_keeps : Keeps s (execReadNotices s) := .of (request_ok _ _ _ _ fun _ => by
  have h1 : Ok false s (s.respond .readNotices .ok (toBytes 2 s.port.flags.toNat)) := respond_ok (ok s) _ _ _
  refine h1.mk' rfl rfl rfl (fun i => { i with flags := ?_ })
  show (0 : BitVec 16).toNat < 2048
  decide)

/-- The two bytes of a 16-bit field read back. -/
theorem field_two (n : Nat) (h : n < 65536) : field (toBytes 2 n) 0 2 = n := by
  simp [field, toBytes, fromBytes]
  omega

theorem execSetNoticeEnable_keeps (en : BitVec 16) : Keeps s (execSetNoticeEnable en s) := .of (request_ok _ _ _ _ fun hb => by
  have hn : en.toNat < 65536 := en.isLt
  have h1 : Ok false s (s.respond .setNoticeEnable .ok (toBytes 2 en.toNat)) := respond_ok (ok s) _ _ _
  refine h1.mk' rfl rfl rfl (fun i => { i with enables := ?_ })
  show en.toNat < 2048
  simp [bodyAllowed, requestBodyOk, RequestKind.code] at hb
  rw [field_two _ hn] at hb
  exact hb.2)

theorem execReadLag_keeps : Keeps s (execReadLag s) := .of (request_ok _ _ _ _ fun _ => by
  unfold State.readLag
  split
  · exact respond_ok (ok s) _ _ _
  · rename_i e rest he
    refine respond_ok (lag_ok (ok s) rfl rest (fun k => ?_)) _ _ _
    rw [he] at k
    exact Nat.le_of_succ_le k)

theorem execPublishManifest_keeps (b : List Byte) : Keeps s (execPublishManifest b s) :=
  .of (request_ok _ _ _ _ fun _ => settle_ok (publishManifest_ok (ok s) _) rfl)
theorem execPublishSegment_keeps (b : List Byte) : Keeps s (execPublishSegment b s) :=
  .of (request_ok _ _ _ _ fun _ => settle_ok (publishSegment_ok (ok s) _) rfl)
theorem execParkEnd_keeps : Keeps s (execParkEnd s) := .of (request_ok _ _ _ _ fun _ =>
  Ok.ite (settle_ok (enterClosing_ok (respond_ok (ok s) _ _ _) rfl) rfl) (respond_ok (ok s) _ _ _))

theorem execCommission_keeps (b : List Byte) : Keeps s (execCommission b s) := .of (request_ok _ _ _ _ fun _ => by
  unfold State.commission
  extract_lets r
  exact Ok.ite (Ok.ite (supplying_ok (respond_ok (ok s) _ _ _) rfl _) (respond_ok (ok s) _ _ _)) (respond_ok (ok s) _ _ _))

theorem execResponseRead_keeps (n : Nat) : Keeps s (execResponseRead n s) := .of (Ok.ite (responseRead_ok (ok s) _) (ok s))
theorem execRequestOverrun_keeps (n : Nat) : Keeps s (execRequestOverrun n s) :=
  .of (Ok.ite (overrunWindow_ok (ok s) _) (ok s))

theorem execRequestBadFrame_keeps (w : List Byte) : Keeps s (execRequestBadFrame w s) := .of (by
  split
  · exact Ok.ite (ok s) (Ok.ite (overrunWindow_ok (ok s) _) (respondCode_ok (ok s) _ _ _))
  · exact ok s)

/-! ## The link -/

theorem receive_ok (k : FrameKind) (hd : LinkHeader) (b : List Byte) (f : State → State)
    (hf : ∀ t, Ok false s t → Ok false s (f t)) : Ok false s (s.receive k hd b f) := by
  unfold State.receive
  refine Ok.ite (ok s) ?_
  split
  · exact countMalformed_ok (ok s)
  · exact countForeign_ok (ok s)
  · extract_lets s1
    have h1 : Ok false s s1 := by
      have h0 : Ok false s (if congestionMark hd = true then s.markHeard else s) := Ok.ite (markHeard_ok (ok s) rfl) (ok s)
      exact Ok.ite (startDecay_ok h0 rfl) h0
    exact Ok.ite (settle_ok (countMalformed_ok h1) rfl) (settle_ok (hf _ (takeHeader_ok h1 rfl _)) rfl)

theorem execAnnounceReceived_keeps (hd : LinkHeader) (b : List Byte) : Keeps s (execAnnounceReceived hd b s) :=
  .of (receive_ok _ _ _ _ fun t h => by
    unfold State.useAnnounce
    split
    · exact countMalformed_ok h
    · exact takeAnnounce_ok h rfl _ _ _)

theorem execManifestAskReceived_keeps (hd : LinkHeader) (b : List Byte) : Keeps s (execManifestAskReceived hd b s) :=
  .of (receive_ok _ _ _ _ fun t h => by
    refine Ok.ite h ?_
    split
    · exact countMalformed_ok h
    · exact takeManifestAsk_ok h rfl _ _ _)

theorem execManifestReceived_keeps (hd : LinkHeader) (b : List Byte) : Keeps s (execManifestReceived hd b s) :=
  .of (receive_ok _ _ _ _ fun t h => by
    refine Ok.ite h ?_
    split
    · exact countMalformed_ok h
    · exact manifestAnswered_ok (takeManifest_ok h _) rfl _ _ _)

theorem execSegmentAskReceived_keeps (hd : LinkHeader) (b : List Byte) : Keeps s (execSegmentAskReceived hd b s) :=
  .of (receive_ok _ _ _ _ fun t h => by
    refine Ok.ite h ?_
    split
    · exact countMalformed_ok h
    · exact takeSegmentAsk_ok h rfl _ _ _ _ _)

theorem execSegmentReceived_keeps (hd : LinkHeader) (b : List Byte) : Keeps s (execSegmentReceived hd b s) :=
  .of (receive_ok _ _ _ _ fun t h => by
    unfold State.useSegment
    split
    · exact countMalformed_ok h
    · exact takeSegment_ok h rfl _ _ _)

theorem execDeclineReceived_keeps (hd : LinkHeader) (b : List Byte) : Keeps s (execDeclineReceived hd b s) :=
  .of (receive_ok _ _ _ _ fun t h => by
    refine Ok.ite h ?_
    split
    · exact countMalformed_ok h
    · exact takeDecline_ok h rfl _ _)

theorem execReceiveFilterDrop_keeps (f : List Byte) : Keeps s (execReceiveFilterDrop f s) := .of (by
  refine Ok.ite (ok s) ?_
  split
  · exact countMalformed_ok (ok s)
  · exact countForeign_ok (ok s)
  · exact ok s)

theorem transmitNext_ok {x : State} (h : Ok false x s) : Ok false x s.transmitNext := beginServeRead_ok (arbiter_ok h)

theorem transmissionEnd_ok (c : Chosen) : Ok false s (s.transmissionEnd c) := by
  unfold State.transmissionEnd
  extract_lets s1 s2
  have h1 : Ok false s s1 := by
    show Ok false s (match c.frame.ask with
      | some id => s.askSent id
      | none => s)
    split
    · exact askSent_ok (ok s) _
    · exact ok s
  have h2 : Ok false s s2 := Ok.ite (pacedEnd_ok h1 rfl) h1
  exact transmitNext_ok (followChannel_ok (linked_ok h2 rfl _ id id id))

theorem execTransmissionEnd_keeps : Keeps s (execTransmissionEnd s) := .of (by
  refine Ok.ite (linked_ok (ok s) rfl _ id id id) ?_
  split
  · exact Ok.ite (transmissionEnd_ok _) (ok s)
  · exact ok s)

theorem execCsenseChange_keeps (b : Bool) : Keeps s (execCsenseChange b s) := .of (by
  extract_lets p s1
  have h1 : Ok false s s1 := (ok s).mk' rfl rfl rfl (fun i => { i with })
  exact followChannel_ok (Ok.ite (linked_ok h1 rfl _ id id id) h1))

theorem execQuietIntervalEnd_keeps : Keeps s (execQuietIntervalEnd s) := .of (by
  split
  · rename_i c _
    refine Ok.ite ?_ (ok s)
    unfold State.enterBackoff
    extract_lets s1
    have h1 : Ok false s s1 := linked_ok (ok s) rfl _ id id id
    exact Ok.ite (startTransmission_ok h1) h1
  · exact ok s)

theorem execBackoffSlotEnd_keeps : Keeps s (execBackoffSlotEnd s) := .of (by
  split
  · rename_i c _
    refine Ok.ite ?_ (ok s)
    unfold State.backoffFalls
    extract_lets s1
    have h1 : Ok false s s1 := linked_ok (ok s) rfl _ id id id
    exact Ok.ite (startTransmission_ok h1) h1
  · exact ok s)

theorem execCreditDue_keeps : Keeps s (execCreditDue s) :=
  .of (Ok.ite (transmitNext_ok (linked_ok (ok s) rfl _ id (fun _ => Nat.min_le_left _ _) id)) (ok s))
theorem execDecreaseHoldExpiry_keeps : Keeps s (execDecreaseHoldExpiry s) :=
  .of (Ok.ite (linked_ok (ok s) rfl _ id id id) (ok s))
theorem execDecayTimerExpiry_keeps : Keeps s (execDecayTimerExpiry s) :=
  .of (Ok.ite (startDecay_ok (linked_ok (changeAsr_ok (ok s) rfl _) rfl _ id id id) rfl) (ok s))
theorem execAnnouncementTimerExpiry_keeps : Keeps s (execAnnouncementTimerExpiry s) :=
  .of (Ok.ite (transmitNext_ok (formAnnounce_ok (ok s) rfl)) (ok s))

/-! ## Peers, asks and reads -/

theorem execStaleExpiry_keeps (n : BitVec 16) : Keeps s (execStaleExpiry n s) := .of (by
  split
  · rename_i p _
    refine Ok.ite (settle_ok ?_ rfl) (ok s)
    unfold State.peerStale
    extract_lets s1
    have h1 : Ok false s s1 := peerReport_ok (setPeer_ok (ok s) rfl _)
    exact Ok.ite (changeView_ok h1) h1
  · exact ok s)

theorem execRemovalExpiry_keeps (n : BitVec 16) : Keeps s (execRemovalExpiry n s) := .of (by
  split
  · exact Ok.ite (Ok.ite (settle_ok (removePeer_ok (ok s) rfl _) rfl) (setPeer_ok (ok s) rfl _)) (ok s)
  · exact ok s)

theorem execUnresponsiveExpiry_keeps (n : BitVec 16) : Keeps s (execUnresponsiveExpiry n s) := .of (by
  split
  · exact Ok.ite (settle_ok (peerReport_ok (setPeer_ok (ok s) rfl _)) rfl) (ok s)
  · exact ok s)

theorem execBusyExpiry_keeps (n : BitVec 16) : Keeps s (execBusyExpiry n s) := .of (by
  split
  · exact Ok.ite (settle_ok (peerReport_ok (setPeer_ok (ok s) rfl _)) rfl) (ok s)
  · exact ok s)

theorem execAskTimeout_keeps : Keeps s (execAskTimeout s) := .of (by
  split
  · exact settle_ok (endAsk_ok (countAskTimeout_ok (ok s)) rfl _ _) rfl
  · exact ok s)

theorem execServeReadComplete_keeps : Keeps s (execServeReadComplete s) :=
  .of (by
    split
    · exact settle_ok (serveReadDone_ok (ok s) rfl _) rfl
    · exact ok s)
theorem execManifestReadComplete_keeps : Keeps s (execManifestReadComplete s) :=
  .of (Ok.ite (ok s) (settle_ok (manifestReadDone_ok (ok s) rfl) rfl))

/-! ## Assembly and the pool -/

theorem execDigestCompletion_keeps (i : SlotId) : Keeps s (execDigestCompletion i s) :=
  .of (Ok.ite (settle_ok (digestDone_ok (ok s) rfl _) rfl) (ok s))
theorem execSlotDrainEnd_keeps (i : SlotId) : Keeps s (execSlotDrainEnd i s) :=
  .of (Ok.ite (settle_ok (vacate_ok (ok s) _) rfl) (ok s))

theorem execAdmissionGranted_keeps (i : SlotId) : Keeps s (execAdmissionGranted i s) := .of (by
  refine Ok.ite (settle_ok (slotAdmitted_ok ?_ _) rfl) (ok s)
  exact (ok s).seen rfl)

theorem execPoolSegmentWriteCommit_keeps : Keeps s (execPoolSegmentWriteCommit s) := .of (by
  split
  · rename_i o k hw
    refine settle_ok (commitSegment_ok (writing_ok (p := { s.pool with writing := .none }) (ok s) rfl rfl) rfl o k rfl (fun hk i => ?_)) rfl
    have hq : s.pool.queue.length + s.pool.writing.queuePlaces ≤ Config.writeQueuePlaces := i.queue
    rw [hw, hk] at hq
    exact hq
  · exact ok s)

theorem execPoolIndexWriteCommit_keeps : Keeps s (execPoolIndexWriteCommit s) := .of (by
  split
  · exact settle_ok (commitIndex_ok (writing_ok (p := { s.pool with writing := .none }) (ok s) rfl rfl) rfl _) rfl
  · exact ok s)

theorem execPoolWriteRetry_keeps : Keeps s (execPoolWriteRetry s) := .of (retryWrite_ok (ok s))
theorem execPublishSegmentQueueJoin_keeps : Keeps s (execPublishSegmentQueueJoin s) := .of (settle_ok (joinQueue_ok (ok s)) rfl)

theorem execPoolRebuildComplete_keeps : Keeps s (execPoolRebuildComplete s) := .of (by
  refine Ok.ite ?_ (ok s)
  extract_lets s1
  have h1 : Ok false s s1 := restoreSlots_ok (restoreIndex_ok (ok s) rfl) rfl
  clear_value s1
  refine settle_ok (endOfStart_ok ?_ rfl) rfl
  exact h1.seen rfl)

/-! ## The banks -/

theorem execFullScanResume_keeps (b : BankId) : Keeps s (execFullScanResume b s) := .of (by
  split
  · exact Ok.ite (settle_ok (recoverFrom_ok (ok s) _ _) rfl) (ok s)
  · exact ok s)

theorem execApplyReadComplete_keeps (b : BankId) : Keeps s (execApplyReadComplete b s) := .of (by
  split
  · exact settle_ok (applyReadDone_ok (ok s) _ _) rfl
  · exact ok s)

theorem execBankRecordCommit_keeps (b : BankId) : Keeps s (execBankRecordCommit b s) := .of (by
  split
  · exact settle_ok (applyEndCommit_ok (ok s) rfl _ _ _) rfl
  · exact settle_ok (applyAddCommit_ok (ok s) rfl _ _) rfl
  · exact ok s)

theorem execBankHeaderWriteCommit_keeps (b : BankId) : Keeps s (execBankHeaderWriteCommit b s) :=
  .of (settle_ok (headerCommit_ok (ok s) _) rfl)

theorem execCompactionPlaceCommit_keeps (b : BankId) : Keeps s (execCompactionPlaceCommit b s) := .of (by
  split
  · exact settle_ok (compactCommit_ok (ok s) rfl _ _ _) rfl
  · exact ok s)

theorem execScrubCheckCompletion_keeps (b : BankId) : Keeps s (execScrubCheckCompletion b s) := .of (by
  split
  · exact settle_ok (scrubChecked_ok (ok s) _ _) rfl
  · exact ok s)

theorem execScrubAgeHalf_keeps (b : BankId) : Keeps s (execScrubAgeHalf b s) :=
  .of (Ok.ite (beginScrub_ok (ok s) _) (ok s))

theorem execScrubAgeDue_keeps (b : BankId) : Keeps s (execScrubAgeDue b s) := .of (by
  refine Ok.ite ?_ (ok s)
  unfold State.scrubBecomesDue
  exact Ok.ite (beginScrub_ok (banking_ok (ok s) _ _) _) (banking_ok (ok s) _ _))

theorem execRepairReadComplete_keeps (b : BankId) : Keeps s (execRepairReadComplete b s) := .of (by
  split
  · exact settle_ok (repairReadDone_ok (ok s) _ _) rfl
  · exact ok s)

theorem execRepairCompletion_keeps (b : BankId) : Keeps s (execRepairCompletion b s) := .of (by
  split
  · exact settle_ok (repairDone_ok (ok s) rfl _ _) rfl
  · exact ok s)

theorem execRecoveryRecordCommit_keeps (b : BankId) : Keeps s (execRecoveryRecordCommit b s) := .of (by
  split
  · exact settle_ok (recoverCommit_ok (ok s) rfl _ _) rfl
  · exact ok s)

theorem execErasurePlaceCommit_keeps (b : BankId) : Keeps s (execErasurePlaceCommit b s) := .of (by
  split
  · exact settle_ok (eraseCommit_ok (ok s) rfl _ _) rfl
  · exact ok s)

theorem execCohortWaitExpiry_keeps (d : Domain) : Keeps s (execCohortWaitExpiry d s) :=
  .of (Ok.ite (settle_ok (cohortExpired_ok (ok s) rfl _) rfl) (ok s))

/-! ## Supply, ignition and starts -/

theorem supplyReads_ok (m : Nat) (v : Bool) : Ok false s (s.supplyReads m v) := (ok s).mk' rfl rfl rfl (fun i => { i with })

theorem execSupplyFall_keeps (m : Nat) (v : Bool) : Keeps s (execSupplyFall m v s) := .of (by
  refine Ok.ite (ok s) ?_
  exact Ok.ite (settle_ok (enterDip_ok (supplyReads_ok m v) rfl) rfl) (supplyReads_ok m v))

theorem supplyRisen_ok {x : State} (h : Ok false x s) : Ok false x s.supplyRisen := by
  unfold State.supplyRisen
  split
  · exact beginStart_ok (supplying_ok h rfl _) rfl _
  · exact dipRise_ok h rfl
  · exact h

theorem execSupplyRise_keeps (m : Nat) (v : Bool) : Keeps s (execSupplyRise m v s) :=
  .of (Ok.ite (settle_ok (supplyRisen_ok (supplyReads_ok m v)) rfl) (Ok.ite (ok s) (supplyReads_ok m v)))

theorem execSupplyLoss_keeps (u : Bool) : Keeps s (execSupplyLoss u s) := .of (Ok.ite (ok s) (loseSupply_ok (ok s) rfl _))

theorem ignite_ok (on : Bool) : Ok false s (s.ignite on) := by
  unfold State.ignite
  extract_lets p s1
  have h1 : Ok false s s1 := (ok s).mk' rfl rfl rfl (fun i => { i with })
  exact Ok.ite h1 (supplying_ok h1 rfl _)

theorem execIgnitionOn_keeps : Keeps s (execIgnitionOn s) := .of (by
  refine Ok.ite (ignite_ok _) ?_
  unfold State.ignitionCame
  split
  · exact unpark_ok (ignite_ok _) rfl
  · exact settle_ok (resumeRunning_ok (ignite_ok _) rfl _ _) rfl
  · exact dormantStart_ok (ignite_ok _) rfl
  · exact ignite_ok _)

theorem execIgnitionOff_keeps : Keeps s (execIgnitionOff s) := .of (by
  refine Ok.ite ?_ (ignite_ok _)
  unfold State.ignitionWent
  split
  · exact settle_ok (park_ok (ignite_ok _) rfl) rfl
  · exact ignite_ok _)

theorem execWakeAsserted_keeps (l : Bool) : Keeps s (execWakeAsserted l s) := .of (by
  refine dormantStart_ok ?_ rfl
  exact (ok s).mk' rfl rfl rfl (fun i => { i with }))

theorem resetDomainHeader_ok (h : Ok L x s) (d : Domain) : Ok L x (s.resetDomainHeader d) := by
  unfold State.resetDomainHeader
  split
  · exact h
  · exact Ok.ite (commitDomainHeader_ok (draw_ok h) d) (draw_ok h)

theorem takeReset_ok : Ok false s s.takeReset := by
  unfold State.takeReset
  extract_lets s1
  have h1 : Ok false s s1 := dropBlocks_ok (resetDomainHeader_ok (resetDomainHeader_ok (finishWrites_ok (ok s) rfl) _) _) rfl
  exact supplying_ok h1 rfl _

theorem execResetTaken_keeps : Keeps s (execResetTaken s) := .of (Ok.ite (ok s) takeReset_ok)

theorem execResetExtensionEnd_keeps : Keeps s (execResetExtensionEnd s) := .of (by
  refine Ok.ite ?_ (ok s)
  unfold State.resetEnds
  exact dormantStart_ok (supplying_ok (ok s) rfl _) rfl)

theorem execDipTimerExpiry_keeps : Keeps s (execDipTimerExpiry s) :=
  .of (Ok.ite (dormantStart_ok (enterDormant_ok (ok s) rfl) rfl) (ok s))

theorem windowExpired_ok : Ok false s s.windowExpired := by
  unfold State.windowExpired
  split
  · exact settle_ok (enterClosing_ok (ok s) rfl) rfl
  · exact supplying_ok (ok s) rfl _
  · exact ok s

theorem execParkedWindowExpiry_keeps : Keeps s (execParkedWindowExpiry s) := .of (by
  split
  · exact Ok.ite windowExpired_ok (ok s)
  · exact ok s)

theorem execStableRunExpiry_keeps : Keeps s (execStableRunExpiry s) := .of (by
  refine Ok.ite ?_ (ok s)
  refine (supplying_ok (ok s) rfl (fun u => { u with stable := none })).mk' rfl rfl rfl (fun i => { i with dips := Nat.zero_le _ }))

theorem takeHeaders_ok {x : State} (h : Ok false x s) (r : Option StartRecord) : Ok false x (s.takeHeaders r) :=
  takeDomainHeader_ok (takeDomainHeader_ok h _ _) _ _

theorem enterCommissioning_ok {x : State} (h : Ok false x s) : Ok false x s.enterCommissioning :=
  raise_ok (supplying_ok h rfl _) _

theorem recordReadDone_ok (a b c : Bool) : Ok false s (s.recordReadDone a b c) := by
  unfold State.recordReadDone
  extract_lets s1 r s2
  have h2 : Ok false s s2 := takeHeaders_ok (linked_ok (ok s) rfl _ id id id) _
  clear_value r
  split
  · exact enterCommissioning_ok h2
  · exact Ok.ite (enterCommissioning_ok h2) (settle_ok (startBanks_ok (supplying_ok h2 rfl _)) rfl)

theorem execStartRecordReadComplete_keeps (a b c : Bool) : Keeps s (execStartRecordReadComplete a b c s) :=
  .of (Ok.ite (recordReadDone_ok a b c) (ok s))

theorem eraseStep_ok (e : Erase) (n : Nat) : Ok false s (s.eraseStep e n) := by
  unfold State.eraseStep
  extract_lets s1
  have h1 : Ok false s s1 := eraseWrite_ok (ok s) rfl _ _
  exact Ok.ite (supplying_ok h1 rfl _) (beginStart_ok (supplying_ok h1 rfl _) rfl _)

theorem execCommissionEraseWriteCommit_keeps : Keeps s (execCommissionEraseWriteCommit s) := .of (by
  split
  · split
    · exact eraseStep_ok _ _
    · exact ok s
  · exact ok s)

/-- Every command answers a next state, with the queue and the clock as they were and the invariant kept. -/
theorem exec_keeps (c : Instr) (s : State) : Keeps s (exec c s) := by
  cases c
  · exact execCheckMedium_keeps _
  · exact execGetProduct_keeps _
  · exact execReadStatus_keeps
  · exact execReadCounters_keeps
  · exact execReadNotices_keeps
  · exact execSetNoticeEnable_keeps _
  · exact execReadLag_keeps
  · exact execPublishManifest_keeps _
  · exact execPublishSegment_keeps _
  · exact execParkEnd_keeps
  · exact execCommission_keeps _
  · exact execResponseRead_keeps _
  · exact execRequestOverrun_keeps _
  · exact execRequestBadFrame_keeps _
  · exact execAnnounceReceived_keeps _ _
  · exact execManifestAskReceived_keeps _ _
  · exact execManifestReceived_keeps _ _
  · exact execSegmentAskReceived_keeps _ _
  · exact execSegmentReceived_keeps _ _
  · exact execDeclineReceived_keeps _ _
  · exact execTransmissionEnd_keeps
  · exact execCsenseChange_keeps _
  · exact execQuietIntervalEnd_keeps
  · exact execBackoffSlotEnd_keeps
  · exact execCreditDue_keeps
  · exact execDecreaseHoldExpiry_keeps
  · exact execDecayTimerExpiry_keeps
  · exact execAnnouncementTimerExpiry_keeps
  · exact execStaleExpiry_keeps _
  · exact execRemovalExpiry_keeps _
  · exact execUnresponsiveExpiry_keeps _
  · exact execBusyExpiry_keeps _
  · exact execAskTimeout_keeps
  · exact execServeReadComplete_keeps
  · exact execManifestReadComplete_keeps
  · exact execDigestCompletion_keeps _
  · exact execSlotDrainEnd_keeps _
  · exact execAdmissionGranted_keeps _
  · exact execPoolSegmentWriteCommit_keeps
  · exact execPoolIndexWriteCommit_keeps
  · exact execPoolWriteRetry_keeps
  · exact execPublishSegmentQueueJoin_keeps
  · exact execPoolRebuildComplete_keeps
  · exact execFullScanResume_keeps _
  · exact execApplyReadComplete_keeps _
  · exact execBankRecordCommit_keeps _
  · exact execBankHeaderWriteCommit_keeps _
  · exact execCompactionPlaceCommit_keeps _
  · exact execScrubCheckCompletion_keeps _
  · exact execScrubAgeHalf_keeps _
  · exact execScrubAgeDue_keeps _
  · exact execRepairReadComplete_keeps _
  · exact execRepairCompletion_keeps _
  · exact execRecoveryRecordCommit_keeps _
  · exact execErasurePlaceCommit_keeps _
  · exact execCohortWaitExpiry_keeps _
  · exact execSupplyFall_keeps _ _
  · exact execSupplyRise_keeps _ _
  · exact execSupplyLoss_keeps _
  · exact execIgnitionOn_keeps
  · exact execIgnitionOff_keeps
  · exact execResetTaken_keeps
  · exact execResetExtensionEnd_keeps
  · exact execWakeAsserted_keeps _
  · exact execDipTimerExpiry_keeps
  · exact execParkedWindowExpiry_keeps
  · exact execStableRunExpiry_keeps
  · exact execStartRecordReadComplete_keeps _ _ _
  · exact execCommissionEraseWriteCommit_keeps
  · exact execReceiveFilterDrop_keeps _

/-- A next state of a command keeps. -/
theorem exec_ok {c : Instr} {s t : State} (h : exec c s = .next t) : Ok false s t := by
  obtain ⟨u, hu, k⟩ := exec_keeps c s
  rw [h] at hu
  cases hu
  exact k

end Sys2Proof.Machine
end

