-- ==== Sys2Proof/Laws/Calm.lean ====
section
/-! SUPPORT. What the operations of the peer table, the visibility unit, the asks and the link's rate leave alone. -/

namespace Sys2Proof.Machine

variable {s : State}

/-- The two states differ at most in the peer table, the visibility values with their domain headers, the lag list, the slots, the FSE, the
LNK, the notice flags and counters, and what the event still has to bring about. -/
structure Calm (s t : State) : Prop where
  clock : t.clock = s.clock
  pins : t.pins = s.pins
  supply : t.supply = s.supply
  places : t.store.places = s.store.places
  headers : t.store.headers = s.store.headers
  cells : t.store.cells = s.store.cells
  index : t.store.index = s.store.index
  startRecord : t.store.startRecord = s.store.startRecord
  backup : t.backup = s.backup
  banks : t.banks = s.banks
  pool : t.pool = s.pool
  inProgress : t.port.inProgress = s.port.inProgress
  response : t.port.response = s.port.response
  overrun : t.port.overrun = s.port.overrun
  dropped : t.port.dropped = s.port.dropped
  enables : t.port.enables = s.port.enables
  draws : t.draws = s.draws
  pending : t.pending = s.pending

theorem Calm.refl (s : State) : Calm s s :=
  ⟨rfl, rfl, rfl, rfl, rfl, rfl, rfl, rfl, rfl, rfl, rfl, rfl, rfl, rfl, rfl, rfl, rfl, rfl⟩

theorem Calm.trans {a b c : State} (h : Calm a b) (k : Calm b c) : Calm a c :=
  ⟨k.1.trans h.1, k.2.trans h.2, k.3.trans h.3, k.4.trans h.4, k.5.trans h.5, k.6.trans h.6, k.7.trans h.7, k.8.trans h.8,
   k.9.trans h.9, k.10.trans h.10, k.11.trans h.11, k.12.trans h.12, k.13.trans h.13, k.14.trans h.14, k.15.trans h.15,
   k.16.trans h.16, k.17.trans h.17, k.18.trans h.18⟩

theorem Calm.fold {α : Type} (f : State → α → State) (hf : ∀ s a, Calm s (f s a)) (l : List α) (s : State) :
    Calm s (l.foldl f s) := by
  induction l generalizing s with
  | nil => exact .refl s
  | cons a l ih => exact (hf s a).trans (ih _)

/-- A state that differs from `s` in the parts that `Calm` leaves open. -/
theorem Calm.of (t : State)
    (h : t = { s with
      store := { s.store with domains := t.store.domains }
      port := { s.port with flags := t.port.flags, counters := t.port.counters }
      slots := t.slots, peers := t.peers, fetch := t.fetch, vis := t.vis, domainWrites := t.domainWrites, lag := t.lag
      link := t.link, todo := t.todo }) :
    Calm s t := by
  generalize t.domainWrites = a11 at h
  generalize t.store.domains = a1 at h
  generalize t.port.flags = a2 at h
  generalize t.port.counters = a3 at h
  generalize t.slots = a4 at h
  generalize t.peers = a5 at h
  generalize t.fetch = a6 at h
  generalize t.vis = a7 at h
  generalize t.lag = a8 at h
  generalize t.link = a9 at h
  generalize t.todo = a10 at h
  subst h
  exact ⟨rfl, rfl, rfl, rfl, rfl, rfl, rfl, rfl, rfl, rfl, rfl, rfl, rfl, rfl, rfl, rfl, rfl, rfl⟩

/-- Of what `Calm` leaves open, the slots, the FSE and the LNK are alike too. -/
structure Quiet (s t : State) : Prop where
  calm : Calm s t
  slots : t.slots = s.slots
  fetch : t.fetch = s.fetch
  link : t.link = s.link
  held : ∀ d, (t.domain d).held = (s.domain d).held

theorem Quiet.refl (s : State) : Quiet s s := ⟨.refl s, rfl, rfl, rfl, fun _ => rfl⟩
theorem Quiet.trans {a b c : State} (h : Quiet a b) (k : Quiet b c) : Quiet a c :=
  ⟨h.1.trans k.1, k.2.trans h.2, k.3.trans h.3, k.4.trans h.4, fun d => (k.5 d).trans (h.5 d)⟩
theorem Quiet.fold {α : Type} (f : State → α → State) (hf : ∀ s a, Quiet s (f s a)) (l : List α) (s : State) :
    Quiet s (l.foldl f s) := by
  induction l generalizing s with
  | nil => exact .refl s
  | cons a l ih => exact (hf s a).trans (ih _)

/-- A state that differs from `s` in the parts that `Quiet` leaves open, but not in the visibility values. -/
theorem Quiet.of (t : State)
    (h : t = { s with
      port := { s.port with flags := t.port.flags, counters := t.port.counters }
      peers := t.peers, lag := t.lag, todo := t.todo }) : Quiet s t := by
  generalize t.port.flags = a2 at h
  generalize t.port.counters = a3 at h
  generalize t.peers = a5 at h
  generalize t.lag = a8 at h
  generalize t.todo = a10 at h
  subst h
  exact ⟨.of _ rfl, rfl, rfl, rfl, fun _ => rfl⟩

/-! ## Flags, counters, messages -/

theorem quiet_post (m : Msg) : Quiet s (s.post m) := .of _ rfl
theorem quiet_raise (n : Notice) : Quiet s (s.raise n) := .of _ rfl
theorem quiet_counting (f : Counters → Counters) : Quiet s (s.counting f) := .of _ rfl
theorem calm_linked (f : Link → Link) : Calm s (s.linked f) := .of _ rfl
theorem calm_fetching (f : Fetch → Fetch) : Calm s (s.fetching f) := .of _ rfl
theorem quiet_peerReport : Quiet s s.peerReport := .of _ rfl
theorem quiet_setPeer (p : Peer) : Quiet s (s.setPeer p) := .of _ rfl

/-! ## Visibility -/

theorem quiet_requestCompaction (d : Domain) : Quiet s (s.requestCompaction d) :=
  Quiet.fold (fun s b => s.post (.bankRequest b .compact)) (fun _ _ => quiet_post _) _ _
theorem quiet_commitDomainHeader (d : Domain) : Quiet s (s.commitDomainHeader d) := by
  unfold State.commitDomainHeader
  split
  · exact .refl s
  · exact ⟨.of _ rfl, rfl, rfl, rfl, fun _ => rfl⟩
theorem quiet_writeDomainHeader (d : Domain) : Quiet s (s.writeDomainHeader d) :=
  (quiet_commitDomainHeader d).trans ⟨.of _ rfl, rfl, rfl, rfl, fun _ => rfl⟩
theorem quiet_writeDomain (d : Domain) (v : Visibility) (h : v.held = (s.domain d).held) :
    Quiet s ((s.setDomain d v).writeDomainHeader d) := by
  refine Quiet.trans (b := s.setDomain d v) ⟨.of _ rfl, rfl, rfl, rfl, fun e => ?_⟩ (quiet_writeDomainHeader d)
  cases d <;> cases e <;> first | rfl | exact h
theorem quiet_wantOpening : Quiet s s.wantOpening := .of _ rfl
theorem quiet_wantOpeningOf (d : Domain) : Quiet s (s.wantOpeningOf d) := .of _ rfl
theorem quiet_advanceVisible (d : Domain) (a b : List Gen) : Quiet s (s.advanceVisible d a b) := by
  unfold State.advanceVisible
  split
  · exact .refl s
  · extract_lets v t
    have h : Quiet s (t.writeDomainHeader d) := quiet_writeDomain d _ rfl
    exact ((h.trans (quiet_raise _)).trans (quiet_requestCompaction d)).trans (quiet_wantOpeningOf d)
theorem quiet_advanceTests : Quiet s s.advanceTests := (quiet_advanceVisible _ _ _).trans (quiet_advanceVisible _ _ _)
theorem quiet_changeView : Quiet s s.changeView := .of _ rfl
theorem quiet_memberLeft (n : Station) : Quiet s (s.memberLeft n) :=
  Quiet.trans (b := { s with lag := s.lag.filter (fun e => e.station != n) }) (.of _ rfl) quiet_changeView
theorem quiet_memberValues (n : Station) (v : PerDomain Announced) : Quiet s (s.memberValues n v) :=
  Quiet.trans (b := { s with lag := s.lag.filter (fun e => !(e.station == n && e.gen ≤ (v.get e.domain).held)) }) (.of _ rfl)
    quiet_changeView

/-! ## The peer table -/

theorem quiet_removePeer (p : Peer) : Quiet s (s.removePeer p) := by
  unfold State.removePeer
  dsimp only
  split
  · exact Quiet.trans (b := ({ s with peers := s.peers.filter (fun x => x.station != p.station) } : State).peerReport) (.of _ rfl)
      (quiet_memberLeft _)
  · exact .of _ rfl
theorem quiet_addPeer (h : LinkHeader) : Quiet s (s.addPeer h) := by
  unfold State.addPeer
  dsimp only
  split
  · exact Quiet.trans (b := ({ s with peers := s.peers ++ [s.newPeer h] } : State).peerReport) (.of _ rfl) quiet_changeView
  · exact .of _ rfl
theorem quiet_enterPeer (h : LinkHeader) : Quiet s (s.enterPeer h) := by
  unfold State.enterPeer
  split
  · exact quiet_addPeer h
  · split
    · exact (quiet_removePeer _).trans (quiet_addPeer h)
    · exact quiet_counting _
theorem quiet_cohortHeader (a b : Peer) : Quiet s (s.cohortHeader a b) := by
  unfold State.cohortHeader
  split
  · exact quiet_memberLeft _
  · split
    · exact quiet_changeView
    · exact .refl s
theorem quiet_refreshPeer (p : Peer) (h : LinkHeader) : Quiet s (s.refreshPeer p h) := by
  unfold State.refreshPeer
  extract_lets q s1 s2
  refine Quiet.trans ?_ (quiet_cohortHeader _ _)
  show Quiet s s2
  unfold s2
  split
  · exact (quiet_setPeer _).trans quiet_peerReport
  · exact quiet_setPeer _
theorem quiet_takeHeader (h : LinkHeader) : Quiet s (s.takeHeader h) := by
  unfold State.takeHeader
  split
  · exact quiet_refreshPeer _ _
  · exact quiet_enterPeer _
theorem quiet_takeAnnounce (n : Station) (b : Bool) (v : PerDomain Announced) : Quiet s (s.takeAnnounce n b v) := by
  unfold State.takeAnnounce
  split
  · exact .refl s
  · dsimp only
    split
    · exact ((quiet_setPeer _).trans quiet_peerReport).trans (quiet_memberValues _ _)
    · exact (quiet_setPeer _).trans quiet_peerReport
theorem quiet_peerAskEnded (n : Station) (e : AskEnd) : Quiet s (s.peerAskEnded n e) := by
  unfold State.peerAskEnded
  split
  · exact .refl s
  · dsimp only
    split
    · exact ((quiet_setPeer _).trans quiet_peerReport).trans (quiet_removePeer _)
    · exact (quiet_setPeer _).trans quiet_peerReport
theorem quiet_peerSegmentFailure (n : Station) : Quiet s (s.peerSegmentFailure n) := by
  unfold State.peerSegmentFailure
  split
  · exact .refl s
  · dsimp only
    split
    · exact (quiet_setPeer _).trans quiet_peerReport
    · exact quiet_setPeer _
theorem quiet_peerStale (p : Peer) : Quiet s (s.peerStale p) := by
  unfold State.peerStale
  dsimp only
  split
  · exact ((quiet_setPeer _).trans quiet_peerReport).trans quiet_changeView
  · exact (quiet_setPeer _).trans quiet_peerReport

/-! ## Asks and serving -/

theorem calm_manifestAskEnded (i : SlotId) : Calm s (s.manifestAskEnded i) := by
  unfold State.manifestAskEnded
  split <;> exact .of _ rfl
theorem calm_endAsk (a : Ask) (e : AskEnd) : Calm s (s.endAsk a e) := by
  unfold State.endAsk
  dsimp only
  refine Calm.trans (b := ((s.fetching (fun f => { f with asks := f.asks.filter (fun x => x.id != a.id) })).withdrawFrame a.id))
    (.of _ rfl) ?_
  refine (quiet_peerAskEnded a.peer e).calm.trans ?_
  split
  · exact (calm_manifestAskEnded _).trans (.of _ rfl)
  · exact .of _ rfl
theorem calm_indexArrived (d : Domain) (g : Gen) (k : Nat) : Calm s (s.indexArrived d g k) := by
  unfold State.indexArrived
  dsimp only
  exact Calm.trans (calm_fetching _) (Calm.fold _ (fun s a => calm_endAsk _ _) _ _)
theorem calm_manifestAnswered (n : Station) (d : Domain) (g : Gen) : Calm s (s.manifestAnswered n d g) := by
  unfold State.manifestAnswered
  split
  · exact calm_endAsk _ _
  · exact .refl s
theorem calm_takeDecline (n : Station) (b : DeclineBody) : Calm s (s.takeDecline n b) := by
  unfold State.takeDecline
  dsimp only
  split
  · exact Calm.trans (b := s.countDecline) (quiet_counting _).calm (calm_endAsk _ _)
  · exact (quiet_counting _).calm
theorem calm_offerControl (f : OutFrame) : Calm s (s.offerControl f).2 := by
  unfold State.offerControl
  split
  · exact .of _ rfl
  · exact .of _ rfl
theorem calm_answerPeer (k : FrameKind) (n : Station) (b : List Byte) : Calm s (s.answerPeer k n b) := calm_offerControl _
theorem calm_takeManifestAsk (n : Station) (d : Domain) (g : Gen) : Calm s (s.takeManifestAsk n d g) := by
  unfold State.takeManifestAsk
  split
  · exact calm_fetching _
  · exact calm_answerPeer _ _ _
theorem calm_takeSegmentAsk (n : Station) (d : Domain) (g : Gen) (f c : Nat) : Calm s (s.takeSegmentAsk n d g f c) := by
  unfold State.takeSegmentAsk
  split
  · exact (quiet_counting _).calm
  split
  · exact calm_answerPeer _ _ _
  extract_lets total
  split
  · exact (quiet_counting _).calm
  split
  · exact .refl s
  split
  · exact calm_answerPeer _ _ _
  · exact calm_fetching _

/-! ## The link's rate -/

theorem calm_lowRateTest : Calm s s.lowRateTest := by
  unfold State.lowRateTest
  dsimp only
  split
  · split
    · exact Calm.trans (b := s.linked (fun l => { l with lowRate := .low })) (calm_linked _) (quiet_raise _).calm
    · exact .refl s
  · split
    · exact Calm.trans (b := s.linked (fun l => { l with lowRate := .ok })) (calm_linked _) (quiet_raise _).calm
    · exact .refl s
theorem calm_changeAsr (v : Nat) : Calm s (s.changeAsr v) := by
  unfold State.changeAsr
  dsimp only
  split
  · exact .refl s
  · exact Calm.trans (calm_linked _) calm_lowRateTest
theorem calm_markHeard : Calm s s.markHeard := by
  unfold State.markHeard
  dsimp only
  split
  · exact calm_linked _
  · exact (calm_linked _).trans ((calm_changeAsr _).trans (calm_linked _))
theorem calm_startDecay : Calm s s.startDecay := calm_linked _
theorem calm_readHeader (k : FrameKind) (h : LinkHeader) : Calm s (s.readHeader k h) := by
  unfold State.readHeader
  extract_lets s1
  have h1 : Calm s s1 := by
    unfold s1; split
    · exact calm_markHeard
    · exact .refl s
  split
  · exact h1.trans calm_startDecay
  · exact h1

end Sys2Proof.Machine
end

