-- ==== Sys2Proof/Laws/PerInstr.lean ====
section
/-! SUPPORT. The family Operands: what a well-formed command's operands satisfy, one lemma per command. -/

namespace Sys2Proof.Laws.Operands

open Sys2Proof.Machine

/-- The body of a link frame. -/
def frameBody : Instr → Option (List Byte)
  | .announceReceived _ b => some b
  | .manifestAskReceived _ b => some b
  | .manifestReceived _ b => some b
  | .segmentAskReceived _ b => some b
  | .segmentReceived _ b => some b
  | .declineReceived _ b => some b
  | _ => none

/-- A well-formed request has a body that its request code allows (R209), and a well-formed frame a body of at most 256 bytes
(R160). -/
def Statement (c : Instr) : Prop :=
  c.wf = true → (∀ k, requestKindOf c = some k → bodyAllowed k (requestBody c) = true) ∧
    (∀ b, frameBody c = some b → b.length ≤ 256)

/-- A command that is neither a request nor a frame. -/
theorem plain {c : Instr} (h : requestKindOf c = none) (k : frameBody c = none) : Statement c :=
  fun _ => ⟨fun _ e => absurd (h.symm.trans e) (by simp), fun _ e => absurd (k.symm.trans e) (by simp)⟩

/-- A request without bounds on its body's content. -/
theorem request {c : Instr} {k : RequestKind} (h : requestKindOf c = some k) (f : frameBody c = none)
    (hb : c.wf = true → bodyAllowed k (requestBody c) = true) : Statement c :=
  fun w => ⟨fun _ e => Option.some.inj (h.symm.trans e) ▸ hb w, fun _ e => absurd (f.symm.trans e) (by simp)⟩

/-- A link frame. -/
theorem frame {c : Instr} {b : List Byte} (h : requestKindOf c = none) (f : frameBody c = some b) (hb : c.wf = bodyFits b) :
    Statement c :=
  fun w => ⟨fun _ e => absurd (h.symm.trans e) (by simp),
    fun _ e => Option.some.inj (f.symm.trans e) ▸ of_decide_eq_true (hb.symm.trans w)⟩

theorem checkMedium (medium : BitVec 64) : Statement (.checkMedium medium) := request rfl rfl fun _ => rfl
theorem getProduct (number : BitVec 16) : Statement (.getProduct number) := request rfl rfl fun _ => rfl
theorem readStatus : Statement .readStatus := request rfl rfl fun _ => rfl
theorem readCounters : Statement .readCounters := request rfl rfl fun _ => rfl
theorem readNotices : Statement .readNotices := request rfl rfl fun _ => rfl

theorem setNoticeEnable (enables : BitVec 16) : Statement (.setNoticeEnable enables) := request rfl rfl fun w => by
  have h : enables.toNat < 65536 := enables.isLt
  have e : field (toBytes 2 enables.toNat) 0 2 = enables.toNat := field_two _ h
  have w' : enables.toNat < 2048 := of_decide_eq_true w
  show (requestLengthOk 6 2 && decide (field (toBytes 2 enables.toNat) 0 2 < 2048)) = true
  rw [e, decide_eq_true w']
  rfl

theorem readLag : Statement .readLag := request rfl rfl fun _ => rfl

theorem publishManifest (body : List Byte) : Statement (.publishManifest body) := request rfl rfl fun w => by
  have e : body.length = 12 := by simpa [Instr.wf] using w
  simp [bodyAllowed, requestBodyOk, requestLengthOk, RequestKind.code, requestBody, e]

theorem publishSegment (body : List Byte) : Statement (.publishSegment body) := request rfl rfl fun w => by
  have e : 16 ≤ body.length ∧ body.length ≤ 256 := by simpa [Instr.wf] using w
  simp [bodyAllowed, requestBodyOk, requestLengthOk, RequestKind.code, requestBody, e]

theorem parkEnd : Statement .parkEnd := request rfl rfl fun _ => rfl

theorem commission (body : List Byte) : Statement (.commission body) := request rfl rfl fun w => by
  have e : body.length = 25 ∧ (body.getD 0 0#8).toNat < 2 := by simpa [Instr.wf] using w
  obtain ⟨a, b, rest, rfl⟩ : ∃ a b rest, body = a :: b :: rest := by
    match body, e.1 with
    | a :: b :: rest, _ => exact ⟨a, b, rest, rfl⟩
  have h1 : a.toNat < 2 := by simpa using e.2
  have h2 : b.toNat < 256 := b.isLt
  have h3 : (a :: b :: rest).length = 25 := e.1
  simp only [List.length_cons] at h3
  simp [bodyAllowed, requestBodyOk, requestLengthOk, RequestKind.code, requestBody, h3, field, fromBytes]
  omega

theorem responseRead (clocked : Nat) : Statement (.responseRead clocked) := plain rfl rfl
theorem requestOverrun (clocked : Nat) : Statement (.requestOverrun clocked) := plain rfl rfl
theorem requestBadFrame (window : List Byte) : Statement (.requestBadFrame window) := plain rfl rfl
theorem announceReceived (h : LinkHeader) (body : List Byte) : Statement (.announceReceived h body) := frame rfl rfl rfl
theorem manifestAskReceived (h : LinkHeader) (body : List Byte) : Statement (.manifestAskReceived h body) := frame rfl rfl rfl
theorem manifestReceived (h : LinkHeader) (body : List Byte) : Statement (.manifestReceived h body) := frame rfl rfl rfl
theorem segmentAskReceived (h : LinkHeader) (body : List Byte) : Statement (.segmentAskReceived h body) := frame rfl rfl rfl
theorem segmentReceived (h : LinkHeader) (body : List Byte) : Statement (.segmentReceived h body) := frame rfl rfl rfl
theorem declineReceived (h : LinkHeader) (body : List Byte) : Statement (.declineReceived h body) := frame rfl rfl rfl
theorem transmissionEnd : Statement .transmissionEnd := plain rfl rfl
theorem csenseChange (busy : Bool) : Statement (.csenseChange busy) := plain rfl rfl
theorem quietIntervalEnd : Statement .quietIntervalEnd := plain rfl rfl
theorem backoffSlotEnd : Statement .backoffSlotEnd := plain rfl rfl
theorem creditDue : Statement .creditDue := plain rfl rfl
theorem decreaseHoldExpiry : Statement .decreaseHoldExpiry := plain rfl rfl
theorem decayTimerExpiry : Statement .decayTimerExpiry := plain rfl rfl
theorem announcementTimerExpiry : Statement .announcementTimerExpiry := plain rfl rfl
theorem staleExpiry (peer : BitVec 16) : Statement (.staleExpiry peer) := plain rfl rfl
theorem removalExpiry (peer : BitVec 16) : Statement (.removalExpiry peer) := plain rfl rfl
theorem unresponsiveExpiry (peer : BitVec 16) : Statement (.unresponsiveExpiry peer) := plain rfl rfl
theorem busyExpiry (peer : BitVec 16) : Statement (.busyExpiry peer) := plain rfl rfl
theorem askTimeout : Statement .askTimeout := plain rfl rfl
theorem serveReadComplete : Statement .serveReadComplete := plain rfl rfl
theorem manifestReadComplete : Statement .manifestReadComplete := plain rfl rfl
theorem digestCompletion (slot : SlotId) : Statement (.digestCompletion slot) := plain rfl rfl
theorem slotDrainEnd (slot : SlotId) : Statement (.slotDrainEnd slot) := plain rfl rfl
theorem admissionGranted (slot : SlotId) : Statement (.admissionGranted slot) := plain rfl rfl
theorem poolSegmentWriteCommit : Statement .poolSegmentWriteCommit := plain rfl rfl
theorem poolIndexWriteCommit : Statement .poolIndexWriteCommit := plain rfl rfl
theorem poolWriteRetry : Statement .poolWriteRetry := plain rfl rfl
theorem publishSegmentQueueJoin : Statement .publishSegmentQueueJoin := plain rfl rfl
theorem poolRebuildComplete : Statement .poolRebuildComplete := plain rfl rfl
theorem fullScanResume (bank : BankId) : Statement (.fullScanResume bank) := plain rfl rfl
theorem applyReadComplete (bank : BankId) : Statement (.applyReadComplete bank) := plain rfl rfl
theorem bankRecordCommit (bank : BankId) : Statement (.bankRecordCommit bank) := plain rfl rfl
theorem bankHeaderWriteCommit (bank : BankId) : Statement (.bankHeaderWriteCommit bank) := plain rfl rfl
theorem compactionPlaceCommit (bank : BankId) : Statement (.compactionPlaceCommit bank) := plain rfl rfl
theorem scrubCheckCompletion (bank : BankId) : Statement (.scrubCheckCompletion bank) := plain rfl rfl
theorem scrubAgeHalf (bank : BankId) : Statement (.scrubAgeHalf bank) := plain rfl rfl
theorem scrubAgeDue (bank : BankId) : Statement (.scrubAgeDue bank) := plain rfl rfl
theorem repairReadComplete (bank : BankId) : Statement (.repairReadComplete bank) := plain rfl rfl
theorem repairCompletion (bank : BankId) : Statement (.repairCompletion bank) := plain rfl rfl
theorem recoveryRecordCommit (bank : BankId) : Statement (.recoveryRecordCommit bank) := plain rfl rfl
theorem erasurePlaceCommit (bank : BankId) : Statement (.erasurePlaceCommit bank) := plain rfl rfl
theorem cohortWaitExpiry (d : Domain) : Statement (.cohortWaitExpiry d) := plain rfl rfl
theorem supplyFall (millivolts : Nat) (vsel24 : Bool) : Statement (.supplyFall millivolts vsel24) := plain rfl rfl
theorem supplyRise (millivolts : Nat) (vsel24 : Bool) : Statement (.supplyRise millivolts vsel24) := plain rfl rfl
theorem supplyLoss (unfinished : Bool) : Statement (.supplyLoss unfinished) := plain rfl rfl
theorem ignitionOn : Statement .ignitionOn := plain rfl rfl
theorem ignitionOff : Statement .ignitionOff := plain rfl rfl
theorem resetTaken : Statement .resetTaken := plain rfl rfl
theorem resetExtensionEnd : Statement .resetExtensionEnd := plain rfl rfl
theorem wakeAsserted (level : Bool) : Statement (.wakeAsserted level) := plain rfl rfl
theorem dipTimerExpiry : Statement .dipTimerExpiry := plain rfl rfl
theorem parkedWindowExpiry : Statement .parkedWindowExpiry := plain rfl rfl
theorem stableRunExpiry : Statement .stableRunExpiry := plain rfl rfl
theorem startRecordReadComplete (strap0 strap1 strap2 : Bool) : Statement (.startRecordReadComplete strap0 strap1 strap2) := plain rfl rfl
theorem commissionEraseWriteCommit : Statement .commissionEraseWriteCommit := plain rfl rfl
theorem receiveFilterDrop (frame : List Byte) : Statement (.receiveFilterDrop frame) := plain rfl rfl

end Sys2Proof.Laws.Operands
end

