-- ==== Sys2Proof/Laws/PortRules.lean ====
section
/-! SUPPORT. What the validator port does with a request, and what a lookup reads. -/

namespace Sys2Proof.Machine

section

variable {s : State}

/-- The port of `portFree` is not busy (R196). -/
theorem portFree_notBusy (h : s.portFree) : s.portBusy = false := by
  unfold State.portBusy; simp [h.1, h.2]

theorem serving_takesRequests (h : s.serving) : s.takesRequests = true := by
  unfold State.takesRequests; rcases h with h | h | h <;> simp [h]

/-- A request that is taken, in a power state that answers nothing of its own, runs its own effect (R197). -/
theorem request_answered {k : RequestKind} {n : Nat} {f : State → State} (h1 : s.takesRequests = true) (h2 : s.portFree)
    (hk : s.powerAnswer k = none) : s.request k n true f = f s := by
  unfold State.request; simp [h1, portFree_notBusy h2, hk]

theorem serving_noPowerAnswer {k : RequestKind} (h : s.serving) (h1 : k ≠ .publishManifest) (h2 : k ≠ .publishSegment) : s.powerAnswer k = none := by
  unfold State.powerAnswer; rcases h with h | h | h <;> simp [h, h1, h2]

theorem running_noPowerAnswer {k : RequestKind} (h : s.running = true) : s.powerAnswer k = none := by
  unfold State.running at h; unfold State.powerAnswer
  revert h; cases s.supply.power <;> simp

theorem running_serving (h : s.running = true) : s.serving := by
  unfold State.running at h; unfold State.serving
  revert h; cases s.supply.power <;> simp

end

/-- The floor that the banks compute is F(V) of R11. -/
theorem floorAt_isFloor (l : List Gen) (v : Gen) : IsFloor l v (floorAt l v) := by
  unfold floorAt
  have key : ∀ (l pre : List Gen) (m : Gen), IsFloor pre v m →
      IsFloor (pre ++ l) v (l.foldl (fun m g => if g ≤ v && m < g then g else m) m) := by
    intro l
    induction l with
    | nil => intro pre m h; simpa using h
    | cons g l ih =>
      intro pre m h
      have := ih (pre ++ [g]) (if g ≤ v && m < g then g else m) ?_
      · simpa using this
      · obtain ⟨h1, h2, h3⟩ := h
        by_cases c : g ≤ v ∧ m < g
        · simp only [c.1, c.2, decide_true, Bool.and_self, if_true]
          refine ⟨Or.inl (by simp), c.1, ?_⟩
          intro x hx hv
          rcases List.mem_append.mp hx with hx | hx
          · exact Nat.le_of_lt (Nat.lt_of_le_of_lt (h3 x hx hv) c.2)
          · simp at hx; exact Nat.le_of_eq hx
        · rw [if_neg (by simpa using c)]
          refine ⟨?_, h2, ?_⟩
          · rcases h1 with h1 | h1
            · exact Or.inl (List.mem_append_left _ h1)
            · exact Or.inr h1
          · intro x hx hv
            rcases List.mem_append.mp hx with hx | hx
            · exact h3 x hx hv
            · simp at hx; subst hx
              exact Nat.le_of_not_lt (fun hc => c ⟨hv, hc⟩)
  have := key l [] 0 ⟨Or.inr rfl, Nat.zero_le _, by simp⟩
  simpa using this

/-- F(V) of R11 is one generation. -/
theorem isFloor_unique {l : List Gen} {v f g : Gen} (h : IsFloor l v f) (k : IsFloor l v g) : f = g := by
  obtain ⟨h1, h2, h3⟩ := h
  obtain ⟨k1, k2, k3⟩ := k
  apply Nat.le_antisymm
  · rcases h1 with h1 | h1
    · exact k3 f h1 h2
    · rw [h1]; exact Nat.zero_le _
  · rcases k1 with k1 | k1
    · exact h3 g k1 k2
    · rw [k1]; exact Nat.zero_le _

/-- The liveness test of a record is R11's. -/
theorem liveAt_iff_lives (r : Record) (f v : Gen) : r.liveAt f v = true ↔ r.lives f v := by
  unfold Record.liveAt Record.lives Record.unremovedAt
  cases h : r.removed <;> simp [and_assoc]

theorem bankOf_of_val {s : State} {d : Domain} {key : Nat} {b : BankId} (hb : b.val = bankOf s.supply.config.nB d key) : s.bankOf d key = b := by
  unfold State.bankOf; rw [← hb]; apply Fin.ext; simp [Fin.ofNat]

theorem bankDomain_of_val {s : State} {d : Domain} {key : Nat} {b : BankId} (h8 : 8 ≤ s.supply.config.nB)
    (hb : b.val = bankOf s.supply.config.nB d key) : s.bankDomain b = d := by
  unfold State.bankDomain; rw [hb]
  cases d
  · exact if_pos (Nat.mod_lt _ (by omega))
  · exact if_neg (by simp [bankOf])

/-- A lookup of the port is the answer of the key's bank (R44). -/
theorem exec_lookup {s : State} {c : Instr} {kind : RequestKind} {d : Domain} {key : Nat} (hl : lookupOf c = some (kind, d, key))
    (hs : s.serving) (hp : s.portFree) : exec c s = .next (s.answerLookup kind d key) ∧ (kind = .checkMedium ∧ d = .block ∨ kind = .getProduct ∧ d = .product) := by
  cases c <;> simp [lookupOf] at hl
  · obtain ⟨rfl, rfl, rfl⟩ := hl
    refine ⟨?_, Or.inl ⟨rfl, rfl⟩⟩
    show Host.Outcome.next _ = _
    rw [request_answered (serving_takesRequests hs) hp (serving_noPowerAnswer hs (by decide) (by decide))]
  · obtain ⟨rfl, rfl, rfl⟩ := hl
    refine ⟨?_, Or.inr ⟨rfl, rfl⟩⟩
    show Host.Outcome.next _ = _
    rw [request_answered (serving_takesRequests hs) hp (serving_noPowerAnswer hs (by decide) (by decide))]

theorem banking_banksOnly (s : State) (b : BankId) (f : Bank → Bank) : s.banking b f = { s with banks := (s.banking b f).banks } := rfl

/-- Going on with a scrub changes the bank's work and cursor only. -/
theorem scrubOn_shape (s : State) (b : BankId) (n e : Nat) :
    (s.scrubOn b n e) = { s with banks := (s.scrubOn b n e).banks } ∧
    (∀ c, c ≠ b → (s.scrubOn b n e).bank c = s.bank c) ∧
    ((s.scrubOn b n e).bank b).scrubDue = (s.bank b).scrubDue ∧ ((s.scrubOn b n e).bank b).state = (s.bank b).state := by
  unfold State.scrubOn
  split
  · refine ⟨rfl, fun c h => ?_, by simp, by simp⟩
    unfold State.working State.heading
    rw [State.banking_bank_other _ _ _ _ h, State.banking_bank_other _ _ _ _ h]
  · refine ⟨rfl, fun c h => ?_, by simp, by simp⟩
    unfold State.working
    rw [State.banking_bank_other _ _ _ _ h]

/-- Beginning a scrub changes one bank, which is SCRUBBING then. -/
theorem beginScrub_shape (s : State) (b : BankId) :
    (s.beginScrub b) = { s with banks := (s.beginScrub b).banks } ∧
    (∀ c, c ≠ b → (s.beginScrub b).bank c = s.bank c) ∧
    ((s.beginScrub b).bank b).scrubDue = (s.bank b).scrubDue ∧ ((s.beginScrub b).bank b).state = .scrubbing := by
  unfold State.beginScrub
  obtain ⟨h1, h2, h3, h4⟩ := scrubOn_shape (s.banking b (fun k => { k with state := .scrubbing })) b (s.bank b).header.scrubCursor (stepEnd (s.bank b).header.scrubCursor)
  refine ⟨by dsimp only; rw [h1]; rfl, fun c h => ?_, by rw [h3]; simp, by rw [h4]; simp⟩
  rw [h2 c h, State.banking_bank_other _ _ _ _ h]

/-- A failing record met makes the scrub due (R45). -/
theorem markFailing_due (k : Bank) (ps : List Nat) (h : ps ≠ []) (hk : k.state ≠ .faulted) :
    (k.markFailing ps).scrubDue = true ∧ (k.markFailing ps).state = k.state := by
  unfold Bank.markFailing
  have : ps.isEmpty = false := by simpa using h
  simp only [this, Bool.false_or, beq_iff_eq, hk, if_false]
  split <;> exact ⟨rfl, rfl⟩

/-- A lookup that meets a failing record of its key says so (R45). -/
theorem lookup_checkFailed {s : State} {b : BankId} {key : Nat}
    (h : (s.bank b).state = .idle ∨ (s.bank b).state = .applying ∨ (s.bank b).state = .compacting ∨ (s.bank b).state = .scrubbing)
    (hh : (s.bank b).header.hidesUntil (s.domain (s.bankDomain b)).visible = false)
    (hf : ∃ pr ∈ s.places b, pr.2.key = key ∧ pr.2.good = false) : (s.lookup b key).checkFailed = true := by
  have hany : ((s.places b).filter (fun pr => pr.2.key == key)).any (fun pr => !pr.2.good) = true := by
    obtain ⟨pr, h1, h2, h3⟩ := hf
    rw [List.any_eq_true]
    exact ⟨pr, by simp [h1, h2], by simp [h3]⟩
  unfold State.lookup
  dsimp only
  rcases h with h | h | h | h <;> rw [h] <;> dsimp only <;> rw [hh] <;> simp only [Bool.false_eq_true, if_false] <;>
    split <;> exact hany

theorem noticeEnable_bodyAllowed {en : BitVec 16} (h : en.toNat < 2048) : bodyAllowed .setNoticeEnable (toBytes 2 en.toNat) = true := by
  have e : field (toBytes 2 en.toNat) 0 2 = en.toNat := field_two _ en.isLt
  show (requestLengthOk 6 2 && decide (field (toBytes 2 en.toNat) 0 2 < 2048)) = true
  rw [e, decide_eq_true h]; rfl

/-- A request's meaning is `State.request` of its kind and the length of its body. -/
theorem exec_request {c : Instr} {kind : RequestKind} (h : requestKindOf c = some kind) (s : State) :
    ∃ (ok : Bool) (f : State → State), exec c s = .next (s.request kind (requestBody c).length ok f) ∧ (c.wf = true → ok = true) := by
  cases c <;> simp only [requestKindOf, Option.some.injEq, reduceCtorEq] at h <;> subst h
  case setNoticeEnable en => exact ⟨_, _, rfl, (Sys2Proof.Laws.Operands.setNoticeEnable en · |>.1 _ rfl)⟩
  case publishManifest b => exact ⟨_, _, rfl, (Sys2Proof.Laws.Operands.publishManifest b · |>.1 _ rfl)⟩
  case publishSegment b => exact ⟨_, _, rfl, (Sys2Proof.Laws.Operands.publishSegment b · |>.1 _ rfl)⟩
  case commission b => exact ⟨_, _, rfl, (Sys2Proof.Laws.Operands.commission b · |>.1 _ rfl)⟩
  all_goals exact ⟨true, _, rfl, fun _ => rfl⟩

/-- A request that its power state turns away is answered at once with an empty body (R197). -/
theorem request_turned {s : State} {k : RequestKind} {n : Nat} {f : State → State} {o : OutcomeCode} (h1 : s.takesRequests = true) (h2 : s.portFree)
    (hk : s.powerAnswer k = some o) : s.request k n true f = s.withResponse k.code o [] := by
  unfold State.request; simp only [h1, portFree_notBusy h2, hk]; rfl

theorem portBusy_of {s : State} (h : s.port.inProgress ≠ none ∨ s.port.response ≠ none) : s.portBusy = true := by
  unfold State.portBusy
  rcases h with h | h
  · simp [Option.isSome_iff_ne_none.mpr h]
  · simp [Option.isSome_iff_ne_none.mpr h]

/-- A window that does not clock out an unread response is an overrun and nothing else (R196). -/
theorem overrunWindow_unread {s : State} {n : Nat} (h : ∀ r, s.port.response = some r → n < r.bytes.length) :
    s.overrunWindow n = s.overrunBy := by
  unfold State.overrunWindow State.responseRead
  show (match s.port.response with
    | none => s.overrunBy
    | some r => _) = s.overrunBy
  split
  · rfl
  · rename_i r hr
    rw [if_neg (by have := h r hr; omega)]
    rfl

/-- On a busy port every window that carries a request is an overrun of its length (R196). -/
theorem exec_busyWindow {s : State} {c : Instr} {n : Nat} (ht : s.takesRequests = true) (hb : s.portBusy = true) (hc : carriesRequest c n) :
    exec c s = .next (s.overrunWindow n) := by
  rcases hc with ⟨h, rfl⟩ | ⟨w, kind, rfl, hw, rfl⟩ | rfl
  · obtain ⟨k, hk⟩ := Option.isSome_iff_exists.mp h
    obtain ⟨ok, f, e, _⟩ := exec_request hk s
    rw [e]
    unfold State.request
    simp [ht, hb, requestBytes]
  · show Host.Outcome.next _ = _
    rw [hw]; simp [ht, hb]
  · show Host.Outcome.next _ = _
    simp [ht, hb]

theorem bumpBy_one (n : Nat) : bumpBy 1 n = min 65535 (n + 1) := rfl

/-- In a serving power state a request other than a publish runs its own effect (R197). -/
theorem serving_request {s : State} {k : RequestKind} {n : Nat} {f : State → State} (hs : s.serving) (hp : s.portFree) (h1 : k ≠ .publishManifest) (h2 : k ≠ .publishSegment) :
    s.request k n true f = f s := request_answered (serving_takesRequests hs) hp (serving_noPowerAnswer hs h1 h2)

theorem toBytes_length (n v : Nat) : (toBytes n v).length = n := by
  induction n with
  | zero => rfl
  | succ n ih => simp [toBytes, ih]

/-- An answer brings nothing else about in a part at rest. -/
theorem respond_settle {s : State} (hr : s.rests) (h : s.running = true) (k : RequestKind) (o : OutcomeCode) (b : List Byte) :
    (s.respond k o b).settle = s.withResponse k.code o b := by
  have := settle_rest (rests_port hr (s.respond k o b).port) (running_power h).1 (running_power h).2
  exact this

/-- In RUN and PARKED every request runs its own effect (R197). -/
theorem running_request {s : State} {k : RequestKind} {n : Nat} {f : State → State} (h : s.running = true) (hp : s.portFree) :
    s.request k n true f = f s := request_answered (serving_takesRequests (running_serving h)) hp (running_noPowerAnswer h)

/-- A slot that holds a generation is neither EMPTY nor DRAINING. -/
theorem slotHolding_state {s : State} {d g i} (h : s.slotHolding d g = some i) : (s.slot i).state ≠ .empty ∧ (s.slot i).state ≠ .draining ∧ (s.slot i).domain = d ∧ (s.slot i).gen = g := by
  have := List.find?_some h
  simp only [Bool.and_eq_true, bne_iff_ne, ne_eq, beq_iff_eq] at this
  exact ⟨this.1.1.1, this.1.1.2, this.1.2, this.2⟩

theorem allSlots_findFirst (q : SlotId → Bool) (i : SlotId) (h1 : ∀ j, j < i → q j = false) (h2 : q i = true) : allSlots.find? q = some i := by
  have e : allSlots = [0,1,2,3,4,5] := by decide
  rw [e]
  match i with
  | 0 => simp [h2]
  | 1 => simp [h1 0 (by decide), h2]
  | 2 => simp [h1 0 (by decide), h1 1 (by decide), h2]
  | 3 => simp [h1 0 (by decide), h1 1 (by decide), h1 2 (by decide), h2]
  | 4 => simp [h1 0 (by decide), h1 1 (by decide), h1 2 (by decide), h1 3 (by decide), h2]
  | 5 => simp [h1 0 (by decide), h1 1 (by decide), h1 2 (by decide), h1 3 (by decide), h1 4 (by decide), h2]

theorem allSlots_findEmpty {s : State} {i : SlotId} (h : (s.slot i).state = .empty) (hj : ∀ j : SlotId, j < i → (s.slot j).state ≠ .empty) :
    allSlots.find? (fun i => (s.slot i).state == .empty) = some i :=
  allSlots_findFirst _ i (fun j hji => by simpa using hj j hji) (by simpa using h)

end Sys2Proof.Machine
end

