-- ==== Sys2Proof/Laws/FrameRules.lean ====
section
/-! SUPPORT. What an arriving frame does: the filter, the header, the peer record and the outcome of an ask. -/

namespace Sys2Proof.Machine

/-- A well-formed frame of the fleet from another station passes the filter (R173). -/
theorem filterFrame_passed {s : State} {k h body} (hf : frameFormed k h body) (ho : s.frameOurs h) : s.filterFrame (some k) h body = .passed := by
  obtain ⟨h1, h2, h3⟩ := hf
  obtain ⟨h4, h5⟩ := ho
  have hl : body.length ≤ 256 := by
    cases k <;> simp [bodyLengthOk] at h2 <;> omega
  unfold State.filterFrame
  dsimp only
  have e1 : (decide (h.bodyLength.toNat ≤ 256) && h.bodyLength.toNat == body.length && bodyLengthOk k body.length) = true := by simp [h1, h2, hl]
  rw [e1, if_neg (by simp)]
  have e2 : (if (k == .announce) = true then h.addressee == 0#16 else h.addressee != 0#16 && h.addressee != 65535#16) = true := by
    by_cases hk : k = .announce
    · simpa [hk] using h3
    · simpa [hk] using h3
  rw [e2, if_neg (by simp), if_neg (by simpa using h4), if_neg (by simpa using h5)]

/-- A frame with a bad shape is malformed (R173). -/
theorem filterFrame_malformed {s : State} {k h body} (hf : ¬ frameFormed k h body) : s.filterFrame (some k) h body = .malformed := by
  unfold State.filterFrame
  dsimp only
  by_cases e1 : (decide (h.bodyLength.toNat ≤ 256) && h.bodyLength.toNat == body.length && bodyLengthOk k body.length) = true
  · rw [e1, if_neg (by simp)]
    by_cases e2 : (if (k == .announce) = true then h.addressee == 0#16 else h.addressee != 0#16 && h.addressee != 65535#16) = true
    · exfalso; apply hf
      simp at e1
      refine ⟨e1.1.2, e1.2, ?_⟩
      by_cases hk : k = .announce
      · simpa [hk] using e2
      · simpa [hk] using e2
    · rw [Bool.eq_false_iff.mpr e2]; rfl
  · rw [Bool.eq_false_iff.mpr e1]; rfl

/-- A well-formed frame that is not for this station is foreign (R173). -/
theorem filterFrame_foreign {s : State} {k h body} (hf : frameFormed k h body) (ho : ¬ s.frameOurs h) : s.filterFrame (some k) h body = .foreign := by
  obtain ⟨h1, h2, h3⟩ := hf
  have hl : body.length ≤ 256 := by
    cases k <;> simp [bodyLengthOk] at h2 <;> omega
  unfold State.filterFrame
  dsimp only
  have e1 : (decide (h.bodyLength.toNat ≤ 256) && h.bodyLength.toNat == body.length && bodyLengthOk k body.length) = true := by simp [h1, h2, hl]
  rw [e1, if_neg (by simp)]
  have e2 : (if (k == .announce) = true then h.addressee == 0#16 else h.addressee != 0#16 && h.addressee != 65535#16) = true := by
    by_cases hk : k = .announce
    · simpa [hk] using h3
    · simpa [hk] using h3
  rw [e2, if_neg (by simp)]
  split
  · rfl
  rename_i h4
  split
  · rfl
  rename_i h5
  exact absurd ⟨by simpa using h4, by simpa using h5⟩ ho

/-- What the six frames use once their header is taken. -/
def frameUse : Instr → State → State
  | .announceReceived h b => fun s => s.useAnnounce h b
  | .manifestAskReceived h b => fun s => s.useManifestAsk h b
  | .manifestReceived h b => fun s => s.useManifest h b
  | .segmentAskReceived h b => fun s => s.useSegmentAsk h b
  | .segmentReceived h b => fun s => s.useSegment h b
  | .declineReceived h b => fun s => s.useDecline h b
  | _ => id

/-- A frame's meaning is `State.receive` with its use. -/
theorem exec_frame {c : Instr} {k h body} (hc : frameOf c = some (k, h, body)) (s : State) :
    exec c s = .next (s.receive k h body (frameUse c)) := by
  cases c <;> simp only [frameOf, Option.some.injEq, Prod.mk.injEq, reduceCtorEq] at hc <;> obtain ⟨rfl, rfl, rfl⟩ := hc <;> rfl

theorem receive_taken {s : State} {k h body} (ht : s.frameTaken k h body) (u : State → State) :
    s.receive k h body u = (u ((s.readHeader k h).takeHeader h)).settle := by
  obtain ⟨h1, h2, h3, h4, h5⟩ := ht
  unfold State.receive
  rw [h1, if_neg (by simp), filterFrame_passed h2 h3]
  dsimp only
  have : badSender h = false := by unfold badSender; simp [h4, h5]
  rw [this, if_neg (by simp)]

/-- A frame that is taken marks its header and is then used (R174). -/
theorem exec_frameTaken {s : State} {c : Instr} {k h body} (hc : frameOf c = some (k, h, body)) (ht : s.frameTaken k h body) :
    exec c s = .next (frameUse c ((s.readHeader k h).takeHeader h)).settle := by
  rw [exec_frame hc, receive_taken ht]

/-- What `Calm` leaves alone includes the store. -/
theorem sameStore_of_calm {s t : State} (h : Calm s t) : s.sameStore t :=
  ⟨h.pins, by rw [h.supply], h.places, h.cells, h.index, h.startRecord, by rw [h.backup], by rw [h.backup], by rw [h.backup], h.enables⟩

theorem sameStore_trans {s t u : State} (h : s.sameStore t) (k : t.sameStore u) : s.sameStore u :=
  ⟨k.1.trans h.1, k.2.trans h.2, k.3.trans h.3, k.4.trans h.4, k.5.trans h.5, k.6.trans h.6, k.7.trans h.7, k.8.trans h.8, k.9.trans h.9, k.10.trans h.10⟩

/-- The running out of an event writes no store memory in RUN and PARKED. -/
theorem settle_sameStore {s : State} (h : s.running = true) : s.sameStore s.settle := by
  have k := settle_still_running h
  exact ⟨k.pins, k.supply, k.places, k.cells, k.index, k.startRecord, k.barred, k.dips, k.cause, k.enables⟩

theorem sameStore_running {s t : State} (h : s.sameStore t) (hr : s.running = true) : t.running = true := by
  have e := congrArg Supply.power h.supply
  have e : t.supply.power = s.supply.power := e
  unfold State.running at hr ⊢; rw [e]; exact hr

theorem takeManifest_sameStore (s : State) (m : Manifest) : s.sameStore (s.takeManifest m) := by
  have r : ∀ (t : State), s.sameStore { s with pool := t.pool, slots := t.slots, todo := t.todo, port := { s.port with flags := t.port.flags, counters := t.port.counters } } :=
    fun t => ⟨rfl, rfl, rfl, rfl, rfl, rfl, rfl, rfl, rfl, rfl⟩
  unfold State.takeManifest
  dsimp only
  split
  · exact r s
  split
  · exact r s.countConflict
  split
  · split
    · exact r (State.queueIndex _ _)
    · split
      · exact r s
      · exact r (s.countConflict.raise _)
  · split
    · unfold State.openSlot
      split
      · rename_i hx
        split at hx
        · exact absurd hx (by simp)
        · simp at hx
          obtain ⟨rfl, rfl⟩ := hx
          exact r (State.queueIndex _ _)
      · exact r s
    · exact r s

theorem takeSegment_sameStore (s : State) (n d b) : s.sameStore (s.takeSegment n d b) := by
  unfold State.takeSegment
  split
  · exact sameStore_of_calm ((quiet_counting _).trans (quiet_peerSegmentFailure _)).calm
  · exact sameStore_of_calm (quiet_counting _).calm
  · exact sameStore_of_calm ((quiet_counting _).calm.trans (calm_indexArrived _ _ _))
  · exact sameStore_of_calm (.refl s)
  · exact sameStore_of_calm (quiet_counting _).calm
  · exact sameStore_of_calm (quiet_counting _).calm
  · exact sameStore_of_calm ((quiet_counting _).trans (quiet_peerSegmentFailure _)).calm
  · split
    · exact ⟨rfl, rfl, rfl, rfl, rfl, rfl, rfl, rfl, rfl, rfl⟩
    · exact ⟨rfl, rfl, rfl, rfl, rfl, rfl, rfl, rfl, rfl, rfl⟩

/-- No frame's use writes store memory. -/
theorem frameUse_sameStore (c : Instr) (s : State) : s.sameStore (frameUse c s) := by
  have rf : s.sameStore s := sameStore_of_calm (.refl s)
  have mal : s.sameStore s.countMalformed := sameStore_of_calm (quiet_counting _).calm
  cases c <;> try exact rf
  · show s.sameStore (State.useAnnounce _ _ _)
    unfold State.useAnnounce; split
    · exact mal
    · exact sameStore_of_calm (quiet_takeAnnounce _ _ _).calm
  · show s.sameStore (State.useManifestAsk _ _ _)
    unfold State.useManifestAsk; split
    · exact rf
    · split
      · exact mal
      · exact sameStore_of_calm (calm_takeManifestAsk _ _ _)
  · show s.sameStore (State.useManifest _ _ _)
    unfold State.useManifest; split
    · exact rf
    · split
      · exact mal
      · exact sameStore_trans (takeManifest_sameStore _ _) (sameStore_of_calm (calm_manifestAnswered _ _ _))
  · show s.sameStore (State.useSegmentAsk _ _ _)
    unfold State.useSegmentAsk; split
    · exact rf
    · split
      · exact mal
      · exact sameStore_of_calm (calm_takeSegmentAsk _ _ _ _ _)
  · show s.sameStore (State.useSegment _ _ _)
    unfold State.useSegment; split
    · exact mal
    · exact takeSegment_sameStore _ _ _ _
  · show s.sameStore (State.useDecline _ _ _)
    unfold State.useDecline; split
    · exact rf
    · split
      · exact mal
      · exact sameStore_of_calm (calm_takeDecline _ _)

/-- A change of the LNK's rate and of the notice flags only. -/
def LinkOnly (s t : State) : Prop := t = { s with link := t.link, port := { s.port with flags := t.port.flags } } ∧ t.link.control = s.link.control ∧ t.link.measuring = s.link.measuring

theorem linkOnly_refl (s : State) : LinkOnly s s := ⟨rfl, rfl, rfl⟩

theorem linkOnly_trans {a b c : State} (h : LinkOnly a b) (k : LinkOnly b c) : LinkOnly a c := by
  obtain ⟨h1, h2, h3⟩ := h
  obtain ⟨k1, k2, k3⟩ := k
  refine ⟨?_, k2.trans h2, k3.trans h3⟩
  generalize c.link = x at *
  generalize c.port.flags = y at *
  rw [k1]
  generalize b.link = x at *
  generalize b.port.flags = y at *
  rw [h1]

theorem lowRateTest_linkOnly (s : State) : LinkOnly s s.lowRateTest := by
  unfold State.lowRateTest; dsimp only; split <;> split <;> exact ⟨rfl, rfl, rfl⟩

theorem changeAsr_linkOnly (s : State) (v) : LinkOnly s (s.changeAsr v) := by
  unfold State.changeAsr; dsimp only
  split
  · exact linkOnly_refl s
  · exact linkOnly_trans (b := s.linked _) ⟨rfl, rfl, rfl⟩ (lowRateTest_linkOnly _)

theorem markHeard_linkOnly (s : State) : LinkOnly s s.markHeard := by
  unfold State.markHeard; dsimp only
  split
  · exact ⟨rfl, rfl, rfl⟩
  · exact linkOnly_trans (b := s.linked _) ⟨rfl, rfl, rfl⟩ (linkOnly_trans (changeAsr_linkOnly _ _) ⟨rfl, rfl, rfl⟩)

theorem readHeader_linkOnly (s : State) (k h) : LinkOnly s (s.readHeader k h) := by
  unfold State.readHeader
  extract_lets s1
  have h1 : LinkOnly s s1 := by
    unfold s1; split
    · exact markHeard_linkOnly s
    · exact linkOnly_refl s
  split
  · exact linkOnly_trans h1 ⟨rfl, rfl, rfl⟩
  · exact h1

theorem cohortHeader_peers (s : State) (a b : Peer) : (s.cohortHeader a b).peers = s.peers := by
  unfold State.cohortHeader
  split
  · rfl
  · split <;> rfl

theorem takeHeader_known {s : State} {h : LinkHeader} {p : Peer} (hp : s.peer h.sender.toNat = some p) :
    (s.takeHeader h).peers = (s.setPeer (p.refreshed s.clock s.supply.config.vehicle h)).peers := by
  unfold State.takeHeader; rw [hp]; dsimp only
  unfold State.refreshPeer
  extract_lets q s1 s2
  rw [cohortHeader_peers]
  unfold s2; split <;> rfl

theorem refreshed_station (p : Peer) (n v h) : (p.refreshed n v h).station = p.station := by
  unfold Peer.refreshed
  extract_lets gap p1 p2
  have h1 : p1.station = p.station := by unfold p1; split <;> rfl
  show p2.station = _
  unfold p2; split <;> exact h1

theorem peer_congr {s t : State} (h : t.peers = s.peers) (n) : t.peer n = s.peer n := by unfold State.peer; rw [h]

/-- A known station's header refreshes its record and no other (R110). -/
theorem takeHeader_peer {s : State} {h : LinkHeader} {p : Peer} (hp : s.peer h.sender.toNat = some p) (n : Station) :
    (s.takeHeader h).peer n = if n = h.sender.toNat then some (p.refreshed s.clock s.supply.config.vehicle h) else s.peer n := by
  rw [peer_congr (takeHeader_known hp)]
  have hs := (peer_found hp).2
  have e := setPeer_peer s (p.refreshed s.clock s.supply.config.vehicle h) p (by rw [refreshed_station, hs]; exact hp) n
  rw [refreshed_station, hs] at e
  exact e

/-- A known station's header, read and taken, refreshes its record and no other. -/
theorem header_peer {s : State} {k} {h : LinkHeader} {p : Peer} (hp : s.peer h.sender.toNat = some p) (n : Station) :
    ((s.readHeader k h).takeHeader h).peer n = if n = h.sender.toNat then some (p.refreshed s.clock s.supply.config.vehicle h) else s.peer n := by
  have hl := (readHeader_linkOnly s k h).1
  have e1 : (s.readHeader k h).peers = s.peers := by rw [hl]
  have e2 : (s.readHeader k h).clock = s.clock := by rw [hl]
  have e3 : (s.readHeader k h).supply = s.supply := by rw [hl]
  rw [takeHeader_peer (p := p) (by rw [peer_congr e1]; exact hp), e2, e3, peer_congr e1]

/-- What refreshing gives the record (R110). -/
theorem refreshed_facts (p : Peer) (now v h) :
    let q := p.refreshed now v h
    q.station = p.station ∧ q.vehicle = h.vehicle.toNat ∧ (q.cohort = true ↔ h.vehicle.toNat = v) ∧
      q.state = .known ∧ q.heard = now ∧ q.sequence = h.sequence ∧ q.congested = h.flags.getLsbD 0 ∧
      q.removalDue = false ∧ q.values = p.values ∧ q.parked = p.parked ∧ q.asks = p.asks ∧
      (256 ≤ (h.sequence - p.sequence - 1).toNat →
        q.loss = 0 ∧ q.received = 1 ∧ q.timeouts = 0 ∧ q.unresponsive = none ∧ q.busy = none) ∧
      ((h.sequence - p.sequence - 1).toNat < 256 →
        q.timeouts = p.timeouts ∧ q.unresponsive = p.unresponsive ∧ q.busy = p.busy ∧
        (p.received + 1 = 16 → q.received = 0 ∧ q.loss = min 15 (p.loss + (h.sequence - p.sequence - 1).toNat) - 1) ∧
        (p.received + 1 ≠ 16 →
          q.received = p.received + 1 ∧ q.loss = min 15 (p.loss + (h.sequence - p.sequence - 1).toNat))) := by
  intro q
  unfold q Peer.refreshed
  generalize (h.sequence - p.sequence - 1).toNat = g
  by_cases hg : 256 ≤ g
  · simp only [hg, if_true]
    simp [congestionMark, Nat.not_lt.mpr hg]
  · simp only [hg, if_false]
    by_cases hr : p.received + 1 = 16
    · simp [hr, congestionMark, Nat.not_le.mp hg]
    · simp [hr, congestionMark, Nat.not_le.mp hg]

theorem useAsk_peers {c : Instr} {k h body} (hc : frameOf c = some (k, h, body)) (hk : k = .manifestAsk ∨ k = .segmentAsk) (s : State) :
    (frameUse c s).peers = s.peers := by
  have header_keeps : ∀ (s : State) k n b, (s.answerPeer k n b).peers = s.peers := by
    intro s k n b; unfold State.answerPeer State.offerControl; split <;> rfl
  cases c <;> simp only [frameOf, Option.some.injEq, Prod.mk.injEq, reduceCtorEq] at hc <;> obtain ⟨rfl, rfl, rfl⟩ := hc <;> simp at hk
  · show (State.useManifestAsk _ _ _).peers = _
    unfold State.useManifestAsk; split
    · rfl
    · split
      · rfl
      · unfold State.takeManifestAsk; split
        · rfl
        · exact header_keeps _ _ _ _
  · show (State.useSegmentAsk _ _ _).peers = _
    unfold State.useSegmentAsk; split
    · rfl
    · split
      · rfl
      · unfold State.takeSegmentAsk; split
        · rfl
        split
        · exact header_keeps _ _ _ _
        extract_lets total
        split
        · rfl
        split
        · rfl
        split
        · exact header_keeps _ _ _ _
        · rfl

/-- A well-formed ANNOUNCE replaces its sender's values (R111). -/
theorem useAnnounce_peer {s : State} {h : LinkHeader} {body} {p : Peer} (hp : s.peer h.sender.toNat = some p) (n : Station) :
    (s.useAnnounce h body).peer n = if n = h.sender.toNat then (match parseAnnounce body with
      | none => some p
      | some (b, v) => some { p with parked := b, values := v }) else s.peer n := by
  unfold State.useAnnounce
  cases hb : parseAnnounce body with
  | none =>
    dsimp only
    by_cases hn : n = h.sender.toNat
    · rw [if_pos hn, hn]; exact hp
    · rw [if_neg hn]; rfl
  | some bv =>
    obtain ⟨b, v⟩ := bv
    dsimp only
    unfold State.takeAnnounce; rw [hp]; dsimp only
    have hs := (peer_found hp).2
    have e := setPeer_peer s { p with parked := b, values := v } p (by show s.peer p.station = _; rw [hs]; exact hp) n
    have e' : (s.setPeer { p with parked := b, values := v }).peer n = if n = p.station then some { p with parked := b, values := v } else s.peer n := e
    have e2 : (s.setPeer { p with parked := b, values := v }).peer n = if n = h.sender.toNat then some { p with parked := b, values := v } else s.peer n := by
      rw [e', hs]
    rw [← e2]
    split <;> rfl

theorem settle_peers {u : State} (hr : u.running = true) (n) : (u.settle.peer n).map Peer.unasked = (u.peer n).map Peer.unasked :=
  (settle_still_running hr).peers n

/-- A record stays in the table through the running out of an event, but for its asks. -/
theorem settle_peer {u : State} (hr : u.running = true) {n p} (h : u.peer n = some p) : ∃ q, u.settle.peer n = some q ∧ q.unasked = p.unasked := by
  have := settle_peers hr n
  rw [h] at this
  cases hq : u.settle.peer n with
  | none => rw [hq] at this; simp at this
  | some q => rw [hq] at this; exact ⟨q, rfl, by simpa using this⟩

theorem frameTaken_running {s : State} {c k h body} (hc : frameOf c = some (k, h, body)) (ht : s.frameTaken k h body) :
    (frameUse c ((s.readHeader k h).takeHeader h)).running = true := by
  have c1 := sameStore_of_calm (calm_readHeader (s := s) k h)
  have c2 := sameStore_trans (sameStore_trans c1 (sameStore_of_calm (quiet_takeHeader (s := s.readHeader k h) h).calm)) (frameUse_sameStore c _)
  exact sameStore_running c2 ht.1

theorem unasked_eq_fields {p q : Peer} (h : q.unasked = p.unasked) : q.station = p.station ∧ q.vehicle = p.vehicle ∧ q.cohort = p.cohort ∧ q.state = p.state ∧ q.heard = p.heard ∧
   q.sequence = p.sequence ∧ q.received = p.received ∧ q.loss = p.loss ∧ q.timeouts = p.timeouts ∧ q.unresponsive = p.unresponsive ∧ q.busy = p.busy ∧ q.congested = p.congested ∧ q.parked = p.parked ∧ q.values = p.values ∧ q.removalDue = p.removalDue := by
  unfold Peer.unasked at h
  injection h
  simp_all

/-- A compaction request leaves the port alone. -/
theorem requestCompaction_port (s : State) (d : Domain) : (s.requestCompaction d).port = s.port := by
  have : ∀ (l : List BankId) (s : State), (l.foldl (fun s b => s.post (.bankRequest b .compact)) s).port = s.port := by
    intro l; induction l with
    | nil => intro s; rfl
    | cons b l ih => intro s; exact ih _
  exact this _ _

theorem advanceVisible_counters (s : State) (d a b) : (s.advanceVisible d a b).port.counters = s.port.counters := by
  unfold State.advanceVisible
  split
  · rfl
  · simp [requestCompaction_port]

theorem advanceTests_counters (s : State) : s.advanceTests.port.counters = s.port.counters := (advanceVisible_counters _ _ _ _).trans (advanceVisible_counters _ _ _ _)

theorem takeHeader_counters {s : State} {h : LinkHeader} {p : Peer} (hp : s.peer h.sender.toNat = some p) : (s.takeHeader h).port.counters = s.port.counters := by
  unfold State.takeHeader; rw [hp]; dsimp only
  unfold State.refreshPeer
  extract_lets q s1 s2
  have h2 : s2.port.counters = s.port.counters := by unfold s2; split <;> rfl
  rw [← h2]
  unfold State.cohortHeader
  split
  · rfl
  · split <;> rfl

theorem header_counters {s : State} {k} {h : LinkHeader} {p : Peer} (hp : s.peer h.sender.toNat = some p) : ((s.readHeader k h).takeHeader h).port.counters = s.port.counters := by
  have hl := (readHeader_linkOnly s k h).1
  have e1 : (s.readHeader k h).peers = s.peers := by rw [hl]
  rw [takeHeader_counters (p := p) (by rw [peer_congr e1]; exact hp), hl]

theorem announce_of_frame {c : Instr} {h body} (hc : frameOf c = some (.announce, h, body)) : c = .announceReceived h body := by
  cases c <;> simp only [frameOf, Option.some.injEq, Prod.mk.injEq, reduceCtorEq] at hc <;> first | exact hc.elim | (obtain ⟨-, rfl, rfl⟩ := hc; rfl) | (exact absurd hc.1 (by decide))

theorem readHeader_decay (s : State) (h) : (s.readHeader .announce h).link.decay = some (s.clock + 4000000) := by
  unfold State.readHeader
  extract_lets s1
  have : s1.clock = s.clock := by
    unfold s1; split
    · rw [(markHeard_linkOnly s).1]
    · rfl
  show (State.startDecay s1).link.decay = _
  show some (s1.clock + _) = _
  rw [this]; rfl

theorem memberLeft_counters (s : State) (n) : (s.memberLeft n).port.counters = s.port.counters := rfl

theorem removePeer_counters (s : State) (p) : (s.removePeer p).port.counters = s.port.counters := by
  unfold State.removePeer; dsimp only; split
  · exact memberLeft_counters _ _
  · rfl

theorem addPeer_counters (s : State) (p) : (s.addPeer p).port.counters = s.port.counters := by
  unfold State.addPeer; dsimp only; split <;> rfl

theorem header_counters_refusals (s : State) (k h) : ∃ n, ((s.readHeader k h).takeHeader h).port.counters = { s.port.counters with peerRefusals := n } := by
  cases hp : s.peer h.sender.toNat with
  | some p => exact ⟨s.port.counters.peerRefusals, by rw [header_counters hp]⟩
  | none =>
    have hl := (readHeader_linkOnly s k h).1
    have e1 : (s.readHeader k h).peers = s.peers := by rw [hl]
    have e4 : (s.readHeader k h).port.counters = s.port.counters := by rw [hl]
    have th : (s.readHeader k h).takeHeader h = (s.readHeader k h).enterPeer h := by
      unfold State.takeHeader; rw [peer_congr e1, hp]
    rw [th]; unfold State.enterPeer
    split
    · exact ⟨s.port.counters.peerRefusals, by rw [addPeer_counters, e4]⟩
    · split
      · exact ⟨s.port.counters.peerRefusals, by rw [addPeer_counters, removePeer_counters, e4]⟩
      · exact ⟨bumpBy 1 s.port.counters.peerRefusals, by show { (s.readHeader k h).port.counters with peerRefusals := bumpBy 1 (s.readHeader k h).port.counters.peerRefusals } = _; rw [e4]⟩

/-- What the taking of a known or new station's header leaves alone, for the use of its frame. -/
structure HeaderKeeps (s x : State) : Prop where
  control : x.link.control = s.link.control
  fetch : x.fetch = s.fetch
  pool : x.pool = s.pool
  slots : x.slots = s.slots
  index : x.store.index = s.store.index
  cells : x.store.cells = s.store.cells
  backup : x.backup = s.backup
  supply : x.supply = s.supply
  clock : x.clock = s.clock
  held : ∀ d, (x.domain d).held = (s.domain d).held
  counters : ∃ n, x.port.counters = { s.port.counters with peerRefusals := n }

theorem header_keeps (s : State) (k h) : HeaderKeeps s ((s.readHeader k h).takeHeader h) := by
  have q := quiet_takeHeader (s := s.readHeader k h) h
  have l := readHeader_linkOnly s k h
  have c := calm_readHeader (s := s) k h
  have c2 := c.trans q.calm
  refine ⟨by rw [q.link]; exact l.2.1, ?_, c2.pool, ?_, c2.index, c2.cells, c2.backup, c2.supply, c2.clock, fun d => ?_, header_counters_refusals s k h⟩
  · rw [q.fetch, l.1]
  · rw [q.slots, l.1]
  · rw [q.held, l.1]; rfl

theorem HeaderKeeps.malformedCounted {s x : State} (h : HeaderKeeps s x) : x.countMalformed.port.counters.malformed = upOne s.port.counters.malformed := by
  obtain ⟨n, hn⟩ := h.counters
  show bumpBy 1 x.port.counters.malformed = _
  rw [hn]; rfl

theorem HeaderKeeps.servable {s x : State} (h : HeaderKeeps s x) (d g) : x.servable d g = s.servable d g := by
  unfold State.servable State.entry; rw [h.index]

theorem HeaderKeeps.entry {s x : State} (h : HeaderKeeps s x) (d g) : x.entry d g = s.entry d g := by
  unfold State.entry; rw [h.index]

theorem HeaderKeeps.slot {s x : State} (h : HeaderKeeps s x) (i) : x.slot i = s.slot i := by unfold State.slot; rw [h.slots]

theorem HeaderKeeps.slotHolding {s x : State} (h : HeaderKeeps s x) (d g) : x.slotHolding d g = s.slotHolding d g := by
  unfold State.slotHolding; simp only [h.slot]

theorem HeaderKeeps.addressed {s x : State} (h : HeaderKeeps s x) (header_keeps : LinkHeader) : x.addressed header_keeps = (header_keeps.addressee.toNat == s.supply.config.station) := by
  unfold State.addressed; rw [h.supply]

/-- A DECLINE with room is queued in the CONTROL class (R141). -/
theorem decline_room {x : State} {n d g k i r} (h : x.link.control.length < 8) : (x.decline n d g k i r) = x.linked (fun l => { l with control := l.control ++ [{ kind := .decline, addressee := n, body := DeclineBody.bytes { domain := d, gen := g, kind := k, index := i, reason := r }, ask := none }] }) := by
  unfold State.decline State.answerPeer State.offerControl
  rw [if_pos (show _ < Config.controlPlaces from h)]

/-- A DECLINE without room is dropped and counted (R141). -/
theorem decline_full {x : State} {n d g k i r} (h : 8 ≤ x.link.control.length) : (x.decline n d g k i r) = x.countControlDrop := by
  unfold State.decline State.answerPeer State.offerControl
  rw [if_neg (Nat.not_lt.mpr (show Config.controlPlaces ≤ _ from h))]

theorem endAsk_counters (s : State) (a e) : (s.endAsk a e).port.counters = s.port.counters := by
  unfold State.endAsk
  extract_lets s1 s2 s3 s4
  have h3 : s3.port.counters = s.port.counters := by
    unfold s3 State.peerAskEnded; split
    · rfl
    · dsimp only; split
      · rw [removePeer_counters]; rfl
      · rfl
  show s4.port.counters = _
  unfold s4; split
  · unfold State.manifestAskEnded; split <;> exact h3
  · exact h3

theorem advanceVisible_flags (s : State) (d a b) (n : Nat) (h : s.port.flags.getLsbD n = true) : (s.advanceVisible d a b).port.flags.getLsbD n = true := by
  unfold State.advanceVisible
  split
  · exact h
  · simp [requestCompaction_port, BitVec.getLsbD_or, h]

theorem endAsk_flags (s : State) (a e) (n : Nat) (h : s.port.flags.getLsbD n = true) : (s.endAsk a e).port.flags.getLsbD n = true := by
  unfold State.endAsk
  extract_lets s1 s2 s3 s4
  have h3 : s3.port.flags.getLsbD n = true := by
    unfold s3 State.peerAskEnded; split
    · exact h
    · dsimp only; split
      · unfold State.removePeer; dsimp only; split
        · exact h
        · exact h
      · exact h
  show s4.port.flags.getLsbD n = _
  unfold s4; split
  · unfold State.manifestAskEnded; split <;> exact h3
  · exact h3

/-- A bad segment adds 4 to the loss score (R117). -/
theorem peerSegmentFailure_peer {x : State} {n : Station} {p : Peer} (hp : x.peer n = some p) : (x.peerSegmentFailure n).peer n = some { p with loss := min 15 (p.loss + 4) } := by
  unfold State.peerSegmentFailure; rw [hp]; dsimp only
  have hs := (peer_found hp).2
  have e := setPeer_peer x { p with loss := min 15 (p.loss + 4) } p (by show x.peer p.station = _; rw [hs]; exact hp) n
  rw [if_pos hs.symm] at e
  split
  · exact e
  · exact e

/-- The end of an ask charges its peer's record (R114 to R116). -/
theorem endAsk_peer {y : State} {a : Ask} {e : AskEnd} {p : Peer} (hp : y.peer a.peer = some p) (hrem : (p.askEnded y.clock e).removalDue = false) :
    (y.endAsk a e).peer a.peer = some (p.askEnded y.clock e) := by
  unfold State.endAsk
  extract_lets s1 s2 s3 s4
  have h2 : s2.peer a.peer = some p := hp
  have hs := (peer_found hp).2
  have hst : (p.askEnded y.clock e).station = p.station := by
    unfold Peer.askEnded; extract_lets p1 p2
    split <;> try rfl
    split <;> rfl
  have h3 : s3.peer a.peer = some (p.askEnded y.clock e) := by
    unfold s3 State.peerAskEnded; rw [h2]; dsimp only
    rw [show s2.clock = y.clock from rfl]
    rw [if_neg (by simp [hrem])]
    have e := setPeer_peer s2 (p.askEnded y.clock e) p (by rw [hst, hs]; exact h2) a.peer
    rw [if_pos (by rw [hst, hs])] at e
    exact e
  show s4.peer a.peer = _
  unfold s4; split
  · unfold State.manifestAskEnded; split <;> exact h3
  · exact h3

theorem perDomain_get_set_same {α : Type} (x : PerDomain α) (d) (a) : (x.set d a).get d = a := by cases d <;> rfl

theorem perDomain_get_set_other {α : Type} (x : PerDomain α) (d e) (a) (h : e ≠ d) : (x.set d a).get e = x.get e := by cases d <;> cases e <;> first | rfl | exact absurd rfl h

/-- What a NOT-HELD answer does to the announced values (R116). -/
theorem narrowed_facts (v : Announced) (g : Gen) : (v.narrowed g).oldest = (match v.oldest with
            | some o => if o ≤ g then (if v.held < g + 1 then none else some (g + 1)) else some o
            | none => none) ∧
          (v.narrowed g).baseline = (if v.baseline = some g then none else v.baseline) := by
  unfold Announced.narrowed
  cases ho : v.oldest with
  | none =>
    dsimp only
    by_cases hb : v.baseline = some g
    · simp [hb, ho]
    · simp [hb, ho]
  | some o =>
    dsimp only
    by_cases h1 : o ≤ g
    · simp only [h1, if_true]
      by_cases hb : v.baseline = some g
      · simp [hb]
      · simp [hb]
    · simp only [h1, if_false]
      by_cases hb : v.baseline = some g
      · simp [hb, ho]
      · simp [hb, ho]

end Sys2Proof.Machine
end

