-- ==== Sys2Proof/Laws/PeerRules.lean ====
section
/-! SUPPORT. What the frames of the link leave of the peer records, and which record a new station displaces. -/

namespace Sys2Proof.Machine

theorem Peer.headed_unasked (p : Peer) : p.unasked.headed = p.headed := rfl

theorem Peer.headed_of_unasked {p q : Peer} (h : q.unasked = p.unasked) : q.headed = p.headed := by
  unfold Peer.headed; rw [h]

/-- No record enters the table, and one whose removal is not due stays, with what only a header writes. -/
def PeersKept (s t : State) : Prop :=
  ∀ n, (s.peer n = none → t.peer n = none) ∧
    ∀ p, s.peer n = some p → p.removalDue = false → ∃ q, t.peer n = some q ∧ q.headed = p.headed

theorem Peer.headed_removalDue {p q : Peer} (h : q.headed = p.headed) : q.removalDue = p.removalDue := by
  have := congrArg Peer.removalDue h
  exact this

theorem PeersKept.of_peers {s t : State} (h : t.peers = s.peers) : PeersKept s t :=
  fun n => ⟨fun h1 => by rw [peer_congr h]; exact h1, fun p h1 _ => ⟨p, by rw [peer_congr h]; exact h1, rfl⟩⟩

theorem PeersKept.refl (s : State) : PeersKept s s := .of_peers rfl

theorem PeersKept.trans {a b c : State} (h : PeersKept a b) (k : PeersKept b c) : PeersKept a c := by
  intro n
  refine ⟨fun h1 => (k n).1 ((h n).1 h1), fun p h1 h2 => ?_⟩
  obtain ⟨q, q1, q2⟩ := (h n).2 p h1 h2
  obtain ⟨r, r1, r2⟩ := (k n).2 q q1 ((Peer.headed_removalDue q2).trans h2)
  exact ⟨r, r1, r2.trans q2⟩

theorem PeersKept.fold {α : Type} (f : State → α → State) (hf : ∀ s a, PeersKept s (f s a)) (l : List α) (s : State) :
    PeersKept s (l.foldl f s) := by
  induction l generalizing s with
  | nil => exact .refl s
  | cons a l ih => exact (hf s a).trans (ih _)

/-- A record replaced by one alike in what only a header writes. -/
theorem setPeer_kept {s : State} {n : Station} {p q : Peer} (hp : s.peer n = some p) (hq : q.headed = p.headed) :
    PeersKept s (s.setPeer q) := by
  have hst : q.station = p.station := by have := congrArg Peer.station hq; exact this
  have hn := (peer_found hp).2
  intro m
  have e := setPeer_peer s q p (by rw [hst, hn]; exact hp) m
  rw [e]
  by_cases hm : m = q.station
  · rw [if_pos hm]
    have hmn : m = n := by rw [hm, hst, hn]
    subst hmn
    refine ⟨fun h => absurd (hp.symm.trans h) (by simp), fun x hx _ => ⟨q, rfl, ?_⟩⟩
    rw [hp] at hx; injection hx with hx; rw [← hx]; exact hq
  · rw [if_neg hm]
    exact ⟨fun h => h, fun x hx _ => ⟨x, hx, rfl⟩⟩

/-- The removal of a record takes it and no other from the table. -/
theorem removePeer_peer (s : State) (p : Peer) (n : Station) : (s.removePeer p).peer n = if n = p.station then none else s.peer n := by
  unfold State.peer
  rw [removePeer_peers]
  split
  · rename_i h
    rw [List.find?_eq_none]
    intro x hx
    rw [List.mem_filter] at hx
    rw [h]; simpa using hx.2
  · rename_i h
    rw [List.find?_filter]
    congr 1; funext x
    by_cases hx : x.station = n
    · simp [hx, h]
    · simp [hx]

theorem askEnded_headed (p : Peer) (now e) : (p.askEnded now e).headed = p.headed := by
  cases e with
  | arrived => rfl
  | answered => rfl
  | timedOut => unfold Peer.askEnded Peer.timedOut; rfl
  | cancelled => rfl
  | declined r d g => cases r <;> rfl

theorem peerAskEnded_kept (s : State) (n e) : PeersKept s (s.peerAskEnded n e) := by
  unfold State.peerAskEnded
  split
  · exact .refl s
  · rename_i p hp
    dsimp only
    have hh : (p.askEnded s.clock e).headed = p.headed := askEnded_headed p _ e
    have k : PeersKept s (s.setPeer (p.askEnded s.clock e)).peerReport := setPeer_kept hp hh
    split
    · rename_i hr
      simp only [Bool.and_eq_true] at hr
      intro m
      rw [removePeer_peer]
      split
      · rename_i hm
        refine ⟨fun _ => rfl, fun x hx hd => ?_⟩
        have hst : (p.askEnded s.clock e).station = p.station := by have := congrArg Peer.station hh; exact this
        rw [hm, hst, (peer_found hp).2, hp] at hx
        cases hx
        rw [Peer.headed_removalDue hh, hd] at hr
        cases hr.1
      · exact k m
    · exact k

theorem endAsk_kept (s : State) (a e) : PeersKept s (s.endAsk a e) := by
  unfold State.endAsk
  extract_lets s1 s2 s3 s4
  have h2 : PeersKept s s2 := .of_peers rfl
  have h3 : PeersKept s s3 := h2.trans (peerAskEnded_kept _ _ _)
  show PeersKept s s4
  unfold s4; split
  · unfold State.manifestAskEnded; split
    · exact h3.trans (.of_peers rfl)
    · exact h3
  · exact h3

theorem peerSegmentFailure_kept (s : State) (n) : PeersKept s (s.peerSegmentFailure n) := by
  unfold State.peerSegmentFailure
  split
  · exact .refl s
  · rename_i p hp
    dsimp only
    have k := setPeer_kept (q := { p with loss := min 15 (p.loss + 4) }) hp rfl
    split <;> exact k

theorem indexArrived_kept (s : State) (d g i) : PeersKept s (s.indexArrived d g i) := by
  unfold State.indexArrived
  extract_lets mine done s1
  exact PeersKept.trans (b := s1) (.of_peers rfl) (.fold (fun s a => s.endAsk a .arrived) (fun s a => endAsk_kept s a _) _ _)

theorem takeManifest_kept (s : State) (m) : PeersKept s (s.takeManifest m) := by
  unfold State.takeManifest State.openSlot
  dsimp only
  repeat' split
  all_goals first | exact .of_peers rfl | skip
  rename_i h
  split at h
  · cases h
  · injection h with h; injection h with h1 h2; subst h2; exact .of_peers rfl

/-- The use of a frame's body keeps the records. -/
theorem frameUse_kept {c : Instr} {k h body} (hc : frameOf c = some (k, h, body)) (s : State) : PeersKept s (frameUse c s) := by
  by_cases hk : k = .manifestAsk ∨ k = .segmentAsk
  · exact .of_peers (useAsk_peers hc hk s)
  cases c <;> simp only [frameOf, Option.some.injEq, Prod.mk.injEq, reduceCtorEq] at hc <;> obtain ⟨rfl, rfl, rfl⟩ := hc <;>
    simp at hk
  · show PeersKept s (State.useAnnounce _ _ _)
    unfold State.useAnnounce State.takeAnnounce
    split
    · exact .of_peers rfl
    · split
      · exact .refl s
      · rename_i b v _ _ p hp
        dsimp only
        have e : PeersKept s (s.setPeer { p with parked := b, values := v }).peerReport :=
          setPeer_kept (q := { p with parked := b, values := v }) hp rfl
        split
        · exact e.trans (.of_peers rfl)
        · exact e
  · show PeersKept s (State.useManifest _ _ _)
    unfold State.useManifest
    split
    · exact .refl s
    · split
      · exact .of_peers rfl
      · rename_i m _
        unfold State.manifestAnswered
        refine PeersKept.trans (takeManifest_kept s m) ?_
        split
        · exact endAsk_kept _ _ _
        · exact .refl _
  · show PeersKept s (State.useSegment _ _ _)
    unfold State.useSegment State.takeSegment
    split
    · exact .of_peers rfl
    · split
      · exact PeersKept.trans (b := s.countSegmentCrc) (.of_peers rfl) (peerSegmentFailure_kept _ _)
      · exact .of_peers rfl
      · exact PeersKept.trans (b := s.countDiscardedDrain) (.of_peers rfl) (indexArrived_kept _ _ _ _)
      · exact .refl s
      · exact .of_peers rfl
      · exact .of_peers rfl
      · exact PeersKept.trans (b := s.countSegmentCrc) (.of_peers rfl) (peerSegmentFailure_kept _ _)
      · split <;> exact .of_peers rfl
  · show PeersKept s (State.useDecline _ _ _)
    unfold State.useDecline State.takeDecline
    split
    · exact .refl s
    · split
      · exact .of_peers rfl
      · dsimp only
        split
        · exact PeersKept.trans (b := s.countDecline) (.of_peers rfl) (endAsk_kept _ _ _)
        · exact .of_peers rfl

/-! ## Displacement (R109) -/

/-- The element that goes before every other is the first of a list under an order. -/
theorem firstBy_first {α : Type} {before : α → α → Bool} {l : List α} {x : α} (hx : x ∈ l)
    (hb : ∀ y ∈ l, y = x ∨ before x y = true ∧ before y x = false) : firstBy before l = some x := by
  induction l with
  | nil => cases hx
  | cons a l ih =>
    unfold firstBy
    by_cases hl : x ∈ l
    · rw [ih hl (fun y hy => hb y (List.mem_cons_of_mem _ hy))]
      dsimp only
      rcases hb a (by simp) with h | h
      · rw [h]; split <;> rfl
      · rw [if_pos h.1]
    · have ha : a = x := by
        rcases List.mem_cons.mp hx with h | h
        · exact h.symm
        · exact absurd h hl
      subst ha
      have hmem : ∀ y ∈ l, before y a = false := fun y hy => by
        rcases hb y (List.mem_cons_of_mem _ hy) with h | h
        · exact absurd (h ▸ hy) hl
        · exact h.2
      have : ∀ m : List α, (∀ y ∈ m, before y a = false) → ∀ z, firstBy before m = some z → before z a = false := by
        intro m; induction m with
        | nil => intro _ z h; cases h
        | cons b m ih =>
          intro hm z hz
          unfold firstBy at hz
          split at hz
          · injection hz with hz; subst hz; exact hm _ (by simp)
          · rename_i w hw
            split at hz
            · injection hz with hz; subst hz; exact ih (fun y hy => hm y (List.mem_cons_of_mem _ hy)) _ hw
            · injection hz with hz; subst hz; exact hm _ (by simp)
      split
      · rfl
      · rename_i z hz
        rw [if_neg (by simp [this l hmem z hz])]

/-- A record that goes before every other of the list is the first of it. -/
theorem firstBy_eq {l : List Peer} {p : Peer} (hp : p ∈ l) (hb : ∀ x ∈ l, x = p ∨ p.goesBefore x) : firstBy displacedBefore l = some p := by
  refine firstBy_first hp fun x hx => (hb x hx).imp_right fun h => ?_
  unfold displacedBefore
  unfold Peer.goesBefore at h
  simp only [Bool.or_eq_true, decide_eq_true_eq, Bool.and_eq_true, beq_iff_eq, Bool.or_eq_false_iff, Bool.and_eq_false_iff,
    decide_eq_false_iff_not, beq_eq_false_iff_ne]
  refine ⟨h, ?_⟩
  rcases h with h | ⟨h1, h2⟩
  · exact ⟨Nat.lt_asymm h, .inl (Nat.ne_of_gt h)⟩
  · exact ⟨by rw [h1]; exact Nat.lt_irrefl _, .inr (Nat.lt_asymm h2)⟩

theorem displaceable_of {s : State} {p : Peer} (h : s.displaced p) : s.displaceable = some p := by
  obtain ⟨hm, ha, h⟩ := h
  unfold State.displaceable
  dsimp only
  rcases h with ⟨h1, h2⟩ | ⟨h1, h2, h3, h4⟩
  · rw [firstBy_eq (p := p) (l := s.peers.filter (fun p => p.state == .stale && p.asks == 0))
      (by rw [List.mem_filter]; exact ⟨hm, by simp [h1, ha]⟩)]
    · rfl
    · intro x hx
      rw [List.mem_filter] at hx
      have hx2 := hx.2
      simp only [Bool.and_eq_true, beq_iff_eq] at hx2
      exact h2 x hx.1 hx2.1 hx2.2
  · have hn : s.peers.filter (fun p => p.state == .stale && p.asks == 0) = [] := by
      rw [List.filter_eq_nil_iff]; intro x hx; have := h3 x hx; simpa using this
    rw [hn, firstBy_eq (p := p) (l := s.peers.filter (fun p => p.state == .known && !p.cohort && p.asks == 0)) (by rw [List.mem_filter]; exact ⟨hm, by simp [h1, h2, ha]⟩)]
    · rfl
    · intro x hx
      rw [List.mem_filter] at hx
      have hx2 := hx.2
      simp only [Bool.and_eq_true, beq_iff_eq, Bool.not_eq_true'] at hx2
      exact h4 x hx.1 hx2.1.1 hx2.1.2 hx2.2

theorem addPeer_peer {s : State} {h : LinkHeader} (hp : s.peer h.sender.toNat = none) (n : Station) :
    (s.addPeer h).peer n = if n = h.sender.toNat then some (s.newPeer h) else s.peer n := by
  have e : (s.addPeer h).peers = s.peers ++ [s.newPeer h] := by
    unfold State.addPeer; dsimp only; split <;> rfl
  unfold State.peer at hp ⊢
  rw [e, List.find?_append]
  split
  · rename_i hn
    subst hn
    rw [hp]; simp [State.newPeer]
  · rename_i hn
    have : ([s.newPeer h].find? (fun p => p.station == n)) = none := by simp [State.newPeer, Ne.symm hn]
    rw [this]; simp

/-- A new station with a place in the table: its record is the header's, the displaced one is gone, and every other stays (R108, R109). -/
theorem enterPeer_peer {s : State} {k : FrameKind} {h : LinkHeader} {gone : Option Station} (hp : s.peer h.sender.toNat = none)
    (hg : s.peers.length < 48 ∧ gone = none ∨ 48 ≤ s.peers.length ∧ ∃ p, s.displaced p ∧ gone = some p.station) (n : Station) :
    ((s.readHeader k h).takeHeader h).peer n =
      if n = h.sender.toNat then some (s.entered h) else if gone = some n then none else s.peer n := by
  have hl := (readHeader_linkOnly s k h).1
  have e1 : (s.readHeader k h).peers = s.peers := by rw [hl]
  have e2 : (s.readHeader k h).clock = s.clock := by rw [hl]
  have e3 : (s.readHeader k h).supply = s.supply := by rw [hl]
  have th : (s.readHeader k h).takeHeader h = (s.readHeader k h).enterPeer h := by
    unfold State.takeHeader; rw [peer_congr e1, hp]
  have hnp : (s.readHeader k h).newPeer h = s.entered h := by unfold State.newPeer; rw [e2, e3]; rfl
  have hp' : (s.readHeader k h).peer h.sender.toNat = none := by rw [peer_congr e1]; exact hp
  rw [th]; unfold State.enterPeer
  rw [e1]
  rcases hg with ⟨hlen, rfl⟩ | ⟨hlen, p, hd, rfl⟩
  · rw [if_pos (show s.peers.length < Config.peerRecords from hlen), addPeer_peer hp', hnp, peer_congr e1]
    simp
  · have hdd : (s.readHeader k h).displaced p := by unfold State.displaced; rw [e1]; exact hd
    rw [if_neg (Nat.not_lt.mpr (show Config.peerRecords ≤ _ from hlen)), displaceable_of hdd]
    dsimp only
    have hr : ((s.readHeader k h).removePeer p).peer h.sender.toNat = none := by
      rw [removePeer_peer]; split
      · rfl
      · exact hp'
    have hq := quiet_removePeer (s := s.readHeader k h) p
    have hnr : ((s.readHeader k h).removePeer p).newPeer h = s.entered h := by
      rw [← hnp]; unfold State.newPeer; rw [hq.calm.clock, hq.calm.supply]
    rw [addPeer_peer hr, hnr, removePeer_peer, peer_congr e1]
    by_cases h1 : n = h.sender.toNat
    · rw [if_pos h1, if_pos h1]
    · rw [if_neg h1, if_neg h1]
      by_cases h2 : n = p.station
      · rw [if_pos h2, if_pos (by rw [h2])]
      · rw [if_neg h2, if_neg (by intro h; injection h with h; exact h2 h.symm)]

/-! ## The refusals counter -/

theorem endAsk_refusals (s : State) (a e) : (s.endAsk a e).port.counters.peerRefusals = s.port.counters.peerRefusals := by rw [endAsk_counters]

theorem indexArrived_refusals (s : State) (d g i) : (s.indexArrived d g i).port.counters.peerRefusals = s.port.counters.peerRefusals := by
  unfold State.indexArrived
  extract_lets mine done s1
  have : ∀ (l : List Ask) (s : State), (l.foldl (fun s a => s.endAsk a .arrived) s).port.counters.peerRefusals = s.port.counters.peerRefusals := by
    intro l; induction l with
    | nil => intro s; rfl
    | cons a l ih => intro s; rw [List.foldl_cons, ih, endAsk_refusals]
  exact this _ _

theorem peerSegmentFailure_refusals (s : State) (n) : (s.peerSegmentFailure n).port.counters.peerRefusals = s.port.counters.peerRefusals := by
  unfold State.peerSegmentFailure
  split
  · rfl
  · dsimp only; split <;> rfl

theorem takeManifest_refusals (s : State) (m) : (s.takeManifest m).port.counters.peerRefusals = s.port.counters.peerRefusals := by
  unfold State.takeManifest State.openSlot
  dsimp only
  repeat' split
  all_goals first | rfl | skip
  rename_i h
  split at h
  · cases h
  · injection h with h; injection h with h1 h2; subst h2; rfl

/-- The use of a frame's body counts no refusal. -/
theorem frameUse_refusals (c : Instr) (s : State) : (frameUse c s).port.counters.peerRefusals = s.port.counters.peerRefusals := by
  have had : ∀ (s : State) k n b, (s.answerPeer k n b).port.counters.peerRefusals = s.port.counters.peerRefusals := by
    intro s k n b; unfold State.answerPeer State.offerControl; split <;> rfl
  cases c <;> first | rfl | skip
  · show (State.useAnnounce _ _ _).port.counters.peerRefusals = _
    unfold State.useAnnounce State.takeAnnounce
    split
    · rfl
    · split
      · rfl
      · dsimp only; split
        · rfl
        · rfl
  · show (State.useManifestAsk _ _ _).port.counters.peerRefusals = _
    unfold State.useManifestAsk; split
    · rfl
    · split
      · rfl
      · unfold State.takeManifestAsk; split
        · rfl
        · exact had _ _ _ _
  · show (State.useManifest _ _ _).port.counters.peerRefusals = _
    unfold State.useManifest; split
    · rfl
    · split
      · rfl
      · unfold State.manifestAnswered; split
        · rw [endAsk_refusals, takeManifest_refusals]
        · exact takeManifest_refusals _ _
  · show (State.useSegmentAsk _ _ _).port.counters.peerRefusals = _
    unfold State.useSegmentAsk; split
    · rfl
    · split
      · rfl
      · unfold State.takeSegmentAsk
        split
        · rfl
        split
        · exact had _ _ _ _
        extract_lets total
        split
        · rfl
        split
        · rfl
        split
        · exact had _ _ _ _
        · rfl
  · show (State.useSegment _ _ _).port.counters.peerRefusals = _
    unfold State.useSegment State.takeSegment
    split
    · rfl
    · split
      · rw [peerSegmentFailure_refusals]; rfl
      · rfl
      · rw [indexArrived_refusals]; rfl
      · rfl
      · rfl
      · rfl
      · rw [peerSegmentFailure_refusals]; rfl
      · split <;> rfl
  · show (State.useDecline _ _ _).port.counters.peerRefusals = _
    unfold State.useDecline State.takeDecline
    split
    · rfl
    · split
      · rfl
      · dsimp only; split
        · rw [endAsk_refusals]; rfl
        · rfl

/-! ## The slots at the end of an ask -/

/-- The end of an ask may take the MANIFEST-WANTED slot of a fourth ask to EMPTY (R82), and changes no other. -/
theorem endAsk_slot (s : State) (a e) (j : SlotId) (hj : (s.slot j).state ≠ .manifestWanted ∨ (s.slot j).asks < 4) :
    (s.endAsk a e).slot j = s.slot j := by
  unfold State.endAsk
  extract_lets s1 s2 s3 s4
  have h3 : ∀ i, s3.slot i = s.slot i := by
    intro i; show s3.slots[i] = _; rw [(quiet_peerAskEnded (s := s2) a.peer e).slots]; rfl
  show s4.slot j = _
  unfold s4; split
  · unfold State.manifestAskEnded
    split
    · rename_i hc
      rw [h3] at hc
      refine (State.setSlot_slot_other _ _ _ _ ?_).trans (h3 j)
      intro h
      subst h
      simp only [Bool.and_eq_true, beq_iff_eq, decide_eq_true_eq] at hc
      rcases hj with hj | hj
      · exact hj hc.1.1.1
      · omega
    · exact h3 j
  · exact h3 j

end Sys2Proof.Machine
end

