-- ==== Sys2Proof/Laws/LinkRules.lean ====
section
/-! SUPPORT. What the transmitter, the arbiter and a change of the allowed send rate do and leave alone. -/

namespace Sys2Proof.Machine

/-- What the arbiter and a transmission's start leave alone: everything but the LNK, the time stamps of asks and the draws. -/
structure ChannelKeeps (s t : State) : Prop where
  eq : t = { s with link := t.link, fetch := t.fetch, draws := t.draws }
  asks : t.fetch.asks = s.fetch.asks
  serve : t.fetch.serve = s.fetch.serve
  asr : t.link.asr = s.link.asr
  increase : t.link.increase = s.link.increase
  lowRate : t.link.lowRate = s.link.lowRate
  announceAt : t.link.announceAt = s.link.announceAt

theorem ChannelKeeps.refl (s : State) : ChannelKeeps s s := ⟨rfl, rfl, rfl, rfl, rfl, rfl, rfl⟩

theorem ChannelKeeps.trans {a b c : State} (h : ChannelKeeps a b) (k : ChannelKeeps b c) : ChannelKeeps a c := by
  refine ⟨?_, k.2.trans h.2, k.3.trans h.3, k.4.trans h.4, k.5.trans h.5, k.6.trans h.6, k.7.trans h.7⟩
  have h1 := h.1; have k1 := k.1
  generalize c.link = x at *
  generalize c.fetch = y at *
  generalize c.draws = z at *
  rw [k1]
  generalize b.link = x at *
  generalize b.fetch = y at *
  generalize b.draws = z at *
  rw [h1]

theorem followChannel_channelKeeps (s : State) : ChannelKeeps s s.followChannel := by
  rw [followChannel_eq]; exact ⟨rfl, rfl, rfl, rfl, rfl, rfl, rfl⟩

theorem startTransmission_channelKeeps (s : State) : ChannelKeeps s s.startTransmission := by
  unfold State.startTransmission
  split
  · exact .refl s
  · dsimp only
    exact ChannelKeeps.trans (b := s.linked _) ⟨rfl, rfl, rfl, rfl, rfl, rfl, rfl⟩ (followChannel_channelKeeps _)

theorem beginAccess_channelKeeps (s : State) (c f) : ChannelKeeps s (s.beginAccess c f) := by
  unfold State.beginAccess
  extract_lets x
  split
  · exact ChannelKeeps.trans (b := s.linked _) ⟨rfl, rfl, rfl, rfl, rfl, rfl, rfl⟩ (startTransmission_channelKeeps _)
  · exact ⟨rfl, rfl, rfl, rfl, rfl, rfl, rfl⟩

theorem arbiter_channelKeeps (s : State) : ChannelKeeps s s.arbiter := by
  unfold State.arbiter
  split
  · exact .refl s
  · extract_lets paced
    split
    · exact ChannelKeeps.trans (b := s.linked _) ⟨rfl, rfl, rfl, rfl, rfl, rfl, rfl⟩ (beginAccess_channelKeeps _ _ _)
    · split
      · exact ChannelKeeps.trans (b := s.linked _) ⟨rfl, rfl, rfl, rfl, rfl, rfl, rfl⟩ (beginAccess_channelKeeps _ _ _)
      · split
        · exact .refl s
        · split
          · exact ChannelKeeps.trans (b := s.linked _) ⟨rfl, rfl, rfl, rfl, rfl, rfl, rfl⟩ (beginAccess_channelKeeps _ _ _)
          · split
            · exact ChannelKeeps.trans (b := s.linked _) ⟨rfl, rfl, rfl, rfl, rfl, rfl, rfl⟩ (beginAccess_channelKeeps _ _ _)
            · split
              · exact ChannelKeeps.trans (b := s.linked _) ⟨rfl, rfl, rfl, rfl, rfl, rfl, rfl⟩ (beginAccess_channelKeeps _ _ _)
              · exact .refl s

theorem transmitNext_channelKeeps (s : State) : ChannelKeeps s s.transmitNext := by
  unfold State.transmitNext
  refine (arbiter_channelKeeps s).trans ?_
  unfold State.beginServeRead
  split
  · exact .refl _
  · split
    · exact ⟨rfl, rfl, rfl, rfl, rfl, rfl, rfl⟩
    · exact .refl _

/-- What a change of the allowed send rate does (R167, R170). -/
theorem changeAsr_facts (s : State) (v : Nat) :
    s.changeAsr v = { s with link := (s.changeAsr v).link, port := { s.port with flags := (s.changeAsr v).port.flags } } ∧
    (s.changeAsr v).link.asr = max s.supply.config.msr (min s.supply.config.psr v) ∧
    ((s.changeAsr v).link.increase = s.link.increase ∨ (s.changeAsr v).link.increase = 0) ∧
    (s.changeAsr v).link.decreaseHold = s.link.decreaseHold ∧
    ((s.changeAsr v).link.asr = s.link.asr → (s.changeAsr v).link.lowRate = s.link.lowRate) ∧
    ((s.changeAsr v).link.asr ≠ s.link.asr →
        (s.link.lowRate = .ok → (s.changeAsr v).link.asr ≤ s.supply.config.lowThreshold →
          (s.changeAsr v).link.lowRate = .low ∧ (s.changeAsr v).port.flags.getLsbD 2 = true) ∧
        (s.link.lowRate = .ok → s.supply.config.lowThreshold < (s.changeAsr v).link.asr → (s.changeAsr v).link.lowRate = .ok) ∧
        (s.link.lowRate = .low → s.supply.config.lowThreshold + 4 ≤ (s.changeAsr v).link.asr →
          (s.changeAsr v).link.lowRate = .ok ∧ (s.changeAsr v).port.flags.getLsbD 3 = true) ∧
        (s.link.lowRate = .low → (s.changeAsr v).link.asr < s.supply.config.lowThreshold + 4 → (s.changeAsr v).link.lowRate = .low)) := by
  unfold State.changeAsr
  extract_lets w s'
  split
  · rename_i h
    exact ⟨rfl, h.symm, Or.inl rfl, rfl, fun _ => rfl, fun hn => absurd rfl hn⟩
  · rename_i hne
    have f2 : ∀ (f : BitVec 16), (f ||| Notice.mask .linkLow).getLsbD 2 = true := by intro f; rw [BitVec.getLsbD_or]; simp [Notice.mask, Notice.bit]
    have f3 : ∀ (f : BitVec 16), (f ||| Notice.mask .linkOk).getLsbD 3 = true := by intro f; rw [BitVec.getLsbD_or]; simp [Notice.mask, Notice.bit]
    have a1 : s'.link.asr = w := rfl
    have a2 : s'.link.lowRate = s.link.lowRate := rfl
    have a3 : s'.supply = s.supply := rfl
    have a4 : s' = { s with link := s'.link } := rfl
    have a5 : s'.link.increase = 0 := rfl
    have a6 : s'.link.decreaseHold = s.link.decreaseHold := rfl
    unfold State.lowRateTest
    rw [a1, a2, a3]
    cases hl : s.link.lowRate with
    | ok =>
      dsimp only
      by_cases hw : w ≤ s.supply.config.lowThreshold
      · rw [if_pos hw]
        refine ⟨rfl, rfl, Or.inr rfl, rfl, fun h => absurd h hne, fun _ => ⟨fun _ _ => ⟨rfl, f2 _⟩, fun _ h => absurd hw (Nat.not_le.mpr h), by simp, by simp⟩⟩
      · rw [if_neg hw]
        exact ⟨rfl, rfl, Or.inr rfl, rfl, fun h => absurd h hne, fun _ => ⟨fun _ h => absurd h hw, fun _ _ => hl, by simp, by simp⟩⟩
    | low =>
      dsimp only
      by_cases hw : s.supply.config.lowThreshold + 4 ≤ w
      · rw [if_pos hw]
        refine ⟨rfl, rfl, Or.inr rfl, rfl, fun h => absurd h hne, fun _ => ⟨by simp, by simp, fun _ _ => ⟨rfl, f3 _⟩, fun _ h => absurd hw (Nat.not_le.mpr h)⟩⟩
      · rw [if_neg hw]
        exact ⟨rfl, rfl, Or.inr rfl, rfl, fun h => absurd h hne, fun _ => ⟨by simp, by simp, fun _ h => absurd h hw, fun _ _ => hl⟩⟩

/-- The end of the transmission in progress. -/
theorem exec_transmissionEnd {s : State} {c : Chosen} (h : s.link.chosen = some c) (hp : c.phase = .sending) (hc : s.link.cutOff = 0) :
    exec .transmissionEnd s = .next (s.transmissionEnd c) := by
  show Host.Outcome.next (ite _ _ _) = _
  rw [if_neg (by omega), h]; dsimp only; rw [if_pos (by simp [hp])]

/-- R176: the transmission end that follows a cut-off ends nothing. -/
theorem exec_transmissionEnd_cutOff {s : State} (hc : 0 < s.link.cutOff) :
    exec .transmissionEnd s = .next { s with link := { s.link with cutOff := s.link.cutOff - 1 } } := by
  show Host.Outcome.next (ite _ _ _) = _
  rw [if_pos hc]; rfl

theorem pacedEnd_shape (s : State) : s.pacedEnd = { s with link := s.pacedEnd.link, port := { s.port with flags := s.pacedEnd.port.flags } } := by
  unfold State.pacedEnd; split
  · exact (changeAsr_facts _ _).1
  · rfl

/-- A transmission starts with the chosen frame. -/
theorem startTransmission_starts {s s' : State} {c c' : Chosen} (h : s' = { s with link := { s.link with chosen := some c' } }) (h1 : c'.cls = c.cls) (h2 : c'.frame = c.frame) :
    s.starts c s'.startTransmission := by
  unfold State.startTransmission
  have hc : s'.link.chosen = some c' := by rw [h]
  rw [hc]
  dsimp only
  have hl : s'.load = s.load := by rw [h]; rfl
  have hs : s'.supply = s.supply := by rw [h]
  have hq : s'.link.sequence = s.link.sequence := by rw [h]
  rw [followChannel_eq, hl, hs, hq]
  refine ⟨?_, ⟨_, rfl, h1, h2, rfl, by show frameBytes _ _ _ _ _ _ _ _ = _; rw [h2]⟩, ?_, ?_, ?_⟩
  · rw [h]; rfl
  · rw [h]; rfl
  · rw [h, h1]; show (if c.cls.paced = true then s.link.credit - 1 else s.link.credit) = _
    cases c.cls <;> rfl
  · rw [h, h1]; show (if (c.cls.paced && s.link.creditFrom.isNone) = true then some s.clock else s.link.creditFrom) = _
    cases c.cls <;> cases s.link.creditFrom <;> rfl

/-- What a congestion mark heard does (R168). -/
theorem markHeard_facts (s : State) : s.markHeard.link.increase = 0 ∧
      (s.link.decreaseHold = none →
        s.markHeard.link.asr = max s.supply.config.msr (min s.supply.config.psr (s.link.asr - max 1 (s.link.asr / 4))) ∧
        s.markHeard.link.decreaseHold = some (s.clock + 250000)) ∧
      (s.link.decreaseHold ≠ none → s.markHeard.link.asr = s.link.asr ∧ s.markHeard.link.decreaseHold = s.link.decreaseHold) := by
  unfold State.markHeard
  extract_lets s0 s1
  have e0 : s0.link.decreaseHold = s.link.decreaseHold := rfl
  rw [e0]
  cases header_keeps : s.link.decreaseHold with
  | some t => 
    rw [if_pos (by simp)]
    exact ⟨rfl, by simp, fun _ => ⟨rfl, header_keeps⟩⟩
  | none =>
    rw [if_neg (by simp)]
    have f := changeAsr_facts s0 (s0.link.asr - max 1 (s0.link.asr / 4))
    refine ⟨?_, fun _ => ⟨f.2.1, ?_⟩, by simp⟩
    · show s1.link.increase = 0
      rcases f.2.2.1 with g | g
      · exact g
      · exact g
    · show some (s0.clock + _) = _
      rfl

theorem setPeer_lookup {s : State} {n : Station} {p : Peer} (q : Peer) (hp : s.peer n = some p) (hq : q.station = p.station) (m : Station) :
    (s.setPeer q).peer m = if m = n then some q else s.peer m := by
  have hs := (peer_found hp).2
  have e := setPeer_peer s q p (by rw [hq, hs]; exact hp) m
  rw [hq, hs] at e; exact e

/-- A changed peer record, seen through the running out of the event. -/
theorem settle_agedPeer {s u : State} {n : Station} {q : Peer} (hr : s.running = true) (hc : s.sameStore u) (hu : ∀ m, u.peer m = if m = n then some q else s.peer m) :
    ∃ r : Peer, u.settle.peer n = some r ∧ r.unasked = q.unasked ∧
      (∀ m, m ≠ n → (u.settle.peer m).map Peer.unasked = (s.peer m).map Peer.unasked) ∧ s.sameStore u.settle := by
  have hur := sameStore_running hc hr
  obtain ⟨r, h1, h2⟩ := settle_peer hur (by rw [hu n, if_pos rfl])
  refine ⟨r, h1, h2, fun m hm => ?_, sameStore_trans hc (settle_sameStore hur)⟩
  rw [settle_peers hur, hu m, if_neg hm]

end Sys2Proof.Machine
end

