-- ==== Sys2Proof/Laws/AssemblyRules.lean ====
section
/-! SUPPORT. What draining, admission and the pool's commits do and leave alone. -/

namespace Sys2Proof.Machine

/-- What the operations of assembly leave alone: the SUP, the clock, the LNK, the lines, the asks and the draws. -/
structure Steady (s t : State) : Prop where
  supply : t.supply = s.supply
  clock : t.clock = s.clock
  link : t.link = s.link
  pins : t.pins = s.pins
  fetch : t.fetch = s.fetch
  draws : t.draws = s.draws

theorem Steady.refl (s : State) : Steady s s := ⟨rfl, rfl, rfl, rfl, rfl, rfl⟩

theorem Steady.trans {a b c : State} (h : Steady a b) (k : Steady b c) : Steady a c :=
  ⟨k.1.trans h.1, k.2.trans h.2, k.3.trans h.3, k.4.trans h.4, k.5.trans h.5, k.6.trans h.6⟩

theorem Steady.fold {α : Type} (f : State → α → State) (hf : ∀ s a, Steady s (f s a)) (l : List α) (s : State) : Steady s (l.foldl f s) := by
  induction l generalizing s with
  | nil => exact .refl s
  | cons a l ih => exact (hf s a).trans (ih _)

theorem setSlot_steady (s : State) (i x) : Steady s (s.setSlot i x) := ⟨rfl, rfl, rfl, rfl, rfl, rfl⟩

theorem pool_steady (s : State) (p : Pool) : Steady s { s with pool := p } := ⟨rfl, rfl, rfl, rfl, rfl, rfl⟩

theorem wantAsking_steady (s : State) : Steady s s.wantAsking := ⟨rfl, rfl, rfl, rfl, rfl, rfl⟩

theorem vacate_steady (s : State) (i) : Steady s (s.vacate i) := ⟨rfl, rfl, rfl, rfl, rfl, rfl⟩

theorem walkWaitList_steady : ∀ (l : List SlotId) (s : State), Steady s (s.walkWaitList l)
  | [], s => .refl s
  | i :: rest, s => by
    unfold State.walkWaitList
    dsimp only
    split
    · exact ((pool_steady s _).trans (setSlot_steady _ _ _)).trans (walkWaitList_steady rest _)
    · exact walkWaitList_steady rest s

theorem releaseReservation_steady (s : State) (n) : Steady s (s.releaseReservation n) := (pool_steady s _).trans (walkWaitList_steady _ _)

theorem withdrawWaiting_steady (s : State) (d g) : Steady s (s.withdrawWaiting d g) := by
  unfold State.withdrawWaiting
  refine Steady.fold _ (fun s b => ?_) _ _
  exact ⟨rfl, rfl, rfl, rfl, rfl, rfl⟩

theorem answerDrained_steady (s : State) (i d g) : Steady s (s.answerDrained i d g) := by
  unfold State.answerDrained; extract_lets m; split <;> exact ⟨rfl, rfl, rfl, rfl, rfl, rfl⟩

theorem tellDraining_steady (s : State) (i) : Steady s (s.tellDraining i) := by
  unfold State.tellDraining; dsimp only; split
  · exact .refl s
  · split
    · split <;> exact ⟨rfl, rfl, rfl, rfl, rfl, rfl⟩
    · exact .refl s

theorem drainSlot_steady (s : State) (i) : Steady s (s.drainSlot i) := by
  unfold State.drainSlot
  extract_lets x s1 s2 s3 s4 s5
  have h1 : Steady s s1 := (tellDraining_steady s i).trans (pool_steady _ _)
  have h2 : Steady s s2 := h1.trans (setSlot_steady _ _ _)
  have h3 : Steady s s3 := by
    unfold s3; split
    · exact h2.trans (releaseReservation_steady _ _)
    · exact h2
  have h4 : Steady s s4 := h3.trans (withdrawWaiting_steady _ _ _)
  have h5 : Steady s s5 := by
    unfold s5; split
    · exact h4.trans (vacate_steady _ _)
    · exact h4
  exact (h5.trans (answerDrained_steady _ _ _ _)).trans (wantAsking_steady _)

theorem verifiedDrains_steady (s : State) (i) : Steady s (s.verifiedDrains i) := by
  unfold State.verifiedDrains; extract_lets x; split
  · exact .refl s
  · refine Steady.fold _ (fun s j => ?_) _ _
    extract_lets y
    split
    · exact drainSlot_steady _ _
    · exact .refl _

theorem slotAdmitted_steady (s : State) (i) : Steady s (s.slotAdmitted i) := by
  unfold State.slotAdmitted; extract_lets x v s1; split
  · have h1 : Steady s s1 := (setSlot_steady _ _ _).trans (verifiedDrains_steady _ _)
    split
    · exact h1
    · exact h1.trans (wantAsking_steady _)
  · exact (setSlot_steady _ _ _).trans (wantAsking_steady _)

theorem requestAdmission_steady (s : State) (i) : Steady s (s.requestAdmission i).2 := by
  unfold State.requestAdmission; extract_lets n; split
  · exact (pool_steady s _).trans (setSlot_steady _ _ _)
  · exact pool_steady s _

theorem askAdmission_steady (s : State) (i) : Steady s (s.askAdmission i) := by
  unfold State.askAdmission
  have h := requestAdmission_steady s i
  split
  · rename_i e; rw [e] at h; exact h.trans (slotAdmitted_steady _ _)
  · rename_i e; rw [e] at h; exact h.trans (setSlot_steady _ _ _)

theorem pin_steady (s : State) (h d g) : Steady s (s.pin h d g) := pool_steady s _

theorem restoreFrom_steady : ∀ (l : List ManifestEntry) (d) (s : State), Steady s (s.restoreFrom d l)
  | [], d, s => .refl s
  | e :: rest, d, s => by
    unfold State.restoreFrom; split
    · exact .refl s
    · split
      · exact .refl s
      · refine Steady.trans ?_ (restoreFrom_steady rest d _)
        exact ((setSlot_steady _ _ _).trans (pin_steady _ _ _ _)).trans (askAdmission_steady _ _)

theorem removeEntry_steady (s : State) (e) : Steady s (s.removeEntry e) := ⟨rfl, rfl, rfl, rfl, rfl, rfl⟩

theorem restoreSlots_steady (s : State) : Steady s s.restoreSlots := by
  unfold State.restoreSlots; extract_lets s1 s2
  refine ((restoreFrom_steady _ _ _).trans (restoreFrom_steady _ _ _)).trans (Steady.fold _ (fun s e => ?_) _ _)
  split
  · exact removeEntry_steady _ _
  · exact .refl _

theorem setSlot_eq (s : State) (i) (x : Slot) : s.setSlot i x = { s with slots := s.slots.set i x } := rfl

theorem slot_of_set (s : State) (i : SlotId) (x : Slot) : State.slot { s with slots := s.slots.set i x } i = x := State.setSlot_slot _ _ _

theorem walkWaitList_port : ∀ (l : List SlotId) (s : State), (s.walkWaitList l).port = s.port
  | [], s => rfl
  | i :: rest, s => by
    unfold State.walkWaitList
    dsimp only
    split
    · exact (walkWaitList_port rest _).trans rfl
    · exact walkWaitList_port rest s

theorem withdrawWaiting_port (s : State) (d g) : (s.withdrawWaiting d g).port = s.port := by
  unfold State.withdrawWaiting
  generalize s.banksOf d = l
  induction l generalizing s with
  | nil => rfl
  | cons b l ih => rw [List.foldl_cons, ih]; rfl

theorem walkWaitList_backup : ∀ (l : List SlotId) (s : State), (s.walkWaitList l).backup = s.backup
  | [], s => rfl
  | i :: rest, s => by
    unfold State.walkWaitList
    dsimp only
    split
    · exact (walkWaitList_backup rest _).trans rfl
    · exact walkWaitList_backup rest s

theorem withdrawWaiting_backup (s : State) (d g) : (s.withdrawWaiting d g).backup = s.backup := by
  unfold State.withdrawWaiting
  generalize s.banksOf d = l
  induction l generalizing s with
  | nil => rfl
  | cons b l ih => rw [List.foldl_cons, ih]; rfl

/-- Draining keeps the backup memory, the flags and the counters, and a port that waits for nothing. -/
theorem drainSlot_facts (s : State) (i) : (s.drainSlot i).backup = s.backup ∧ (s.drainSlot i).port.flags = s.port.flags ∧ (s.drainSlot i).port.counters = s.port.counters ∧
    (s.port.inProgress = none → (s.drainSlot i).port = s.port) := by
  unfold State.drainSlot
  extract_lets x s1 s2 s3 s4 s5
  have h0 : (s.tellDraining i).port = s.port ∧ (s.tellDraining i).backup = s.backup := by
    unfold State.tellDraining; dsimp only; split
    · exact ⟨rfl, rfl⟩
    · split
      · split <;> exact ⟨rfl, rfl⟩
      · exact ⟨rfl, rfl⟩
  have h2 : s2.port = s.port ∧ s2.backup = s.backup := h0
  have h3 : s3.port = s.port ∧ s3.backup = s.backup := by
    unfold s3; split
    · refine ⟨?_, ?_⟩
      · exact (walkWaitList_port _ _).trans h2.1
      · exact (walkWaitList_backup _ _).trans h2.2
    · exact h2
  have h4 : s4.port = s.port ∧ s4.backup = s.backup := ⟨(withdrawWaiting_port _ _ _).trans h3.1, (withdrawWaiting_backup _ _ _).trans h3.2⟩
  have h5 : s5.port = s.port ∧ s5.backup = s.backup := by
    unfold s5; split
    · exact h4
    · exact h4
  have h6 : (s5.answerDrained i x.domain x.gen).backup = s.backup ∧ (s5.answerDrained i x.domain x.gen).port.flags = s.port.flags ∧ (s5.answerDrained i x.domain x.gen).port.counters = s.port.counters ∧
    (s.port.inProgress = none → (s5.answerDrained i x.domain x.gen).port = s.port) := by
    unfold State.answerDrained
    extract_lets mine
    refine ⟨?_, ?_, ?_, fun hn => ?_⟩
    · split
      · exact h5.2
      · exact h5.2
    · split
      · show s5.port.flags = _; rw [h5.1]
      · rw [h5.1]
    · split
      · show s5.port.counters = _; rw [h5.1]
      · rw [h5.1]
    · have : mine = false := by unfold mine; rw [h5.1, hn]
      rw [this]; exact h5.1
  clear_value s5
  generalize s5.answerDrained i x.domain x.gen = y at h6 ⊢
  exact h6

/-- R94, step 5: a PUBLISH-MANIFEST's offer makes its slot LOCAL. -/
theorem claimOrigin_request (s : State) (i) : s.claimOrigin i .request = s.slotting i (fun x => { x with origin := .local }) := rfl

theorem sameStore_refl (s : State) : s.sameStore s := sameStore_of_calm (.refl s)

/-- What the running out of an event leaves alone covers what no frame writes. -/
theorem sameStore_of_ok {s t : State} (h : Ok true s t) : s.sameStore t :=
  let k := h.still rfl
  ⟨k.pins, k.supply, k.places, k.cells, k.index, k.startRecord, k.barred, k.dips, k.cause, k.enables⟩

theorem completeApplied_sameStore (s : State) (i) : s.sameStore (s.completeApplied i) :=
  sameStore_of_ok (completeApplied_ok (Ok.refl true s) i)

theorem answerSegment_sameStore (s : State) (o c) : s.sameStore (s.answerSegment o c) := by
  unfold State.answerSegment; split
  · exact ⟨rfl, rfl, rfl, rfl, rfl, rfl, rfl, rfl, rfl, rfl⟩
  · exact sameStore_refl s

theorem segmentStored_sameStore (s : State) (o) : s.sameStore (s.segmentStored o) := by
  unfold State.segmentStored
  split
  · exact sameStore_trans (sameStore_of_calm (calm_indexArrived _ _ _)) (answerSegment_sameStore _ _ _)
  · extract_lets x x1 s1 s2 s4 s3
    have h1 : s.sameStore s1 := sameStore_trans (t := s.setSlot _ x1) ⟨rfl, rfl, rfl, rfl, rfl, rfl, rfl, rfl, rfl, rfl⟩ (sameStore_of_calm (calm_indexArrived _ _ _))
    split
    · exact sameStore_trans h1 (answerSegment_sameStore _ _ _)
    · split
      · have h2 : s.sameStore s2 := sameStore_trans h1 ⟨rfl, rfl, rfl, rfl, rfl, rfl, rfl, rfl, rfl, rfl⟩
        split
        · exact sameStore_trans h2 ⟨rfl, rfl, rfl, rfl, rfl, rfl, rfl, rfl, rfl, rfl⟩
        · exact h2
      · have h2 : s.sameStore s4 := sameStore_trans h1 ⟨rfl, rfl, rfl, rfl, rfl, rfl, rfl, rfl, rfl, rfl⟩
        have h3 : s.sameStore s3 := by
          unfold s3; split
          · exact sameStore_trans h2 ⟨rfl, rfl, rfl, rfl, rfl, rfl, rfl, rfl, rfl, rfl⟩
          · exact h2
        exact sameStore_trans h3 (completeApplied_sameStore _ _)

/-- The commit of the pool's index write in progress. -/
theorem exec_poolIndexWriteCommit {s : State} {w : IndexWrite} (hw : s.pool.writing = .index w) :
    exec .poolIndexWriteCommit s = .next (({ s with pool := { s.pool with writing := .none } } : State).commitIndex w).settle := by
  show Host.Outcome.next _ = _
  rw [hw]

theorem settle_store {u : State} (hr : u.running = true) : u.settle.store.index = u.store.index ∧ u.settle.store.cells = u.store.cells ∧ u.settle.store.places = u.store.places :=
  ⟨(settle_still_running hr).index, (settle_still_running hr).cells, (settle_still_running hr).places⟩

/-! ## What draining makes of the slots -/

theorem Slot.keptAs_refl (x : Slot) : x.keptAs x := rfl

theorem Slot.keptAs_trans {x y z : Slot} (h : x.keptAs y) (k : y.keptAs z) : x.keptAs z := by
  unfold Slot.keptAs at *
  rw [← h, ← k]

/-- The walk of the wait list grants reservations to slots of the list, and changes nothing else of the slots and of the queue of index
writes. -/
theorem walkWaitList_slots : ∀ (l : List SlotId) (s : State),
    (∀ j, (s.slot j).keptAs ((s.walkWaitList l).slot j)) ∧ (∀ j, j ∉ l → (s.walkWaitList l).slot j = s.slot j) ∧
    (∀ j, j ∈ (s.walkWaitList l).pool.waitList → j ∈ s.pool.waitList) ∧ (s.walkWaitList l).pool.indexQueue = s.pool.indexQueue
  | [], s => ⟨fun _ => rfl, fun _ _ => rfl, fun _ h => h, rfl⟩
  | i :: rest, s => by
    unfold State.walkWaitList
    dsimp only
    split
    · generalize hp : ({ s with pool := { s.pool with
        reserved := s.pool.reserved + (s.slot i).count
        waitList := s.pool.waitList.filter (· != i)
        grants := s.pool.grants ++ [i] } } : State) = t
      have et : ∀ j, t.slot j = s.slot j := by rw [← hp]; exact fun j => rfl
      have ew : t.pool.waitList = s.pool.waitList.filter (· != i) ∧ t.pool.indexQueue = s.pool.indexQueue := by
        rw [← hp]; exact ⟨rfl, rfl⟩
      obtain ⟨a, b, c, d⟩ := walkWaitList_slots rest (t.setSlot i { t.slot i with admitted := true })
      refine ⟨fun j => ?_, fun j hj => ?_, fun j hj => ?_, d.trans ew.2⟩
      · refine Slot.keptAs_trans ?_ (a j)
        by_cases h : j = i
        · subst h; rw [State.setSlot_slot, et]; rfl
        · rw [State.setSlot_slot_other _ _ _ _ h, et]; rfl
      · simp only [List.mem_cons, not_or] at hj
        rw [b j hj.2, State.setSlot_slot_other _ _ _ _ hj.1, et]
      · have h1 : j ∈ t.pool.waitList := c j hj
        rw [ew.1] at h1; exact List.mem_of_mem_filter h1
    · obtain ⟨a, b, c, d⟩ := walkWaitList_slots rest s
      refine ⟨a, fun j hj => b j (fun h => hj (List.mem_cons_of_mem _ h)), c, d⟩

theorem withdrawWaiting_slots (s : State) (d g) : (s.withdrawWaiting d g).slots = s.slots ∧ (s.withdrawWaiting d g).pool = s.pool := by
  unfold State.withdrawWaiting
  generalize s.banksOf d = l
  induction l generalizing s with
  | nil => exact ⟨rfl, rfl⟩
  | cons b l ih => rw [List.foldl_cons, (ih _).1, (ih _).2]; exact ⟨rfl, rfl⟩

/-- Draining a slot (R102): the slot is drained, the others keep all but a reservation granted from the wait list, and no index write
leaves the queue. -/
theorem drainSlot_slots (s : State) (i : SlotId) :
    s.slotDrained i ((s.drainSlot i).slot i) ∧ (∀ j, j ≠ i → (s.slot j).keptAs ((s.drainSlot i).slot j)) ∧
    (∀ j, j ≠ i → j ∉ s.pool.waitList → (s.drainSlot i).slot j = s.slot j) ∧
    (∀ j, j ∈ (s.drainSlot i).pool.waitList → j ∈ s.pool.waitList ∧ j ≠ i) ∧
    ∀ w ∈ s.pool.indexQueue, w ∈ (s.drainSlot i).pool.indexQueue := by
  have hfe : ∀ u : State, u.fetch = s.fetch → (u.slot i).domain = (s.slot i).domain → (u.slot i).gen = (s.slot i).gen →
      u.slotAsks i = s.slotAsks i := by
    intro u h1 h2 h3; unfold State.slotAsks; rw [h1, h2, h3]
  unfold State.drainSlot
  extract_lets x s1 s2 s3 s4 s5
  have h0 : (s.tellDraining i).slots = s.slots ∧ (s.tellDraining i).pool.waitList = s.pool.waitList ∧
      ∀ w ∈ s.pool.indexQueue, w ∈ (s.tellDraining i).pool.indexQueue := by
    unfold State.tellDraining; dsimp only; split
    · exact ⟨rfl, rfl, fun _ h => h⟩
    · split
      · split
        · exact ⟨rfl, rfl, fun _ h => h⟩
        · exact ⟨rfl, rfl, fun _ h => List.mem_append_left _ h⟩
      · exact ⟨rfl, rfl, fun _ h => h⟩
  have h1 : (∀ j, s1.slot j = s.slot j) ∧ s1.pool.waitList = s.pool.waitList.filter (· != i) ∧
      ∀ w ∈ s.pool.indexQueue, w ∈ s1.pool.indexQueue := by
    refine ⟨fun j => ?_, ?_, h0.2.2⟩
    · show (s.tellDraining i).slots[j] = _; rw [h0.1]; rfl
    · show (s.tellDraining i).pool.waitList.filter _ = _; rw [h0.2.1]
  have f3 : s3.fetch = s.fetch := by
    have h1 : Steady s s1 := (tellDraining_steady s i).trans (pool_steady _ _)
    have h2 : Steady s s2 := h1.trans (setSlot_steady _ _ _)
    unfold s3; split
    · exact (h2.trans (releaseReservation_steady _ _)).fetch
    · exact h2.fetch
  have h2 : (s2.slot i).state = .draining ∧ (s2.slot i).domain = x.domain ∧ (s2.slot i).gen = x.gen ∧
      (s2.slot i).manifest = none ∧ (s2.slot i).presence = [] ∧
      (s2.slot i).cursors = Vector.replicate 16 ApplyCursor.initial := by
    rw [show s2.slot i = _ from State.setSlot_slot _ _ _]; exact ⟨rfl, rfl, rfl, rfl, rfl, rfl⟩
  have o2 : ∀ j, j ≠ i → s2.slot j = s.slot j := fun j hj =>
    (State.setSlot_slot_other _ _ _ _ hj).trans (h1.1 j)
  have hni : ∀ j, j ∈ s1.pool.waitList → j ∈ s.pool.waitList ∧ j ≠ i := by
    intro j hj; rw [h1.2.1, List.mem_filter] at hj; exact ⟨hj.1, by simpa using hj.2⟩
  have h3 : s3.slot i = s2.slot i ∧ (∀ j, (s2.slot j).keptAs (s3.slot j)) ∧
      (∀ j, j ∉ s1.pool.waitList → s3.slot j = s2.slot j) ∧ (∀ j, j ∈ s3.pool.waitList → j ∈ s1.pool.waitList) ∧
      s3.pool.indexQueue = s1.pool.indexQueue := by
    unfold s3; split
    · obtain ⟨a, b, c, d⟩ := walkWaitList_slots s2.pool.waitList
        { s2 with pool := { s2.pool with reserved := s2.pool.reserved - x.count } }
      exact ⟨b i (fun h => (hni i h).2 rfl), a, b, c, d⟩
    · exact ⟨rfl, fun _ => rfl, fun _ _ => rfl, fun _ h => h, rfl⟩
  have e4 : (∀ j, s4.slot j = s3.slot j) ∧ s4.pool = s3.pool := by
    obtain ⟨a, b⟩ := withdrawWaiting_slots s3 x.domain x.gen
    refine ⟨fun j => ?_, b⟩
    show s4.slots[j] = _; rw [show s4.slots = s3.slots from a]; rfl
  have f4 : s4.fetch = s.fetch := (withdrawWaiting_steady s3 _ _).fetch.trans f3
  have a4 : s4.slotAsks i = s.slotAsks i := hfe _ f4 (by rw [e4.1, h3.1, h2.2.1]) (by rw [e4.1, h3.1, h2.2.2.1])
  have h5 : s.slotDrained i (s5.slot i) ∧ (∀ j, j ≠ i → s5.slot j = s3.slot j) ∧ s5.pool = s3.pool := by
    unfold s5; split
    · rename_i hn
      rw [List.isEmpty_iff, a4] at hn
      refine ⟨⟨fun _ => State.setSlot_slot _ _ _, fun h => absurd hn h⟩, fun j hj => ?_, e4.2⟩
      exact (State.setSlot_slot_other _ _ _ _ hj).trans (e4.1 j)
    · rename_i hn
      rw [List.isEmpty_iff, a4] at hn
      refine ⟨⟨fun h => absurd h hn, fun _ => ?_⟩, fun j _ => e4.1 j, e4.2⟩
      rw [e4.1, h3.1]; exact h2
  have h6 : ∀ y : State, y.slots = s5.slots → y.pool = s5.pool →
      s.slotDrained i (y.slot i) ∧ (∀ j, j ≠ i → (s.slot j).keptAs (y.slot j)) ∧
      (∀ j, j ≠ i → j ∉ s.pool.waitList → y.slot j = s.slot j) ∧ (∀ j, j ∈ y.pool.waitList → j ∈ s.pool.waitList ∧ j ≠ i) ∧
      ∀ w ∈ s.pool.indexQueue, w ∈ y.pool.indexQueue := by
    intro y ey ep
    have ys : ∀ j, y.slot j = s5.slot j := fun j => by show y.slots[j] = _; rw [ey]; rfl
    refine ⟨by rw [ys]; exact h5.1, fun j hj => ?_, fun j hj hn => ?_, fun j hj => ?_, fun w hw => ?_⟩
    · rw [ys, h5.2.1 j hj, ← o2 j hj]; exact h3.2.1 j
    · rw [ys, h5.2.1 j hj, h3.2.2.1 j (fun h => hn (hni j h).1), o2 j hj]
    · rw [ep, h5.2.2] at hj; exact hni j (h3.2.2.2.1 j hj)
    · rw [ep, h5.2.2, h3.2.2.2.2]; exact h1.2.2 w hw
  clear_value s5
  refine h6 _ ?_ ?_
  · unfold State.answerDrained; extract_lets m; split <;> rfl
  · unfold State.answerDrained; extract_lets m; split <;> rfl

/-- The drains of R101: the slots overtaken by a BASELINE drain, the others keep all but a reservation granted from the wait list. -/
theorem overtaken_drains (s : State) (p : Slot → Bool) (hp : ∀ x y : Slot, x.keptAs y → p y = p x) : ∀ (l : List SlotId) (t : State),
    l.Nodup → t.fetch = s.fetch → (∀ j ∈ l, (s.slot j).keptAs (t.slot j)) →
    let u := l.foldl (fun s j => if p (s.slot j) then s.drainSlot j else s) t
    (∀ j ∈ l, p (s.slot j) = true → s.slotDrained j (u.slot j)) ∧
    (∀ j, j ∉ l ∨ p (s.slot j) = false → (t.slot j).keptAs (u.slot j)) ∧
    (∀ j, j ∉ l → j ∉ t.pool.waitList → u.slot j = t.slot j) ∧
    ∀ w ∈ t.pool.indexQueue, w ∈ u.pool.indexQueue
  | [], t, _, _, _ => ⟨by simp, fun _ _ => rfl, fun _ _ _ => rfl, fun _ h => h⟩
  | i :: l, t, hn, hf, hk => by
    intro u
    have hni : i ∉ l := (List.nodup_cons.mp hn).1
    by_cases hpi : p (s.slot i) = true
    · have e : u = l.foldl (fun s j => if p (s.slot j) then s.drainSlot j else s) (t.drainSlot i) := by
        unfold u; rw [List.foldl_cons, if_pos (by rw [hp _ _ (hk i (by simp))]; exact hpi)]
      obtain ⟨d1, d2, d3, d4, d5⟩ := drainSlot_slots t i
      have hf' : (t.drainSlot i).fetch = s.fetch := (drainSlot_steady t i).fetch.trans hf
      obtain ⟨a, b, c, d⟩ := overtaken_drains s p hp l (t.drainSlot i) (List.nodup_cons.mp hn).2 hf'
        (fun j hj => Slot.keptAs_trans (hk j (List.mem_cons_of_mem _ hj)) (d2 j (fun h => hni (h ▸ hj))))
      rw [← e] at a b c d
      refine ⟨fun j hj h => ?_, fun j hj => ?_, fun j hj hw => ?_, fun w hw => d w (d5 w hw)⟩
      · rcases List.mem_cons.mp hj with rfl | hj
        · rw [c j hni (fun h => (d4 j h).2 rfl)]
          have hx := hk j (by simp)
          unfold Slot.keptAs at hx
          have ea : t.slotAsks j = s.slotAsks j := by unfold State.slotAsks; rw [hf, ← hx]
          unfold State.slotDrained at d1 ⊢
          rw [← ea, ← hx]; exact d1
        · exact a j hj h
      · by_cases hji : j = i
        · subst hji
          rcases hj with hj | hj
          · exact absurd (by simp) hj
          · rw [hpi] at hj; cases hj
        · refine Slot.keptAs_trans (d2 j hji) (b j ?_)
          rcases hj with hj | hj
          · exact .inl (fun h => hj (List.mem_cons_of_mem _ h))
          · exact .inr hj
      · have hji : j ≠ i := fun h => hj (h ▸ by simp)
        rw [c j (fun h => hj (List.mem_cons_of_mem _ h)) (fun h => hw (d4 j h).1), d3 j hji hw]
    · have hpf : p (s.slot i) = false := by simpa using hpi
      have e : u = l.foldl (fun s j => if p (s.slot j) then s.drainSlot j else s) t := by
        unfold u; rw [List.foldl_cons, if_neg (by rw [hp _ _ (hk i (by simp))]; exact hpi)]
      obtain ⟨a, b, c, d⟩ := overtaken_drains s p hp l t (List.nodup_cons.mp hn).2 hf (fun j hj => hk j (List.mem_cons_of_mem _ hj))
      rw [← e] at a b c d
      refine ⟨fun j hj h => ?_, fun j hj => ?_, fun j hj hw => c j (fun h => hj (List.mem_cons_of_mem _ h)) hw, d⟩
      · rcases List.mem_cons.mp hj with rfl | hj
        · rw [hpf] at h; cases h
        · exact a j hj h
      · refine b j ?_
        rcases hj with hj | hj
        · exact .inl (fun h => hj (List.mem_cons_of_mem _ h))
        · exact .inr hj

/-! ## Presence sets -/

/-- A presence entry of a new index is added to the set, and no other changes (R88). -/
theorem addPresence_new (p : Presence) : ∀ (l : List Presence), (∀ q ∈ l, q.index ≠ p.index) →
    (∀ q, q ∈ addPresence p l ↔ q ∈ l ∨ q = p) ∧ (addPresence p l).length = l.length + 1
  | [], _ => by simp [addPresence]
  | a :: l, h => by
    unfold addPresence
    split
    · refine ⟨fun q => ?_, rfl⟩
      simp only [List.mem_cons]; constructor
      · rintro (h | h | h) <;> simp [h]
      · rintro ((h | h) | h) <;> simp [h]
    · rw [if_neg (Ne.symm (h a (by simp)))]
      obtain ⟨i1, i2⟩ := addPresence_new p l (fun q hq => h q (List.mem_cons_of_mem _ hq))
      refine ⟨fun q => ?_, by simp [i2]⟩
      simp only [List.mem_cons, i1]
      constructor
      · rintro (h | h | h) <;> simp [h]
      · rintro ((h | h) | h) <;> simp [h]

/-- The end of a segment ask changes no slot. -/
theorem endAsk_slots (s : State) (a e) (h : a.kind = .segment) : (s.endAsk a e).slots = s.slots := by
  unfold State.endAsk
  extract_lets s1 s2 s3 s4
  have h3 : s3.slots = s.slots := by rw [(quiet_peerAskEnded (s := s2) a.peer e).slots]; rfl
  show s4.slots = _
  unfold s4; rw [if_neg (by simp [h])]; exact h3

theorem indexArrived_slots (s : State) (d g i) : (s.indexArrived d g i).slots = s.slots := by
  unfold State.indexArrived
  extract_lets mine done s1
  have : ∀ (l : List Ask) (s : State), (∀ a ∈ l, a.kind = .segment) → (l.foldl (fun s a => s.endAsk a .arrived) s).slots = s.slots := by
    intro l; induction l with
    | nil => intro s _; rfl
    | cons a l ih =>
      intro s h
      rw [List.foldl_cons, ih _ (fun a ha => h a (List.mem_cons_of_mem _ ha)), endAsk_slots _ _ _ (h a (by simp))]
  refine (this done s1 (fun a ha => ?_)).trans rfl
  have := (List.mem_filter.mp ha).2
  simp only [mine, Bool.and_eq_true, beq_iff_eq] at this
  exact this.1.1.1.1

/-- The drains that follow a slot's entry to VERIFIED leave that slot as it is, when it waits for no admission (R101). -/
theorem verifiedDrains_self (s : State) (i : SlotId) (hw : i ∉ s.pool.waitList) : (s.verifiedDrains i).slot i = s.slot i := by
  unfold State.verifiedDrains
  extract_lets x
  split
  · rfl
  · generalize s.domainSlots x.domain = l
    have key : ∀ (l : List SlotId) (t : State), t.slot i = x → i ∉ t.pool.waitList →
      (l.foldl (fun s j =>
        let y := s.slot j
        if y.gen < x.gen && !y.holdsBaseline && (y.state == .manifestWanted || y.state == .admitWait || y.state == .collecting ||
          y.state == .verified || y.state == .blocked) then s.drainSlot j else s) t).slot i = t.slot i := by
      intro l
      induction l with
      | nil => intro t _ _; rfl
      | cons j l ih =>
        intro t hx hw
        rw [List.foldl_cons]
        extract_lets y
        split
        · rename_i h
          have hj : i ≠ j := by
            rintro rfl
            have : y = x := hx
            rw [this] at h; simp at h
          obtain ⟨_, _, d3, d4, _⟩ := drainSlot_slots t j
          have e := d3 i hj hw
          rw [ih _ (e.trans hx) (fun h => hw (d4 i h).1), e]
        · exact ih _ hx hw
    exact key l s rfl hw

end Sys2Proof.Machine
end

