-- ==== Sys2Proof/Laws/VisibilityRules.lean ====
section
/-! SUPPORT. What the visibility unit's start, an advance test, a visibility advance and the entering of the lag list do. -/

namespace Sys2Proof.Machine

theorem steady_supply_clock {s t : State} (h : Steady s t) : t.supply = s.supply ∧ t.clock = s.clock := ⟨h.supply, h.clock⟩

/-- raising flags stays -/
theorem advanceTests_flags (s : State) (n : Nat) (h : s.port.flags.getLsbD n = true) : s.advanceTests.port.flags.getLsbD n = true :=
  advanceVisible_flags _ _ _ _ _ (advanceVisible_flags _ _ _ _ _ h)

theorem jitter_low (k j : Nat) : k + 750000 ≤ k + 1000000 - 250000 + j % (2*250000+1) := by omega

theorem jitter_high (k j : Nat) : k + 1000000 - 250000 + j % (2*250000+1) ≤ k + 1250000 := by omega

theorem startVisibility_supply (c : State) : c.startVisibility.peerReport.supply = c.supply := by
  unfold State.startVisibility
  extract_lets timed
  exact (quiet_advanceTests (s := { c with vis := { block := timed c.vis.block, product := timed c.vis.product } })).calm.supply

theorem startVisibility_link (c : State) : c.startVisibility.peerReport.link = c.link := by
  unfold State.startVisibility
  extract_lets timed
  exact (quiet_advanceTests (s := { c with vis := { block := timed c.vis.block, product := timed c.vis.product } })).link

theorem startVisibility_flags (c : State) (n) (h : c.port.flags.getLsbD n = true) : c.startVisibility.peerReport.port.flags.getLsbD n = true := by
  unfold State.startVisibility
  extract_lets timed
  exact advanceTests_flags { c with vis := { block := timed c.vis.block, product := timed c.vis.product } } n h

/-- The advance test that the model computes is R148's. -/
theorem passes_iff_agrees (s : State) (d g) : s.passes d g = true ↔ s.agrees d g := by
  unfold State.passes State.agrees State.followed State.agreement State.countingMembers
  simp only [Bool.or_eq_true, beq_iff_eq, List.any_eq_true, List.all_eq_true, List.mem_filter, Bool.and_eq_true, decide_eq_true_eq]
  constructor
  · rintro (⟨p, ⟨h1, h2, h3⟩, h4⟩ | h | h)
    · exact .inr (.inr ⟨p, h1, h2, h3, h4⟩)
    · exact .inl h
    · exact .inr (.inl fun p h1 h2 h3 => h p ⟨h1, h2, h3⟩)
  · rintro (h | h | ⟨p, h1, h2, h3, h4⟩)
    · exact .inr (.inl h)
    · exact .inr (.inr fun p ⟨h1, h2, h3⟩ => h p h1 h2 h3)
    · exact .inl ⟨p, ⟨h1, h2, h3⟩, h4⟩

theorem lagEnter_length_succ (l e) : (lagEnter l e).length ≤ l.length + 1 := by
  unfold lagEnter; split
  · simp
  · split <;> simp

/-- A list with room keeps its entries, but for a replaced generation of the same domain (R153). -/
theorem lagEnter_keeps (l : List LagEntry) (e x : LagEntry) (hx : x ∈ l) (hl : l.length < 14) (hg : e.domain = x.domain → e.gen = x.gen) : x ∈ lagEnter l e := by
  unfold lagEnter; split
  · rw [List.mem_map]
    refine ⟨x, hx, ?_⟩
    split
    · rename_i h; simp at h; rw [hg h.2.symm]
    · rfl
  · rw [if_pos (show l.length < Config.lagEntries from hl)]; simp [hx]

/-- The entry entered is in the list. -/
theorem lagEnter_mem (l : List LagEntry) (e : LagEntry) : e ∈ lagEnter l e := by
  unfold lagEnter; split
  · rename_i h
    rw [List.any_eq_true] at h
    obtain ⟨x, hx, hh⟩ := h
    rw [List.mem_map]
    refine ⟨x, hx, ?_⟩
    rw [if_pos hh]; simp at hh; cases x; cases e; simp_all
  · simp

/-- The members entered one after another are all in the list. -/
theorem lagEnter_members (d g) : ∀ (ps : List Peer) (l : List LagEntry), l.length + ps.length ≤ 14 →
    let r := ps.foldl (fun l (p : Peer) => lagEnter l { station := p.station, domain := d, gen := g }) l
    (∀ x ∈ l, x.domain = d → x.gen = g → x ∈ r) ∧ ∀ p ∈ ps, { station := p.station, domain := d, gen := g } ∈ r
  | [], l, _ => ⟨fun x hx _ _ => hx, by simp⟩
  | p :: ps, l, h => by
    simp only [List.length_cons] at h
    have hl := lagEnter_length_succ l { station := p.station, domain := d, gen := g }
    obtain ⟨i1, i2⟩ := lagEnter_members d g ps (lagEnter l { station := p.station, domain := d, gen := g }) (by omega)
    refine ⟨fun x hx h1 h2 => i1 x (lagEnter_keeps _ _ _ hx (by omega) (fun _ => h2.symm)) h1 h2, fun q hq => ?_⟩
    rcases List.mem_cons.mp hq with rfl | hq
    · exact i1 _ (lagEnter_mem _ _) rfl rfl
    · exact i2 q hq

theorem takeWhile_dropWhile {α} (q : α → Bool) (l : List α) : l = l.takeWhile q ++ l.dropWhile q := (List.takeWhile_append_dropWhile).symm

theorem requestCompaction_shape (s : State) (d) : s.requestCompaction d = { s with todo := (s.requestCompaction d).todo } := by
  unfold State.requestCompaction
  generalize s.banksOf d = l
  induction l generalizing s with
  | nil => rfl
  | cons b l ih => rw [List.foldl_cons, ih]; rfl

/-- What a visibility advance changes (R151). -/
theorem advanceVisible_shape (s : State) (d : Domain) (a b : List Gen) (v) (hv : a.getLast? = some v) :
    ∃ td, s.advanceVisible d a b = { s with
      vis := s.vis.set d ({ s.domain d with
        visible := v, pending := b
        timer := if b = [] then none else some (s.clock + s.supply.config.cohortWait * 1000000) } : Visibility)
      store := { s.store with domains := (s.commitDomainHeader d).store.domains }
      domainWrites := s.domainWrites.set d (some (DomainHeader.sealed { held := (s.domain d).held, visible := v, pending := b, check := 0 }))
      port := { s.port with flags := s.port.flags ||| (visibleNotice d).mask }, todo := td } := by
  refine ⟨(s.advanceVisible d a b).todo, ?_⟩
  have : (if b.isEmpty = true then none else some s.cohortExpiry) = (if b = [] then none else some (s.clock + s.supply.config.cohortWait * 1000000)) := by
    cases b <;> rfl
  rw [← this]
  unfold State.advanceVisible
  rw [hv]
  dsimp only
  rw [requestCompaction_shape]
  rw [State.writeDomainHeader_shape, State.setDomain_domain]
  have hc : ∀ w, ((s.setDomain d w).commitDomainHeader d).store.domains = (s.commitDomainHeader d).store.domains := by
    intro w; unfold State.commitDomainHeader; dsimp only [State.setDomain]; split <;> rfl
  rw [hc]
  rfl

theorem dropWhile_head {α} (q : α → Bool) : ∀ (l : List α) x, (l.dropWhile q).head? = some x → q x = false
  | [], x, h => by simp at h
  | a :: l, x, h => by
    rw [List.dropWhile_cons] at h
    split at h
    · exact dropWhile_head q l x h
    · simp at h; subst h; rename_i hq; exact Bool.eq_false_iff.mpr hq

/-- What the advance test of a domain makes of it and of its header (R147, R151): it goes past every entry that the test passes in one
advance, or stays as it is. -/
theorem advanceTest_facts (s : State) (d : Domain) : ∃ passed left, (s.domain d).pending = passed ++ left ∧
    (∀ x ∈ passed, s.agrees d x) ∧ (∀ x, left.head? = some x → ¬ s.agrees d x) ∧
    (passed = [] → s.advanceTest d = s) ∧
    (∀ v, passed.getLast? = some v →
      (s.advanceTest d).domain d = { held := (s.domain d).held, visible := v, pending := left
                                     timer := if left = [] then none else some (s.clock + s.supply.config.cohortWait * 1000000) } ∧
      (s.advanceTest d).domainWrites.get d =
        some (DomainHeader.sealed { held := (s.domain d).held, visible := v, pending := left, check := 0 }) ∧
      (s.advanceTest d).store.domains.get d = (s.domainWrites.get d).getD (s.store.domains.get d) ∧
      (s.advanceTest d).port.flags.getLsbD (if d = .block then 0 else 1) = true) := by
  refine ⟨(s.domain d).pending.takeWhile (s.passes d), (s.domain d).pending.dropWhile (s.passes d), takeWhile_dropWhile _ _,
    fun x hx => (passes_iff_agrees s d x).mp (List.mem_takeWhile_imp hx), fun x hx h => ?_, fun h => ?_, fun v hv => ?_⟩
  · have := dropWhile_head _ _ _ hx
    rw [(passes_iff_agrees s d x).mpr h] at this; cases this
  · unfold State.advanceTest State.advanceVisible
    dsimp only
    rw [h]; rfl
  · obtain ⟨td, e⟩ := advanceVisible_shape s d _ ((s.domain d).pending.dropWhile (s.passes d)) v hv
    unfold State.advanceTest
    dsimp only
    rw [e]
    refine ⟨?_, ?_, s.commitDomainHeader_header d, ?_⟩
    · unfold State.domain; exact PerDomain.set_get _ _ _
    · exact PerDomain.set_get _ _ _
    · cases d <;> simp [visibleNotice, Notice.mask] <;> right <;> decide

theorem requestCompaction_viewChanged (s : State) (d : Domain) : (s.requestCompaction d).todo.viewChanged = s.todo.viewChanged := by
  unfold State.requestCompaction
  generalize s.banksOf d = l
  induction l generalizing s with
  | nil => rfl
  | cons b l ih => rw [List.foldl_cons, ih]; rfl

/-- The advance test of one domain leaves the other's values and header as they are, and takes no notice flag back. -/
theorem advanceTest_other (s : State) (d : Domain) : (∀ e, e ≠ d → (s.advanceTest d).domain e = s.domain e ∧
      (s.advanceTest d).domainWrites.get e = s.domainWrites.get e ∧ (s.advanceTest d).store.domains.get e = s.store.domains.get e) ∧
    (s.advanceTest d).peers = s.peers ∧ (s.advanceTest d).supply = s.supply ∧ (s.advanceTest d).clock = s.clock ∧
    (s.advanceTest d).todo.viewChanged = s.todo.viewChanged := by
  have q := quiet_advanceVisible (s := s) d ((s.domain d).pending.takeWhile (s.passes d)) ((s.domain d).pending.dropWhile (s.passes d))
  refine ⟨fun e he => ?_, advanceVisible_peers _ _ _ _, q.calm.supply, q.calm.clock, ?_⟩
  · unfold State.advanceTest
    dsimp only
    cases hv : ((s.domain d).pending.takeWhile (s.passes d)).getLast? with
    | none => unfold State.advanceVisible; rw [hv]; exact ⟨rfl, rfl, rfl⟩
    | some v =>
      obtain ⟨td, k⟩ := advanceVisible_shape s d _ ((s.domain d).pending.dropWhile (s.passes d)) v hv
      rw [k]
      exact ⟨PerDomain.set_get_other _ _ _ _ he, PerDomain.set_get_other _ _ _ _ he, State.commitDomainHeader_other _ _ _ he⟩
  · unfold State.advanceTest State.advanceVisible
    dsimp only
    split
    · rfl
    · show (State.requestCompaction _ d).todo.viewChanged = _
      rw [requestCompaction_viewChanged]; simp

end Sys2Proof.Machine
end

