-- ==== Sys2Proof/Laws/ApplyRules.lean ====
section
/-! SUPPORT. What the drains and the openings of an opening pass leave alone, what they make of one slot, and what the report of an applied
generation does. -/

namespace Sys2Proof.Machine

/-- The visibility values, the peer records, the SUP, the clock and the header writes are alike, and no pin is new. -/
structure PassKeeps (s t : State) : Prop where
  vis : t.vis = s.vis
  peers : t.peers = s.peers
  supply : t.supply = s.supply
  clock : t.clock = s.clock
  writes : t.domainWrites = s.domainWrites
  pins : ∀ p ∈ t.pool.pins, p ∈ s.pool.pins

theorem PassKeeps.refl (s : State) : PassKeeps s s := ⟨rfl, rfl, rfl, rfl, rfl, fun _ h => h⟩

theorem PassKeeps.trans {a b c : State} (h : PassKeeps a b) (k : PassKeeps b c) : PassKeeps a c :=
  ⟨k.1.trans h.1, k.2.trans h.2, k.3.trans h.3, k.4.trans h.4, k.5.trans h.5, fun p hp => h.6 p (k.6 p hp)⟩

theorem PassKeeps.fold {α : Type} (f : State → α → State) (hf : ∀ s a, PassKeeps s (f s a)) (l : List α) (s : State) : PassKeeps s (l.foldl f s) := by
  induction l generalizing s with
  | nil => exact .refl s
  | cons a l ih => exact (hf s a).trans (ih _)

theorem setSlot_passKeeps (s : State) (i : SlotId) (x : Slot) : PassKeeps s (s.setSlot i x) := ⟨rfl, rfl, rfl, rfl, rfl, fun _ h => h⟩

theorem vacate_passKeeps (s : State) (i : SlotId) : PassKeeps s (s.vacate i) := ⟨rfl, rfl, rfl, rfl, rfl, fun _ h => h⟩

theorem walkWaitList_passKeeps : ∀ (l : List SlotId) (s : State), PassKeeps s (s.walkWaitList l)
  | [], s => .refl s
  | i :: rest, s => by
    unfold State.walkWaitList
    dsimp only
    split
    · refine PassKeeps.trans ?_ (walkWaitList_passKeeps rest _)
      exact ⟨rfl, rfl, rfl, rfl, rfl, fun _ h => h⟩
    · exact walkWaitList_passKeeps rest s

theorem withdrawWaiting_passKeeps (s : State) (d : Domain) (g : Gen) : PassKeeps s (s.withdrawWaiting d g) := by
  unfold State.withdrawWaiting
  refine PassKeeps.fold _ (fun s b => ?_) _ _
  exact ⟨rfl, rfl, rfl, rfl, rfl, fun _ h => h⟩

theorem releaseReservation_passKeeps (s : State) (n : Nat) : PassKeeps s (s.releaseReservation n) := by
  refine PassKeeps.trans ?_ (walkWaitList_passKeeps _ _)
  exact ⟨rfl, rfl, rfl, rfl, rfl, fun _ h => h⟩

theorem answerDrained_passKeeps (s : State) (i : SlotId) (d : Domain) (g : Gen) : PassKeeps s (s.answerDrained i d g) := by
  unfold State.answerDrained
  extract_lets mine
  split <;> exact ⟨rfl, rfl, rfl, rfl, rfl, fun _ h => h⟩

theorem tellDraining_passKeeps (s : State) (i : SlotId) : PassKeeps s (s.tellDraining i) := by
  unfold State.tellDraining
  dsimp only
  split
  · exact .refl s
  · split
    · split
      · exact ⟨rfl, rfl, rfl, rfl, rfl, fun _ h => List.mem_of_mem_filter h⟩
      · exact ⟨rfl, rfl, rfl, rfl, rfl, fun _ h => h⟩
    · exact .refl s

theorem drainSlot_passKeeps (s : State) (i : SlotId) : PassKeeps s (s.drainSlot i) := by
  unfold State.drainSlot
  extract_lets x s1 s2 s3 s4 s5
  have h1 : PassKeeps (s.tellDraining i) s1 := ⟨rfl, rfl, rfl, rfl, rfl, fun _ h => h⟩
  have h2 : PassKeeps s s2 := ((tellDraining_passKeeps s i).trans h1).trans (setSlot_passKeeps _ _ _)
  have h3 : PassKeeps s s3 := by
    unfold s3; split
    · exact h2.trans (releaseReservation_passKeeps _ _)
    · exact h2
  have h4 : PassKeeps s s4 := h3.trans (withdrawWaiting_passKeeps _ _ _)
  have h5 : PassKeeps s s5 := by
    unfold s5; split
    · exact h4.trans (vacate_passKeeps _ _)
    · exact h4
  clear_value s5
  exact (h5.trans (answerDrained_passKeeps _ _ _ _)).trans ⟨rfl, rfl, rfl, rfl, rfl, fun _ h => h⟩

/-- A slot that an opening pass may have used again: it holds no manifest and no presence, and applies nothing. -/
def Slot.given (x : Slot) : Prop := x.manifest = none ∧ x.presence = [] ∧ x.state ≠ .applying ∧ x.state ≠ .blocked

theorem Slot.given_kept {x y : Slot} (h : x.given) (k : x.keptAs y) : y.given := by
  unfold Slot.keptAs at k
  unfold Slot.given at *
  rw [← k] at h
  exact h

theorem drainSlot_given (s : State) (i j : SlotId) (h : (s.slot i).given) : ((s.drainSlot j).slot i).given := by
  obtain ⟨d1, d2, _⟩ := drainSlot_slots s j
  by_cases hij : i = j
  · subst hij
    by_cases ha : s.slotAsks i = []
    · rw [d1.1 ha]; exact ⟨rfl, rfl, by decide, by decide⟩
    · obtain ⟨k1, _, _, k2, k3, _⟩ := d1.2 ha
      exact ⟨k2, k3, by rw [k1]; decide, by rw [k1]; decide⟩
  · exact Slot.given_kept h (d2 i hij)

theorem openSlot_facts {s t : State} {d : Domain} {g : Gen} {o : Origin} {j : SlotId} (h : s.openSlot d g o = some (j, t)) :
    PassKeeps s t ∧ ∀ i, (s.slot i).given → (t.slot i).given := by
  unfold State.openSlot at h
  split at h
  · cases h
  · rename_i k _
    injection h with h; injection h with h1 h2; subst h1; subst h2
    refine ⟨⟨rfl, rfl, rfl, rfl, rfl, fun _ h => h⟩, fun i hi => ?_⟩
    by_cases hik : i = k
    · subst hik
      have e : ∀ x : Slot, ((s.setSlot i x).wantAsking).slot i = x := fun x => State.setSlot_slot _ _ _
      rw [e]; exact ⟨rfl, rfl, by simp, by simp⟩
    · have e : ∀ x : Slot, ((s.setSlot k x).wantAsking).slot i = s.slot i := fun x => State.setSlot_slot_other _ _ _ _ hik
      rw [e]; exact hi

theorem openWanted_facts (d : Domain) : ∀ (n : Nat) (s : State), PassKeeps s (s.openWanted d n) ∧
    ∀ i, (s.slot i).given → ((s.openWanted d n).slot i).given
  | 0, s => ⟨.refl s, fun _ h => h⟩
  | n + 1, s => by
    have step : ∀ (s t : State) (j : SlotId) (g : Gen) (o : Origin), s.openSlot d g o = some (j, t) →
        PassKeeps s (t.openWanted d n) ∧ ∀ i, (s.slot i).given → ((t.openWanted d n).slot i).given := by
      intro s t j g o h
      obtain ⟨a, b⟩ := openSlot_facts h
      obtain ⟨a', b'⟩ := openWanted_facts d n t
      exact ⟨a.trans a', fun i hi => b' i (b i hi)⟩
    unfold State.openWanted
    split
    · exact ⟨.refl s, fun _ h => h⟩
    · split
      · exact ⟨.refl s, fun _ h => h⟩
      · split
        · split
          · rename_i h; exact step _ _ _ _ _ h
          · exact ⟨.refl s, fun _ h => h⟩
        · split
          · split
            · exact ⟨.refl s, fun _ h => h⟩
            · rename_i j _
              dsimp only
              have hk := drainSlot_passKeeps s j
              have hg := fun i => drainSlot_given s i j
              split
              · split
                · rename_i h
                  obtain ⟨a, b⟩ := step _ _ _ _ _ h
                  exact ⟨hk.trans a, fun i hi => b i (hg i hi)⟩
                · exact ⟨hk, hg⟩
              · exact ⟨hk, hg⟩
          · exact ⟨.refl s, fun _ h => h⟩

theorem drainHeld_facts (s : State) (d : Domain) : PassKeeps s (s.drainHeld d) ∧
    (∀ i, (s.slot i).given → ((s.drainHeld d).slot i).given) ∧
    (∀ i, (s.slot i).state = .empty → i ∉ s.pool.waitList → (s.drainHeld d).slot i = s.slot i) := by
  unfold State.drainHeld
  have key : ∀ (l : List SlotId) (t : State),
      let u := l.foldl (fun s i => if (s.slot i).gen ≤ (s.domain d).held && (s.slot i).state != .applying then s.drainSlot i else s) t
      PassKeeps t u ∧ (∀ i, (t.slot i).given → (u.slot i).given) ∧ (∀ i, i ∉ l → i ∉ t.pool.waitList → u.slot i = t.slot i) := by
    intro l
    induction l with
    | nil => exact fun t => ⟨.refl t, fun _ h => h, fun _ _ _ => rfl⟩
    | cons j l ih =>
      intro t
      dsimp only [List.foldl_cons]
      split
      · obtain ⟨a, b, c⟩ := ih (t.drainSlot j)
        obtain ⟨_, _, d3, d4, _⟩ := drainSlot_slots t j
        refine ⟨(drainSlot_passKeeps t j).trans a, fun i hi => b i (drainSlot_given t i j hi), fun i hi hw => ?_⟩
        simp only [List.mem_cons, not_or] at hi
        rw [c i hi.2 (fun h => hw (d4 i h).1), d3 i hi.1 hw]
      · obtain ⟨a, b, c⟩ := ih t
        exact ⟨a, b, fun i hi hw => c i (fun h => hi (List.mem_cons_of_mem _ h)) hw⟩
  obtain ⟨a, b, c⟩ := key (s.domainSlots d) s
  refine ⟨a, b, fun i hi hw => c i (fun h => ?_) hw⟩
  unfold State.domainSlots at h
  rw [List.mem_filter] at h
  simp [hi] at h

/-- Nothing drains where no other slot of the domain stands at or below the held generation. -/
theorem drainHeld_none {s : State} {d : Domain} (h : ∀ j, (s.slot j).domain = d → (s.slot j).gen ≤ (s.domain d).held →
    (s.slot j).state = .empty ∨ (s.slot j).state = .draining) : s.drainHeld d = s := by
  unfold State.drainHeld
  have key : ∀ (l : List SlotId), (∀ j ∈ l, (s.slot j).gen ≤ (s.domain d).held → False) →
      l.foldl (fun s i => if (s.slot i).gen ≤ (s.domain d).held && (s.slot i).state != .applying then s.drainSlot i else s) s = s := by
    intro l
    induction l with
    | nil => exact fun _ => rfl
    | cons j l ih =>
      intro hl
      rw [List.foldl_cons, if_neg (by simpa using fun h => absurd h (fun h => hl j (by simp) h))]
      exact ih fun k hk => hl k (List.mem_cons_of_mem _ hk)
  refine key _ fun j hj hg => ?_
  unfold State.domainSlots at hj
  simp only [List.mem_filter, Bool.and_eq_true, bne_iff_ne, ne_eq, beq_iff_eq] at hj
  rcases h j hj.2.2 hg with k | k
  · exact hj.2.1.1 k
  · exact hj.2.1.2 k

/-- No slot opens where no KNOWN peer announces a generation above the held one. -/
theorem wanted_none {s : State} {d : Domain} (h : ∀ p ∈ s.peers, p.state = .known →
    (p.values.get d).held ≤ (s.domain d).held ∧ ∀ x, (p.values.get d).baseline = some x → x ≤ (s.domain d).held) : s.wanted d = none := by
  have hk : ∀ p ∈ s.knownPeers, p ∈ s.peers ∧ p.state = .known := by
    intro p hp
    unfold State.knownPeers at hp
    simpa using hp
  unfold State.wanted
  split
  · unfold State.baselineWanted
    have key : ∀ l : List Peer, (∀ p ∈ l, p ∈ s.knownPeers) → l.foldl (fun m p =>
        match (p.values.get d).baseline with
        | some g => if (s.domain d).held < g then some (max g (m.getD 0)) else m
        | none => m) (none : Option Gen) = none := by
      intro l
      induction l with
      | nil => exact fun _ => rfl
      | cons p l ih =>
        intro hl
        obtain ⟨h1, h2⟩ := hk p (hl p (by simp))
        rw [List.foldl_cons]
        refine Eq.trans (congrArg (fun m => List.foldl _ m l) ?_) (ih fun q hq => hl q (List.mem_cons_of_mem _ hq))
        split
        · rename_i g hg
          exact if_neg (Nat.not_lt.mpr ((h p h1 h2).2 g hg))
        · rfl
    exact key _ fun _ h => h
  · unfold State.deltaWanted
    dsimp only
    have htop : ∀ (l : List Peer) (m : Nat), m ≤ (s.domain d).held → (∀ p ∈ l, p ∈ s.knownPeers) →
        l.foldl (fun m p => max m (p.values.get d).held) m ≤ (s.domain d).held := by
      intro l
      induction l with
      | nil => exact fun _ h _ => h
      | cons p l ih =>
        intro m hm hl
        obtain ⟨h1, h2⟩ := hk p (hl p (by simp))
        exact ih _ (Nat.max_le.mpr ⟨hm, (h p h1 h2).1⟩) fun q hq => hl q (List.mem_cons_of_mem _ hq)
    have hbase : ∀ (l : List SlotId) (m : Nat), m ≤ l.foldl (fun m i => if (s.slot i).holdsBaseline then max m (s.slot i).gen else m) m := by
      intro l
      induction l with
      | nil => exact fun m => Nat.le_refl m
      | cons j l ih =>
        intro m
        rw [List.foldl_cons]
        split
        · exact Nat.le_trans (Nat.le_max_left _ _) (ih _)
        · exact ih _
    have h1 := htop s.knownPeers 0 (Nat.zero_le _) fun _ h => h
    have h2 := hbase (s.domainSlots d) (s.domain d).held
    rw [List.find?_eq_none]
    intro g hg
    rw [List.mem_map] at hg
    obtain ⟨a, _, rfl⟩ := hg
    simp only [Bool.and_eq_true, decide_eq_true_eq, not_and]
    intro hle
    exact absurd (Nat.le_trans hle h1) (by omega)

theorem openWanted_none {s : State} {d : Domain} (h : s.wanted d = none) (n : Nat) : s.openWanted d n = s := by
  cases n with
  | zero => rfl
  | succ n => unfold State.openWanted; rw [h]

/-! ## An applied generation (R145, R147) -/

theorem passes_congr {s t : State} (hp : t.peers = s.peers) (hs : t.supply = s.supply) (d : Domain) : t.passes d = s.passes d := by
  funext g
  unfold State.passes State.followed State.agreement State.countingMembers
  rw [hp, hs]

/-- What the report of an applied generation makes of the domain's values (R145, R147), of the slots (R80) and of the pins. -/
theorem reportApplied_facts (s : State) (d : Domain) (g : Gen) :
    ((s.reportApplied d g).domain d).held = g ∧
    (let l := (s.domain d).pending ++ [g]
     let w := (s.reportApplied d g).domain d
     w.pending = l.dropWhile (s.passes d) ∧
     w.visible = (match (l.takeWhile (s.passes d)).getLast? with
      | some v => v
      | none => (s.domain d).visible) ∧
     (l.takeWhile (s.passes d) = [] → w.timer = (if (s.domain d).pending = [] then some (s.clock + s.supply.config.cohortWait * 1000000)
      else (s.domain d).timer)) ∧
     (l.takeWhile (s.passes d) ≠ [] → w.timer = (if l.dropWhile (s.passes d) = [] then none
      else some (s.clock + s.supply.config.cohortWait * 1000000))) ∧
     (s.reportApplied d g).domainWrites.get d = some (DomainHeader.sealed
      { held := g, visible := w.visible, pending := w.pending, check := 0 })) ∧
    (s.reportApplied d g).slots = ((s.appendApplied d g).openingPass d).slots ∧
    (s.reportApplied d g).pool = ((s.appendApplied d g).openingPass d).pool := by
  have ha : (s.appendApplied d g).domain d = { s.domain d with
      held := g, pending := (s.domain d).pending ++ [g]
      timer := if (s.domain d).pending = [] then some (s.clock + s.supply.config.cohortWait * 1000000) else (s.domain d).timer } := by
    unfold State.appendApplied
    rw [State.setDomain_domain]
    cases (s.domain d).pending <;> rfl
  have hk : PassKeeps (s.appendApplied d g) ((s.appendApplied d g).openingPass d) :=
    (drainHeld_facts _ _).1.trans (openWanted_facts _ _ _).1
  unfold State.reportApplied
  dsimp only
  generalize (s.appendApplied d g).openingPass d = y at hk ⊢
  have hy : y.domain d = (s.appendApplied d g).domain d := by unfold State.domain; rw [hk.vis]
  have hp : y.passes d = s.passes d := passes_congr hk.peers hk.supply d
  have hc : y.clock = s.clock := hk.clock
  have hs : y.supply = s.supply := hk.supply
  rw [ha] at hy
  have hpend : (y.domain d).pending = (s.domain d).pending ++ [g] := by rw [hy]
  have hlist := List.takeWhile_append_dropWhile (p := s.passes d) (l := (s.domain d).pending ++ [g])
  rw [hpend, hp]
  cases ht : ((s.domain d).pending ++ [g]).takeWhile (s.passes d) with
  | nil =>
    rw [ht, List.nil_append] at hlist
    rw [if_pos (by rfl), State.writeDomainHeader_shape]
    have e : ∀ q1 q2, State.domain { y with store := q1, domainWrites := q2 } d = y.domain d := fun _ _ => rfl
    simp only [e, hy]
    refine ⟨trivial, ⟨hlist.symm, by simp, fun _ => trivial, fun h => absurd rfl h, ?_⟩, trivial, trivial⟩
    cases d <;> rfl
  | cons a l =>
    rw [if_neg (by simp)]
    unfold State.advanceTest
    dsimp only
    rw [hpend, hp, ht]
    obtain ⟨td, e⟩ := advanceVisible_shape y d (a :: l) (((s.domain d).pending ++ [g]).dropWhile (s.passes d))
      ((a :: l).getLast (by simp)) (List.getLast?_eq_getLast_of_ne_nil (by simp))
    rw [e, hy, hc, hs]
    refine ⟨?_, ⟨?_, ?_, fun h => by simp at h, fun _ => ?_, ?_⟩, rfl, rfl⟩
    · cases d <;> rfl
    · cases d <;> rfl
    · rw [List.getLast?_eq_getLast_of_ne_nil (by simp)]; cases d <;> rfl
    · cases d <;> rfl
    · cases d <;> rfl

/-- R96: of the slots that meet the table's condition the lowest generation begins, and while it has a lost index none begins. -/
theorem nextApply_of_lowest {s : State} {d : Domain} {i : SlotId} (hi : i ∈ s.domainSlots d) (ha : s.mayApply i = true)
    (hn : ∀ j ∈ s.domainSlots d, (s.slot j).state ≠ .applying ∧ (s.slot j).state ≠ .blocked)
    (hl : ∀ j ∈ s.domainSlots d, s.mayApply j = true → j = i ∨ (s.slot i).gen < (s.slot j).gen) :
    s.nextApply d = if (s.slot i).lost = [] then some i else none := by
  unfold State.nextApply
  rw [if_neg, firstBy_first (x := i) (List.mem_filter.mpr ⟨hi, ha⟩)]
  · cases hk : (s.slot i).lost <;> simp [Option.filter, hk]
  · intro j hj
    rw [List.mem_filter] at hj
    refine (hl j hj.1 hj.2).imp_right fun h => ?_
    simp only [decide_eq_true_eq, decide_eq_false_iff_not]
    exact ⟨h, Nat.lt_asymm h⟩
  · rw [Bool.not_eq_true, List.any_eq_false]
    intro j hj
    simpa using hn j hj

end Sys2Proof.Machine
end

