-- ==== Sys2Proof/Laws/BankFrame.lean ====
section
/-! SUPPORT. What the operations of one store bank leave alone: everything outside the bank but the pool's pins and the index writes
queued there, the notice flags, the counters and the messages; and, in the operations that write no record, the record places and the free count. -/

namespace Sys2Proof.Machine

/-- The state less what an operation of a bank can change. -/
def State.outside (s : State) : State :=
  { s with
    banks := Vector.replicate 16 Bank.unstarted
    pool := { s.pool with pins := [], indexQueue := [], retryDue := false }
    store := { s.store with places := Vector.replicate 16 []
                            headers := Vector.replicate 16 { fields := BankHeader.erased, check := 0 } }
    backup := { s.backup with headers := Vector.replicate 16 BankHeader.erased, check := 0 }
    port := { s.port with flags := 0, counters := Counters.zero }
    todo := Todo.nothing }

/-- From `x` to `s` only the work of bank `b` has been done; with `W = false` no record of it has been written. -/
structure BankOnly (W : Bool) (b : BankId) (x s : State) : Prop where
  outside : s.outside = x.outside
  others : ∀ e : BankId, e ≠ b → s.bank e = x.bank e
  headers : ∀ e : BankId, e ≠ b → s.store.headers[e] = x.store.headers[e]
  elsewhere : ∀ e : BankId, e ≠ b → s.places e = x.places e
  directory : ∀ e : BankId, e ≠ b → s.backup.headers[e] = x.backup.headers[e]
  places : W = false → s.store.places = x.store.places
  free : W = false → (s.bank b).header.freeCount = (x.bank b).header.freeCount
  stored : W = false → x.store.headers[b].fields.freeCount = (x.bank b).header.freeCount →
    s.store.headers[b].fields.freeCount = (s.bank b).header.freeCount

variable {W : Bool} {b : BankId} {x s : State}

theorem BankOnly.refl (W : Bool) (b : BankId) (s : State) : BankOnly W b s s :=
  ⟨rfl, fun _ _ => rfl, fun _ _ => rfl, fun _ _ => rfl, fun _ _ => rfl, fun _ => rfl, fun _ => rfl, fun _ h => h⟩

theorem BankOnly.trans {s t : State} (h : BankOnly W b x s) (k : BankOnly W b s t) : BankOnly W b x t :=
  ⟨k.outside.trans h.outside, fun e n => (k.others e n).trans (h.others e n), fun e n => (k.headers e n).trans (h.headers e n),
   fun e n => (k.elsewhere e n).trans (h.elsewhere e n),
   fun e n => (k.directory e n).trans (h.directory e n), fun w => (k.places w).trans (h.places w),
   fun w => (k.free w).trans (h.free w), fun w i => k.stored w (h.stored w i)⟩

/-- An operation that writes no record is in particular one that may. -/
theorem BankOnly.weaken (h : BankOnly false b x s) : BankOnly W b x s :=
  ⟨h.outside, h.others, h.headers, h.elsewhere, h.directory, fun _ => h.places rfl, fun _ => h.free rfl, fun _ => h.stored rfl⟩

theorem BankOnly.ite {a c : State} {p : Prop} [Decidable p] (ha : BankOnly W b x a) (hc : BankOnly W b x c) :
    BankOnly W b x (if p then a else c) := by
  split
  · exact ha
  · exact hc

/-! Parts of the state that lie outside every bank. -/

theorem BankOnly.clock (h : BankOnly W b x s) : s.clock = x.clock := by have e := congrArg State.clock h.outside; exact e
theorem BankOnly.pins (h : BankOnly W b x s) : s.pins = x.pins := by have e := congrArg State.pins h.outside; exact e
theorem BankOnly.supply (h : BankOnly W b x s) : s.supply = x.supply := by have e := congrArg State.supply h.outside; exact e
theorem BankOnly.slots (h : BankOnly W b x s) : s.slots = x.slots := by have e := congrArg State.slots h.outside; exact e
theorem BankOnly.peers (h : BankOnly W b x s) : s.peers = x.peers := by have e := congrArg State.peers h.outside; exact e
theorem BankOnly.fetch (h : BankOnly W b x s) : s.fetch = x.fetch := by have e := congrArg State.fetch h.outside; exact e
theorem BankOnly.vis (h : BankOnly W b x s) : s.vis = x.vis := by have e := congrArg State.vis h.outside; exact e
theorem BankOnly.lag (h : BankOnly W b x s) : s.lag = x.lag := by have e := congrArg State.lag h.outside; exact e
theorem BankOnly.link (h : BankOnly W b x s) : s.link = x.link := by have e := congrArg State.link h.outside; exact e
theorem BankOnly.draws (h : BankOnly W b x s) : s.draws = x.draws := by have e := congrArg State.draws h.outside; exact e
theorem BankOnly.pending (h : BankOnly W b x s) : s.pending = x.pending := by have e := congrArg State.pending h.outside; exact e
theorem BankOnly.cells (h : BankOnly W b x s) : s.store.cells = x.store.cells := by have e := congrArg (fun s => s.store.cells) h.outside; exact e
theorem BankOnly.index (h : BankOnly W b x s) : s.store.index = x.store.index := by have e := congrArg (fun s => s.store.index) h.outside; exact e
theorem BankOnly.startRecord (h : BankOnly W b x s) : s.store.startRecord = x.store.startRecord := by have e := congrArg (fun s => s.store.startRecord) h.outside; exact e
theorem BankOnly.inProgress (h : BankOnly W b x s) : s.port.inProgress = x.port.inProgress := by have e := congrArg (fun s => s.port.inProgress) h.outside; exact e
theorem BankOnly.response (h : BankOnly W b x s) : s.port.response = x.port.response := by have e := congrArg (fun s => s.port.response) h.outside; exact e
theorem BankOnly.dropped (h : BankOnly W b x s) : s.port.dropped = x.port.dropped := by have e := congrArg (fun s => s.port.dropped) h.outside; exact e
theorem BankOnly.dips (h : BankOnly W b x s) : s.backup.dips = x.backup.dips := by have e := congrArg (fun s => s.backup.dips) h.outside; exact e
theorem BankOnly.barred (h : BankOnly W b x s) : s.backup.barred = x.backup.barred := by have e := congrArg (fun s => s.backup.barred) h.outside; exact e
theorem BankOnly.cause (h : BankOnly W b x s) : s.backup.cause = x.backup.cause := by have e := congrArg (fun s => s.backup.cause) h.outside; exact e
theorem BankOnly.valid (h : BankOnly W b x s) : s.backup.valid = x.backup.valid := by have e := congrArg (fun s => s.backup.valid) h.outside; exact e
theorem BankOnly.held (h : BankOnly W b x s) : s.pool.held = x.pool.held := by have e := congrArg (fun s => s.pool.held) h.outside; exact e
theorem BankOnly.queue (h : BankOnly W b x s) : s.pool.queue = x.pool.queue := by have e := congrArg (fun s => s.pool.queue) h.outside; exact e
theorem BankOnly.waiting (h : BankOnly W b x s) : s.pool.waiting = x.pool.waiting := by have e := congrArg (fun s => s.pool.waiting) h.outside; exact e
theorem BankOnly.writing (h : BankOnly W b x s) : s.pool.writing = x.pool.writing := by have e := congrArg (fun s => s.pool.writing) h.outside; exact e

/-! ## Single changes -/

/-- A change that leaves the banks, their headers and their places alone. -/
theorem BankOnly.beside {t : State} (h : BankOnly W b x s) (e1 : t.outside = s.outside) (e2 : t.banks = s.banks)
    (e3 : t.store.headers = s.store.headers) (e4 : t.store.places = s.store.places)
    (e5 : t.backup.headers = s.backup.headers := by rfl) : BankOnly W b x t := by
  have eb : ∀ e, t.bank e = s.bank e := fun e => by unfold State.bank; rw [e2]
  refine h.trans ⟨e1, fun e _ => eb e, fun e _ => by rw [e3], fun e _ => ?_, fun e _ => by rw [e5], fun _ => e4, fun _ => by rw [eb], fun _ i => ?_⟩
  · unfold State.places; rw [e4]
  · rw [e3, eb]; exact i

theorem setBank_on (h : BankOnly W b x s) (k : Bank) (hf : k.header.freeCount = (s.bank b).header.freeCount) :
    BankOnly W b x (s.setBank b k) := by
  refine h.trans ⟨rfl, fun e n => State.setBank_bank_other _ _ _ _ n, fun _ _ => rfl, fun _ _ => rfl, fun _ _ => rfl, fun _ => rfl, fun _ => ?_, fun _ i => ?_⟩
  · rw [State.setBank_bank]; exact hf
  · rw [State.setBank_bank, hf]; exact i
theorem banking_on (h : BankOnly W b x s) (f : Bank → Bank) (hf : ∀ k : Bank, (f k).header.freeCount = k.header.freeCount) :
    BankOnly W b x (s.banking b f) := setBank_on h _ (hf _)
theorem setBank_written (h : BankOnly W b x s) (hW : W = true) (k : Bank) : BankOnly W b x (s.setBank b k) := by
  refine h.trans ⟨rfl, fun e n => State.setBank_bank_other _ _ _ _ n, fun _ _ => rfl, fun _ _ => rfl, fun _ _ => rfl, fun _ => rfl, ?_, ?_⟩ <;>
    (intro w; rw [hW] at w; cases w)
theorem banking_written (h : BankOnly W b x s) (hW : W = true) (f : Bank → Bank) : BankOnly W b x (s.banking b f) :=
  setBank_written h hW _
theorem heading_on (h : BankOnly W b x s) (f : BankHeader → BankHeader) (hf : ∀ k : BankHeader, (f k).freeCount = k.freeCount) :
    BankOnly W b x (s.heading b f) := banking_on h _ (fun _ => hf _)
theorem working_on (h : BankOnly W b x s) (w : BankWork) : BankOnly W b x (s.working b w) := banking_on h _ (by intro _; rfl)
theorem report_on (h : BankOnly W b x s) (r : BankReport) : BankOnly W b x (s.report b r) := h.beside rfl rfl rfl rfl
theorem raise_on (h : BankOnly W b x s) (n : Notice) : BankOnly W b x (s.raise n) := h.beside rfl rfl rfl rfl
theorem wantOpeningOf_on (h : BankOnly W b x s) (d : Domain) : BankOnly W b x (s.wantOpeningOf d) := h.beside rfl rfl rfl rfl
theorem countMalformedOp_on (h : BankOnly W b x s) : BankOnly W b x s.countMalformedOp := h.beside rfl rfl rfl rfl
theorem countMisplaced_on (h : BankOnly W b x s) (k : Nat) : BankOnly W b x (s.countMisplaced k) := h.beside rfl rfl rfl rfl
theorem countRedundant_on (h : BankOnly W b x s) : BankOnly W b x s.countRedundant := h.beside rfl rfl rfl rfl
theorem countRepair_on (h : BankOnly W b x s) : BankOnly W b x s.countRepair := h.beside rfl rfl rfl rfl
theorem pin_on (h : BankOnly W b x s) (y : PinHolder) (d : Domain) (g : Gen) : BankOnly W b x (s.pin y d g) := h.beside rfl rfl rfl rfl

theorem header_set (s : State) (st : StoredHeader) (u : State) (hu : u.store.headers = s.store.headers.set b st) :
    (∀ e : BankId, e ≠ b → u.store.headers[e] = s.store.headers[e]) ∧ u.store.headers[b] = st := by
  constructor
  · intro e n
    have hn : b.val ≠ e.val := fun h => n (Fin.ext h.symm)
    rw [hu]; simp [Vector.getElem_set, hn]
  · rw [hu]; simp

theorem directory_set (s : State) (h : BankHeader) (u : State) (hu : u.backup.headers = s.backup.headers.set b h) (e : BankId) (n : e ≠ b) :
    u.backup.headers[e] = s.backup.headers[e] := by
  have hn : b.val ≠ e.val := fun h => n (Fin.ext h.symm)
  rw [hu]; simp [Vector.getElem_set, hn]

theorem writeHeader_on (h : BankOnly W b x s) : BankOnly W b x (s.writeHeader b) := by
  obtain ⟨e1, e2⟩ := header_set (b := b) s _ (s.writeHeader b) rfl
  exact h.trans ⟨rfl, fun _ _ => rfl, e1, fun _ _ => rfl, directory_set s _ _ rfl, fun _ => rfl, fun _ => rfl,
    fun _ _ => by rw [e2]; rfl⟩
theorem writeScrubHeader_on (h : BankOnly W b x s) : BankOnly W b x (s.writeScrubHeader b) := by
  obtain ⟨e1, e2⟩ := header_set (b := b) s _ (s.writeScrubHeader b) rfl
  exact h.trans ⟨rfl, fun _ _ => rfl, e1, fun _ _ => rfl, directory_set s _ _ rfl, fun _ => rfl, fun _ => rfl,
    fun _ _ => by rw [e2]; rfl⟩
theorem setPlaces_on (h : BankOnly W b x s) (hW : W = true) (l : List (Nat × Record)) : BankOnly W b x (s.setPlaces b l) := by
  refine h.trans ⟨rfl, fun _ _ => rfl, fun _ _ => rfl, fun e n => ?_, fun _ _ => rfl, ?_, ?_, ?_⟩
  · exact State.setPlaces_places_other _ _ _ _ n
  all_goals (intro w; rw [hW] at w; cases w)

/-! ## The pool's pins and reads -/

theorem queueIndex_on (h : BankOnly W b x s) (w : IndexWrite) : BankOnly W b x (s.queueIndex w) := h.beside rfl rfl rfl rfl
theorem dropUnpinned_on (h : BankOnly W b x s) (d : Domain) (g : Gen) : BankOnly W b x (s.dropUnpinned d g) := by
  unfold State.dropUnpinned
  split
  · exact .ite (queueIndex_on h _) h
  · exact h
theorem unpinRepair_on (h : BankOnly W b x s) (c : BankId) : BankOnly W b x (s.unpinRepair c) := by
  unfold State.unpinRepair
  extract_lets mine p s1 s2
  have h2 : BankOnly W b x s2 := by
    unfold s2
    have h1 : BankOnly W b x s1 := h.beside rfl rfl rfl rfl
    generalize s1 = t at h1
    generalize mine = l
    induction l generalizing t with
    | nil => exact h1
    | cons a l ih => exact ih _ (dropUnpinned_on h1 _ _)
  exact .ite h2 (h2.beside rfl rfl rfl rfl)
theorem readFailure_on (h : BankOnly W b x s) (e : ManifestEntry) (k : Nat) : BankOnly W b x (s.readFailure e k) := by
  have h1 : BankOnly W b x (s.queueIndex (.lost e.manifest.domain e.manifest.gen e.stamp k)) := queueIndex_on h _
  exact .ite (h1.beside rfl rfl rfl rfl) h1
theorem readCell_on (h : BankOnly W b x s) (e : ManifestEntry) (k : Nat) : BankOnly W b x (s.readCell e k).2 := by
  unfold State.readCell
  split
  · split
    · exact h
    · exact readFailure_on h _ _
  · exact readFailure_on h _ _
theorem applyRead_on (h : BankOnly W b x s) (d : Domain) (g : Gen) (k : Nat) (dr : Bool) : BankOnly W b x (s.applyRead d g k dr).2 := by
  unfold State.applyRead
  split
  · exact h
  · split
    · exact h
    · split
      · exact readCell_on h _ _
      · exact h
theorem repairRead_on (h : BankOnly W b x s) (d : Domain) (g : Gen) (k : Nat) : BankOnly W b x (s.repairRead d g k).2 := by
  unfold State.repairRead
  split
  · exact h
  · split
    · exact readCell_on h _ _
    · exact h

/-! ## The operations -/
theorem freePlace_on (h : BankOnly W b x s) (hW : W = true) (p : Nat) : BankOnly W b x (s.freePlace b p) := by
  unfold State.freePlace
  exact writeHeader_on (banking_written (setPlaces_on h hW _) hW _)

theorem writeRecord_on (h : BankOnly W b x s) (hW : W = true) (p : Nat) (r : Record) : BankOnly W b x (s.writeRecord b p r) :=
  setPlaces_on h hW _

theorem markFailing_on (h : BankOnly W b x s) (ps : List Nat) : BankOnly W b x (s.markFailing b ps) :=
  banking_on h _ (fun k => by unfold Bank.markFailing; (repeat' split) <;> rfl)

theorem goHeld_on (h : BankOnly W b x s) (p : BankState) (w : BankWork) : BankOnly W b x (s.goHeld b p w) :=
  writeScrubHeader_on (banking_on h _ (by intro _; rfl))

theorem compactOn_on (h : BankOnly W b x s) (c : CompactRun) (n : Nat) : BankOnly W b x (s.compactOn b c n) := by
  unfold State.compactOn
  extract_lets rest keep s1
  have h1 : BankOnly W b x s1 := markFailing_on h _
  split
  · exact working_on h1 _
  · exact BankOnly.ite (working_on h1 _) (goHeld_on h1 _ _)

theorem beginCompaction_on (h : BankOnly W b x s) : BankOnly W b x (s.beginCompaction b) :=
  compactOn_on (banking_on h _ (by intro _; rfl)) _ _

theorem scrubOn_on (h : BankOnly W b x s) (k n : Nat) : BankOnly W b x (s.scrubOn b k n) := by
  unfold State.scrubOn
  split
  · exact working_on (heading_on h _ (by intro _; rfl)) _
  · exact working_on h _

theorem beginScrub_on (h : BankOnly W b x s) : BankOnly W b x (s.beginScrub b) := scrubOn_on (banking_on h _ (by intro _; rfl)) _ _

theorem pauseScrub_on (h : BankOnly W b x s) (k : Nat) : BankOnly W b x (s.pauseScrub b k) :=
  goHeld_on (BankOnly.ite h (heading_on h _ (by intro _; rfl))) _ _

theorem scrubPast_on (h : BankOnly W b x s) (p : Nat) : BankOnly W b x (s.scrubPast b p) := by
  unfold State.scrubPast
  exact BankOnly.ite (pauseScrub_on h _) (scrubOn_on h _ _)

theorem eraseOn_on (h : BankOnly W b x s) : BankOnly W b x (s.eraseOn b) := by
  unfold State.eraseOn
  split <;> exact working_on h _

theorem requestFaulted_on (h : BankOnly W b x s) (r : ApplyRequest) : BankOnly W b x (s.requestFaulted b r) :=
  BankOnly.ite (eraseOn_on (banking_on h _ (by intro _; rfl))) (report_on h _)

theorem beginRequest_on (h : BankOnly W b x s) (r : ApplyRequest) : BankOnly W b x (s.beginRequest b r) := by
  unfold State.beginRequest
  extract_lets s1 s2
  have h2 : BankOnly W b x s2 := report_on (banking_on h _ (by intro _; rfl)) _
  split
  · exact working_on h2 _
  · exact working_on (BankOnly.ite (writeHeader_on (heading_on h2 _ (by intro _; rfl))) h2) _

theorem acknowledge_on (h : BankOnly W b x s) : BankOnly W b x (s.acknowledge b) := by
  unfold State.acknowledge
  split
  · exact report_on (banking_on h _ (by intro _; rfl)) _
  · exact h

theorem afterApplies_on (h : BankOnly W b x s) : BankOnly W b x (s.afterApplies b) :=
  BankOnly.ite (beginCompaction_on h) (BankOnly.ite (beginScrub_on h) (banking_on h _ (by intro _; rfl)))

theorem nextWork_on (h : BankOnly W b x s) : BankOnly W b x (s.nextWork b) := by
  unfold State.nextWork
  refine BankOnly.ite (goHeld_on h _ _) ?_
  extract_lets s1
  have h1 : BankOnly W b x s1 := acknowledge_on (banking_on h _ (by intro _; rfl))
  refine BankOnly.ite (beginScrub_on h1) ?_
  split
  · exact afterApplies_on h1
  · split
    · exact beginRequest_on h1 _
    · exact afterApplies_on (report_on (banking_on h1 _ (by intro _; rfl)) _)

theorem takeApply_on (h : BankOnly W b x s) (r : ApplyRequest) : BankOnly W b x (s.takeApply b r) := by
  unfold State.takeApply
  split
  · exact requestFaulted_on h _
  · split
    · exact beginRequest_on h _
    · exact report_on h _
  · exact banking_on h _ (by intro _; rfl)

theorem takeQuiesce_on (h : BankOnly W b x s) (g : Gen) : BankOnly W b x (s.takeQuiesce b g) := by
  unfold State.takeQuiesce
  exact BankOnly.ite (acknowledge_on (banking_on h _ (by intro _; rfl))) (banking_on h _ (by intro _; rfl))

theorem takeCompact_on (h : BankOnly W b x s) : BankOnly W b x (s.takeCompact b) := by
  unfold State.takeCompact
  split
  · exact h
  · exact beginCompaction_on h
  · exact banking_on h _ (by intro _; rfl)

theorem takeRequest_on (h : BankOnly W b x s) (r : BankRequest) : BankOnly W b x (s.takeRequest b r) := by
  cases r
  · exact takeApply_on h _
  · exact takeQuiesce_on h _
  · exact takeCompact_on h

/-! ## Segment apply -/

theorem bankFull_on (h : BankOnly W b x s) (r : ApplyRun) : BankOnly W b x (s.bankFull b r) := by
  unfold State.bankFull
  extract_lets s1 s2
  have h2 : BankOnly W b x s2 := banking_on (report_on h _) _ (by intro _; rfl)
  exact BankOnly.ite (goHeld_on h2 _ _) (beginCompaction_on h2)

theorem segmentEnd_on (h : BankOnly W b x s) (r : ApplyRequest) : BankOnly W b x (s.segmentEnd b r) :=
  BankOnly.ite (working_on h _) (nextWork_on (report_on h _))

theorem applyOn_on (b : BankId) : ∀ (ops : List Op) (run : ApplyRun) (s : State), BankOnly W b x s → BankOnly W b x (s.applyOn b run ops)
  | [], _, _, h => segmentEnd_on h _
  | op :: rest, run, s, h => by
    unfold State.applyOn
    extract_lets d skipped l current s1
    refine BankOnly.ite (applyOn_on b rest _ _ (countMalformedOp_on h)) (BankOnly.ite (applyOn_on b rest _ _ (countMisplaced_on h _)) ?_)
    have h1 : BankOnly W b x s1 := markFailing_on h _
    split
    · refine BankOnly.ite (bankFull_on h1 _) ?_
      clear_value current
      split
      · exact working_on h1 _
      · exact working_on h1 _
    · exact working_on h1 _
    · exact applyOn_on b rest _ _ (countRedundant_on h1)

theorem applyResume_on (h : BankOnly W b x s) (r : ApplyRun) : BankOnly W b x (s.applyResume b r) :=
  BankOnly.ite (working_on h _) (applyOn_on b _ _ _ h)

theorem applyStep_on (h : BankOnly W b x s) (r : ApplyRun) : BankOnly W b x (s.applyStep b r) :=
  BankOnly.ite (goHeld_on h _ _) (applyResume_on h _)

theorem applyEndWrite_on (h : BankOnly W b x s) (hW : W = true) (r : ApplyRun) (p : Nat) :
    BankOnly W b x (s.applyEndWrite b r p) := by
  unfold State.applyEndWrite
  split
  · exact writeRecord_on h hW _ _
  · exact h

theorem applyEndCommit_on (h : BankOnly W b x s) (hW : W = true) (r : ApplyRun) (p : Nat) :
    BankOnly W b x (s.applyEndCommit b r p) := by
  unfold State.applyEndCommit
  extract_lets s1
  have h1 : BankOnly W b x s1 := applyEndWrite_on h hW _ _
  split <;> exact applyStep_on h1 _

theorem applyAddWrite_on (h : BankOnly W b x s) (hW : W = true) (r : ApplyRun) : BankOnly W b x (s.applyAddWrite b r) := by
  unfold State.applyAddWrite
  split
  · exact h
  · split
    · exact h
    · exact writeHeader_on (banking_written (writeRecord_on h hW _ _) hW _)

theorem applyAddCommit_on (h : BankOnly W b x s) (hW : W = true) (r : ApplyRun) : BankOnly W b x (s.applyAddCommit b r) :=
  applyStep_on (applyAddWrite_on h hW _) _

theorem advanceWrite_on (h : BankOnly W b x s) (r : ApplyRequest) : BankOnly W b x (s.advanceWrite b r) :=
  writeHeader_on (banking_on h _ (by intro _; rfl))

theorem advanceCommit_on (h : BankOnly W b x s) (r : ApplyRequest) : BankOnly W b x (s.advanceCommit b r) :=
  nextWork_on (report_on (advanceWrite_on h _) _)

theorem applyReadEnded_on (h : BankOnly W b x s) (r : ApplyRequest) (f : Bool) : BankOnly W b x (s.applyReadEnded b r f) := by
  unfold State.applyReadEnded
  extract_lets s1
  have h1 : BankOnly W b x s1 := BankOnly.ite (banking_on (report_on h _) _ (by intro _; rfl)) h
  exact BankOnly.ite (banking_on h1 _ (by intro _; rfl)) (nextWork_on h1)

theorem applyReadDone_on (h : BankOnly W b x s) (r : ApplyRequest) : BankOnly W b x (s.applyReadDone b r) := by
  unfold State.applyReadDone
  have h1 := applyRead_on h (s.bankDomain b) r.gen (r.segment.getD 0) r.drained
  generalize s.applyRead (s.bankDomain b) r.gen (r.segment.getD 0) r.drained = q at h1
  obtain ⟨a, t⟩ := q
  cases a
  · exact BankOnly.ite (working_on h1 _) (applyResume_on h1 _)
  · exact applyReadEnded_on h1 _ _
  · exact applyReadEnded_on h1 _ _

/-! ## FAULTED, recovery and repair -/

theorem enterFaulted_on (h : BankOnly W b x s) : BankOnly W b x (s.enterFaulted b) := by
  unfold State.enterFaulted
  extract_lets needed s1 old waiting s2 s3 s4 s5
  have h3 : BankOnly W b x s3 := raise_on (writeHeader_on (banking_on (unpinRepair_on h _) _ (by intro _; rfl))) _
  have h4 : BankOnly W b x s4 := by
    show BankOnly W b x (match waiting with
      | some r => s3.report b (.refused r.gen r.segment .fault)
      | none => s3)
    clear_value waiting
    split
    · exact report_on h3 _
    · exact h3
  have h5 : BankOnly W b x s5 := acknowledge_on h4
  exact BankOnly.ite h5 (wantOpeningOf_on h5 _)

theorem recoverOn_on (f : State → BankId → Nat → State) (hf : ∀ s p, BankOnly W b x s → BankOnly W b x (f s b p))
    (h : BankOnly W b x s) (n : Nat) : BankOnly W b x (State.recoverOn f s b n) := by
  unfold State.recoverOn
  extract_lets k rest keep s1
  have h1 : BankOnly W b x s1 := markFailing_on h _
  split
  · exact working_on h1 _
  · exact BankOnly.ite (working_on h1 _) (BankOnly.ite (hf _ _ h1) (working_on h1 _))

theorem repairing_on (h : BankOnly W b x s) (r : RepairRun) : BankOnly W b x (s.repairing b r) := working_on h _

theorem repairFound_on (h : BankOnly W b x s) (r : RepairRun) (g : Option Gen) : BankOnly W b x (s.repairFound b r g) := by
  unfold State.repairFound
  split <;> exact repairing_on h _

theorem repairWalked_on (h : BankOnly W b x s) (r : RepairRun) : BankOnly W b x (s.repairWalked b r) := by
  unfold State.repairWalked
  split
  · exact repairFound_on h _ _
  · extract_lets d s1
    have h1 : BankOnly W b x s1 := pin_on h _ _ _
    refine BankOnly.ite ?_ (enterFaulted_on h)
    split
    · exact repairFound_on h1 _ _
    · exact repairing_on h1 _

theorem repairWalk_on (b : BankId) (r : RepairRun) : ∀ (n : Nat) (g : Gen) (s : State), BankOnly W b x s →
    BankOnly W b x (s.repairWalk b r n g)
  | 0, _, _, h => enterFaulted_on h
  | n + 1, g, s, h => by
    unfold State.repairWalk
    extract_lets d s1
    have h1 : BankOnly W b x s1 := pin_on h _ _ _
    refine BankOnly.ite (repairWalked_on h _) (BankOnly.ite (repairFound_on h _ _) (BankOnly.ite ?_ (enterFaulted_on h)))
    split
    · exact repairWalk_on b r n _ _ h1
    · exact repairing_on h1 _

theorem repairDecide_on (h : BankOnly W b x s) (r : RepairRun) (ops : List Op) :
    BankOnly W b x (s.repairDecide b r ops) := by
  unfold State.repairDecide
  refine BankOnly.ite (enterFaulted_on h) ?_
  split
  · exact repairing_on h _
  · exact BankOnly.ite (repairing_on h _) (repairWalk_on _ _ _ _ _ h)

theorem beginRepair_on (h : BankOnly W b x s) (p : Nat) (f : Bool) : BankOnly W b x (s.beginRepair b p f) := by
  unfold State.beginRepair
  split
  · exact h
  · extract_lets d s1 run
    have h1 : BankOnly W b x s1 := pin_on h _ _ _
    refine BankOnly.ite (enterFaulted_on h) ?_
    split
    · exact repairDecide_on h1 _ _
    · exact repairing_on h1 _

theorem recoverFrom_on (h : BankOnly W b x s) (n : Nat) : BankOnly W b x (s.recoverFrom b n) :=
  recoverOn_on _ (fun _ _ h => beginRepair_on h _ _) h _

theorem repairReadDone_on (h : BankOnly W b x s) (r : RepairRun) : BankOnly W b x (s.repairReadDone b r) := by
  unfold State.repairReadDone
  extract_lets d nB
  split
  · rename_i i left ops _
    have h1 := repairRead_on h d r.added i
    generalize s.repairRead d r.added i = q at h1
    obtain ⟨a, t⟩ := q
    cases a
    · cases left
      · exact repairDecide_on h1 _ _
      · exact repairing_on h1 _
    · exact enterFaulted_on h1
    · exact enterFaulted_on h1
  · rename_i g i left _
    have h1 := repairRead_on h d g i
    generalize s.repairRead d g i = q at h1
    obtain ⟨a, t⟩ := q
    cases a
    · dsimp only
      split
      · exact repairFound_on h1 _ _
      · exact repairWalk_on _ _ _ _ _ h1
      · exact repairing_on h1 _
    · exact enterFaulted_on h1
    · exact enterFaulted_on h1
  · rename_i g i left _
    have h1 := repairRead_on h d g i
    generalize s.repairRead d g i = q at h1
    obtain ⟨a, t⟩ := q
    cases a
    · dsimp only
      split
      · exact enterFaulted_on h1
      · exact repairFound_on h1 _ _
      · exact repairing_on h1 _
    · exact enterFaulted_on h1
    · exact enterFaulted_on h1
  · exact h

theorem pastRepair_on (h : BankOnly W b x s) (r : RepairRun) : BankOnly W b x (s.pastRepair b r) :=
  BankOnly.ite (BankOnly.ite (goHeld_on h _ _) (recoverFrom_on h _)) (scrubPast_on h _)

theorem repairWrite_on (h : BankOnly W b x s) (hW : W = true) (r : RepairRun) : BankOnly W b x (s.repairWrite b r) := by
  unfold State.repairWrite
  split
  · exact writeRecord_on h hW _ _
  · exact freePlace_on h hW _
  · exact h

theorem repairDone_on (h : BankOnly W b x s) (hW : W = true) (r : RepairRun) : BankOnly W b x (s.repairDone b r) :=
  BankOnly.ite (pastRepair_on (unpinRepair_on (raise_on (countRepair_on (repairWrite_on h hW _)) _) _) _) h

/-! ## Commits -/

theorem scrubChecked_on (h : BankOnly W b x s) (p : Nat) : BankOnly W b x (s.scrubChecked b p) := by
  unfold State.scrubChecked
  split
  · exact scrubPast_on h _
  · exact BankOnly.ite (scrubPast_on h _) (beginRepair_on h _ _)

theorem scrubPassWrite_on (h : BankOnly W b x s) (n : Nat) (r : Bool) : BankOnly W b x (s.scrubPassWrite b n r) :=
  BankOnly.ite (writeScrubHeader_on h) (BankOnly.ite (writeScrubHeader_on (banking_on h _ (by intro _; rfl))) (writeScrubHeader_on (heading_on h _ (by intro _; rfl))))

theorem scrubPassEnd_on (h : BankOnly W b x s) (n : Nat) (r : Bool) : BankOnly W b x (s.scrubPassEnd b n r) := by
  unfold State.scrubPassEnd
  extract_lets s1
  have h1 : BankOnly W b x s1 := scrubPassWrite_on h _ _
  refine BankOnly.ite (BankOnly.ite (pauseScrub_on h1 _) (scrubOn_on h1 _ _)) (BankOnly.ite (nextWork_on h1) ?_)
  exact BankOnly.ite (nextWork_on h1) (BankOnly.ite (goHeld_on h1 _ _) (scrubOn_on h1 _ _))

theorem resumeScrub_on (h : BankOnly W b x s) (k : Nat) : BankOnly W b x (s.resumeScrub b k) := by
  unfold State.resumeScrub
  exact BankOnly.ite (BankOnly.ite (scrubOn_on h _ _) (BankOnly.ite (nextWork_on h) (scrubOn_on h _ _))) (scrubOn_on h _ _)

theorem compactCommit_on (h : BankOnly W b x s) (hW : W = true) (c : CompactRun) (p : Nat) :
    BankOnly W b x (s.compactCommit b c p) := by
  unfold State.compactCommit
  extract_lets s1 c1
  have h1 : BankOnly W b x s1 := freePlace_on h hW _
  split
  · exact goHeld_on h1 _ _
  · exact compactOn_on h1 _ _
  · exact compactOn_on h1 _ _

theorem compactEndWrite_on (h : BankOnly W b x s) (c : CompactRun) : BankOnly W b x (s.compactEndWrite b c) :=
  writeHeader_on (heading_on h _ (by intro _; rfl))

theorem compactEnd_on (h : BankOnly W b x s) (c : CompactRun) : BankOnly W b x (s.compactEnd b c) :=
  nextWork_on (report_on (compactEndWrite_on h _) _)

theorem recoverPlace_on (h : BankOnly W b x s) (hW : W = true) (p : Nat) : BankOnly W b x (s.recoverPlace b p) := by
  unfold State.recoverPlace
  split
  · exact h
  · exact BankOnly.ite (freePlace_on h hW _) (writeRecord_on h hW _ _)

theorem recoverCommit_on (h : BankOnly W b x s) (hW : W = true) (p : Nat) : BankOnly W b x (s.recoverCommit b p) := by
  unfold State.recoverCommit
  extract_lets s1
  have h1 : BankOnly W b x s1 := recoverPlace_on h hW _
  exact BankOnly.ite (goHeld_on h1 _ _) (recoverFrom_on h1 _)

theorem recoverEndWrite_on (h : BankOnly W b x s) (hW : W = true) : BankOnly W b x (s.recoverEndWrite b) := by
  unfold State.recoverEndWrite
  extract_lets s1 used s2
  have h1 : BankOnly W b x s1 := heading_on h _ (by intro _; rfl)
  exact BankOnly.ite (writeScrubHeader_on (banking_written h1 hW _)) (writeHeader_on h1)

theorem recoverEnd_on (h : BankOnly W b x s) (hW : W = true) : BankOnly W b x (s.recoverEnd b) := nextWork_on (recoverEndWrite_on h hW)

theorem eraseCommit_on (h : BankOnly W b x s) (hW : W = true) (p : Nat) : BankOnly W b x (s.eraseCommit b p) := by
  unfold State.eraseCommit
  extract_lets s1
  have h1 : BankOnly W b x s1 := freePlace_on h hW _
  exact BankOnly.ite (banking_on h1 _ (by intro _; rfl)) (eraseOn_on h1)

theorem eraseEndWrite_on (h : BankOnly W b x s) (hW : W = true) : BankOnly W b x (s.eraseEndWrite b) :=
  writeScrubHeader_on (banking_written h hW _)

theorem eraseEnd_on (h : BankOnly W b x s) (hW : W = true) : BankOnly W b x (s.eraseEnd b) := by
  unfold State.eraseEnd
  extract_lets d s1 s2
  have h1 : BankOnly W b x s1 := eraseEndWrite_on h hW
  exact nextWork_on (BankOnly.ite h1 (wantOpeningOf_on h1 _))

theorem headerCommit_on (h : BankOnly W b x s) (hW : W = true) : BankOnly W b x (s.headerCommit b) := by
  unfold State.headerCommit
  split
  · exact advanceCommit_on h _
  · exact compactEnd_on h _
  · exact scrubPassEnd_on h _ _
  · exact recoverEnd_on h hW
  · exact eraseEnd_on h hW
  · exact h

theorem finishWrite_on (h : BankOnly W b x s) (hW : W = true) : BankOnly W b x (s.finishWrite b) := by
  unfold State.finishWrite
  split
  · exact applyEndWrite_on h hW _ _
  · exact applyAddWrite_on h hW _
  · exact advanceWrite_on h _
  · exact freePlace_on h hW _
  · exact compactEndWrite_on h _
  · exact scrubPassWrite_on h _ _
  · exact repairWrite_on h hW _
  · exact recoverPlace_on h hW _
  · exact recoverEndWrite_on h hW
  · exact freePlace_on h hW _
  · exact eraseEndWrite_on h hW
  · exact h

/-! ## Holds, resumes, starts, lookups -/

theorem holdBank_on (h : BankOnly W b x s) (p : HoldPending) : BankOnly W b x (s.holdBank b p) := by
  unfold State.holdBank
  extract_lets k
  split
  · exact h
  · exact goHeld_on h _ _
  · refine BankOnly.ite (banking_on h _ (by intro _; rfl)) ?_
    split
    · exact BankOnly.ite (goHeld_on h _ _) (banking_on h _ (by intro _; rfl))
    · exact goHeld_on h _ _
    · exact h

theorem resumeBank_on (h : BankOnly W b x s) : BankOnly W b x (s.resumeBank b) := by
  unfold State.resumeBank
  extract_lets k
  split
  · exact h
  · extract_lets s1
    have h1 : BankOnly W b x s1 := banking_on h _ (by intro _; rfl)
    split
    · exact applyResume_on h1 _
    · exact compactOn_on h1 _ _
    · exact resumeScrub_on h1 _
    · exact recoverFrom_on h1 _
    · exact h1
    · exact nextWork_on h1
  · exact BankOnly.ite (eraseOn_on (banking_on h _ (by intro _; rfl))) (banking_on h _ (by intro _; rfl))

theorem faultUnreadable_on (h : BankOnly W b x s) (hW : W = true) : BankOnly W b x (s.faultUnreadable b) :=
  raise_on (writeScrubHeader_on (setBank_written h hW _)) _

theorem startBank_on (h : BankOnly W b x s) (hW : W = true) : BankOnly W b x (s.startBank b) := by
  unfold State.startBank
  extract_lets hd
  refine BankOnly.ite (faultUnreadable_on h hW) (BankOnly.ite (raise_on (setBank_written h hW _) _) ?_)
  split
  · exact recoverFrom_on (setBank_written h hW _) _
  · exact BankOnly.ite (recoverFrom_on (setBank_written h hW _) _) (nextWork_on (setBank_written h hW _))

theorem lookupEffect_on (h : BankOnly W b x s) (k : Nat) : BankOnly W b x (s.lookupEffect b k) := by
  unfold State.lookupEffect
  extract_lets s1
  have h1 : BankOnly W b x s1 := markFailing_on h _
  exact BankOnly.ite (BankOnly.ite (beginScrub_on h1) h1) h

/-! ## One operation at every bank -/

/-- The two states are alike outside the banks and at bank `b`. -/
structure SameAt (b : BankId) (s t : State) : Prop where
  outside : t.outside = s.outside
  bank : t.bank b = s.bank b
  header : t.store.headers[b] = s.store.headers[b]
  directory : t.backup.headers[b] = s.backup.headers[b]
  places : t.places b = s.places b

theorem SameAt.refl (b : BankId) (s : State) : SameAt b s s := ⟨rfl, rfl, rfl, rfl, rfl⟩
theorem SameAt.trans {b : BankId} {r s t : State} (h : SameAt b r s) (k : SameAt b s t) : SameAt b r t :=
  ⟨k.1.trans h.1, k.2.trans h.2, k.3.trans h.3, k.4.trans h.4, k.5.trans h.5⟩

/-- Work at another bank leaves bank `b` alone. -/
theorem BankOnly.at {W : Bool} {b e : BankId} {s t : State} (h : BankOnly W e s t) (n : b ≠ e) : SameAt b s t :=
  ⟨h.outside, h.others b n, h.headers b n, h.directory b n, h.elsewhere b n⟩

theorem sameAt_fold {W : Bool} {b : BankId} {f : State → BankId → State} (hf : ∀ s e, BankOnly W e s (f s e)) :
    ∀ (l : List BankId) (s : State), b ∉ l → SameAt b s (l.foldl f s)
  | [], s, _ => .refl b s
  | e :: l, s, h => by
    rw [List.foldl_cons]
    exact ((hf s e).at (fun k => h (by simp [k]))).trans (sameAt_fold hf l _ (fun k => h (by simp [k])))

/-- After an operation at every bank, bank `b` stands as its own operation left it. -/
theorem fold_at {W : Bool} {b : BankId} {f : State → BankId → State} (hf : ∀ s e, BankOnly W e s (f s e))
    (l : List BankId) (s : State) (h : b ∈ l) (n : l.Nodup) :
    ∃ t : State, SameAt b s t ∧ SameAt b (f t b) (l.foldl f s) := by
  induction l generalizing s with
  | nil => cases h
  | cons e l ih =>
    rw [List.foldl_cons]
    rw [List.nodup_cons] at n
    by_cases k : b = e
    · subst k
      exact ⟨s, .refl b s, sameAt_fold hf l _ n.1⟩
    · obtain ⟨t, h1, h2⟩ := ih (f s e) (by simpa [k] using h) n.2
      exact ⟨t, ((hf s e).at k).trans h1, h2⟩

/-- After an operation at each of the sixteen banks, bank `b` stands as its own operation left it. -/
theorem allBanks_at {W : Bool} {f : State → BankId → State} (hf : ∀ s e, BankOnly W e s (f s e)) (b : BankId) (s : State) :
    ∃ t : State, SameAt b s t ∧ SameAt b (f t b) (allBanks.foldl f s) :=
  fold_at hf allBanks s (List.mem_finRange b) (List.nodup_finRange 16)

/-- An operation at each of the sixteen banks leaves alone what lies outside the banks. -/
theorem allBanks_outside {W : Bool} {f : State → BankId → State} (hf : ∀ s e, BankOnly W e s (f s e)) (s : State) :
    (allBanks.foldl f s).outside = s.outside := by
  generalize allBanks = l
  induction l generalizing s with
  | nil => rfl
  | cons e l ih => rw [List.foldl_cons, ih]; exact (hf s e).outside

end Sys2Proof.Machine
end

