-- ==== Sys2Proof/Laws/HoldRules.lean ====
section
/-! SUPPORT. What the entry to CLOSING and the holds of the fetch and serve engine do and leave alone. -/

namespace Sys2Proof.Machine

/-- What the cancelling of asks and the holds leave alone: the SUP, the response, the pool's offers and its hold mark. -/
structure HoldKeeps (s t : State) : Prop where
  supply : t.supply = s.supply
  resp : t.port.response = s.port.response
  queue : t.pool.queue = s.pool.queue
  waiting : t.pool.waiting = s.pool.waiting
  held : t.pool.held = s.pool.held

theorem HoldKeeps.refl (s : State) : HoldKeeps s s := ⟨rfl, rfl, rfl, rfl, rfl⟩

theorem HoldKeeps.trans {a b c : State} (h : HoldKeeps a b) (k : HoldKeeps b c) : HoldKeeps a c :=
  ⟨k.1.trans h.1, k.2.trans h.2, k.3.trans h.3, k.4.trans h.4, k.5.trans h.5⟩

theorem HoldKeeps.fold {α : Type} (f : State → α → State) (hf : ∀ s a, HoldKeeps s (f s a)) (l : List α) (s : State) : HoldKeeps s (l.foldl f s) := by
  induction l generalizing s with
  | nil => exact .refl s
  | cons a l ih => exact (hf s a).trans (ih _)

theorem post_holdKeeps (s m) : HoldKeeps s (s.post m) := ⟨rfl, rfl, rfl, rfl, rfl⟩

theorem memberLeft_holdKeeps (s n) : HoldKeeps s (s.memberLeft n) := ⟨rfl, rfl, rfl, rfl, rfl⟩

theorem removePeer_holdKeeps (s p) : HoldKeeps s (s.removePeer p) := by
  unfold State.removePeer
  dsimp only
  split
  · exact HoldKeeps.trans (b := ({ s with peers := s.peers.filter (fun x => x.station != p.station) } : State).peerReport) ⟨rfl, rfl, rfl, rfl, rfl⟩ (memberLeft_holdKeeps _ _)
  · exact ⟨rfl, rfl, rfl, rfl, rfl⟩

theorem peerAskEnded_holdKeeps (s n e) : HoldKeeps s (s.peerAskEnded n e) := by
  unfold State.peerAskEnded
  split
  · exact .refl s
  · dsimp only
    split
    · exact HoldKeeps.trans (b := (s.setPeer _).peerReport) ⟨rfl, rfl, rfl, rfl, rfl⟩ (removePeer_holdKeeps _ _)
    · exact ⟨rfl, rfl, rfl, rfl, rfl⟩

theorem manifestAskEnded_holdKeeps (s i) : HoldKeeps s (s.manifestAskEnded i) := by
  unfold State.manifestAskEnded
  split <;> exact ⟨rfl, rfl, rfl, rfl, rfl⟩

theorem endAsk_holdKeeps (s a e) : HoldKeeps s (s.endAsk a e) := by
  unfold State.endAsk
  dsimp only
  refine HoldKeeps.trans (b := ((s.fetching (fun f => { f with asks := f.asks.filter (fun x => x.id != a.id) })).withdrawFrame a.id)) ⟨rfl, rfl, rfl, rfl, rfl⟩ ?_
  refine (peerAskEnded_holdKeeps _ a.peer e).trans ?_
  split
  · exact (manifestAskEnded_holdKeeps _ _).trans ⟨rfl, rfl, rfl, rfl, rfl⟩
  · exact ⟨rfl, rfl, rfl, rfl, rfl⟩

theorem readFailure_holdKeeps (s e k) : HoldKeeps s (s.readFailure e k) := by
  rw [readFailure_eq]; exact ⟨rfl, rfl, rfl, rfl, rfl⟩

theorem serveRead_holdKeeps (s d g k r) : HoldKeeps s (s.serveRead d g k r).2 := by
  unfold State.serveRead
  split
  · exact .refl s
  · split
    · exact .refl s
    · split
      · split
        · exact readFailure_holdKeeps _ _ _
        · exact .refl s
      · exact .refl s

theorem vacateDrained_holdKeeps (s) : HoldKeeps s s.vacateDrained := by
  unfold State.vacateDrained
  refine HoldKeeps.fold _ (fun s i => ?_) _ _
  split <;> exact ⟨rfl, rfl, rfl, rfl, rfl⟩

theorem holdFetch_holdKeeps (s) : HoldKeeps s s.holdFetch := by
  unfold State.holdFetch
  dsimp only
  refine HoldKeeps.trans (HoldKeeps.fold (fun s a => s.endAsk a .cancelled) (fun s a => endAsk_holdKeeps s a _) s.fetch.asks s) ?_
  refine HoldKeeps.trans (b := (match (s.fetch.asks.foldl (fun s a => s.endAsk a .cancelled) s).fetch.reading, (s.fetch.asks.foldl (fun s a => s.endAsk a .cancelled) s).fetch.serve with
    | some r, e :: _ => ((s.fetch.asks.foldl (fun s a => s.endAsk a .cancelled) s).serveRead e.domain e.gen e.next r).2
    | _, _ => s.fetch.asks.foldl (fun s a => s.endAsk a .cancelled) s)) ?_ ?_
  · split
    · exact serveRead_holdKeeps _ _ _ _ _
    · exact .refl _
  · exact HoldKeeps.trans (b := State.fetching _ _) ⟨rfl, rfl, rfl, rfl, rfl⟩ (vacateDrained_holdKeeps _)

theorem holdBank_holdKeeps (s b h) : HoldKeeps s (s.holdBank b h) := by
  unfold State.holdBank
  dsimp only
  repeat' split
  all_goals exact ⟨rfl, rfl, rfl, rfl, rfl⟩

theorem holdBanks_holdKeeps (s h) : HoldKeeps s (s.holdBanks h) := HoldKeeps.fold _ (fun s b => holdBank_holdKeeps s b h) _ _

theorem dropQueuedPublish_supply (s : State) : s.dropQueuedPublish.supply = s.supply := by
  unfold State.dropQueuedPublish; split <;> rfl

/-- A hold empties the transmit classes and stops the announcement and decay timers (R176). -/
theorem silenceLink_clears (s : State) : s.silenceLink.link.chosen = none ∧ s.silenceLink.link.announce = none ∧ s.silenceLink.link.control = [] ∧ s.silenceLink.link.ask = [] ∧
    s.silenceLink.link.data = none ∧ s.silenceLink.link.announceAt = none ∧ s.silenceLink.link.decay = none := by
  unfold State.silenceLink
  rw [followChannel_eq]
  exact ⟨rfl, rfl, rfl, rfl, rfl, rfl, rfl⟩

theorem silenceLink_linkOnly (s : State) : s.silenceLink = { s with link := s.silenceLink.link } := by
  unfold State.silenceLink
  rw [followChannel_eq]
  rfl

/-- An ask that ends leaves the list. -/
theorem endAsk_asks (s : State) (a e) : (s.endAsk a e).fetch.asks = s.fetch.asks.filter (fun x => x.id != a.id) := by
  have h1 : ∀ s n e, (State.peerAskEnded s n e).fetch = s.fetch := by
    intro s n e
    unfold State.peerAskEnded
    split
    · rfl
    · dsimp only; split
      · unfold State.removePeer
        dsimp only
        split
        · exact (quiet_memberLeft _).fetch
        · rfl
      · rfl
  have h2 : ∀ (s : State) i, (s.manifestAskEnded i).fetch = s.fetch := by
    intro s i; unfold State.manifestAskEnded; split <;> rfl
  unfold State.endAsk
  dsimp only
  split
  · show (State.manifestAskEnded _ _).fetch.asks = _
    rw [h2, h1]; rfl
  · show (State.peerAskEnded _ _ _).fetch.asks = _
    rw [h1]; rfl

theorem cancelAsks_asks (l : List Ask) (s : State) : (l.foldl (fun s a => s.endAsk a .cancelled) s).fetch.asks = s.fetch.asks.filter (fun x => l.all (fun a => x.id != a.id)) := by
  induction l generalizing s with
  | nil => simp
  | cons a l ih =>
    rw [List.foldl_cons, ih, endAsk_asks, List.filter_filter]
    congr 1; funext x; simp [Bool.and_comm]

/-- Cancelling every ask empties the list (R142). -/
theorem cancelAsks_empty (s : State) : (s.fetch.asks.foldl (fun s a => s.endAsk a .cancelled) s).fetch.asks = [] := by
  rw [cancelAsks_asks, List.filter_eq_nil_iff]
  intro a ha
  simp only [List.all_eq_true, not_forall]
  exact ⟨a, ha, by simp⟩

theorem readFailure_fetch (s e k) : (State.readFailure s e k).fetch = s.fetch := by
  rw [readFailure_eq]

theorem serveRead_fetch (s d g k r) : (State.serveRead s d g k r).2.fetch = s.fetch := by
  unfold State.serveRead
  split
  · rfl
  · split
    · rfl
    · split
      · split
        · exact readFailure_fetch _ _ _
        · rfl
      · rfl

theorem vacateDrained_fetch (s : State) : s.vacateDrained.fetch = s.fetch := by
  unfold State.vacateDrained
  have : ∀ (l : List SlotId) (s : State), (l.foldl (fun s i =>
    if (s.slot i).state == .draining && (s.slotAsks i).isEmpty then s.vacate i else s) s).fetch = s.fetch := by
    intro l; induction l with
    | nil => intro s; rfl
    | cons b l ih => intro s; rw [List.foldl_cons, ih]; split <;> rfl
  exact this _ _

/-- A hold empties the ask list, the serve queue and the manifest reads (R142). -/
theorem holdFetch_fetch (s : State) : s.holdFetch.fetch.asks = [] ∧ s.holdFetch.fetch.serve = [] ∧ s.holdFetch.fetch.manifestReads = [] := by
  unfold State.holdFetch
  dsimp only
  rw [vacateDrained_fetch]
  refine ⟨?_, rfl, rfl⟩
  show (State.fetch _).asks = []
  split
  · show (State.fetch (State.serveRead _ _ _ _ _).2).asks = _
    rw [serveRead_fetch]; exact cancelAsks_empty s
  · exact cancelAsks_empty s

/-- What the entry to CLOSING does (R189). -/
theorem enterClosing_facts (s : State) : 
      s.enterClosing.supply.power = .closing ∧ s.enterClosing.supply.parked = .stopped ∧ s.enterClosing.supply.stable = none ∧
      (s.port.inProgress = none → s.enterClosing.port.response = s.port.response) ∧
      s.enterClosing.fetch.asks = [] ∧ s.enterClosing.fetch.serve = [] ∧ s.enterClosing.fetch.manifestReads = [] ∧ s.enterClosing.pool.queue = [] ∧ s.enterClosing.pool.waiting = false ∧
      s.enterClosing.pool.held = true ∧ s.enterClosing.link.chosen = none ∧ s.enterClosing.link.announce = none ∧ s.enterClosing.link.control = [] ∧ s.enterClosing.link.ask = [] ∧
      s.enterClosing.link.data = none ∧ s.enterClosing.link.announceAt = none ∧ s.enterClosing.link.decay = none := by
  unfold State.enterClosing
  dsimp only
  generalize hu : s.supplying (fun u => { u with power := .closing, parked := .stopped, stable := none }) = u
  have f1 : HoldKeeps u.dropQueuedPublish (u.dropQueuedPublish.holdBanks .closing) := holdBanks_holdKeeps _ _
  generalize hv : u.dropQueuedPublish.holdBanks .closing = v at f1
  have f2 : HoldKeeps v.holdPool v.holdPool.holdFetch := holdFetch_holdKeeps _
  have f3 := holdFetch_fetch v.holdPool
  have h1 : v.holdPool.pool.queue = [] ∧ v.holdPool.pool.waiting = false ∧ v.holdPool.pool.held = true ∧ v.holdPool.supply = v.supply ∧ v.holdPool.port = v.port := ⟨rfl, rfl, rfl, rfl, rfl⟩
  generalize v.holdPool = v1 at *
  generalize v1.holdFetch = v2 at *
  have f4 := silenceLink_clears v2
  have f5 := silenceLink_linkOnly v2
  have g1 : v2.silenceLink.supply = v2.supply := by have e := congrArg State.supply f5; exact e
  have g2 : v2.silenceLink.fetch = v2.fetch := by have e := congrArg State.fetch f5; exact e
  have g3 : v2.silenceLink.pool = v2.pool := by have e := congrArg State.pool f5; exact e
  have g4 : v2.silenceLink.port = v2.port := by have e := congrArg State.port f5; exact e
  rw [g1, g2, g3, g4]
  obtain ⟨a1, a2, a3, a4, a5, a6, a7⟩ := f4
  have hs : v2.supply = u.supply := by rw [f2.supply, h1.2.2.2.1, f1.supply, dropQueuedPublish_supply]
  refine ⟨by rw [hs, ← hu]; rfl, by rw [hs, ← hu]; rfl, by rw [hs, ← hu]; rfl, ?_, f3.1, f3.2.1, f3.2.2, f2.queue.trans h1.1, f2.waiting.trans h1.2.1, f2.held.trans h1.2.2.1, a1, a2, a3, a4, a5, a6, a7⟩
  intro hp
  rw [f2.resp, h1.2.2.2.2, f1.resp]
  have : u.dropQueuedPublish = u := by
    unfold State.dropQueuedPublish State.publishQueued
    have : u.port.inProgress = none := by rw [← hu]; exact hp
    rw [this]; rfl
  rw [this, ← hu]; rfl

end Sys2Proof.Machine
end

