-- ==== Sys2Proof/Laws/SupplyRules.lean ====
section
/-! SUPPORT. What dips, starts, DORMANT, reset and a loss of supply do, and what the completion of writes leaves alone. -/

namespace Sys2Proof.Machine

/-- What the hold of the fetch and serve engine leaves alone. -/
structure HoldFrame (s t : State) : Prop where
  supply : t.supply = s.supply
  pins : t.pins = s.pins
  clock : t.clock = s.clock
  banks : t.banks = s.banks
  headers : t.store.headers = s.store.headers
  places : t.store.places = s.store.places
  inProgress : t.port.inProgress = s.port.inProgress
  response : t.port.response = s.port.response
  dropped : t.port.dropped = s.port.dropped
  queue : t.pool.queue = s.pool.queue
  waiting : t.pool.waiting = s.pool.waiting
  held : t.pool.held = s.pool.held
  dips : t.backup.dips = s.backup.dips

theorem HoldFrame.refl (s : State) : HoldFrame s s := ⟨rfl, rfl, rfl, rfl, rfl, rfl, rfl, rfl, rfl, rfl, rfl, rfl, rfl⟩

theorem HoldFrame.trans {a b c : State} (h : HoldFrame a b) (k : HoldFrame b c) : HoldFrame a c :=
  ⟨k.1.trans h.1, k.2.trans h.2, k.3.trans h.3, k.4.trans h.4, k.5.trans h.5, k.6.trans h.6, k.7.trans h.7, k.8.trans h.8, k.9.trans h.9, k.10.trans h.10, k.11.trans h.11, k.12.trans h.12, k.13.trans h.13⟩

theorem calm_holdFrame {s t : State} (h : Calm s t) : HoldFrame s t :=
  ⟨h.supply, h.pins, h.clock, h.banks, h.headers, h.places, h.inProgress, h.response, h.dropped, by rw [h.pool], by rw [h.pool], by rw [h.pool], by rw [h.backup]⟩

theorem readFailure_holdFrame (s : State) (e k) : HoldFrame s (s.readFailure e k) := by
  rw [readFailure_eq]
  exact ⟨rfl, rfl, rfl, rfl, rfl, rfl, rfl, rfl, rfl, rfl, rfl, rfl, rfl⟩

theorem serveRead_holdFrame (s : State) (d g k r) : HoldFrame s (s.serveRead d g k r).2 := by
  unfold State.serveRead
  split
  · exact .refl _
  · split
    · exact .refl _
    · split
      · split
        · exact readFailure_holdFrame _ _ _
        · exact .refl _
      · exact .refl _

theorem vacateDrained_holdFrame (s : State) : HoldFrame s s.vacateDrained := by
  unfold State.vacateDrained
  have : ∀ (l : List SlotId) (s : State), HoldFrame s (l.foldl (fun s i =>
    if (s.slot i).state == .draining && (s.slotAsks i).isEmpty then s.vacate i else s) s) := by
    intro l; induction l with
    | nil => intro s; exact .refl s
    | cons b l ih =>
      intro s; rw [List.foldl_cons]; refine HoldFrame.trans ?_ (ih _)
      split <;> exact ⟨rfl, rfl, rfl, rfl, rfl, rfl, rfl, rfl, rfl, rfl, rfl, rfl, rfl⟩
  exact this _ _

theorem holdFetch_holdFrame (s : State) : HoldFrame s s.holdFetch := by
  unfold State.holdFetch
  extract_lets s1 s2
  have h1 : HoldFrame s s1 := calm_holdFrame (Calm.fold _ (fun _ _ => calm_endAsk _ _) _ _)
  have h2 : HoldFrame s1 s2 := by
    unfold s2; split
    · exact serveRead_holdFrame _ _ _ _ _
    · exact .refl _
  refine (h1.trans h2).trans (HoldFrame.trans (b := s2.fetching (fun f => { f with serve := [], reading := none, manifestReads := [] })) ⟨rfl, rfl, rfl, rfl, rfl, rfl, rfl, rfl, rfl, rfl, rfl, rfl, rfl⟩ (vacateDrained_holdFrame _))

/-- What a dip does (R190). -/
theorem enterDip_facts (s : State) :
        s.enterDip.pins = s.pins ∧
        s.enterDip.supply = { s.supply with
          power := .dipHold, prior := some s.supply.power, dipTimer := some (s.clock + 1500000), stable := none } ∧
        s.enterDip.backup.dips = min 255 (s.backup.dips + 1) ∧
        s.enterDip.port.inProgress = none ∧ s.enterDip.port.response = s.port.response ∧
        s.enterDip.port.dropped = (match s.port.inProgress with
          | some .manifest => some RequestKind.publishManifest.code
          | some _ => some RequestKind.publishSegment.code
          | none => s.port.dropped) ∧
        s.enterDip.fetch.asks = [] ∧ s.enterDip.fetch.serve = [] ∧ s.enterDip.fetch.manifestReads = [] ∧ s.enterDip.pool.queue = [] ∧ s.enterDip.pool.waiting = false ∧
        s.enterDip.pool.held = true ∧ s.enterDip.link.chosen = none ∧ s.enterDip.link.announce = none ∧ s.enterDip.link.control = [] ∧ s.enterDip.link.ask = [] ∧
        s.enterDip.link.data = none ∧ s.enterDip.link.announceAt = none ∧ s.enterDip.link.decay = none ∧
        ∀ b : BankId,
          ((s.bank b).state = .idle →
            s.enterDip.bank b = { s.bank b with state := .held, prior := some .idle, work := .none, hold := .none } ∧
            s.enterDip.store.headers[b] = StoredHeader.sealed (s.bank b).header) ∧
          ((s.bank b).state ≠ .idle → (s.bank b).state ≠ .held → (s.bank b).work.busy = true →
            s.enterDip.bank b = { s.bank b with hold := .dip } ∧ s.enterDip.store.headers[b] = s.store.headers[b]) := by
  unfold State.enterDip
  extract_lets s1 bk s2
  have header_keeps : s2.dropRequest.pins = s.pins ∧ s2.dropRequest.supply = s1.supply ∧ s2.dropRequest.backup = s2.backup ∧ s2.dropRequest.port.inProgress = none ∧ s2.dropRequest.port.response = s.port.response ∧
     s2.dropRequest.port.dropped = (match s.port.inProgress with
          | some .manifest => some RequestKind.publishManifest.code
          | some _ => some RequestKind.publishSegment.code
          | none => s.port.dropped) ∧ s2.dropRequest.banks = s.banks ∧ s2.dropRequest.store = s.store := by
    unfold State.dropRequest
    have : s2.port = s.port := rfl
    rw [this]
    cases hp : s.port.inProgress with
    | none => exact ⟨rfl, rfl, rfl, by rw [this, hp], by rw [this], by rw [this], rfl, rfl⟩
    | some k => cases k <;> exact ⟨rfl, rfl, rfl, rfl, rfl, rfl, rfl, rfl⟩
  obtain ⟨d1, d2, d3, d4, d5, d6, d7, d8⟩ := header_keeps
  generalize s2.dropRequest = a at *
  have on : ∀ (s : State) (e : BankId), BankOnly false e s (s.holdBank e .dip) := fun s e => holdBank_on (.refl _ _ _) _
  have ho : (a.holdBanks .dip).outside = a.outside := allBanks_outside on a
  have hb := fun b => allBanks_at on b a
  have hb : ∀ b, ∃ t, SameAt b a t ∧ SameAt b (t.holdBank b .dip) (a.holdBanks .dip) := hb
  generalize a.holdBanks .dip = c at *
  have f := holdFetch_holdFrame c.holdPool
  have ff := holdFetch_fetch c.holdPool
  have p1 : c.holdPool.pool.queue = [] ∧ c.holdPool.pool.waiting = false ∧ c.holdPool.pool.held = true ∧ c.holdPool.supply = c.supply ∧ c.holdPool.port = c.port ∧ c.holdPool.pins = c.pins ∧ c.holdPool.banks = c.banks ∧ c.holdPool.store = c.store ∧ c.holdPool.backup = c.backup := ⟨rfl, rfl, rfl, rfl, rfl, rfl, rfl, rfl, rfl⟩
  generalize c.holdPool = e at *
  generalize e.holdFetch = v at *
  obtain ⟨q1, q2, q3, q4, q5, q6, q7⟩ := silenceLink_clears v
  have f5 := silenceLink_linkOnly v
  have g0 : v.silenceLink.pins = v.pins := by have e := congrArg State.pins f5; exact e
  have g1 : v.silenceLink.supply = v.supply := by have e := congrArg State.supply f5; exact e
  have g2 : v.silenceLink.fetch = v.fetch := by have e := congrArg State.fetch f5; exact e
  have g3 : v.silenceLink.pool = v.pool := by have e := congrArg State.pool f5; exact e
  have g4 : v.silenceLink.port = v.port := by have e := congrArg State.port f5; exact e
  have g5 : v.silenceLink.backup = v.backup := by have e := congrArg State.backup f5; exact e
  have g6 : v.silenceLink.banks = v.banks := by have e := congrArg State.banks f5; exact e
  have g7 : v.silenceLink.store = v.store := by have e := congrArg State.store f5; exact e
  obtain ⟨p1, p2, p3, p4, p5, p6, p7, p8, p9⟩ := p1
  have ocl : c.pins = a.pins ∧ c.supply = a.supply ∧ c.backup.dips = a.backup.dips ∧ c.port.inProgress = a.port.inProgress ∧ c.port.response = a.port.response ∧ c.port.dropped = a.port.dropped := by
    refine ⟨?_, ?_, ?_, ?_, ?_, ?_⟩
    · have e := congrArg State.pins ho; exact e
    · have e := congrArg State.supply ho; exact e
    · have e := congrArg (fun s => s.backup.dips) ho; exact e
    · have e := congrArg (fun s => s.port.inProgress) ho; exact e
    · have e := congrArg (fun s => s.port.response) ho; exact e
    · have e := congrArg (fun s => s.port.dropped) ho; exact e
  obtain ⟨o1, o2, o3, o4, o5, o6⟩ := ocl
  rw [g0, g1, g2, g3, g4, g5, g7]
  refine ⟨?_, ?_, ?_, ?_, ?_, ?_, ff.1, ff.2.1, ff.2.2, f.queue.trans p1, f.waiting.trans p2, f.held.trans p3, q1, q2, q3, q4, q5, q6, q7, fun b => ?_⟩
  · rw [f.pins, p6, o1, d1]
  · rw [f.supply, p4, o2, d2]; rfl
  · rw [f.dips, p9, o3, d3]; rfl
  · rw [f.inProgress, p5, o4, d4]
  · rw [f.response, p5, o5, d5]
  · rw [f.dropped, p5, o6, d6]
  · obtain ⟨t, t1, t2⟩ := hb b
    have ab : a.bank b = s.bank b := by unfold State.bank; rw [d7]
    have tb : t.bank b = s.bank b := t1.bank.trans ab
    have vb : v.silenceLink.bank b = (t.holdBank b .dip).bank b := by
      rw [← t2.bank]; unfold State.bank; rw [g6, f.banks, p7]
    have vh : v.store.headers[b] = (t.holdBank b .dip).store.headers[b] := by
      rw [f.headers, p8, t2.header]
    have th : t.store.headers[b] = s.store.headers[b] := by rw [t1.header, d8]
    rw [vb, vh]
    refine ⟨fun hi => ?_, fun h1 h2 h3 => ?_⟩
    · have : t.holdBank b .dip = t.goHeld b .idle .none := by
        unfold State.holdBank; dsimp only; rw [tb, hi]
      rw [this]
      unfold State.goHeld
      refine ⟨?_, ?_⟩
      · exact (State.setBank_bank t b _).trans (by rw [tb])
      · have := (header_set (b := b) (t.banking b (fun k => { k with state := .held, prior := some .idle, work := .none, hold := .none })) _ ((t.banking b (fun k => { k with state := .held, prior := some .idle, work := .none, hold := .none })).writeScrubHeader b) rfl).2
        rw [this, State.banking, State.setBank_bank, tb]
    · have : t.holdBank b .dip = t.banking b (fun k => { k with hold := .dip }) := by
        unfold State.holdBank; dsimp only; rw [tb]
        split
        · rename_i h; exact absurd h h2
        · rename_i h; exact absurd h h1
        · rw [if_pos h3]
      rw [this]
      refine ⟨?_, th⟩
      rw [State.banking, State.setBank_bank, tb]

/-- What the completion of writes leaves of the SUP and of backup memory. -/
structure WriteFrame (s t : State) : Prop where
  supply : t.supply = s.supply
  pins : t.pins = s.pins
  clock : t.clock = s.clock
  valid : t.backup.valid = s.backup.valid
  dips : t.backup.dips = s.backup.dips
  barred : t.backup.barred = s.backup.barred
  cause : t.backup.cause = s.backup.cause
  good : s.backup.good = true → t.backup.good = true

theorem WriteFrame.refl (s : State) : WriteFrame s s := ⟨rfl, rfl, rfl, rfl, rfl, rfl, rfl, id⟩

theorem WriteFrame.trans {a b c : State} (h : WriteFrame a b) (k : WriteFrame b c) : WriteFrame a c :=
  ⟨k.1.trans h.1, k.2.trans h.2, k.3.trans h.3, k.4.trans h.4, k.5.trans h.5, k.6.trans h.6, k.7.trans h.7, fun i => k.8 (h.8 i)⟩

theorem writeFrame_of_same {s t : State} (h1 : t.supply = s.supply) (h2 : t.pins = s.pins) (h4 : t.clock = s.clock) (h3 : t.backup = s.backup) : WriteFrame s t := ⟨h1, h2, h4, by rw [h3], by rw [h3], by rw [h3], by rw [h3], by rw [h3]; exact id⟩

theorem writeIndex_writeFrame (s : State) (ix) : WriteFrame s (s.writeIndex ix) := ⟨rfl, rfl, rfl, rfl, rfl, rfl, rfl, fun _ => Backup.sealed_good _⟩

theorem writeHeader_writeFrame (s : State) (b) : WriteFrame s (s.writeHeader b) := ⟨rfl, rfl, rfl, rfl, rfl, rfl, rfl, fun _ => Backup.sealed_good _⟩

theorem writeScrubHeader_writeFrame (s : State) (b) : WriteFrame s (s.writeScrubHeader b) := ⟨rfl, rfl, rfl, rfl, rfl, rfl, rfl, fun _ => Backup.sealed_good _⟩

theorem removeEntry_writeFrame (s : State) (e) : WriteFrame s (s.removeEntry e) := (writeIndex_writeFrame s _).trans (writeFrame_of_same rfl rfl rfl rfl)

theorem makeRoom_writeFrame : ∀ (n : Nat) (s t : State), s.makeRoom n = some t → WriteFrame s t
  | 0, _, _, e => by simp [State.makeRoom] at e
  | n + 1, s, t, e => by
    unfold State.makeRoom at e
    split at e
    · cases e; exact .refl s
    · split at e
      · exact (removeEntry_writeFrame s _).trans (makeRoom_writeFrame n _ t e)
      · split at e
        · rename_i i en _
          have h : WriteFrame s ((s.emptyEntry en).post (.slotEmptied i)) := (writeIndex_writeFrame s _).trans (writeFrame_of_same rfl rfl rfl rfl)
          exact h.trans (makeRoom_writeFrame n _ t e)
        · cases e

theorem writeSegment_writeFrame (s : State) (o) : WriteFrame s (s.writeSegment o).2 := by
  unfold State.writeSegment
  split
  · exact .refl s
  · split
    · exact .refl s
    · split
      · exact .refl s
      · rename_i t ht
        have h1 := makeRoom_writeFrame _ _ _ ht
        split
        · exact h1
        · exact h1.trans ⟨rfl, rfl, rfl, rfl, rfl, rfl, rfl, fun _ => Backup.sealed_good _⟩

theorem enterManifest_writeFrame (s : State) (i m) : WriteFrame s (s.enterManifest i m) := by
  unfold State.enterManifest
  extract_lets s1 ix stamp s2
  have h1 : WriteFrame s s1 := by
    unfold s1; split
    · exact .refl s
    · split
      · exact removeEntry_writeFrame s _
      · exact .refl s
  exact (h1.trans (writeIndex_writeFrame _ _)).trans (writeFrame_of_same rfl rfl rfl rfl)

theorem finishIndexWrite_writeFrame (s : State) (w : IndexWrite) : WriteFrame s (s.finishIndexWrite w) := by
  unfold State.finishIndexWrite
  split
  · split
    · exact enterManifest_writeFrame _ _ _
    · exact .refl s
  · unfold State.markVerified
    split
    · split
      · exact writeIndex_writeFrame _ _
      · exact .refl s
    · exact .refl s
  · unfold State.digestFailedWrite
    split
    · split
      · exact .refl s
      · exact writeIndex_writeFrame _ _
    · exact .refl s
  · unfold State.drainedWrite
    split
    · split
      · exact writeFrame_of_same rfl rfl rfl rfl
      · exact (removeEntry_writeFrame _ _).trans (writeFrame_of_same rfl rfl rfl rfl)
    · exact .refl s
  · rename_i index
    unfold State.lostWrite
    split
    · exact .refl s
    · rename_i e _
      split
      · exact .refl s
      · split
        · exact removeEntry_writeFrame _ _
        · refine WriteFrame.trans (b := s.loseIndex e index) (writeIndex_writeFrame s _) ?_
          unfold State.tellLost
          split <;> exact writeFrame_of_same rfl rfl rfl rfl
  · unfold State.unpinnedWrite
    split
    · split
      · exact (removeEntry_writeFrame _ _).trans (writeFrame_of_same rfl rfl rfl rfl)
      · exact .refl s
    · exact .refl s

theorem finishPoolWrite_writeFrame (s : State) : WriteFrame s s.finishPoolWrite := by
  unfold State.finishPoolWrite
  split
  · exact .refl s
  · exact finishIndexWrite_writeFrame s _
  · exact writeSegment_writeFrame _ _

theorem setPlaces_writeFrame (s : State) (b l) : WriteFrame s (s.setPlaces b l) := ⟨rfl, rfl, rfl, rfl, rfl, rfl, rfl, id⟩

theorem banking_writeFrame (s : State) (b f) : WriteFrame s (s.banking b f) := ⟨rfl, rfl, rfl, rfl, rfl, rfl, rfl, id⟩

theorem freePlace_writeFrame (s : State) (b p) : WriteFrame s (s.freePlace b p) := ((setPlaces_writeFrame s b _).trans (banking_writeFrame _ _ _)).trans (writeHeader_writeFrame _ _)

theorem finishWrite_writeFrame (s : State) (b) : WriteFrame s (s.finishWrite b) := by
  unfold State.finishWrite
  split
  · unfold State.applyEndWrite; split
    · exact setPlaces_writeFrame _ _ _
    · exact .refl s
  · unfold State.applyAddWrite; split
    · exact .refl s
    · split
      · exact .refl s
      · exact ((setPlaces_writeFrame s b _).trans (banking_writeFrame _ _ _)).trans (writeHeader_writeFrame _ _)
  · exact (banking_writeFrame s b _).trans (writeHeader_writeFrame _ _)
  · exact freePlace_writeFrame _ _ _
  · exact (banking_writeFrame s b _).trans (writeHeader_writeFrame _ _)
  · unfold State.scrubPassWrite; split
    · exact writeScrubHeader_writeFrame _ _
    · split
      · exact (banking_writeFrame s b _).trans (writeScrubHeader_writeFrame _ _)
      · exact (banking_writeFrame s b _).trans (writeScrubHeader_writeFrame _ _)
  · unfold State.repairWrite; split
    · exact setPlaces_writeFrame _ _ _
    · exact freePlace_writeFrame _ _ _
    · exact .refl s
  · unfold State.recoverPlace; split
    · exact .refl s
    · split
      · exact freePlace_writeFrame _ _ _
      · exact setPlaces_writeFrame _ _ _
  · unfold State.recoverEndWrite; dsimp only; split
    · exact ((banking_writeFrame s b _).trans (banking_writeFrame _ b _)).trans (writeScrubHeader_writeFrame _ _)
    · exact (banking_writeFrame s b _).trans (writeHeader_writeFrame _ _)
  · exact freePlace_writeFrame _ _ _
  · exact (banking_writeFrame s b _).trans (writeScrubHeader_writeFrame _ _)
  · exact .refl s

theorem WriteFrame.fold {α : Type} (f : State → α → State) (hf : ∀ s a, WriteFrame s (f s a)) (l : List α) (s : State) : WriteFrame s (l.foldl f s) := by
  induction l generalizing s with
  | nil => exact .refl s
  | cons a l ih => exact (hf s a).trans (ih _)

theorem finishIndexQueue_writeFrame (s : State) : WriteFrame s s.finishIndexQueue :=
  WriteFrame.fold State.finishIndexWrite (fun s w => finishIndexWrite_writeFrame s w) _ _

theorem eraseWrite_supply (s : State) (r) (n) : (s.eraseWrite r n).supply = s.supply ∧ (s.eraseWrite r n).pins = s.pins ∧ (s.eraseWrite r n).clock = s.clock := by
  unfold State.eraseWrite
  split
  · exact ⟨rfl, rfl, rfl⟩
  · generalize allBanks = l
    induction l generalizing s with
    | nil => exact ⟨rfl, rfl, rfl⟩
    | cons b l ih => rw [List.foldl_cons]; obtain ⟨a, b, c⟩ := ih (s.eraseBank b); exact ⟨a, b, c⟩
  · exact ⟨rfl, rfl, rfl⟩
  · simp [State.eraseDomain]
  · exact ⟨rfl, rfl, rfl⟩
  · exact ⟨rfl, rfl, rfl⟩

theorem finishWrites_supply (s : State) : s.finishWrites.supply = s.supply ∧ s.finishWrites.pins = s.pins ∧ s.finishWrites.clock = s.clock := by
  unfold State.finishWrites
  have h : WriteFrame s (allBanks.foldl (fun s b => s.finishWrite b) s).finishPoolWrite := (WriteFrame.fold (fun s b => s.finishWrite b) (fun s b => finishWrite_writeFrame s b) _ _).trans (finishPoolWrite_writeFrame _)
  generalize (allBanks.foldl (fun s b => s.finishWrite b) s).finishPoolWrite = t at h
  unfold State.finishEraseWrite
  split
  · split
    · obtain ⟨a, b, c⟩ := eraseWrite_supply t ‹Erase›.record ‹Nat›
      exact ⟨a.trans h.supply, b.trans h.pins, c.trans h.clock⟩
    · exact ⟨h.supply, h.pins, h.clock⟩
  · exact ⟨h.supply, h.pins, h.clock⟩

/-- The completion of writes without an erase in progress keeps the SUP, the lines and the backup's marks. -/
theorem finishWrites_writeFrame {s : State} (he : s.supply.erase = none) : WriteFrame s s.finishWrites := by
  unfold State.finishWrites
  have h : WriteFrame s (allBanks.foldl (fun s b => s.finishWrite b) s).finishPoolWrite := (WriteFrame.fold (fun s b => s.finishWrite b) (fun s b => finishWrite_writeFrame s b) _ _).trans (finishPoolWrite_writeFrame _)
  generalize (allBanks.foldl (fun s b => s.finishWrite b) s).finishPoolWrite = t at h
  unfold State.finishEraseWrite
  rw [h.supply, he]
  exact h

/-- Dropping the blocks' state clears everything that a stop clears. -/
theorem dropBlocks_cleared (s : State) (t : State) (h : t = { s.dropBlocks with supply := t.supply, backup := t.backup, pins := t.pins }) : t.cleared ∧ t.todo = Todo.nothing := by
  generalize t.supply = a at h; generalize t.backup = b at h; generalize t.pins = c at h
  subst h
  refine ⟨⟨fun b => ?_, rfl, fun i => ?_, rfl, rfl, fun d => by cases d <;> rfl, fun d => by cases d <;> rfl, rfl, rfl, rfl⟩, rfl⟩
  · show (Vector.replicate 16 Bank.unstarted)[b] = _; simp
  · show (Vector.replicate 6 Slot.empty)[i] = _; simp

/-- A cleared part brings nothing about before a start reads the start record. -/
theorem cleared_rests {t : State} (h : t.cleared) (ht : t.todo = Todo.nothing) (hr : t.started = false) : t.rests := by
  have hrun : t.running = false := by
    unfold State.started at hr; unfold State.running
    cases hp : t.supply.power <;> rw [hp] at hr <;> simp at hr ⊢
  have hs : ∀ i, t.slot i = Slot.empty := h.slots
  refine ⟨settleOnce_none.mpr ⟨by rw [ht]; rfl, by rw [ht]; rfl, ?_, by rw [ht]; rfl, ?_, ?_, by rw [ht]; rfl⟩, arbiter_rest.mpr (.inr (.inl hrun)), ?_, ?_⟩
  · unfold State.poolReady; rw [h.pool]; rfl
  · have : ∀ d, t.nextApply d = none := by
      intro d; unfold State.nextApply
      have hn : (t.domainSlots d).filter t.mayApply = [] := by
        rw [List.filter_eq_nil_iff]; intro i _; unfold State.mayApply; dsimp only; rw [hs]; simp [Slot.empty]
      rw [hn]; split <;> rfl
    rw [this, this]; rfl
  · unfold State.nextDrive
    rw [List.findSome?_eq_none_iff]
    intro i _; dsimp only; rw [hs]; rfl
  · unfold State.beginServeRead
    rw [h.fetch]; rfl
  · unfold State.settleCold
    rw [if_neg]; simp [hr]

theorem starting_notStarted {t : State} (h1 : t.supply.power = .starting) (h2 : t.supply.recordRead = false) : t.started = false := by unfold State.started; rw [h1]; exact h2

theorem dormant_notStarted {t : State} (h1 : t.supply.power = .dormant) : t.started = false := by unfold State.started; rw [h1]

/-- A start's beginning, after the completion of writes. -/
def startedFrom (w : State) (c : Cause) : State :=
  let s := w.dropBlocks
  let kind := s.startKind c
  let dips := if c == .powerOn then 0 else s.backup.dips
  let s := s.supplying (fun u => { Supply.stopped .starting kind u.ignition false none with settling := kind == .cold })
  { s with backup := Backup.sealed { s.backup with
      dips := dips, cause := { cause := c, kind := kind, dips := dips }
      valid := if kind == .cold then false else s.backup.valid
      barred := if kind == .cold then [] else s.backup.barred } }

theorem beginStart_eq (s : State) (c) : s.beginStart c = startedFrom s.finishWrites c := by unfold State.beginStart startedFrom; rfl

theorem startedFrom_facts (w : State) (c : Cause) : ∃ k, k = w.startKind c ∧ (startedFrom w c).startsAt c k ∧ (startedFrom w c).settle = startedFrom w c ∧
    (startedFrom w c).supply.ignition = w.supply.ignition ∧ (startedFrom w c).pins = w.pins ∧
    (startedFrom w c).backup.dips = (if c = .powerOn then 0 else w.backup.dips) ∧
    (startedFrom w c).backup.valid = (if k = .cold then false else w.backup.valid) ∧ (startedFrom w c).backup.barred = (if k = .cold then [] else w.backup.barred) ∧
    (startedFrom w c).store = w.store := by
  have hc := dropBlocks_cleared w (startedFrom w c) rfl
  refine ⟨_, rfl, ⟨rfl, rfl, rfl, rfl, ?_, ?_, hc.1⟩, ?_, rfl, rfl, ?_, ?_, ?_, rfl⟩
  · rfl
  · intro h
    have : (w.dropBlocks.startKind c == .cold) = true := by rw [show w.dropBlocks.startKind c = w.startKind c from by cases c <;> rfl, h]; rfl
    refine ⟨?_, ?_⟩
    · show (if (w.dropBlocks.startKind c == .cold) = true then false else _) = false
      rw [this]; rfl
    · show (if (w.dropBlocks.startKind c == .cold) = true then [] else _) = []
      rw [this]; rfl
  · have hp : (startedFrom w c).supply.power = .starting := rfl
    have hq : (startedFrom w c).supply.recordRead = false := rfl
    have hr := cleared_rests hc.1 hc.2 (starting_notStarted hp hq)
    exact settle_rest hr (by rw [hp]; simp) (by rw [hp]; simp)
  · show (if (c == .powerOn) = true then 0 else _) = _
    cases c <;> rfl
  · show (if (w.startKind c == .cold) = true then false else _) = _
    cases w.startKind c <;> rfl
  · show (if (w.startKind c == .cold) = true then [] else _) = _
    cases w.startKind c <;> rfl

/-- What the beginning of a start does (R184, R186). -/
theorem beginStart_facts (s : State) (c : Cause) : ∃ k, k = s.finishWrites.startKind c ∧ (s.beginStart c).startsAt c k ∧ (s.beginStart c).settle = s.beginStart c ∧
    (s.beginStart c).supply.ignition = s.supply.ignition ∧ (s.beginStart c).pins = s.pins ∧
    (s.beginStart c).backup.dips = (if c = .powerOn then 0 else s.finishWrites.backup.dips) ∧
    (s.beginStart c).backup.valid = (if k = .cold then false else s.finishWrites.backup.valid) ∧ (s.beginStart c).backup.barred = (if k = .cold then [] else s.finishWrites.backup.barred) ∧
    (s.beginStart c).store = s.finishWrites.store := by
  have hs := finishWrites_supply s
  rw [← hs.1, ← hs.2.1, beginStart_eq]
  exact startedFrom_facts _ _

/-- The entry to DORMANT, after the completion of writes. -/
def dormantFrom (w : State) : State := w.dropBlocks.supplying (fun u => Supply.stopped .dormant u.kind u.ignition u.pendingStart none)

theorem enterDormant_eq (s : State) : s.enterDormant = dormantFrom s.finishWrites.finishIndexQueue := by unfold State.enterDormant dormantFrom; rfl

theorem dormantFrom_facts (w : State) : (dormantFrom w).supply.power = .dormant ∧ (dormantFrom w).cleared ∧ (dormantFrom w).pins = w.pins ∧
    (dormantFrom w).supply.ignition = w.supply.ignition ∧ (dormantFrom w).supply.pendingStart = w.supply.pendingStart ∧ (dormantFrom w).rests := by
  have hc := dropBlocks_cleared w (dormantFrom w) rfl
  exact ⟨rfl, hc.1, rfl, rfl, rfl, cleared_rests hc.1 hc.2 (dormant_notStarted rfl)⟩

/-- Entering DORMANT when nothing calls for a start. -/
theorem enterDormant_facts (s : State) : s.enterDormant.supply.power = .dormant ∧ s.enterDormant.cleared ∧ s.enterDormant.pins = s.pins ∧
    s.enterDormant.supply.ignition = s.supply.ignition ∧ s.enterDormant.supply.pendingStart = s.supply.pendingStart ∧ s.enterDormant.rests := by
  have hs := finishWrites_supply s
  have hq := finishIndexQueue_writeFrame s.finishWrites
  rw [← hs.1, ← hs.2.1, ← hq.supply, ← hq.pins, enterDormant_eq]
  exact dormantFrom_facts _

/-- Settling in DORMANT at rest is the test for a start. -/
theorem settle_dormant {t : State} (hr : t.rests) (hp : t.supply.power = .dormant) : t.settle = t.dormantStart := by
  obtain ⟨a, b, c, d⟩ := hr
  unfold State.settle
  rw [settleLoop_rest a, b, c, d]
  have : t.closingEnds = t := by unfold State.closingEnds; rw [if_neg]; rw [hp]; simp
  rw [this]

/-- Nothing calls for a start. -/
theorem dormantStart_none {t : State} (h1 : t.supply.pendingStart = false) (h2 : t.supply.ignition = false) (h3 : t.pins.wake = false) : t.dormantStart = t := by
  unfold State.dormantStart
  rw [h1, h2, h3]; simp

/-- What a resume gives the LNK (R177). -/
theorem resumeLink_facts (s : State) : s.resumeLink = { s with link := s.resumeLink.link, draws := s.draws + 1 } ∧ s.resumeLink.link.decay = some (s.clock + 4000000) ∧ s.resumeLink.link.announceAt.isSome = true := by
  unfold State.resumeLink State.formAnnounce
  extract_lets f
  rw [State.draw]
  dsimp only
  refine ⟨rfl, ?_, rfl⟩
  show (Link.placeAnnounce _ f).decay = _
  have pa : ∀ l : Link, (l.placeAnnounce f).decay = l.decay := by
    intro l; unfold Link.placeAnnounce; (repeat' split) <;> rfl
  rw [pa]; rfl

/-- A bank with nothing to do is IDLE (R25). -/
theorem nextWork_idle {s : State} {b : BankId} (h1 : (s.bank b).unoccupied) (h2 : ¬ s.scrubInterval < 2 * (s.bank b).header.scrubAge) :
    s.nextWork b = (s.banking b (fun k => { k with state := .idle, work := .none })).banking b (fun k => { k with state := .idle, work := .none }) := by
  unfold State.nextWork
  rw [h1.hold, if_neg (by simp)]
  extract_lets s1
  have k1 : (s.banking b (fun k => { k with state := .idle, work := .none })).bank b = { s.bank b with state := .idle, work := .none } := State.setBank_bank _ _ _
  have e1 : s1 = s.banking b (fun k => { k with state := .idle, work := .none }) := by
    show State.acknowledge _ _ = _
    unfold State.acknowledge
    rw [k1]
    dsimp only
    split
    · rename_i g hg; exact absurd hg (h1.quiesce g)
    · rfl
  rw [e1, k1]
  dsimp only
  rw [h1.scrubDue, if_neg (by simp), h1.waiting]
  dsimp only
  unfold State.afterApplies
  rw [k1]
  dsimp only
  rw [h1.compactWanted, if_neg (by simp), if_neg]
  unfold State.scrubHalf
  rw [k1]
  simp only [decide_eq_true_eq]; exact h2

/-- A DROPPED response is placed when the buffer is free (R198). -/
theorem placeDropped_facts (s : State) : s.placeDropped = { s with port := s.placeDropped.port } ∧
   (∀ k, s.port.dropped = some k → s.port.response = none → s.placeDropped.port.dropped = none ∧ s.placeDropped.port.response = some
            { kind := k, outcome := OutcomeCode.dropped.code, overrun := s.port.overrun, body := [] }) := by
  unfold State.placeDropped
  refine ⟨?_, fun k h1 h2 => ?_⟩
  · split <;> rfl
  · rw [h1, h2]; exact ⟨rfl, rfl⟩

/-- What a resume after a dip does (R191). -/
theorem resumeRunning_facts (s : State) (p : Power) (w : ParkedTimer) : 
    (s.resumeRunning p w).supply = { s.supply with
            power := p, prior := none, dipTimer := none, parked := w, stable := some (s.clock + 60000000) } ∧
          (s.resumeRunning p w).pool.held = false ∧ (s.resumeRunning p w).link.decay = some (s.clock + 4000000) ∧ (s.resumeRunning p w).link.announceAt.isSome = true ∧
          (s.resumeRunning p w).backup.dips = s.backup.dips ∧
          (∀ k, s.port.dropped = some k → s.port.response = none → (s.resumeRunning p w).port.dropped = none ∧ (s.resumeRunning p w).port.response = some
            { kind := k, outcome := OutcomeCode.dropped.code, overrun := s.port.overrun, body := [] }) ∧
          ∀ b : BankId, (s.bank b).state = .held → (s.bank b).prior = some .idle → (s.bank b).work = .none →
            (s.bank b).unoccupied → ¬ s.scrubInterval < 2 * (s.bank b).header.scrubAge →
            (s.resumeRunning p w).bank b = { s.bank b with state := .idle, prior := none } := by
  unfold State.resumeRunning
  extract_lets s1
  have on : ∀ (s : State) (e : BankId), BankOnly false e s (s.resumeBank e) := fun s e => resumeBank_on (.refl _ _ _)
  have ho : (s1.resumePool.resumeBanks).outside = s1.resumePool.outside := allBanks_outside on _
  have hb : ∀ b, ∃ t, SameAt b s1.resumePool t ∧ SameAt b (t.resumeBank b) (s1.resumePool.resumeBanks) := fun b => allBanks_at on b _
  generalize s1.resumePool.resumeBanks = c at *
  obtain ⟨l1, l2, l3⟩ := resumeLink_facts c
  generalize c.resumeLink = d at *
  obtain ⟨q1, q2⟩ := placeDropped_facts d
  generalize d.placeDropped = e at *
  have o1 : c.supply = s1.supply := by have e := congrArg State.supply ho; exact e
  have o2 : c.pool.held = false := by have e := congrArg (fun s => s.pool.held) ho; exact e
  have o3 : c.clock = s.clock := by have e := congrArg State.clock ho; exact e
  have o4 : c.backup.dips = s.backup.dips := by have e := congrArg (fun s => s.backup.dips) ho; exact e
  have o5 : c.port.dropped = s.port.dropped := by have e := congrArg (fun s => s.port.dropped) ho; exact e
  have o6 : c.port.response = s.port.response := by have e := congrArg (fun s => s.port.response) ho; exact e
  have o7 : c.port.overrun = s.port.overrun := by have e := congrArg (fun s => s.port.overrun) ho; exact e
  have d0 : d.port = c.port := by rw [l1]
  have e0 : e.peerReport.supply = c.supply ∧ e.peerReport.pool = c.pool ∧ e.peerReport.link = d.link ∧ e.peerReport.backup = c.backup ∧ e.peerReport.port = e.port ∧ e.peerReport.banks = c.banks := by
    refine ⟨?_, ?_, ?_, ?_, rfl, ?_⟩
    · show e.supply = _; rw [q1]; show d.supply = _; rw [l1]
    · show e.pool = _; rw [q1]; show d.pool = _; rw [l1]
    · show e.link = _; rw [q1]
    · show e.backup = _; rw [q1]; show d.backup = _; rw [l1]
    · show e.banks = _; rw [q1]; show d.banks = _; rw [l1]
  obtain ⟨e1, e2, e3, e4, e5, e6⟩ := e0
  rw [e1, e2, e3, e4, e5]
  refine ⟨o1, o2, ?_, l3, o4, fun k h1 h2 => ?_, fun b h1 h2 h3 h4 h5 => ?_⟩
  · rw [l2, o3]
  · have := q2 k (by rw [d0, o5, h1]) (by rw [d0, o6, h2])
    rw [d0, o7] at this; exact this
  · obtain ⟨t, t1, t2⟩ := hb b
    have tb : t.bank b = s.bank b := t1.bank
    have : e.peerReport.bank b = (t.resumeBank b).bank b := by
      rw [← t2.bank]; unfold State.bank; rw [e6]
    rw [this]
    unfold State.resumeBank
    dsimp only
    rw [tb, h1, h2]
    dsimp only
    rw [h3]
    dsimp only
    have tc : t.supply.config = s.supply.config := by
      have e := congrArg (fun s => s.supply.config) t1.outside; exact e
    have k1 : (t.banking b (fun k => { k with state := .idle, prior := none })).bank b = { s.bank b with state := .idle, prior := none } := by
      rw [← tb]; exact State.setBank_bank _ _ _
    have hn := nextWork_idle (s := t.banking b (fun k => { k with state := .idle, prior := none })) (b := b) (by rw [k1]; exact ⟨h4.1, h4.2, h4.3, h4.4, h4.5⟩)
      (by rw [k1]; unfold State.scrubInterval; show ¬ t.supply.config.scrubInterval * _ * _ < _; rw [tc]; exact h5)
    rw [hn]
    rw [State.banking, State.setBank_bank, State.banking, State.setBank_bank, k1]

theorem exec_supplyRise {s : State} {mv v24} (h : s.risesAboveRun mv v24 = true) : exec (.supplyRise mv v24) s = .next ((s.supplyReads mv v24).supplyRisen.settle) := by
  show Host.Outcome.next _ = _
  rw [if_pos h]

theorem supplyReads_aboveRun {s : State} {mv v24} (h : s.risesAboveRun mv v24 = true) : (s.supplyReads mv v24).aboveRun = true := by
  unfold State.risesAboveRun at h
  unfold State.aboveRun
  simp only [Bool.and_eq_true, decide_eq_true_eq] at h
  exact decide_eq_true h.1

theorem supplyReads_rests {s : State} {mv v24} (h : s.rests) : (s.supplyReads mv v24).rests :=
  have k1 := settleOnce_none.mp h.1
  have k2 := arbiter_rest.mp h.2.1
  have k3 := beginServeRead_rest.mp h.2.2.1
  have k4 := settleCold_rest.mp h.2.2.2
  ⟨settleOnce_none.mpr k1, arbiter_rest.mpr k2, beginServeRead_rest.mpr k3, settleCold_rest.mpr k4⟩

/-- A WARM start needs the valid mark and fewer than four dips (R184). -/
theorem startKind_warm_needs {s : State} (c : Cause) (he : s.supply.erase = none) : s.finishWrites.startKind c = .cold ∨ (s.backup.valid = true ∧ s.backup.dips < 4) := by
  have b := finishWrites_writeFrame he
  unfold State.startKind
  split
  · exact .inl rfl
  · exact .inl rfl
  · exact .inl rfl
  · rw [b.valid, b.dips]
    by_cases h : (s.backup.valid && s.finishWrites.backup.good && decide (s.backup.dips < 4)) = true
    · right; simp at h; exact ⟨h.1.1, h.2⟩
    · left; rw [if_neg h]

theorem finishWrites_invalid {s : State} (h : s.backup.valid = false) : s.finishWrites.backup.valid = false := by
  unfold State.finishWrites
  have k : WriteFrame s (allBanks.foldl (fun s b => s.finishWrite b) s).finishPoolWrite := (WriteFrame.fold (fun s b => s.finishWrite b) (fun s b => finishWrite_writeFrame s b) _ _).trans (finishPoolWrite_writeFrame _)
  generalize (allBanks.foldl (fun s b => s.finishWrite b) s).finishPoolWrite = t at k
  have hv : t.backup.valid = false := by rw [k.valid, h]
  unfold State.finishEraseWrite
  split
  · split
    · unfold State.eraseWrite
      split
      · rfl
      · have : ∀ (l : List BankId) (t : State), (l.foldl (fun s b => s.eraseBank b) t).backup.valid = t.backup.valid := by
          intro l; induction l with
          | nil => intro t; rfl
          | cons b l ih => intro t; rw [List.foldl_cons, ih]; rfl
        rw [this]; exact hv
      · exact hv
      · simpa [State.eraseDomain, Backup.sealed] using hv
      · exact hv
      · exact hv
    · exact hv
  · exact hv

theorem startKind_cold {s : State} (c : Cause) (h : s.backup.valid = false) : s.finishWrites.startKind c = .cold := by
  unfold State.startKind
  rw [finishWrites_invalid h]
  split <;> simp

theorem beginStart_cold {s : State} (c : Cause) (h : s.finishWrites.startKind c = .cold) : (s.beginStart c).startsAt c .cold ∧ (s.beginStart c).settle = s.beginStart c ∧
    (s.beginStart c).supply.ignition = s.supply.ignition ∧ (s.beginStart c).pins = s.pins := by
  obtain ⟨k, k1, k2, k3, k4, k5, k6⟩ := beginStart_facts s c
  rw [k1, h] at k2
  exact ⟨k2, k3, k4, k5⟩

/-- Which start DORMANT calls for (R182, R189). -/
theorem dormantStart_eq {t : State} (h1 : t.supply.power = .dormant) (h2 : t.supply.resetting = none) (h3 : t.aboveRun = true) :
    t.dormantStart = if t.supply.pendingStart then t.beginStart .resetLine else if t.supply.ignition then t.beginStart .ignitionWake else if t.pins.wake then t.beginStart .processorWake else t := by
  unfold State.dormantStart
  rw [if_pos (by simp [h1, h2, h3])]

theorem finishWrites_none {s : State} (hb : ∀ b : BankId, (s.bank b).work = .none) (hp : s.pool.writing = .none) (he : s.supply.erase = none) : s.finishWrites = s := by
  unfold State.finishWrites
  have : ∀ l : List BankId, l.foldl (fun s b => s.finishWrite b) s = s := by
    intro l; induction l with
    | nil => rfl
    | cons b l ih =>
      rw [List.foldl_cons]
      have : s.finishWrite b = s := by unfold State.finishWrite; rw [hb b]
      rw [this, ih]
  rw [this]
  unfold State.finishPoolWrite; rw [hp]; dsimp only
  unfold State.finishEraseWrite; rw [he]

/-- With no bank, pool or erase write in progress only domain headers are torn. -/
theorem tearWrites_none {s : State} (hb : ∀ b : BankId, (s.bank b).work = .none) (hp : s.pool.writing = .none) (he : s.supply.erase = none) :
    s.tearWrites = (s.tearDomain .block).tearDomain .product := by
  unfold State.tearWrites
  have : ∀ l : List BankId, l.foldl (fun s b => s.tearBank b) s = s := by
    intro l; induction l with
    | nil => rfl
    | cons b l ih =>
      rw [List.foldl_cons]
      have : s.tearBank b = s := by unfold State.tearBank; rw [hb b]
      rw [this, ih]
  rw [this]
  unfold State.tearPool; rw [hp]; dsimp only
  unfold State.tearErase; rw [he]

/-- A torn write of a bank leaves the other banks' places alone (R181). -/
theorem tearBank_facts (s : State) (e : BankId) : (∀ b, (s.tearBank e).bank b = s.bank b) ∧ (∀ b, b ≠ e → (s.tearBank e).places b = s.places b) ∧ (s.tearBank e).supply = s.supply ∧ (s.tearBank e).pool = s.pool := by
  have tp : ∀ p, (∀ b, (s.tearPlace e p).bank b = s.bank b) ∧ (∀ b, b ≠ e → (s.tearPlace e p).places b = s.places b) ∧ (s.tearPlace e p).supply = s.supply ∧ (s.tearPlace e p).pool = s.pool := by
    intro p
    refine ⟨fun b => rfl, fun b hb => ?_, rfl, rfl⟩
    unfold State.tearPlace; rw [State.draw]; dsimp only
    rw [State.setPlaces_places_other _ _ _ _ hb]; rfl
  have th : (∀ b, (s.tearHeader e).bank b = s.bank b) ∧ (∀ b, b ≠ e → (s.tearHeader e).places b = s.places b) ∧ (s.tearHeader e).supply = s.supply ∧ (s.tearHeader e).pool = s.pool := ⟨fun b => rfl, fun b hb => rfl, rfl, rfl⟩
  unfold State.tearBank
  split
  · exact tp _
  · exact tp _
  · exact th
  · exact tp _
  · exact th
  · exact th
  · split
    · exact tp _
    · exact ⟨fun b => rfl, fun b hb => rfl, rfl, rfl⟩
  · exact tp _
  · exact th
  · exact tp _
  · exact th
  · exact ⟨fun b => rfl, fun b hb => rfl, rfl, rfl⟩

theorem tearBanks_others (b : BankId) : ∀ (l : List BankId) (s : State), b ∉ l → (l.foldl (fun s b => s.tearBank b) s).places b = s.places b
  | [], s, _ => rfl
  | e :: l, s, h => by
    rw [List.foldl_cons, tearBanks_others b l _ (fun k => h (by simp [k])), (tearBank_facts s e).2.1 b (fun k => h (by simp [k]))]

theorem tearBanks_at (b : BankId) (l : List BankId) (s : State) (h : b ∈ l) (n : l.Nodup) :
    ∃ t : State, t.bank b = s.bank b ∧ t.places b = s.places b ∧ (l.foldl (fun s b => s.tearBank b) s).places b = (t.tearBank b).places b := by
  induction l generalizing s with
  | nil => cases h
  | cons e l ih =>
    rw [List.foldl_cons]
    rw [List.nodup_cons] at n
    by_cases k : b = e
    · subst k
      exact ⟨s, rfl, rfl, tearBanks_others b l _ n.1⟩
    · obtain ⟨t, h1, h2, h3⟩ := ih (s.tearBank e) (by simpa [k] using h) n.2
      exact ⟨t, h1.trans ((tearBank_facts s e).1 b), h2.trans ((tearBank_facts s e).2.1 b k), h3⟩

/-- A torn record's check disagrees. -/
theorem tornRecord_bad (d n) : (tornRecord d n).good = false := by
  unfold Record.good
  have h : (tornRecord d n).check = ~~~ (tornRecord d n).freshCheck := rfl
  rw [h]
  generalize (tornRecord d n).freshCheck = c
  have : ~~~ c ≠ c := by
    intro e
    have := congrArg (fun x => x.getLsbD 0) e
    simp at this
  simpa using this

/-- The loss of supply, after the writes have ended or were torn. -/
def lostFrom (w : State) : State :=
  { w.dropBlocks.supplying (fun u => Supply.stopped .unpowered u.kind false false none) with pins := { w.pins with vsense := 0 } }

theorem loseSupply_eq (s : State) (un) : s.loseSupply un = lostFrom (if un = true then s.tearWrites else s.finishWrites.commitDomainHeaders) := by unfold State.loseSupply lostFrom; rfl

theorem lostFrom_facts (w : State) : (lostFrom w).supply.power = .unpowered ∧ (lostFrom w).pins.vsense = 0 ∧ (lostFrom w).supply.ignition = false ∧ (lostFrom w).supply.pendingStart = false ∧ (lostFrom w).cleared ∧ (lostFrom w).store = w.store ∧ (lostFrom w).backup = w.backup :=
  ⟨rfl, rfl, rfl, rfl, (dropBlocks_cleared w (lostFrom w) rfl).1, rfl, rfl⟩

/-- A reset, after the completion of writes. -/
def resetFrom (w : State) : State :=
  w.dropBlocks.supplying (fun u => Supply.stopped .dormant u.kind u.ignition u.pendingStart (some (w.clock + 20000)))

/-- What a reset makes of a domain's header write: it completes, or the header stays as it is; nothing else of the state is touched but the
draw counter. -/
theorem resetDomainHeader_cases (s : State) (d : Domain) :
    s.resetDomainHeader d = s ∧ s.domainWrites.get d = none ∨
    s.resetDomainHeader d = { s with draws := s.draws + 1 } ∨
    s.resetDomainHeader d = { s.commitDomainHeader d with draws := s.draws + 1 } := by
  unfold State.resetDomainHeader
  cases h : s.domainWrites.get d with
  | none => exact .inl ⟨rfl, rfl⟩
  | some w =>
    dsimp only [State.draw]
    split
    · refine .inr (.inr ?_)
      unfold State.commitDomainHeader
      simp only [h]
    · exact .inr (.inl rfl)

/-- A reset touches the domain headers and their writes, and the draw counter: each header not completed is the one being written, or stays. -/
theorem resetDomainHeaders_facts (s : State) : ∃ t, t = (s.resetDomainHeader .block).resetDomainHeader .product ∧
    t.clock = s.clock ∧ t.pins = s.pins ∧ t.backup = s.backup ∧ t.store = { s.store with domains := t.store.domains } ∧
    ∀ d : Domain, (s.domainWrites.get d = none → t.store.domains.get d = s.store.domains.get d) ∧
      ∀ h : DomainHeader, s.domainWrites.get d = some h →
        t.store.domains.get d = h ∨ t.store.domains.get d = s.store.domains.get d := by
  refine ⟨_, rfl, ?_⟩
  have one : ∀ (s : State) (d : Domain), (s.resetDomainHeader d).clock = s.clock ∧ (s.resetDomainHeader d).pins = s.pins ∧
      (s.resetDomainHeader d).backup = s.backup ∧ (s.resetDomainHeader d).store = { s.store with domains := (s.resetDomainHeader d).store.domains } ∧
      (∀ e, e ≠ d → (s.resetDomainHeader d).store.domains.get e = s.store.domains.get e ∧
        (s.resetDomainHeader d).domainWrites.get e = s.domainWrites.get e) ∧
      ((s.resetDomainHeader d).store.domains.get d = (s.domainWrites.get d).getD (s.store.domains.get d) ∨
        (s.resetDomainHeader d).store.domains.get d = s.store.domains.get d) := by
    intro s d
    rcases resetDomainHeader_cases s d with ⟨e, h⟩ | e | e <;> rw [e]
    · exact ⟨rfl, rfl, rfl, rfl, fun _ _ => ⟨rfl, rfl⟩, .inr rfl⟩
    · exact ⟨rfl, rfl, rfl, rfl, fun _ _ => ⟨rfl, rfl⟩, .inr rfl⟩
    · refine ⟨by simp, by simp, by simp, ?_, fun e he => ⟨State.commitDomainHeader_other _ _ _ he, ?_⟩, .inl (State.commitDomainHeader_header _ _)⟩
      · show (s.commitDomainHeader d).store = { s.store with domains := (s.commitDomainHeader d).store.domains }
        unfold State.commitDomainHeader; split <;> rfl
      · show (s.commitDomainHeader d).domainWrites.get e = _
        rw [State.commitDomainHeader_domainWrites, PerDomain.set_get_other _ _ _ _ he]
  obtain ⟨a1, a2, a3, a4, a5, a6⟩ := one s .block
  obtain ⟨b1, b2, b3, b4, b5, b6⟩ := one (s.resetDomainHeader .block) .product
  refine ⟨b1.trans a1, b2.trans a2, b3.trans a3, by rw [b4, a4], fun d => ?_⟩
  cases d
  · rw [(b5 .block (by decide)).1]
    exact ⟨fun h => by rcases a6 with k | k <;> rw [k] <;> simp [h], fun h hh => by rw [hh] at a6; exact a6⟩
  · rw [(a5 .product (by decide)).2, (a5 .product (by decide)).1] at b6
    exact ⟨fun h => by rcases b6 with k | k <;> rw [k] <;> simp [h], fun h hh => by rw [hh] at b6; exact b6⟩

theorem takeReset_eq (s : State) : s.takeReset =
    resetFrom ((s.finishWrites.resetDomainHeader .block).resetDomainHeader .product) := by
  have e : Config.resetExtension = 20000 := rfl
  have c : ∀ w : State, w.dropBlocks.clock = w.clock := fun _ => rfl
  unfold State.takeReset resetFrom
  simp only [e, c]

theorem resetFrom_facts (w : State) : (resetFrom w).supply.power = .dormant ∧ (resetFrom w).supply.resetting = some (w.clock + 20000) ∧ (resetFrom w).cleared ∧ (resetFrom w).pins = w.pins :=
  ⟨rfl, rfl, (dropBlocks_cleared w (resetFrom w) rfl).1, rfl⟩

/-- The SUP's state at the entry to CLOSING (R189). -/
theorem enterClosing_supply (s : State) : s.enterClosing.supply = { s.supply with power := .closing, parked := .stopped, stable := none } := by
  unfold State.enterClosing
  dsimp only
  generalize hu : s.supplying (fun u => { u with power := .closing, parked := .stopped, stable := none }) = u
  have f1 : HoldKeeps u.dropQueuedPublish (u.dropQueuedPublish.holdBanks .closing) := holdBanks_holdKeeps _ _
  generalize hv : u.dropQueuedPublish.holdBanks .closing = v at f1
  have f2 : HoldKeeps v.holdPool v.holdPool.holdFetch := holdFetch_holdKeeps _
  have h1 : v.holdPool.supply = v.supply := rfl
  generalize v.holdPool = v1 at *
  generalize v1.holdFetch = v2 at *
  have f5 := silenceLink_linkOnly v2
  have g1 : v2.silenceLink.supply = v2.supply := by have e := congrArg State.supply f5; exact e
  rw [g1, f2.supply, h1, f1.supply, dropQueuedPublish_supply, ← hu]; rfl

/-- A start out of DORMANT is WARM or COLD by the directory and the dip count (R184); `z` agrees with `s` in what decides it. -/
theorem beginStart_startsWake {s z : State} {c : Cause} (hc : c = .resetLine ∨ c = .ignitionWake ∨ c = .processorWake)
    (h1 : z.backup = s.backup) (h2 : z.banks = s.banks) (h3 : z.pool = s.pool) (h4 : z.supply.erase = s.supply.erase) :
    s.startsWake c (z.beginStart c) := by
  obtain ⟨k, k1, k2, _, _, _, _, k7, k8, _⟩ := beginStart_facts z c
  have kd : z.finishWrites.startKind c =
      if z.finishWrites.backup.valid && z.finishWrites.backup.good && z.finishWrites.backup.dips < 4 then .warm else .cold := by
    rcases hc with rfl | rfl | rfl <;> rfl
  have cold : z.finishWrites.startKind c = .cold → (z.beginStart c).startsAt c .cold := fun h => (beginStart_cold c h).1
  refine ⟨fun a1 a2 a3 a4 => ?_, fun a1 => cold ?_, fun a1 a2 => cold ?_, fun a1 a2 a3 a4 => cold ?_⟩
  · have f := finishWrites_writeFrame (s := z) (h4.trans a4)
    have kw : k = .warm := by
      rw [k1, kd, f.valid, f.dips, f.good (by rw [h1]; exact a2), h1, a1, if_pos (by simpa using a3)]
    rw [kw] at k2 k7 k8
    exact ⟨k2, by rw [k8, if_neg (by simp), f.barred, h1], by rw [k7, if_neg (by simp), f.valid, h1]; exact a1⟩
  · exact startKind_cold c (by rw [h1]; exact a1)
  · rw [kd, (finishWrites_writeFrame (s := z) (h4.trans a2)).dips, h1, if_neg]
    simp only [Bool.and_eq_true, decide_eq_true_eq]; omega
  · have hb : ∀ b : BankId, (z.bank b).work = .none := fun b => by
      show (z.banks[b]).work = _; rw [h2]; exact a2 b
    rw [kd, finishWrites_none hb (by rw [h3]; exact a3) (h4.trans a4), h1, a1]; simp

end Sys2Proof.Machine
end

