-- ==== Sys2Proof/Laws/StartRules.lean ====
section
/-! SUPPORT. What the banks, the domain headers and the COMMISSION erase do at a start. -/

namespace Sys2Proof.Machine

theorem sameAt_supply {b : BankId} {s t : State} (h : SameAt b s t) : t.supply = s.supply := by have e := congrArg State.supply h.outside; exact e

theorem sameAt_restored {b : BankId} {s t : State} (h : SameAt b s t) : t.pool.restored = s.pool.restored := by have e := congrArg (fun s => s.pool.restored) h.outside; exact e

theorem sameAt_vis {b : BankId} {s t : State} (h : SameAt b s t) : t.vis = s.vis := by have e := congrArg State.vis h.outside; exact e

theorem outside_supply {s t : State} (h : t.outside = s.outside) : t.supply = s.supply := by have e := congrArg State.supply h; exact e

theorem outside_link {s t : State} (h : t.outside = s.outside) : t.link = s.link := by have e := congrArg State.link h; exact e

theorem outside_vis {s t : State} (h : t.outside = s.outside) : t.vis = s.vis := by have e := congrArg State.vis h; exact e

theorem outside_domain {s t : State} (h : t.outside = s.outside) (d) : t.domain d = s.domain d := by unfold State.domain; rw [outside_vis h]

theorem startBank_places (s : State) (b : BankId) : (s.startBank b).store.places = s.store.places := by
  unfold State.startBank
  extract_lets h
  have rf : ∀ (t : State) n, t.store.places = s.store.places → (t.recoverFrom b n).store.places = s.store.places :=
    fun t n ht => ((recoverFrom_on (BankOnly.refl false b t) n).places rfl).trans ht
  split
  · rfl
  · split
    · rfl
    · split
      · exact rf _ _ rfl
      · split
        · exact rf _ _ rfl
        · exact ((nextWork_on (BankOnly.refl false b _)).places rfl).trans rfl

theorem startBanks_places (s : State) : s.startBanks.store.places = s.store.places := by
  unfold State.startBanks
  generalize allBanks = l
  induction l generalizing s with
  | nil => rfl
  | cons b l ih => rw [List.foldl_cons, ih, startBank_places]

theorem markFailing_facts (k : Bank) (ps : List Nat) : (k.markFailing ps).state = k.state ∧ (k.markFailing ps).fullScan = k.fullScan ∧ (k.markFailing ps).header.scrubAge = k.header.scrubAge ∧
    (k.header.scrubCursor = 0 → (k.markFailing ps).header.scrubCursor = 0) ∧ (k.markFailing ps).header.faultMark = k.header.faultMark := by
  unfold Bank.markFailing
  split
  · exact ⟨rfl, rfl, rfl, id, rfl⟩
  · split
    · exact ⟨rfl, rfl, rfl, fun _ => rfl, rfl⟩
    · exact ⟨rfl, rfl, rfl, id, rfl⟩

/-- What a recovery step leaves of the bank before the pool is restored. -/
theorem recoverFrom_facts {s : State} {b : BankId} (hr : s.pool.restored = false) (n : Nat) : 
    ((s.recoverFrom b n).bank b).state = (s.bank b).state ∧ ((s.recoverFrom b n).bank b).fullScan = (s.bank b).fullScan ∧
    ((s.recoverFrom b n).bank b).header.scrubAge = (s.bank b).header.scrubAge ∧ ((s.bank b).header.scrubCursor = 0 → ((s.recoverFrom b n).bank b).header.scrubCursor = 0) ∧
    (s.places b = [] → ((s.recoverFrom b n).bank b).work = .recoverHeader) := by
  unfold State.recoverFrom State.recoverOn
  extract_lets k rest keep s1
  have m : s1.bank b = (s.bank b).markFailing (((rest.takeWhile keep).filter (fun pr => !pr.2.good)).map (·.1)) := State.setBank_bank _ _ _
  obtain ⟨m1, m2, m3, m4, _⟩ := markFailing_facts (s.bank b) (((rest.takeWhile keep).filter (fun pr => !pr.2.good)).map (·.1))
  rw [← m] at m1 m2 m3 m4
  have w : ∀ x : BankWork, (s1.working b x).bank b = { s1.bank b with work := x } := fun x => State.setBank_bank _ _ _
  have hs1 : s1.pool.restored = false := hr
  have fin : ∀ x : BankWork, ((s1.working b x).bank b).state = (s.bank b).state ∧ ((s1.working b x).bank b).fullScan = (s.bank b).fullScan ∧
    ((s1.working b x).bank b).header.scrubAge = (s.bank b).header.scrubAge ∧ ((s.bank b).header.scrubCursor = 0 → ((s1.working b x).bank b).header.scrubCursor = 0) := by
    intro x; rw [w]; exact ⟨m1, m2, m3, m4⟩
  split
  · obtain ⟨a, b', c, d⟩ := fin .recoverHeader
    exact ⟨a, b', c, d, fun _ => by rw [w]⟩
  · rename_i pr hpr
    have ne : s.places b = [] → False := by
      intro he
      have : rest = [] := by unfold rest placesIn; rw [he]; rfl
      rw [this] at hpr; simp at hpr
    split
    · obtain ⟨a, b', c, d⟩ := fin (.recoverWrite pr.1)
      exact ⟨a, b', c, d, fun h => (ne h).elim⟩
    · rw [hs1, if_neg (by simp)]
      obtain ⟨a, b', c, d⟩ := fin (.recoverWait pr.1)
      exact ⟨a, b', c, d, fun h => (ne h).elim⟩

theorem compactOn_state (s : State) (b : BankId) (c : CompactRun) : ((s.compactOn b c Config.bankPlaces).bank b).state = (s.bank b).state := by
  unfold State.compactOn
  extract_lets rest keep s1
  have m : s1.bank b = (s.bank b).markFailing (((rest.takeWhile keep).filter (fun pr => !pr.2.good)).map (·.1)) := State.setBank_bank _ _ _
  obtain ⟨m1, _⟩ := markFailing_facts (s.bank b) (((rest.takeWhile keep).filter (fun pr => !pr.2.good)).map (·.1))
  rw [← m] at m1
  split
  · rw [State.working, State.banking, State.setBank_bank]; exact m1
  · rw [if_pos rfl, State.working, State.banking, State.setBank_bank]; exact m1

/-- The start state of a bank (R21, R59). -/
theorem startBank_facts {s : State} {b : BankId} (hr : s.pool.restored = false) :
          (s.store.headers[b].good = false → ((s.startBank b).bank b).state = .faulted ∧ ((s.startBank b).bank b).header.faultMark = true) ∧
          (s.store.headers[b].good = true → s.supply.kind = .cold →
            ((s.startBank b).bank b).state = (if s.store.headers[b].fields.faultMark = true then .faulted else .recovering) ∧
            (s.store.headers[b].fields.faultMark = false → ((s.startBank b).bank b).fullScan = true ∧ ((s.startBank b).bank b).header.scrubCursor = 0 ∧
              ((s.startBank b).bank b).header.scrubAge = 0 ∧ (s.places b = [] → ((s.startBank b).bank b).work = .recoverHeader))) ∧
          (s.store.headers[b].good = true → s.supply.kind = .warm →
            ((s.startBank b).bank b).state = (if s.backup.headers[b].faultMark = true then .faulted
              else if s.backup.headers[b].applyOpen = none then .compacting else .recovering)) := by
  refine ⟨fun h => ?_, fun h hk => ?_, fun h hk => ?_⟩
  · have e : s.startBank b = s.faultUnreadable b := by unfold State.startBank; dsimp only; rw [h]; rfl
    rw [e]
    have := State.setBank_bank s b { Bank.unstarted with state := .faulted, header := { BankHeader.erased with applied := (s.domain (s.bankDomain b)).held, freeCount := 0, faultMark := true } }
    have e2 : (s.faultUnreadable b).bank b = { Bank.unstarted with state := .faulted, header := { BankHeader.erased with applied := (s.domain (s.bankDomain b)).held, freeCount := 0, faultMark := true } } := this
    rw [e2]; exact ⟨rfl, rfl⟩
  · unfold State.startBank
    dsimp only
    rw [h, hk]
    dsimp only
    rw [if_neg (by simp)]
    by_cases hf : s.store.headers[b].fields.faultMark = true
    · rw [if_pos hf, if_pos hf]
      refine ⟨?_, fun h => by rw [hf] at h; cases h⟩
      exact congrArg Bank.state (State.setBank_bank s b _)
    · rw [if_neg hf, if_neg hf]
      generalize hz : s.setBank b _ = z
      have zb : z.bank b = { Bank.unstarted with state := .recovering, header := { s.store.headers[b].fields with scrubCursor := 0, scrubAge := 0 }, compactWanted := true, fullScan := true } := by
        rw [← hz]; exact State.setBank_bank _ _ _
      have zr : z.pool.restored = false := by rw [← hz]; exact hr
      have zp : z.places b = s.places b := by rw [← hz]; rfl
      obtain ⟨a1, a2, a3, a4, a5⟩ := recoverFrom_facts zr (b := b) 0
      rw [zb] at a1 a2 a3 a4
      rw [zp] at a5
      exact ⟨a1, fun _ => ⟨a2, a4 rfl, a3, a5⟩⟩
  · unfold State.startBank
    dsimp only
    rw [h, hk]
    dsimp only
    rw [if_neg (by simp)]
    by_cases hf : s.backup.headers[b].faultMark = true
    · rw [if_pos hf, if_pos hf]
      have := State.setBank_bank s b { Bank.unstarted with state := .faulted, header := s.backup.headers[b] }
      exact congrArg Bank.state this
    · rw [if_neg hf, if_neg hf]
      cases ho : s.backup.headers[b].applyOpen with
      | some g =>
        rw [if_pos (by rfl), if_neg (by simp)]
        generalize hz : s.setBank b _ = z
        have zr : z.pool.restored = false := by rw [← hz]; exact hr
        obtain ⟨a1, _⟩ := recoverFrom_facts zr (b := b) 0
        rw [a1, ← hz, State.setBank_bank]
      | none =>
        rw [if_neg (by simp), if_pos rfl]
        generalize hz : s.setBank b _ = z
        have zb : z.bank b = { Bank.unstarted with state := .idle, header := s.backup.headers[b], compactWanted := true } := by
          rw [← hz]; exact State.setBank_bank _ _ _
        unfold State.nextWork
        rw [zb]
        rw [if_neg (by simp [Bank.unstarted])]
        have e : (z.banking b (fun k => { k with state := .idle, work := .none })).acknowledge b = z.banking b (fun k => { k with state := .idle, work := .none }) := by
          unfold State.acknowledge
          rw [State.banking, State.setBank_bank, zb]; rfl
        rw [e]
        generalize hy : z.banking b (fun k => { k with state := .idle, work := .none }) = y
        have yb : y.bank b = { Bank.unstarted with state := .idle, header := s.backup.headers[b], compactWanted := true, work := .none } := by
          rw [← hy, State.banking, State.setBank_bank, zb]
        dsimp only
        rw [yb]
        dsimp only
        rw [if_neg (by simp [Bank.unstarted])]
        show (State.bank (y.afterApplies b) b).state = _
        unfold State.afterApplies
        rw [yb, if_pos rfl]
        unfold State.beginCompaction
        dsimp only
        rw [compactOn_state, State.banking, State.setBank_bank]

/-- What the reading of a domain header gives (R144). -/
theorem takeDomainHeader_facts (s : State) (d l) : s.takeDomainHeader d l = { s with
      vis := (s.takeDomainHeader d l).vis, domainWrites := (s.takeDomainHeader d l).domainWrites
      store := { s.store with domains := (s.takeDomainHeader d l).store.domains } } ∧
    (∀ e, e ≠ d → (s.takeDomainHeader d l).domain e = s.domain e ∧ (s.takeDomainHeader d l).store.domains.get e = s.store.domains.get e) ∧
    ((s.store.domains.get d).good = true → (s.takeDomainHeader d l).domain d = { held := (s.store.domains.get d).held, visible := (s.store.domains.get d).visible, pending := (s.store.domains.get d).pending, timer := none } ∧ (s.takeDomainHeader d l).store.domains.get d = s.store.domains.get d) := by
  unfold State.takeDomainHeader
  dsimp only
  split
  · refine ⟨rfl, fun e he => ⟨perDomain_get_set_other _ _ _ _ he, rfl⟩, fun _ => ⟨perDomain_get_set_same _ _ _, rfl⟩⟩
  · rename_i h
    refine ⟨?_, fun e he => ⟨?_, ?_⟩, fun k => absurd k h⟩
    · rw [State.writeDomainHeader_shape]; rfl
    · show (State.vis _).get e = _
      rw [State.writeDomainHeader_vis]; exact perDomain_get_set_other _ _ _ _ he
    · rw [State.writeDomainHeader_store]; exact State.commitDomainHeader_other _ d e he

/-- What the reading of both domain headers gives (R144). -/
theorem takeHeaders_facts (s : State) (r) : (∃ v dm dw, s.takeHeaders r = { s with vis := v, domainWrites := dw, store := { s.store with domains := dm } }) ∧
    ∀ d, (s.store.domains.get d).good = true → (s.takeHeaders r).domain d = { held := (s.store.domains.get d).held, visible := (s.store.domains.get d).visible, pending := (s.store.domains.get d).pending, timer := none } := by
  unfold State.takeHeaders
  extract_lets nB
  obtain ⟨a1, a2, a3⟩ := takeDomainHeader_facts s .block (allBanks.filter (fun b => b.val < nB))
  generalize s.takeDomainHeader .block (allBanks.filter (fun b => b.val < nB)) = t at *
  obtain ⟨b1, b2, b3⟩ := takeDomainHeader_facts t .product (allBanks.filter (fun b => nB ≤ b.val))
  generalize t.takeDomainHeader .product (allBanks.filter (fun b => nB ≤ b.val)) = u at *
  refine ⟨⟨u.vis, u.store.domains, u.domainWrites, ?_⟩, fun d header_keeps => ?_⟩
  · generalize u.vis = q1 at *; generalize u.store.domains = q2 at *; generalize u.domainWrites = q5 at *
    rw [b1]; generalize t.vis = q3 at *; generalize t.store.domains = q4 at *; generalize t.domainWrites = q6 at *
    rw [a1]
  · cases d
    · rw [(b2 .block (by simp)).1]; exact (a3 header_keeps).1
    · have := (a2 .product (by simp)).2
      have h2 := b3 (by rw [this]; exact header_keeps)
      rw [h2.1, this]

theorem startBanks_at (b : BankId) (s : State) : ∃ t, SameAt b s t ∧ SameAt b (t.startBank b) s.startBanks :=
  allBanks_at (W := true) (f := fun s b => s.startBank b) (fun s e => startBank_on (.refl _ _ _) rfl) b s

theorem startBanks_outside (s : State) : s.startBanks.outside = s.outside :=
  allBanks_outside (W := true) (f := fun s b => s.startBank b) (fun s e => startBank_on (.refl _ _ _) rfl) s

/-- The start record's judgement (R186). -/
theorem recordReadDone_eq (s : State) (a b c) (w : State) (hw : w = (s.linked (fun l => { l with rateCode := rateCodeOf a b })).takeHeaders (parseStartRecord s.store.startRecord)) :
    s.recordReadDone a b c = match parseStartRecord s.store.startRecord with
      | none => w.enterCommissioning
      | some r => if c && w.backup.cause.cause != .commissioned then w.enterCommissioning else ((w.supplying (fun u => { u with recordRead := true, config := r })).startBanks).settle := by
  subst hw; unfold State.recordReadDone; rfl

theorem fromBytes_toBytes_four (n : Nat) (h : n < 4294967296) : fromBytes (toBytes 4 n) = n := by
  simp [toBytes, fromBytes]
  omega

/-- An invalidated start record does not read. -/
theorem invalidateStartRecord_unreadable (bs : List Byte) : parseStartRecord (invalidateStartRecord bs) = none := by
  unfold parseStartRecord
  dsimp only
  rw [if_neg]
  intro h
  simp only [Bool.and_eq_true, decide_eq_true_eq, beq_iff_eq] at h
  obtain ⟨⟨h1, h2⟩, _⟩ := h
  unfold invalidateStartRecord at h1 h2
  have hl : (bs.take 23).length = 23 := by
    rw [List.length_append, toBytes_length] at h1; omega
  rw [List.take_left' hl] at h2
  unfold field at h2
  rw [List.drop_left' hl] at h2
  rw [show List.take 4 (toBytes 4 (~~~crc32 (List.take 23 bs)).toNat) = toBytes 4 (~~~crc32 (List.take 23 bs)).toNat from List.take_of_length_le (by rw [toBytes_length])] at h2
  rw [fromBytes_toBytes_four _ (~~~crc32 (List.take 23 bs)).isLt] at h2
  rw [BitVec.ofNat_toNat] at h2
  generalize crc32 (List.take 23 bs) = c at h2
  have := congrArg (fun x => x.getLsbD 0) h2
  simp at this

/-- What the erase writes into the banks (R193). -/
theorem eraseBanks_facts (b : BankId) : ∀ (l : List BankId) (s : State), (b ∈ l → (l.foldl (fun s b => s.eraseBank b) s).places b = [] ∧ (l.foldl (fun s b => s.eraseBank b) s).store.headers[b] = StoredHeader.sealed BankHeader.erased) ∧
    (b ∉ l → (l.foldl (fun s b => s.eraseBank b) s).places b = s.places b ∧ (l.foldl (fun s b => s.eraseBank b) s).store.headers[b] = s.store.headers[b]) ∧
    (l.foldl (fun s b => s.eraseBank b) s).store.index = s.store.index ∧ (l.foldl (fun s b => s.eraseBank b) s).store.cells = s.store.cells ∧ (l.foldl (fun s b => s.eraseBank b) s).supply = s.supply ∧
    (l.foldl (fun s b => s.eraseBank b) s).port = s.port ∧ (l.foldl (fun s b => s.eraseBank b) s).banks = s.banks
  | [], s => ⟨by simp, fun _ => ⟨rfl, rfl⟩, rfl, rfl, rfl, rfl, rfl⟩
  | e :: l, s => by
    rw [List.foldl_cons]
    obtain ⟨i1, i2, i3, i4, i5, i6, i7⟩ := eraseBanks_facts b l (s.eraseBank e)
    have h1 : ∀ f : BankId, (s.eraseBank e).places f = if f = e then [] else s.places f := by
      intro f
      split
      · rename_i h; rw [h]; exact State.setPlaces_places s e []
      · rename_i h; exact State.setPlaces_places_other s e f [] h
    have h2 := header_set (b := e) s (StoredHeader.sealed BankHeader.erased) (s.eraseBank e) rfl
    refine ⟨fun h => ?_, fun h => ?_, i3, i4, i5, i6, i7⟩
    · by_cases hb : b ∈ l
      · exact i1 hb
      · have : b = e := by simpa [hb] using h
        subst this
        rw [(i2 hb).1, (i2 hb).2, h1, if_pos rfl, h2.2]; exact ⟨rfl, rfl⟩
    · simp only [List.mem_cons, not_or] at h
      rw [(i2 h.2).1, (i2 h.2).2, h1, if_neg h.1, h2.1 b h.1]; exact ⟨rfl, rfl⟩

end Sys2Proof.Machine
end

