-- ==== Sys2Proof/Laws/BankRules.lean ====
section
/-! SUPPORT. What the named operations of a bank give: its state, its header, its places and its messages. -/

namespace Sys2Proof.Machine

theorem places_of_store {s t : State} (h : t.store.places = s.store.places) (b : BankId) : t.places b = s.places b := by unfold State.places; rw [h]

theorem goHeld_bank (s : State) (b : BankId) (p : BankState) (w : BankWork) :
    (s.goHeld b p w).bank b = { s.bank b with state := .held, prior := some p, work := w, hold := .none } := State.setBank_bank _ _ _

theorem working_bank (s : State) (b : BankId) (w : BankWork) : (s.working b w).bank b = { s.bank b with work := w } := State.setBank_bank _ _ _

theorem banking_bank (s : State) (b : BankId) (f : Bank → Bank) : (s.banking b f).bank b = f (s.bank b) := State.setBank_bank _ _ _

theorem heading_bank (s : State) (b : BankId) (f : BankHeader → BankHeader) : (s.heading b f).bank b = { s.bank b with header := f (s.bank b).header } := State.setBank_bank _ _ _

theorem setPlaces_places (s : State) (b : BankId) (l) : (s.setPlaces b l).places b = l := by
  unfold State.setPlaces State.places; simp

/-- The stored header after a header write that leaves the scrub's fields (R19). -/
theorem writeHeader_stored (s : State) (b : BankId) : (s.writeHeader b).store.headers[b] = StoredHeader.sealed { (s.bank b).header with
    scrubCursor := s.store.headers[b].fields.scrubCursor, scrubAge := s.store.headers[b].fields.scrubAge } := (header_set (b := b) s _ (s.writeHeader b) rfl).2

theorem writeScrubHeader_stored (s : State) (b : BankId) : (s.writeScrubHeader b).store.headers[b] = StoredHeader.sealed (s.bank b).header := (header_set (b := b) s _ (s.writeScrubHeader b) rfl).2

/-- The run after the ending write of a LIST or PUT, or after an UNLIST or DROP (R32). -/
def runPastEnd (run : ApplyRun) (op : Op) : ApplyRun := if op.payload = none then { run with cursor := run.cursor + 1, endDone := false } else { run with endDone := true }

theorem runPastEnd_eq (run : ApplyRun) (op : Op) : runPastEnd run op = if op.payload = none then { run with cursor := run.cursor + 1, endDone := false } else { run with endDone := true } := rfl

/-- The commit of an ending write. -/
theorem applyEndCommit_eq {s : State} {b : BankId} {run : ApplyRun} {op : Op} {p : Nat} (hop : (run.ops.drop run.cursor).head? = some op) :
    s.applyEndCommit b run p = (s.applyEndWrite b run p).applyStep b (runPastEnd run op) := by
  unfold State.applyEndCommit runPastEnd
  dsimp only
  rw [hop]
  cases hq : op.payload <;> simp [hq]

theorem writeScrubHeader_bank (s : State) (b e : BankId) : (s.writeScrubHeader b).bank e = s.bank e := rfl

theorem writeHeader_bank (s : State) (b e : BankId) : (s.writeHeader b).bank e = s.bank e := rfl

/-- An operation ends with its header write and nothing else to do. -/
theorem headerCommit_operationEnds {s t : State} {b : BankId} {h : BankHeader} {q : Quiesce} {m : List Msg} {c : Bool}
    (hex : exec (.bankHeaderWriteCommit b) s = .next (t.nextWork b).settle)
    (hk : { t.bank b with state := .idle, work := .none } = { s.bank b with
      state := .idle, work := .none, header := h, quiesce := q, scrubDue := false, fullScan := (t.bank b).fullScan })
    (un : (t.bank b).unoccupied) (ha : ¬ t.scrubInterval < 2 * h.scrubAge)
    (hs : t.store.headers[b] = StoredHeader.sealed (if c = true then h else
      { h with scrubCursor := s.store.headers[b].fields.scrubCursor, scrubAge := s.store.headers[b].fields.scrubAge }))
    (hm : t.todo.mail = s.todo.mail ++ m) (hp : t.store.places = s.store.places) (ho : ∀ e, e ≠ b → t.bank e = s.bank e) :
    s.operationEnds b h q m c := by
  have hh : (t.bank b).header = h := by have := congrArg Bank.header hk; exact this
  have e := nextWork_idle (s := t) (b := b) un (by rw [hh]; exact ha)
  refine ⟨t.nextWork b, hex, ?_, ?_, ?_, ?_, fun x hx => ?_⟩
  · rw [e, banking_bank, banking_bank]; exact hk
  · rw [e]; exact hs
  · rw [e]; exact hm
  · rw [e]; exact hp
  · rw [← ho x hx]; exact (nextWork_on (BankOnly.refl true b t)).others x hx

theorem exec_bankHeaderWriteCommit (s : State) (b : BankId) : exec (.bankHeaderWriteCommit b) s = .next (s.headerCommit b).settle := rfl

/-- A scrub goes on to the next used place, or to the pass end (R50). -/
theorem scrubOn_goes {w : State} {b : BankId} {next : Nat} :
      ((placesIn next (stepEnd next) (w.places b)).head? = none → ((w.scrubOn b next (stepEnd next)).bank b) = { w.bank b with work := .scrubHeader (stepEnd next) false }) ∧
          (∀ x, (placesIn next (stepEnd next) (w.places b)).head? = some x → (w.scrubOn b next (stepEnd next)).bank b = { w.bank b with work := .scrubCheck x.1, header := { (w.bank b).header with scrubCursor := x.1 } }) := by
  unfold State.scrubOn
  refine ⟨fun h => ?_, fun x h => ?_⟩
  · rw [h]; exact working_bank _ _ _
  · rw [h]; dsimp only; rw [working_bank, heading_bank]

theorem freePlace_bank (s : State) (b : BankId) (p : Nat) : (s.freePlace b p).bank b =
    { s.bank b with header := { (s.bank b).header with freeCount := min 65536 ((s.bank b).header.freeCount + 1) } } := by
  unfold State.freePlace
  rw [writeHeader_bank, heading_bank]; rfl

theorem freePlace_stored (s : State) (b : BankId) (p : Nat) : (s.freePlace b p).store.headers[b].fields.freeCount = ((s.freePlace b p).bank b).header.freeCount := by
  unfold State.freePlace
  rw [writeHeader_stored]; rfl

theorem freePlace_places (s : State) (b : BankId) (p : Nat) : (s.freePlace b p).places b = placeFree p (s.places b) := by
  unfold State.freePlace
  exact setPlaces_places _ _ _

/-- Freeing a place (R39). -/
theorem freePlace_facts {s u : State} {b : BankId} {p : Nat} (hwf : Memory.wf 65536 (s.places b) = true) (on : BankOnly false b (s.freePlace b p) u) :
        placeGet p (u.places b) = none ∧
        (∀ q, q ≠ p → placeGet q (u.places b) = placeGet q (s.places b)) ∧
        (∀ e, e ≠ b → u.places e = s.places e ∧ u.bank e = s.bank e) ∧
        (u.bank b).header.freeCount = min 65536 ((s.bank b).header.freeCount + 1) ∧
        u.store.headers[b].fields.freeCount = min 65536 ((s.bank b).header.freeCount + 1) := by
  have all := (freePlace_on (.refl true b s) rfl p).trans on.weaken
  refine ⟨?_, fun q hq => ?_, fun e he => ⟨all.elsewhere e he, all.others e he⟩, ?_, ?_⟩
  · rw [places_of_store (on.places rfl), freePlace_places]; exact placeGet_free p hwf
  · rw [places_of_store (on.places rfl), freePlace_places]; exact placeGet_free_other p q hq _
  · rw [on.free rfl, freePlace_bank]
  · rw [on.stored rfl (freePlace_stored s b p), on.free rfl, freePlace_bank]

theorem report_bank (s : State) (b e : BankId) (r) : (s.report b r).bank e = s.bank e := rfl

/-- What the entry to FAULTED does (R55). -/
theorem enterFaulted_facts (s : State) (b : BankId) : ((s.enterFaulted b).bank b).state = .faulted ∧
          ((s.enterFaulted b).bank b).header.faultMark = true ∧ (s.enterFaulted b).store.headers[b].fields.faultMark = true ∧
          (s.enterFaulted b).store.headers[b].good = true ∧ (s.enterFaulted b).port.flags.getLsbD 6 = true ∧ (s.enterFaulted b).store.places = s.store.places ∧
          ∀ e, e ≠ b → (s.enterFaulted b).bank e = s.bank e := by
  have on := enterFaulted_on (.refl false b s)
  unfold State.enterFaulted at on ⊢
  extract_lets needed s1 old waiting s2 s3 s4 s5 at on ⊢
  have h2 : s2.bank b = _ := banking_bank s1 b _
  have e3 : s3 = (s2.writeHeader b).raise .bankFault := rfl
  have b3 : s3.bank b = s2.bank b := rfl
  have st3 : s3.store.headers[b] = _ := writeHeader_stored s2 b
  have f3 : s3.port.flags.getLsbD 6 = true := by
    show (s2.port.flags ||| Notice.mask .bankFault).getLsbD 6 = true
    rw [BitVec.getLsbD_or]; simp [Notice.mask, Notice.bit]
  have e4 : s4 = s3 ∨ ∃ r, s4 = s3.report b r := by
    unfold s4
    clear_value waiting
    cases waiting
    · exact .inl rfl
    · exact .inr ⟨_, rfl⟩
  have k4 : s4.bank b = s3.bank b ∧ s4.store = s3.store ∧ s4.port = s3.port := by
    rcases e4 with h | ⟨r, h⟩ <;> rw [h] <;> exact ⟨rfl, rfl, rfl⟩
  have k5 : (s5.bank b).state = (s4.bank b).state ∧ (s5.bank b).header = (s4.bank b).header ∧ s5.store = s4.store ∧ s5.port = s4.port := by
    unfold s5 State.acknowledge
    split
    · refine ⟨?_, ?_, rfl, rfl⟩
      · rw [report_bank, banking_bank]
      · rw [report_bank, banking_bank]
    · exact ⟨rfl, rfl, rfl, rfl⟩
  obtain ⟨k5a, k5b, k5c, k5d⟩ := k5
  obtain ⟨k4a, k4b, k4c⟩ := k4
  have fin : ∀ u : State, u = (if needed = true then s5 else s5.wantOpeningOf (s5.bankDomain b)) → u.bank b = s5.bank b ∧ u.store = s5.store ∧ u.port = s5.port := by
    intro u hu; rw [hu]; split <;> exact ⟨rfl, rfl, rfl⟩
  obtain ⟨u1, u2, u3⟩ := fin _ rfl
  refine ⟨?_, ?_, ?_, ?_, ?_, on.places rfl, on.others⟩
  · rw [u1, k5a, k4a, b3, h2]
  · rw [u1, k5b, k4a, b3, h2]
  · rw [u2, k5c, k4b, st3, StoredHeader.sealed_fields, h2]
  · rw [u2, k5c, k4b, st3, StoredHeader.sealed_good]
  · rw [u3, k5d, k4c, f3]

/-- The first used place of a range that begins at a used place. -/
theorem placesIn_head {hi p : Nat} {r : Record} : ∀ (l : List (Nat × Record)) (lo : Nat), placesFrom lo hi l = true → placeGet p l = some r →
    (placesIn p hi l).head? = some (p, r)
  | [], _, _, h => by simp [placeGet] at h
  | (q, x) :: l, lo, h, k => by
    simp only [placesFrom, Bool.and_eq_true, decide_eq_true_eq] at h
    simp only [placeGet] at k
    unfold placesIn
    rw [List.filter_cons]
    split at k
    · rename_i e; subst e; cases k
      rw [if_pos (by simp [h.1.2])]; rfl
    · rename_i e
      by_cases hlt : p < q
      · rw [placeGet_none_of_from l (q + 1) p (by omega) h.2] at k; cases k
      · rw [if_neg (by simp; omega)]
        exact placesIn_head l (q + 1) h.2 k

/-- A repair reads a present segment with a good check. -/
theorem repairRead_segment {s : State} {d : Domain} {g : Gen} {i : Nat} {e : ManifestEntry} {pc : Nat × PoolCell} (h1 : s.entry d g = some e) (h2 : i ∈ e.present)
    (h3 : s.cellOf e i = some pc) (h4 : segCrcGood pc.2.bytes = true) : s.repairRead d g i = (.segment pc.2.bytes, s) := by
  unfold State.repairRead
  rw [h1]; dsimp only
  rw [if_pos (by simpa using h2)]
  unfold State.readCell
  rw [h3]; dsimp only; rw [if_pos h4]

theorem kindOf_entry {s : State} {d : Domain} {g : Gen} {e : ManifestEntry} (h1 : s.entry d g = some e) : s.kindOf d g = e.manifest.kind := by
  unfold State.kindOf; rw [h1]

theorem goHeld_port (s : State) (b p w) : (s.goHeld b p w).port = s.port := rfl

theorem goHeld_pool (s : State) (b p w) : (s.goHeld b p w).pool = s.pool := rfl

theorem scrubPast_port (s : State) (b : BankId) (n : Nat) : (s.scrubPast b n).port = s.port ∧ (s.scrubPast b n).pool = s.pool := by
  unfold State.scrubPast
  dsimp only
  split
  · generalize (if (s.bank b).header.scrubCursor = n then n + 1 else (s.bank b).header.scrubCursor) = k
    unfold State.pauseScrub; dsimp only
    rw [goHeld_port, goHeld_pool]
    split <;> exact ⟨rfl, rfl⟩
  · unfold State.scrubOn; split <;> exact ⟨rfl, rfl⟩

/-- The end of a repair releases its pins (R54). -/
theorem unpinRepair_facts (s : State) (b : BankId) : (s.unpinRepair b).port = s.port ∧ ∀ x ∈ (s.unpinRepair b).pool.pins, x.holder ≠ .repair b := by
  unfold State.unpinRepair
  extract_lets mine p s1 s2
  have h2 : s2.port = s.port ∧ ∀ x ∈ s2.pool.pins, x.holder ≠ .repair b := by
    unfold s2
    have h1 : s1.port = s.port ∧ ∀ x ∈ s1.pool.pins, x.holder ≠ .repair b := by
      refine ⟨rfl, fun x hx => ?_⟩
      have : x ∈ s.pool.pins.filter _ := hx
      have := (List.mem_filter.mp this).2
      simpa using this
    generalize s1 = t at h1
    generalize mine = l
    induction l generalizing t with
    | nil => exact h1
    | cons a l ih => exact ih _ (by dsimp only; rw [dropUnpinned_eq]; exact h1)
  split
  · exact h2
  · exact h2

theorem markFailing_nil (k : Bank) : k.markFailing [] = k := by unfold Bank.markFailing; rw [if_pos (by rfl)]

theorem beginScrub_todo (s : State) (b : BankId) : (s.beginScrub b).todo = s.todo := by
  unfold State.beginScrub State.scrubOn; dsimp only; split <;> rfl

theorem beginCompaction_todo (s : State) (b : BankId) : (s.beginCompaction b).todo = s.todo := by
  unfold State.beginCompaction State.compactOn; dsimp only; split
  · rfl
  · rfl

theorem afterApplies_todo (s : State) (b : BankId) : (s.afterApplies b).todo = s.todo := by
  unfold State.afterApplies
  split
  · exact beginCompaction_todo _ _
  · split
    · exact beginScrub_todo _ _
    · rfl

/-- The messages of a bank's next work follow those of the event (R25). -/
theorem nextWork_appends (s : State) (b : BankId) : ∃ more, (s.nextWork b).todo.mail = s.todo.mail ++ more := by
  unfold State.nextWork
  split
  · exact ⟨[], (List.append_nil _).symm⟩
  · extract_lets s1
    obtain ⟨m1, h1⟩ : ∃ m1, s1.todo.mail = s.todo.mail ++ m1 := by
      unfold s1 State.acknowledge
      split
      · exact ⟨_, rfl⟩
      · exact ⟨[], (List.append_nil _).symm⟩
    clear_value s1
    have ext : ∀ t : State, (∃ m, t.todo.mail = s1.todo.mail ++ m) → ∃ more, t.todo.mail = s.todo.mail ++ more :=
      fun t ⟨m, h⟩ => ⟨m1 ++ m, by rw [h, h1, List.append_assoc]⟩
    split
    · exact ⟨m1, by rw [beginScrub_todo]; exact h1⟩
    · split
      · exact ⟨m1, by rw [afterApplies_todo]; exact h1⟩
      · split
        · refine ext _ ?_
          unfold State.beginRequest
          dsimp only
          split
          · exact ⟨_, rfl⟩
          · split <;> exact ⟨_, rfl⟩
        · refine ext _ ?_
          rw [afterApplies_todo]
          exact ⟨_, rfl⟩

theorem beginScrub_pool (s : State) (b : BankId) : (s.beginScrub b).pool = s.pool ∧ (s.beginScrub b).store.index = s.store.index := by
  unfold State.beginScrub State.scrubOn
  dsimp only
  split <;> exact ⟨rfl, rfl⟩

theorem afterApplies_pool (s : State) (b : BankId) : (s.afterApplies b).pool = s.pool ∧ (s.afterApplies b).store.index = s.store.index := by
  unfold State.afterApplies
  split
  · unfold State.beginCompaction State.compactOn
    dsimp only
    split <;> exact ⟨rfl, rfl⟩
  · split
    · exact beginScrub_pool _ _
    · exact ⟨rfl, rfl⟩

/-- A bank's next work asks nothing of the pool (R25). -/
theorem nextWork_pool (s : State) (b : BankId) : (s.nextWork b).pool = s.pool ∧ (s.nextWork b).store.index = s.store.index := by
  unfold State.nextWork
  split
  · exact ⟨rfl, rfl⟩
  · extract_lets s1
    have h1 : s1.pool = s.pool ∧ s1.store.index = s.store.index := by
      unfold s1 State.acknowledge
      split <;> exact ⟨rfl, rfl⟩
    clear_value s1
    split
    · rw [(beginScrub_pool _ _).1, (beginScrub_pool _ _).2]; exact h1
    · split
      · rw [(afterApplies_pool _ _).1, (afterApplies_pool _ _).2]; exact h1
      · split
        · unfold State.beginRequest
          dsimp only
          split
          · exact h1
          · split <;> exact h1
        · rw [(afterApplies_pool _ _).1, (afterApplies_pool _ _).2]; exact h1

theorem nextWork_mail {m : Msg} {s : State} {b : BankId} (h : m ∈ s.todo.mail) : m ∈ (s.nextWork b).todo.mail := by
  obtain ⟨more, e⟩ := nextWork_appends s b
  rw [e]; exact List.mem_append_left _ h

theorem markFailing_room (k : Bank) (ps : List Nat) : (k.markFailing ps).header.freeCount = k.header.freeCount ∧ (k.markFailing ps).hold = k.hold := by
  unfold Bank.markFailing
  split
  · exact ⟨rfl, rfl⟩
  · split <;> exact ⟨rfl, rfl⟩

/-- The entry to FAULTED counts nothing, adds BANK-FAULT to the notice flags alone, and leaves no pin of the bank's repair (R55, R65). -/
theorem enterFaulted_port (s : State) (b : BankId) :
    (s.enterFaulted b).port = { s.port with flags := s.port.flags ||| Notice.mask .bankFault } ∧
    ∀ x ∈ (s.enterFaulted b).pool.pins, x.holder ≠ .repair b := by
  unfold State.enterFaulted
  extract_lets needed s1 old waiting s2 s3 s4 s5
  obtain ⟨h1, h1'⟩ := unpinRepair_facts s b
  have h3 : s3.port = { s.port with flags := s.port.flags ||| Notice.mask .bankFault } ∧ ∀ x ∈ s3.pool.pins, x.holder ≠ .repair b := by
    refine ⟨?_, h1'⟩
    show ({ s1.port with flags := s1.port.flags ||| Notice.mask .bankFault } : Port) = _
    rw [h1]
  have h4 : s4.port = s3.port ∧ s4.pool = s3.pool := by
    unfold s4
    clear_value waiting
    cases waiting <;> exact ⟨rfl, rfl⟩
  have h5 : s5.port = s4.port ∧ s5.pool = s4.pool := by
    unfold s5 State.acknowledge
    split <;> exact ⟨rfl, rfl⟩
  rw [← h4.1, ← h4.2, ← h5.1, ← h5.2] at h3
  clear_value s5
  split
  · exact h3
  · exact h3

/-- A full scan that goes on counts nothing and lowers no notice flag; where it begins a repair, that repair's first pin is the only new one
(R52, R59, R65). -/
theorem recoverFrom_port (s : State) (b : BankId) (next : Nat) :
    (s.recoverFrom b next).port.counters = s.port.counters ∧
    (∀ n, s.port.flags.getLsbD n = true → (s.recoverFrom b next).port.flags.getLsbD n = true) ∧
    ((∀ x ∈ s.pool.pins, x.holder ≠ .repair b) → ∀ x ∈ (s.recoverFrom b next).pool.pins, x.holder = .repair b →
      ∃ q : RepairRun, ((s.recoverFrom b next).bank b).work = .repair q ∧ next ≤ q.place ∧ q.fullScan = true ∧
        x.domain = s.bankDomain b ∧ x.gen = q.added) := by
  unfold State.recoverFrom State.recoverOn
  extract_lets k rest keep s1
  have same : ∀ t : State, t.port = s.port → t.pool = s.pool → t.port.counters = s.port.counters ∧
      (∀ n, s.port.flags.getLsbD n = true → t.port.flags.getLsbD n = true) ∧
      ((∀ x ∈ s.pool.pins, x.holder ≠ .repair b) → ∀ x ∈ t.pool.pins, x.holder = .repair b →
        ∃ q : RepairRun, (t.bank b).work = .repair q ∧ next ≤ q.place ∧ q.fullScan = true ∧ x.domain = s.bankDomain b ∧ x.gen = q.added) := by
    intro t e1 e2
    rw [e1, e2]
    exact ⟨rfl, fun _ h => h, fun h x hx hb => absurd hb (h x hx)⟩
  have faulted : ∀ t : State, t.port = s.port → (t.enterFaulted b).port.counters = s.port.counters ∧
      (∀ n, s.port.flags.getLsbD n = true → (t.enterFaulted b).port.flags.getLsbD n = true) ∧
      ((∀ x ∈ s.pool.pins, x.holder ≠ .repair b) → ∀ x ∈ (t.enterFaulted b).pool.pins, x.holder = .repair b →
        ∃ q : RepairRun, ((t.enterFaulted b).bank b).work = .repair q ∧ next ≤ q.place ∧ q.fullScan = true ∧
          x.domain = s.bankDomain b ∧ x.gen = q.added) := by
    intro t e1
    obtain ⟨h1, h2⟩ := enterFaulted_port t b
    rw [h1, e1]
    refine ⟨rfl, fun n h => ?_, fun _ x hx hb => absurd hb (h2 x hx)⟩
    show (s.port.flags ||| _).getLsbD n = true
    rw [BitVec.getLsbD_or, h]; rfl
  split
  · exact same _ rfl rfl
  · rename_i pr hpr
    split
    · exact same _ rfl rfl
    · split
      · have hle : next ≤ pr.1 := by
          have hm : pr ∈ rest := List.dropWhile_subset _ (List.mem_of_mem_head? hpr)
          unfold rest placesIn at hm
          have := (List.mem_filter.mp hm).2
          simp only [Bool.and_eq_true, decide_eq_true_eq] at this
          exact this.1
        dsimp only
        unfold State.beginRepair
        split
        · exact same _ rfl rfl
        · extract_lets d s2 run
          split
          · exact faulted _ rfl
          · split
            · unfold State.repairDecide
              rw [if_pos (by rfl)]
              exact faulted _ rfl
            · refine ⟨rfl, fun _ h => h, fun h x hx hb => ⟨run, congrArg Bank.work (working_bank _ _ _), hle, rfl, ?_⟩⟩
              have hx : x ∈ s.pool.pins ++ [{ holder := PinHolder.repair b, domain := d, gen := run.added }] := hx
              rcases List.mem_append.mp hx with hx | hx
              · exact absurd hb (h x hx)
              · rw [List.mem_singleton.mp hx]; exact ⟨rfl, rfl⟩
      · exact same _ rfl rfl

/-- What a hold does to one bank (R27, R28). -/
structure HoldOf (h : HoldPending) (k k' : Bank) (st st' : StoredHeader) : Prop where
  idle : k.state = .idle → k' = { k with state := .held, prior := some .idle, work := .none, hold := .none } ∧ st' = StoredHeader.sealed k.header
  busy : k.state ≠ .idle → k.state ≠ .held → k.work.busy = true → k' = { k with hold := h } ∧ st' = st
  reads : ∀ r, h = .closing → k.state = .applying → k.work = .applyRead r → k' = { k with hold := h } ∧ st' = st
  waits : ∀ p, k.state = .recovering → k.work = .recoverWait p →
    k' = { k with state := .held, prior := some .recovering, work := .recoverPaused p, hold := .none } ∧ st' = StoredHeader.sealed k.header
  faulted : k.state = .faulted → k.work = .none → k' = k ∧ st' = st
  held : k.state = .held → k' = k ∧ st' = st

theorem holdBank_of (t : State) (b : BankId) (h : HoldPending) :
    HoldOf h (t.bank b) ((t.holdBank b h).bank b) t.store.headers[b] (t.holdBank b h).store.headers[b] := by
  have held : ∀ p w, (t.goHeld b p w).bank b = { t.bank b with state := .held, prior := some p, work := w, hold := .none } ∧
      (t.goHeld b p w).store.headers[b] = StoredHeader.sealed (t.bank b).header := by
    intro p w
    refine ⟨goHeld_bank _ _ _ _, ?_⟩
    unfold State.goHeld
    rw [writeScrubHeader_stored, banking_bank]
  have bk : (t.banking b (fun k => { k with hold := h })).bank b = { t.bank b with hold := h } := banking_bank _ _ _
  unfold State.holdBank
  dsimp only
  refine ⟨fun hi => ?_, fun h1 h2 h3 => ?_, fun r hc h1 h2 => ?_, fun p h1 h2 => ?_, fun h1 h2 => ?_, fun h1 => ?_⟩
  · rw [hi]; exact held _ _
  · split
    · rename_i e; exact absurd e h2
    · rename_i e; exact absurd e h1
    · rw [if_pos h3]; exact ⟨bk, rfl⟩
  · subst hc
    rw [h1, h2]; dsimp only
    rw [if_neg (by simp [BankWork.busy]), if_neg (by decide), ← h1, ← h2]
    exact ⟨bk, rfl⟩
  · rw [h1, h2]; dsimp only
    rw [if_neg (by simp [BankWork.busy])]
    exact held _ _
  · rw [h1, h2]; exact ⟨rfl, rfl⟩
  · rw [h1]; exact ⟨rfl, rfl⟩

/-- What the entry to CLOSING does to each bank (R28, R189). -/
theorem enterClosing_banks (s : State) (b : BankId) :
    HoldOf .closing (s.bank b) (s.enterClosing.bank b) s.store.headers[b] s.enterClosing.store.headers[b] := by
  unfold State.enterClosing
  dsimp only
  generalize hu : s.supplying (fun u => { u with power := .closing, parked := .stopped, stable := none }) = u
  have ub : u.banks = s.banks ∧ u.store = s.store := by rw [← hu]; exact ⟨rfl, rfl⟩
  have vb : u.dropQueuedPublish.banks = s.banks ∧ u.dropQueuedPublish.store = s.store := by
    unfold State.dropQueuedPublish; split <;> exact ub
  generalize u.dropQueuedPublish = v at vb ⊢
  obtain ⟨t, t1, t2⟩ := allBanks_at (f := fun s e => s.holdBank e .closing) (fun s e => holdBank_on (.refl false e s) .closing) b v
  have t2 : SameAt b (t.holdBank b .closing) (v.holdBanks .closing) := t2
  generalize v.holdBanks .closing = c at t2 ⊢
  have f := holdFetch_holdFrame c.holdPool
  have p : c.holdPool.banks = c.banks ∧ c.holdPool.store = c.store := ⟨rfl, rfl⟩
  generalize c.holdPool = e at f p ⊢
  generalize e.holdFetch = w at f ⊢
  have g := silenceLink_linkOnly w
  have g1 : w.silenceLink.banks = w.banks := by have e := congrArg State.banks g; exact e
  have g2 : w.silenceLink.store = w.store := by have e := congrArg State.store g; exact e
  have hb : w.silenceLink.bank b = (t.holdBank b .closing).bank b := by
    rw [← t2.bank]; unfold State.bank; rw [g1, f.banks, p.1]
  have hh : w.silenceLink.store.headers[b] = (t.holdBank b .closing).store.headers[b] := by
    rw [g2, f.headers, p.2, t2.header]
  have k1 : t.bank b = s.bank b := t1.bank.trans (by unfold State.bank; rw [vb.1])
  have k2 : t.store.headers[b] = s.store.headers[b] := t1.header.trans (by rw [vb.2])
  rw [hb, hh, ← k1, ← k2]
  exact holdBank_of t b .closing

/-- With every bank stopped the GAU sends nothing in CLOSING (R103). -/
theorem nextDrive_stopped {s : State} (hc : s.supply.power = .closing) (hb : ∀ b, (s.bank b).stopped = true) : s.nextDrive = none := by
  have hd : ∀ b, s.driving b = false := by
    intro b
    have := hb b
    unfold Bank.stopped at this
    unfold State.driving
    rw [hc]
    cases h : (s.bank b).state <;> simp_all
  unfold State.nextDrive
  rw [List.findSome?_eq_none_iff]
  intro i _
  dsimp only
  split
  · rw [List.findSome?_eq_none_iff]
    intro b _
    simp [hd b]
  · rfl

/-- Where the GAU has nothing to send it has nothing to send with a bank more that is HELD. -/
theorem nextDrive_held {s t : State} {b : BankId} (hs : t.slots = s.slots) (hu : t.supply = s.supply) (hb : (t.bank b).state = .held)
    (ho : ∀ e, e ≠ b → t.bank e = s.bank e) (hn : s.nextDrive = none) : t.nextDrive = none := by
  have sl : ∀ i, t.slot i = s.slot i := by intro i; unfold State.slot; rw [hs]
  have bo : ∀ d, t.banksOf d = s.banksOf d := by intro d; unfold State.banksOf State.bankDomain; rw [hu]
  have dr : ∀ e, t.driving e = false ∨ t.driving e = s.driving e := by
    intro e
    by_cases h : e = b
    · subst h; left; unfold State.driving; rw [hb]; simp
    · right; unfold State.driving; rw [hu, ho e h]
  unfold State.nextDrive at hn ⊢
  rw [List.findSome?_eq_none_iff] at hn ⊢
  intro i hi
  have k := hn i hi
  dsimp only at k ⊢
  rw [sl i, bo]
  split at k
  · rename_i h
    rw [if_pos h]
    rw [List.findSome?_eq_none_iff] at k ⊢
    intro e he
    have := k e he
    rcases dr e with h | h
    · simp [h]
    · rw [h]; exact this
  · rename_i h
    rw [if_neg h]

/-- At the last bank's held report CLOSING ends in DORMANT (R189). -/
theorem closing_settle {u : State} (hc : u.supply.power = .closing) (hr : u.rests) (hb : ∀ b, (u.bank b).stopped = true)
    (h1 : u.supply.pendingStart = false) (h2 : u.supply.ignition = false) (h3 : u.pins.wake = false) :
    u.settle.supply.power = .dormant ∧ u.settle.cleared ∧ u.settle.pins = u.pins := by
  obtain ⟨a, b, c, d⟩ := hr
  obtain ⟨f1, f2, f3, f4, f5, _⟩ := enterDormant_facts u
  unfold State.settle
  rw [settleLoop_rest a, b, c, d]
  have : u.closingEnds = u.enterDormant := by
    unfold State.closingEnds
    rw [if_pos]
    simp only [hc, beq_self_eq_true, Bool.true_and, List.all_eq_true]
    exact fun b _ => hb b
  rw [this, dormantStart_none (by rw [f5, h1]) (by rw [f4, h2]) (by rw [f3, h3])]
  exact ⟨f1, f2, f3⟩

/-- Before it CLOSING goes on. -/
theorem closing_goes_on {u : State} (hc : u.supply.power = .closing) (hr : u.rests) {b : BankId} (hb : (u.bank b).stopped = false) : u.settle = u := by
  obtain ⟨a, b', c, d⟩ := hr
  unfold State.settle
  rw [settleLoop_rest a, b', c, d]
  have : u.closingEnds = u := by
    unfold State.closingEnds
    rw [if_neg]
    simp only [hc, beq_self_eq_true, Bool.true_and, List.all_eq_true]
    exact fun k => by have := k b (List.mem_finRange b); rw [hb] at this; cases this
  rw [this]
  unfold State.dormantStart
  rw [if_neg]
  simp [hc]

end Sys2Proof.Machine
end

