-- ==== Sys2Proof/Laws/PoolRules.lean ====
section
/-! SUPPORT. What the evictions of the pool take (R67, R71, R72), which room a segment write has after them, what the index writes
of a failing segment do (R73), and that the end of an ask takes no message of the event back. -/

namespace Sys2Proof.Machine

/-! ## The order of evictions (R71, R72) -/

/-- A fold that keeps the highest value of the elements it takes. -/
theorem foldl_max_iff {α : Type} (take : α → Bool) (value : α → Nat) (g : Nat) : ∀ (l : List α) (m : Option Nat),
    l.foldl (fun m e => if take e then some (match m with
      | none => value e
      | some h => max h (value e)) else m) m = some g ↔
    (m = some g ∨ ∃ x ∈ l, take x = true ∧ value x = g) ∧ (∀ h, m = some h → h ≤ g) ∧ ∀ x ∈ l, take x = true → value x ≤ g
  | [], m => by
    simp only [List.foldl_nil, List.not_mem_nil, false_and, exists_false, or_false, false_imp_iff, implies_true, and_true]
    exact ⟨fun h => ⟨h, fun k hk => by rw [h] at hk; injection hk with hk; omega⟩, fun h => h.1⟩
  | a :: l, m => by
    rw [List.foldl_cons, foldl_max_iff take value g l]
    simp only [List.mem_cons, exists_eq_or_imp, forall_eq_or_imp]
    by_cases hc : take a = true
    · rw [if_pos hc]
      cases m with
      | none =>
        simp only [reduceCtorEq, false_or, false_imp_iff, implies_true, true_and, Option.some.injEq, forall_eq', hc, forall_const]
      | some k =>
        simp only [Option.some.injEq, forall_eq', hc, true_and, forall_const]
        constructor
        · rintro ⟨h1, h2, h3⟩
          refine ⟨?_, by omega, by omega, h3⟩
          rcases h1 with h | h
          · rcases Nat.le_total k (value a) with hk | hk
            · exact .inr (.inl (by omega))
            · exact .inl (by omega)
          · exact .inr (.inr h)
        · rintro ⟨h1, h2, h3, h4⟩
          refine ⟨?_, by omega, h4⟩
          rcases h1 with h | h | h
          · exact .inl (by omega)
          · exact .inl (by omega)
          · exact .inr h
    · rw [if_neg hc]
      simp only [hc, false_and, false_or, false_imp_iff, true_and, Bool.false_eq_true]

/-- The servable baseline that the fold finds is the highest. -/
theorem servableBaseline_iff (s : State) (d : Domain) (g : Gen) : s.servableBaseline d = some g ↔ s.sparedBaseline d g := by
  refine (foldl_max_iff (fun e : ManifestEntry => e.manifest.domain == d && e.manifest.kind == .baseline && e.servable)
    (fun e => e.manifest.gen) g s.store.index.entries none).trans ?_
  unfold State.sparedBaseline
  simp [and_assoc]

/-- The order of R72 as the model computes it. -/
theorem evictBefore_iff (s : State) (a b : ManifestEntry) : s.evictBefore a b = true ↔ s.givenUpBefore a b := by
  have grp : ∀ x : ManifestEntry,
      (¬ s.sparedBaseline x.manifest.domain x.manifest.gen → s.evictGroup x = 0) ∧
      (s.sparedBaseline x.manifest.domain x.manifest.gen →
        ((∃ p ∈ s.peers, p.state = .known ∧ (p.values.get x.manifest.domain).needsBaseline = true) → s.evictGroup x = 2) ∧
        ((¬ ∃ p ∈ s.peers, p.state = .known ∧ (p.values.get x.manifest.domain).needsBaseline = true) → s.evictGroup x = 1)) := by
    intro x
    have hany : s.peers.any (fun p => p.state == .known && (p.values.get x.manifest.domain).needsBaseline) = true ↔
        ∃ p ∈ s.peers, p.state = .known ∧ (p.values.get x.manifest.domain).needsBaseline = true := by simp
    unfold State.evictGroup
    rw [← servableBaseline_iff, ← hany]
    refine ⟨fun h => if_pos (by simpa using h), fun h => ⟨fun k => ?_, fun k => ?_⟩⟩
    · exact (if_neg (by simp [h])).trans (if_pos k)
    · exact (if_neg (by simp [h])).trans (if_neg k)
  have ga := grp a
  have gb := grp b
  unfold State.evictBefore State.givenUpBefore State.evictDistance
  dsimp only
  simp only [Bool.or_eq_true, Bool.and_eq_true, decide_eq_true_eq, beq_iff_eq]
  generalize s.sparedBaseline a.manifest.domain a.manifest.gen = A at ga ⊢
  generalize s.sparedBaseline b.manifest.domain b.manifest.gen = B at gb ⊢
  generalize (∃ p ∈ s.peers, p.state = .known ∧ (p.values.get a.manifest.domain).needsBaseline = true) = P at ga ⊢
  generalize (∃ p ∈ s.peers, p.state = .known ∧ (p.values.get b.manifest.domain).needsBaseline = true) = Q at gb ⊢
  generalize s.evictGroup a = m at ga ⊢
  generalize s.evictGroup b = n at gb ⊢
  obtain ⟨a0, a1⟩ := ga
  obtain ⟨b0, b1⟩ := gb
  by_cases hA : A <;> by_cases hB : B <;> by_cases hP : P <;> by_cases hQ : Q <;>
    simp [hA, hB, hP, hQ] at a0 a1 b0 b1 ⊢ <;> simp [*, and_assoc]

/-- No two entries are each taken before the other. -/
theorem evictBefore_asymm {s : State} {a b : ManifestEntry} (h : s.evictBefore a b = true) : s.evictBefore b a = false := by
  unfold State.evictBefore at *
  simp only [Bool.or_eq_true, Bool.and_eq_true, decide_eq_true_eq, beq_iff_eq, Bool.or_eq_false_iff, decide_eq_false_iff_not,
    Bool.and_eq_false_iff, beq_eq_false_iff_ne] at *
  rcases h with h | ⟨h1, h | ⟨⟨h2, h3⟩, h4⟩⟩
  · exact ⟨by omega, .inl (by omega)⟩
  · exact ⟨by omega, .inr ⟨by omega, .inl (.inl (by omega))⟩⟩
  · exact ⟨by omega, .inr ⟨by omega, .inr (by rw [h3]; decide)⟩⟩

theorem mem_evictCandidates (s : State) (x : ManifestEntry) : x ∈ s.evictCandidates ↔ s.evictable x := by
  unfold State.evictCandidates State.evictable State.pinCount
  simp only [List.mem_filter, Bool.and_eq_true, beq_iff_eq, List.length_eq_zero_iff, List.filter_eq_nil_iff]
/-- The eviction takes the entry that R72 orders first. -/
theorem evictNext_of_evicts {s : State} {x : ManifestEntry} (h : s.evicts x) : s.evictNext = some x := by
  refine firstBy_first ((mem_evictCandidates s x).mpr h.1) fun y hy => ?_
  rcases h.2 y ((mem_evictCandidates s y).mp hy) with k | k
  · exact .inl k
  · have := (evictBefore_iff s x y).mpr k
    exact .inr ⟨this, evictBefore_asymm this⟩

theorem evictNext_none {s : State} (h : ∀ x, ¬ s.evictable x) : s.evictNext = none := by
  have : s.evictCandidates = [] := List.eq_nil_iff_forall_not_mem.mpr fun x hx => h x ((mem_evictCandidates s x).mp hx)
  unfold State.evictNext; rw [this]; rfl

/-! ## Room for a segment (R67) -/

/-- Evictions in turn make room. -/
theorem makeRoom_of_evictsInTurn {s : State} {xs : List ManifestEntry} (h : s.evictsInTurn xs) {n : Nat} (hn : xs.length < n) :
    s.makeRoom n = some (xs.foldl State.removeEntry s) := by
  induction xs generalizing s n with
  | nil =>
    obtain ⟨n, rfl⟩ : ∃ m, n = m + 1 := ⟨n - 1, by simp at hn; omega⟩
    unfold State.makeRoom; rw [if_pos (show _ < Config.poolPlaces from h)]; rfl
  | cons x xs ih =>
    obtain ⟨n, rfl⟩ : ∃ m, n = m + 1 := ⟨n - 1, by simp at hn; omega⟩
    obtain ⟨h1, h2, h3⟩ := h
    unfold State.makeRoom
    rw [if_neg (by show ¬ _ < 65536; omega), evictNext_of_evicts h2]
    exact ih h3 (by simp at hn; omega)

/-- Evictions change the index, its copy in the directory and the pins alone. -/
theorem removeEntries_frame (xs : List ManifestEntry) (s : State) :
    xs.foldl State.removeEntry s = { s with
      store := { s.store with index := (xs.foldl State.removeEntry s).store.index }
      backup := (xs.foldl State.removeEntry s).backup
      pool := { s.pool with pins := (xs.foldl State.removeEntry s).pool.pins } } := by
  induction xs generalizing s with
  | nil => rfl
  | cons x xs ih => rw [List.foldl_cons, ih]; rfl

/-- The index after evictions. -/
theorem removeEntries_index (xs : List ManifestEntry) (s : State) : s.indexWithout xs (xs.foldl State.removeEntry s).store.index := by
  induction xs generalizing s with
  | nil => exact ⟨fun y => by simp, fun q => by simp, rfl⟩
  | cons x xs ih =>
    have k := ih (s.removeEntry x)
    refine ⟨fun y => (k.entries y).trans ?_, fun q => (k.used q).trans ?_, k.stampSource⟩
    · show (y ∈ s.store.index.entries.filter _ ∧ _) ↔ _
      simp only [List.mem_filter, List.mem_cons, forall_eq_or_imp, and_assoc, ManifestEntry.sameGen, Bool.not_eq_true',
        Bool.and_eq_false_iff, beq_eq_false_iff_ne, not_and_or]
    · show (q ∈ usedWithout s.store.cells x.stamp s.store.index.used ∧ ∀ x ∈ xs, ∀ c, placeGet q s.store.cells = some c → _) ↔ _
      unfold usedWithout
      simp only [List.mem_filter, List.mem_cons, forall_eq_or_imp, and_assoc]
      refine and_congr_right fun _ => and_congr_left fun _ => ?_
      cases placeGet q s.store.cells <;> simp

/-- An entry that shares its generation with none of the evicted ones stays the entry of its generation. -/
theorem removeEntries_entry {xs : List ManifestEntry} {s : State} {d : Domain} {g : Gen} {e : ManifestEntry} (he : s.entry d g = some e)
    (h : ∀ x ∈ xs, ¬ e.sameGen x) : (xs.foldl State.removeEntry s).entry d g = some e := by
  induction xs generalizing s with
  | nil => exact he
  | cons x xs ih =>
    refine ih ?_ (fun y hy => h y (List.mem_cons_of_mem _ hy))
    have hk := List.find?_some he
    simp only [Bool.and_eq_true, beq_iff_eq] at hk
    show List.find? _ (List.filter _ s.store.index.entries) = some e
    rw [List.find?_filter]
    refine Eq.trans (List.find?_congr fun y hy => ?_) he
    have hx := h x (by simp)
    unfold ManifestEntry.sameGen at hx
    rw [hk.1, hk.2] at hx
    rw [Bool.eq_iff_iff]
    simp only [Bool.and_eq_true, Bool.not_eq_true', Bool.and_eq_false_iff, beq_eq_false_iff_ne, beq_iff_eq, decide_eq_true_eq]
    constructor
    · exact fun k => k.2
    · intro k; exact ⟨not_and_or.mp (by rw [k.1, k.2]; exact hx), k⟩

/-- The newest slot of the wait list that holds places. -/
theorem waitingHolder_of_newest {s : State} {i : SlotId} {e : ManifestEntry} (h : s.newestHolder i e) : s.waitingHolder = some (i, e) := by
  obtain ⟨older, newer, h1, h2, h3, h4⟩ := h
  unfold State.waitingHolder
  rw [h1, List.reverse_append, List.reverse_cons, List.append_assoc, List.findSome?_append, Option.or_eq_some_iff]
  refine .inr ⟨?_, ?_⟩
  · rw [List.findSome?_eq_none_iff]
    intro j hj
    split
    · rename_i x hx; rw [h4 j (List.mem_reverse.mp hj) x hx]; rfl
    · rfl
  · rw [List.singleton_append, List.findSome?_cons, h2]
    dsimp only
    rw [if_neg (by simpa using h3)]

theorem waitingHolder_none {s : State} (h : ∀ i e, ¬ s.newestHolder i e) : s.waitingHolder = none := by
  unfold State.waitingHolder
  rw [List.findSome?_eq_none_iff]
  by_contra hc
  have key : ∀ l : List SlotId, (∃ older, s.pool.waitList = older ++ l) → ∀ j ∈ l, ∀ x, s.entry (s.slot j).domain (s.slot j).gen = some x → x.present = [] := by
    intro l
    induction l with
    | nil => intro _ j hj; cases hj
    | cons i l ih =>
      rintro ⟨older, ho⟩ j hj x hx
      have hl := ih ⟨older ++ [i], by simp [ho]⟩
      rcases List.mem_cons.mp hj with rfl | hj
      · by_contra hne
        exact h j x ⟨older, l, ho, hx, hne, hl⟩
      · exact hl j hj x hx
  refine hc fun j hj => ?_
  split
  · rename_i x hx
    rw [key _ ⟨[], by simp⟩ j (List.mem_reverse.mp hj) x hx]; rfl
  · rfl

/-- A free place is room. -/
theorem makeRoom_free {s : State} (h : lowestUnused 0 s.store.index.used < 65536) (n : Nat) : s.makeRoom (n + 1) = some s := by
  unfold State.makeRoom
  rw [if_pos (show _ < Config.poolPlaces from h)]

/-- Without a free place, and with nothing to give up or to empty, there is none. -/
theorem makeRoom_none {s : State} (h1 : 65536 ≤ lowestUnused 0 s.store.index.used) (h2 : ∀ x, ¬ s.evictable x) (h3 : ∀ i h, ¬ s.newestHolder i h)
    (n : Nat) : s.makeRoom n = none := by
  cases n with
  | zero => rfl
  | succ n =>
    unfold State.makeRoom
    rw [if_neg (by show ¬ _ < 65536; omega), evictNext_none h2]
    dsimp only
    rw [waitingHolder_none h3]

/-- The emptying of an entry leaves those of other generations. -/
theorem emptyEntry_entry {s : State} {h e : ManifestEntry} {d : Domain} {g : Gen} (he : s.entry d g = some e) (hs : ¬ e.sameGen h) :
    (s.emptyEntry h).entry d g = some e := by
  have hk := List.find?_some he
  simp only [Bool.and_eq_true, beq_iff_eq] at hk
  have hn : ¬ (d = h.manifest.domain ∧ g = h.manifest.gen) := fun k => hs ⟨hk.1.trans k.1, hk.2.trans k.2⟩
  show List.find? _ (List.map _ s.store.index.entries) = some e
  have he : List.find? _ s.store.index.entries = some e := he
  generalize s.store.index.entries = l at he
  induction l with
  | nil => cases he
  | cons x l ih =>
    rw [List.map_cons, List.find?_cons]
    rw [List.find?_cons] at he
    by_cases hx : (x.manifest.domain == h.manifest.domain && x.manifest.gen == h.manifest.gen) = true
    · have hx' := hx
      simp only [Bool.and_eq_true, beq_iff_eq] at hx'
      have hno : (x.manifest.domain == d && x.manifest.gen == g) = false := by
        rw [hx'.1, hx'.2, Bool.and_eq_false_iff, beq_eq_false_iff_ne, beq_eq_false_iff_ne]
        exact not_and_or.mp fun k => hn ⟨k.1.symm, k.2.symm⟩
      rw [hno] at he
      have hno' : (h.manifest.domain == d && h.manifest.gen == g) = false := by rw [← hx'.1, ← hx'.2]; exact hno
      rw [if_pos hx]
      have : ∀ y : ManifestEntry, y.sealed.manifest = y.manifest := fun _ => rfl
      simp only [this, hno']
      exact ih he
    · rw [if_neg hx]
      cases hy : (x.manifest.domain == d && x.manifest.gen == g) <;> rw [hy] at he
      · exact ih he
      · exact he

/-- A write that needs no eviction is taken with its room free (R66, R67). -/
theorem writeRoom_free {s : State} {o : Offer} (h : s.freeFor o) : s.writeRoom o = .free := by
  have place : lowestUnused 0 s.store.index.used < 65536 → s.writeRoom o = .free := fun hf => by
    unfold State.writeRoom
    rw [if_pos (show _ < Config.poolPlaces from hf)]
    split
    · rename_i hw
      unfold State.writeSegment at hw
      rw [makeRoom_free hf] at hw
      split at hw
      · cases hw
      · split at hw
        · cases hw
        · dsimp only at hw
          split at hw <;> cases hw
    · rfl
    · rfl
  rcases h with h | h
  · exact place h
  · unfold State.writeRoom State.writeSegment
    split
    · rename_i hw
      split at hw
      · cases hw
      · rename_i e he
        rw [if_pos (by simpa using h e he)] at hw
        cases hw
    · rename_i hw
      split at hw
      · cases hw
      · rename_i e he
        rw [if_pos (by simpa using h e he)] at hw
        cases hw
    · rfl

/-- A write that is to be stored and can have no place is left wanting (R67). -/
theorem writeRoom_wanting {s : State} {o : Offer} (h : s.noRoomFor o) : s.writeRoom o = .wanting := by
  obtain ⟨e, h1, h2, h3, h4, h5, h6⟩ := h
  unfold State.writeRoom State.writeSegment
  rw [h1]
  dsimp only
  rw [if_neg (by simp [h2, h3]), makeRoom_none h4 h5 h6]

/-- A write that has its place once others gave theirs up evicts (R67). -/
theorem writeRoom_evicts {s : State} {o : Offer} (h : s.roomToMakeFor o) : s.writeRoom o = .evicts := by
  obtain ⟨e, h1, h2, h3, h4, h5⟩ := h
  have key : ∃ t, s.makeRoom 130 = some t ∧ t.entry o.domain o.gen = some e := by
    rcases h5 with ⟨xs, h5, h6, h7⟩ | ⟨h5, i, y, h6, h7, h8⟩
    · exact ⟨_, makeRoom_of_evictsInTurn h5 (by omega), removeEntries_entry h1 h7⟩
    · refine ⟨(s.emptyEntry y).post (.slotEmptied i), ?_, emptyEntry_entry h1 h7⟩
      unfold State.makeRoom
      rw [if_neg (by show ¬ _ < 65536; omega), evictNext_none h5]
      dsimp only
      rw [waitingHolder_of_newest h6]
      exact makeRoom_free h8 _
  obtain ⟨t, ht, hte⟩ := key
  unfold State.writeRoom State.writeSegment
  rw [h1]
  dsimp only
  rw [if_neg (by simp [h2, h3]), ht]
  dsimp only
  rw [hte]
  dsimp only
  rw [if_neg (by show ¬ _ < 65536; omega)]

/-! ## The index writes of failing segments (R73) -/

theorem pinCount_zero {s : State} {d : Domain} {g : Gen} : (s.pinCount d g == 0) = true ↔ ¬ s.pinned d g := by
  unfold State.pinCount State.pinned
  rw [beq_iff_eq, List.length_eq_zero_iff, List.filter_eq_nil_iff]
  simp

/-- The GAU is told of a lost index, and nothing else changes. -/
theorem tellLost_eq (s : State) (d : Domain) (g : Gen) (k : Nat) : s.tellLost d g k = { s with todo := (s.tellLost d g k).todo } := by
  unfold State.tellLost
  split <;> rfl

theorem tellLost_slotPinned {s : State} {d : Domain} {g : Gen} (h : s.slotPinned d g) (k : Nat) :
    s.tellLost d g k = s.post (.indexLost d g k) := by
  unfold State.tellLost
  rw [if_pos]
  obtain ⟨p, hp, h1, h2, i, h3⟩ := h
  rw [List.any_eq_true]
  exact ⟨p, hp, by simp [h1, h2, h3]⟩

/-- An entry without pins is removed. -/
theorem lostWrite_unpinned {s : State} {d : Domain} {g : Gen} {e : ManifestEntry} {k : Nat} (he : s.entry d g = some e) (hk : k ∈ e.present)
    (hp : ¬ s.pinned d g) : s.lostWrite d g e.stamp k = s.removeEntry e := by
  unfold State.lostWrite
  rw [he]
  dsimp only
  rw [if_neg (by simp [hk]), if_pos (pinCount_zero.mpr hp)]

/-- A pinned one loses the index. -/
theorem lostWrite_pinned {s : State} {d : Domain} {g : Gen} {e : ManifestEntry} {k : Nat} (he : s.entry d g = some e) (hk : k ∈ e.present)
    (hp : s.pinned d g) : s.lostWrite d g e.stamp k = (s.loseIndex e k).tellLost d g k := by
  unfold State.lostWrite
  rw [he]
  dsimp only
  rw [if_neg (by simp [hk]), if_neg fun h => pinCount_zero.mp h hp]

/-- A write that comes too late changes nothing. -/
theorem lostWrite_late {s : State} {d : Domain} {g : Gen} {e : ManifestEntry} {n k : Nat} (he : s.entry d g = some e)
    (h : e.stamp ≠ n ∨ k ∉ e.present) : s.lostWrite d g n k = s := by
  unfold State.lostWrite
  rw [he]
  dsimp only
  rw [if_pos (by rcases h with h | h <;> simp [h])]

/-! ## Messages -/

/-- Every message of the event is still to be delivered. -/
def Sends (s t : State) : Prop := ∀ m ∈ s.todo.mail, m ∈ t.todo.mail

theorem Sends.of {s t : State} (h : t.todo.mail = s.todo.mail) : Sends s t := fun _ k => h ▸ k

theorem Sends.trans {a b c : State} (h : Sends a b) (k : Sends b c) : Sends a c := fun m hm => k m (h m hm)

theorem Sends.fold {α : Type} (f : State → α → State) (l : List α) (s : State) (hf : ∀ s, ∀ a ∈ l, Sends s (f s a)) : Sends s (l.foldl f s) := by
  induction l generalizing s with
  | nil => exact .of rfl
  | cons a l ih => exact (hf s a (by simp)).trans (ih _ fun s b hb => hf s b (List.mem_cons_of_mem _ hb))

theorem advanceTest_sends (s : State) (d : Domain) : Sends s (s.advanceTest d) := by
  unfold State.advanceTest State.advanceVisible
  dsimp only
  split
  · exact .of rfl
  · unfold State.requestCompaction
    refine Sends.trans (b := List.foldl _ _ _) (Sends.trans (.of ?_) (.fold _ _ _ fun s b _ m hm => ?_)) (.of rfl)
    · unfold State.writeDomainHeader State.commitDomainHeader State.raise
      split <;> cases d <;> rfl
    · exact List.mem_append_left _ hm

/-- A record that leaves the table takes no message back. -/
theorem removePeer_sends (s : State) (p : Peer) : Sends s (s.removePeer p) := by
  unfold State.removePeer
  dsimp only
  generalize hx : State.peerReport _ = x
  have h : Sends s x := by rw [← hx]; exact .of rfl
  split
  · exact h.trans (.of rfl)
  · exact h

/-- How an ask ended for a peer's record takes no message back. -/
theorem peerAskEnded_sends (s : State) (n : Station) (e : AskEnd) : Sends s (s.peerAskEnded n e) := by
  unfold State.peerAskEnded
  split
  · exact .of rfl
  · rename_i p _
    dsimp only
    generalize p.askEnded s.clock e = q
    have h : Sends s (s.setPeer q).peerReport := .of rfl
    split
    · exact h.trans (removePeer_sends _ _)
    · exact h

/-- The end of an ask takes no message back. -/
theorem endAsk_sends (s : State) (a : Ask) (e : AskEnd) : Sends s (s.endAsk a e) := by
  unfold State.endAsk
  extract_lets s1 s2 s3 s4
  have h3 : Sends s s3 := (Sends.of (t := s2) rfl).trans (peerAskEnded_sends s2 a.peer e)
  refine h3.trans (Sends.trans (b := s4) ?_ (.of rfl))
  unfold s4 State.manifestAskEnded
  repeat' split
  all_goals exact .of rfl

/-- The arrival of an index takes no message back. -/
theorem indexArrived_sends (s : State) (d : Domain) (g : Gen) (i : Nat) : Sends s (s.indexArrived d g i) := by
  unfold State.indexArrived
  extract_lets mine done s1
  exact Sends.trans (b := s1) (.of rfl) (.fold _ _ _ fun s a _ => endAsk_sends s a _)

end Sys2Proof.Machine
end

