-- ==== Sys2Proof/Tests/Slice0.lean ====
section
/-! SUPPORT. Small tests: the well-formedness checks refuse what they should, the checks of chapter 12 give their check values, and the
premises of the statements are met by concrete states. -/

namespace Sys2Proof.Tests

open Sys2Proof Sys2Proof.Machine

set_option Elab.async false

/-! ## The well-formedness checks -/

/-- A frame header of the default fleet from station 2 to the part's station 1. -/
def fromTwo (n : Nat) : LinkHeader :=
  { fleet := 1, sender := 2, vehicle := 1, sequence := 1, flags := 0, addressee := 1, bodyLength := BitVec.ofNat 16 n }

/-- One byte more than a body can hold. -/
def tooLong : List Byte := List.replicate 257 0

theorem test_wf_accepts :
    (Instr.setNoticeEnable 2047).wf = true ∧ (Instr.publishManifest (List.replicate 12 0)).wf = true ∧
    (Instr.publishSegment (List.replicate 16 0)).wf = true ∧ (Instr.publishSegment (List.replicate 256 0)).wf = true ∧
    (Instr.commission (1 :: List.replicate 24 0xFF)).wf = true ∧ (Instr.requestBadFrame [0xFF, 1]).wf = true ∧
    (Instr.staleExpiry 1).wf = true ∧ (Instr.staleExpiry 65534).wf = true ∧
    (Instr.announceReceived (fromTwo 256) (List.replicate 256 0)).wf = true := by decide +kernel

theorem test_wf_refuses_port_bodies :
    (Instr.setNoticeEnable 2048).wf = false ∧ (Instr.publishManifest (List.replicate 11 0)).wf = false ∧
    (Instr.publishSegment (List.replicate 15 0)).wf = false ∧ (Instr.publishSegment tooLong).wf = false ∧
    (Instr.commission (List.replicate 24 0)).wf = false ∧ (Instr.commission (2 :: List.replicate 24 0)).wf = false ∧
    (Instr.requestBadFrame [0xFF, 0xFF]).wf = false := by decide +kernel

theorem test_wf_refuses_long_bodies :
    (Instr.announceReceived (fromTwo 0) tooLong).wf = false ∧ (Instr.manifestAskReceived (fromTwo 0) tooLong).wf = false ∧
    (Instr.manifestReceived (fromTwo 0) tooLong).wf = false ∧ (Instr.segmentAskReceived (fromTwo 0) tooLong).wf = false ∧
    (Instr.segmentReceived (fromTwo 0) tooLong).wf = false ∧ (Instr.declineReceived (fromTwo 0) tooLong).wf = false := by
  decide +kernel

theorem test_wf_refuses_stations :
    (Instr.staleExpiry 0).wf = false ∧ (Instr.staleExpiry 65535).wf = false ∧ (Instr.removalExpiry 0).wf = false ∧
    (Instr.removalExpiry 65535).wf = false ∧ (Instr.unresponsiveExpiry 0).wf = false ∧ (Instr.unresponsiveExpiry 65535).wf = false ∧
    (Instr.busyExpiry 0).wf = false ∧ (Instr.busyExpiry 65535).wf = false := by decide +kernel

/-! ## The checks and layouts of chapter 12 -/

/-- The check string 1 to 9 of R206. -/
def digits : List Byte := [0x31, 0x32, 0x33, 0x34, 0x35, 0x36, 0x37, 0x38, 0x39]

theorem test_check_values : crc32 digits = 0xCBF43926#32 ∧ crc16 digits = 0x4B37#16 := by decide +kernel

theorem test_start_record_round_trip : parseStartRecord StartRecord.default.bytes = some StartRecord.default ∧
    parseStartRecord (invalidateStartRecord StartRecord.default.bytes) = none := by decide +kernel

/-! ## Small states -/

/-- In RUN with nothing to do, every bank shown HELD. -/
def inRun : State :=
  { State.reset with
    supply := { State.reset.supply with power := .run, recordRead := true, settling := false, ignition := true }
    pool := { Pool.initial with restored := true } }

/-- The same part in another power state. -/
def inPower (p : Power) : State := { inRun with supply := { inRun.supply with power := p } }

/-- An IDLE bank with nothing applied. -/
def idleBank : Bank := { Bank.unstarted with state := .idle }

/-- A good record of medium 5, which is bank 5's. -/
def recFive : Record := Record.sealed { key := 5, payload := .block 1 1, added := 1, removed := none, check := 0 }

/-- The same record with a check that disagrees. -/
def badFive : Record := { recFive with check := ~~~recFive.check }

/-- In RUN, bank 5 in the given state with the given records, visible generation 1. -/
def bankFive (k : Bank) (l : List (Nat × Record)) : State :=
  ({ inRun with vis := { inRun.vis with block := { held := 1, visible := 1, pending := [], timer := none } } }.setPlaces 5 l).setBank 5 k

/-- Bytes closed by their CRC-32. -/
def closed (bs : List Byte) : List Byte := bs ++ toBytes 4 (crc32 bs).toNat

/-- A BLOCK segment of generation 2, index 0, for bank 5, with one op given by its descriptor and medium 5. -/
def segTwo (descriptor : Byte) : List Byte := closed ([1] ++ toBytes 4 2 ++ toBytes 2 0 ++ [5, 1, descriptor] ++ toBytes 8 5)

/-- A segment with a LIST of medium 5, reason 1, action 1. -/
def segList : List Byte := segTwo 0x25

/-- A DELTA manifest of BLOCK generation 2 with one segment. -/
def manTwo : Manifest :=
  let m : Manifest := { domain := .block, gen := 2, kind := .delta, count := 1, digest := 0 }
  { m with digest := digestOf m [segCrc segList] }

/-- The verified entry of that generation, its segment in place 0. -/
def entryTwo : ManifestEntry :=
  ManifestEntry.sealed { manifest := manTwo, stamp := 1, verified := true, present := [0], check := 0 }

/-- A state whose pool holds that generation. -/
def pooled (s : State) : State :=
  { s with store := { s.store with
      index := { entries := [entryTwo], used := [0], stampSource := 1 }
      cells := [(0, { stamp := 1, index := 0, bytes := segList })] } }

/-- A record of station 2. -/
def peerTwo : Peer :=
  { station := 2, vehicle := 1, cohort := true, state := .known, heard := 0, sequence := 0, received := 1, loss := 0, timeouts := 0,
    unresponsive := none, busy := none, asks := 0, asked := none, congested := false, parked := false,
    values := { block := Announced.none, product := Announced.none }, removalDue := false }

/-- In RUN with station 2 in the peer table. -/
def knowing : State := { inRun with peers := [peerTwo] }

theorem test_records : recFive.good = true ∧ badFive.good = false ∧ bankOf 14 .block 5 = 5 := by decide +kernel

theorem test_segment : segCrcGood segList = true ∧ segOpsGood segList = true ∧ segOps segList = some [.list 5 1 1] ∧
    parseManifest manTwo.body = some manTwo := by decide +kernel

/-! ## The premises of the statements are met -/

theorem test_meets_EmptyQueueTicks : inRun.pending = [] ∧ inRun.supply.power ≠ .unpowered ∧ (inPower .unpowered).pending = [] ∧
    (inPower .unpowered).supply.power = .unpowered ∧ inRun.running = true ∧ (inRun.bank 0).state ≠ .faulted := by decide +kernel

theorem test_meets_StepKeepsInvariant : (bankFive idleBank [(0, recFive)]).Inv ∧
    ∃ t : State, step (bankFive idleBank [(0, recFive)]) = .next t :=
  ⟨by constructor <;> first | decide +kernel | (unfold Counters.bounded; decide +kernel), _, rfl⟩

theorem test_meets_EventRunsOutWithinBlocks : inRun.supply.power ≠ .closing ∧ inRun.supply.power ≠ .dormant := by decide +kernel

theorem test_meets_LookupAnsweredByBank : lookupOf (.checkMedium 5) = some (.checkMedium, .block, 5) ∧ (5 : Nat) ≠ 0 ∧
    inRun.serving ∧ inRun.portFree ∧ 8 ≤ inRun.supply.config.nB ∧ inRun.supply.config.nB ≤ 15 ∧
    (5 : BankId).val = bankOf inRun.supply.config.nB .block 5 ∧ IsFloor [] 1 0 ∧ IsFloor [1] 1 1 ∧
    lookupOf (.getProduct 3) = some (.getProduct, .product, 3) ∧ (15 : BankId).val = bankOf inRun.supply.config.nB .product 3 := by
  unfold State.serving State.portFree IsFloor; decide +kernel

/-- A good live record, no record, a failing record, and an erasure mark above and at the visible generation. -/
theorem test_meets_LookupAnsweredByBank_clauses :
    (∀ pr ∈ (bankFive idleBank [(0, recFive)]).places 5, pr.2.key = 5 → pr.2.lives 0 1) ∧
    ((bankFive idleBank [(0, recFive)]).bank 5).header.erasureMark = none ∧
    (∃ pr ∈ (bankFive idleBank [(0, badFive)]).places 5, pr.2.key = 5 ∧ pr.2.good = false) ∧
    ((bankFive { idleBank with header := { BankHeader.erased with erasureMark := some 2 } } []).bank 5).header.erasureMark = some 2 ∧
    ((bankFive { idleBank with header := { BankHeader.erased with erasureMark := some 1 } } []).domain .block).visible = 1 ∧
    ((bankFive { idleBank with state := .recovering } []).bank 5).state = .recovering ∧
    ((bankFive Bank.unstarted []).bank 5).state = .held ∧
    ((bankFive { idleBank with state := .faulted } []).bank 5).state = .faulted := by
  refine ⟨fun pr h _ => ?_, by decide +kernel, by decide +kernel, by decide +kernel, by decide +kernel, by decide +kernel,
    by decide +kernel, by decide +kernel⟩
  have h0 : (bankFive idleBank [(0, recFive)]).places 5 = [(0, recFive)] := by decide +kernel
  rw [h0] at h
  cases List.mem_singleton.mp h
  refine ⟨by decide +kernel, by decide +kernel, .inl (by decide +kernel), by decide +kernel⟩

theorem test_meets_FailingRecordMakesScrubDue : ((bankFive idleBank [(0, badFive)]).bank 5).state = .idle ∧
    ((bankFive idleBank [(0, badFive)]).bank 5).header.erasureMark = none ∧
    (∃ pr ∈ (bankFive idleBank [(0, badFive)]).places 5, pr.2.key = 5 ∧ pr.2.good = false) ∧
    (bankFive idleBank [(0, badFive)]).serving ∧ (bankFive idleBank [(0, badFive)]).portFree := by
  unfold State.serving State.portFree; decide +kernel

theorem test_meets_BadKeyAndBadFrameAnswered : lookupOf (.checkMedium 0) = some (.checkMedium, .block, 0) ∧
    lookupOf (.getProduct 0) = some (.getProduct, .product, 0) ∧ inRun.serving ∧ inRun.portFree ∧
    readWindow [0xFF, 9, 0] = .bad 9 ∧ inRun.takesRequests = true := by
  unfold State.serving State.portFree; decide +kernel

theorem test_meets_PowerStateTurnsRequestAway : requestKindOf .readLag = some .readLag ∧ Instr.wf .readLag = true ∧
    (inPower .starting).portFree ∧ (inPower .starting).supply.power = .starting ∧
    (inPower .commissioning).supply.power = .commissioning ∧ (inPower .closing).supply.power = .closing ∧
    requestKindOf (.publishManifest manTwo.body) = some .publishManifest ∧ Instr.wf (.publishManifest manTwo.body) = true ∧
    requestKindOf (.publishSegment segList) = some .publishSegment ∧ Instr.wf (.publishSegment segList) = true := by
  unfold State.portFree; decide +kernel

theorem test_meets_PortTakesNothingInDipOrDormant : (inPower .dipHold).supply.power = .dipHold ∧
    (inPower .dormant).supply.power = .dormant ∧ (inPower .unpowered).supply.power = .unpowered ∧
    (requestKindOf .readStatus).isSome = true := by decide +kernel

/-- An unread response of eight bytes. -/
def someResponse : Response := { kind := 3, outcome := 1, overrun := false, body := [7] }

/-- In RUN with that response unread. -/
def answered : State := { inRun with port := { inRun.port with response := some someResponse } }

/-- A default start record waits for its erase. -/
def erasing (write : Option Nat) (s : State) : State :=
  { s with supply := { s.supply with power := .commissioning, erase := some { record := StartRecord.default, write := write } } }

/-- Windows of every kind, shorter than the response and not (R196). -/
theorem test_meets_RequestWhileBusyIsOverrun : answered.takesRequests = true ∧ answered.port.response = some someResponse ∧
    carriesRequest .readLag 5 ∧ carriesRequest (.checkMedium 5) 13 ∧ carriesRequest (.requestBadFrame [0xFF, 9, 0]) 3 ∧
    carriesRequest (.requestBadFrame (List.replicate 8 9)) 8 ∧ carriesRequest (.requestOverrun 7) 7 ∧
    5 < someResponse.bytes.length ∧ someResponse.bytes.length = 8 ∧ answered.port.dropped = none ∧
    ({ answered.port with dropped := some 8 } : Port).dropped = some 8 ∧
    ({ inRun with port := { inRun.port with inProgress := some .manifest } } : State).takesRequests = true ∧
    ({ inRun with port := { inRun.port with inProgress := some .manifest } } : State).port.response = none := by
  refine ⟨by decide +kernel, rfl, .inl (by decide), .inl (by decide), .inr (.inl ⟨_, 9, rfl, by decide +kernel, rfl⟩),
    .inr (.inl ⟨_, 9, rfl, by decide +kernel, rfl⟩), .inr (.inr rfl), by decide, by decide, rfl, rfl, by decide +kernel, rfl⟩

/-- A CHECK-MEDIUM or a bad frame over an unread response of eight bytes reads it and is an overrun; a READ-LAG's five bytes leave it. -/
theorem test_overrun_reads :
    ([.checkMedium 5, .requestBadFrame (List.replicate 8 9), .readLag, .requestBadFrame [0xFF, 9, 0]] : List Instr).map (fun c =>
      match exec c answered with
      | .next t => some (t.port.response.isSome, t.port.overrun, t.port.counters.overruns)
      | _ => none) = [some (false, true, 1), some (false, true, 1), some (true, true, 1), some (true, true, 1)] := by decide +kernel

theorem test_meets_StatusAnswered : inRun.takesRequests = true ∧ inRun.portFree ∧ State.reset.takesRequests = true ∧
    State.reset.portFree ∧ (inPower .closing).takesRequests = true := by unfold State.portFree; decide +kernel

theorem test_meets_CountersAndNoticesAnswered : inRun.serving ∧ inRun.portFree ∧ (inPower .closing).serving := by
  unfold State.serving State.portFree; decide +kernel

theorem test_meets_NoticeEnablesReplaced : inRun.serving ∧ inRun.portFree ∧ (2047#16).toNat < 2048 ∧ 2048 ≤ (2048#16).toNat := by
  unfold State.serving State.portFree; decide +kernel

theorem test_meets_ReadLagTakesOldestEntry : inRun.lag = [] ∧ inRun.serving ∧ inRun.portFree ∧
    ({ inRun with lag := [{ station := 2, domain := .block, gen := 1 }] } : State).lag =
      { station := 2, domain := .block, gen := 1 } :: [] := by
  unfold State.serving State.portFree; decide +kernel

/-- In RUN with BLOCK generation `n` held and visible. -/
def holding (n : Gen) : State :=
  { inRun with vis := { inRun.vis with block := { held := n, visible := n, pending := [], timer := none } } }

/-- A slot that collects generation 2 of BLOCK. -/
def slotTwo : Slot :=
  { Slot.empty with state := .collecting, domain := .block, gen := 2, manifest := some manTwo, entered := true, admitted := true }

/-- In RUN with generation 1 held and slot 0 as given. -/
def slotted (x : Slot) : State := (holding 1).setSlot 0 x

/-- Room for no further BLOCK slot. -/
def crowded : State :=
  (((holding 1).setSlot 0 { slotTwo with gen := 3 }).setSlot 1 { slotTwo with gen := 4 }).setSlot 2 { slotTwo with gen := 5 }

theorem test_meets_PublishedManifestJudged : (holding 1).running = true ∧ (holding 1).portFree ∧ (holding 1).rests ∧
    (List.replicate 12 (0 : Byte)).length = 12 ∧ parseManifest (List.replicate 12 0) = none ∧ manTwo.body.length = 12 ∧
    parseManifest manTwo.body = some manTwo ∧ manTwo.digest ∉ (holding 1).backup.barred ∧
    ((holding 1).domain manTwo.domain).held < manTwo.gen ∧ manTwo.gen = ((holding 1).domain manTwo.domain).held + 1 ∧
    manTwo.gen ≤ ((holding 2).domain manTwo.domain).held ∧ (holding 2).rests ∧ manTwo.gen ≠ ((holding 0).domain manTwo.domain).held + 1 ∧
    (holding 0).rests := by
  unfold State.portFree State.rests; decide +kernel

theorem test_meets_PublishedManifestJudged_slots : (slotted slotTwo).slotHolding .block 2 = some 0 ∧
    ((slotted slotTwo).slot 0).manifest = some manTwo ∧ (slotted slotTwo).rests ∧
    crowded.slotHolding .block 2 = none ∧ crowded.hasRoom .block = false ∧ crowded.rests ∧
    (holding 1).slotHolding .block 2 = none ∧ (holding 1).hasRoom .block = true ∧ ((holding 1).slot 0).state = .empty ∧
    ({ holding 1 with backup := { (holding 1).backup with barred := [manTwo.digest] } } : State).rests := by
  unfold State.rests; decide +kernel

/-- A slot that wants the manifest of generation 2 of BLOCK. -/
def wantedTwo : Slot := { slotTwo with state := .manifestWanted, manifest := none, entered := false, admitted := false }

/-- In RUN with such a slot, and a peer's manifest for it being written. -/
def wantedWriting : State :=
  { slotted wantedTwo with pool := { (slotted wantedTwo).pool with writing := .index (.enter 0 manTwo .peer false) } }

theorem test_meets_PublishedManifestJudged_wanted : (slotted wantedTwo).slotHolding .block 2 = some 0 ∧
    ((slotted wantedTwo).slot 0).manifest = none ∧ (slotted wantedTwo).rests ∧ (slotted wantedTwo).enterOutstanding 0 = false ∧
    wantedWriting.slotHolding .block 2 = some 0 ∧ wantedWriting.rests ∧ wantedWriting.enterOutstanding 0 = true ∧
    wantedWriting.running = true ∧ wantedWriting.portFree := by
  unfold State.rests State.portFree; decide +kernel

/-- The presence of segment 0. -/
def presentZero : Presence := { index := 0, crc := segCrc segList, bank := 5, ops := 1, source := .peer 2 }

/-- An offer of the segment of generation 2. -/
def offerTwo : Offer := { domain := .block, gen := 2, index := 0, bytes := segList, source := .peer 2, publish := false }

theorem test_meets_PublishedSegmentJudged : (slotted slotTwo).running = true ∧ (slotted slotTwo).portFree ∧ (slotted slotTwo).rests ∧
    16 ≤ segList.length ∧ segList.length ≤ 256 ∧ segDomain (List.replicate 16 0) = none ∧ segDomain segList = some .block ∧
    segCrcGood segList = true ∧ segOpsGood segList = true ∧ (slotted slotTwo).slotHolding .block (segGen segList) = some 0 ∧
    ((slotted slotTwo).slot 0).state = .collecting ∧ segIndex segList < ((slotted slotTwo).slot 0).count ∧
    ((slotted slotTwo).slot 0).presence = [] ∧ (slotted slotTwo).queueHasPlace = true ∧ (slotted slotTwo).pool.held = false ∧
    ({ slotted slotTwo with pool := { (slotted slotTwo).pool with queue := List.replicate 4 offerTwo } } : State).queueHasPlace = false ∧
    (∃ p ∈ ((slotted { slotTwo with presence := [presentZero], digesting := true }).slot 0).presence, p.index = segIndex segList) ∧
    (slotted { slotTwo with presence := [presentZero], digesting := true }).rests := by
  unfold State.portFree State.rests; decide +kernel

/-- In PARKED with the parked window at its end. -/
def parkedOut : State := { inRun with supply := { inRun.supply with power := .parked, ignition := false, parked := .running 0 } }

theorem test_meets_ClosingEntered : inRun.supply.power = .run ∧ inRun.portFree ∧ parkedOut.supply.power = .parked ∧ parkedOut.portFree ∧
    (∃ t, parkedOut.supply.parked = .running t ∧ t ≤ parkedOut.clock) ∧ inRun.supply.ignition = true ∧
    ({ inRun with supply := { inRun.supply with config := { inRun.supply.config with parkedWindow := 0 } } } : State).supply.config.parkedWindow
      = 0 := by
  refine ⟨by decide +kernel, by unfold State.portFree; decide +kernel, by decide +kernel, by unfold State.portFree; decide +kernel,
    ⟨0, by decide +kernel, by decide +kernel⟩, by decide +kernel, by decide +kernel⟩

theorem test_meets_CommissionJudged : (inPower .commissioning).portFree ∧ (inPower .commissioning).supply.erase = none ∧
    Instr.wf (.commission (toBytes 2 511 ++ StartRecord.default.body)) = true ∧
    (commissionRecord (toBytes 2 511 ++ StartRecord.default.body)).ok = true ∧ Instr.wf (.commission (List.replicate 25 0)) = true ∧
    (commissionRecord (List.replicate 25 0)).ok = false ∧ (erasing none inRun).supply.erase ≠ none ∧ (erasing none inRun).portFree := by
  unfold State.portFree; decide +kernel

theorem test_meets_ResponseReadFreesBuffer : answered.takesRequests = true ∧ answered.port.response = some someResponse ∧
    7 < someResponse.bytes.length ∧ someResponse.bytes.length ≤ 8 ∧ answered.port.dropped = none ∧ answered.supply.erase = none ∧
    (erasing none answered).takesRequests = true ∧
    (erasing none answered).supply.erase = some { record := StartRecord.default, write := none } ∧
    ({ answered with port := { answered.port with dropped := some 8 } } : State).port.dropped = some 8 := by decide +kernel

/-- The window of a READ-STATUS request between fill bytes. -/
def statusWindow : List Byte := [0xFF, 3, 0, 0] ++ toBytes 2 (crc16 [3, 0, 0]).toNat ++ [0xFF]

theorem test_meets_ResponseReadFreesBuffer_lines : inRun.ready = false ∧ answered.ready = true ∧
    (inPower .dipHold).supply.power = .dipHold ∧ answered.takesRequests = true ∧ 8 ≤ someResponse.bytes.length ∧
    (∀ x ∈ [0xFF#8, 0xFF#8], x = 0xFF#8) ∧ readWindow statusWindow = .request 3 [] ∧ inRun.portFree := by
  unfold State.portFree; decide +kernel

/-- What a window is to the port, and what SDO carries in it. -/
theorem test_window_and_sdo : inRun.windowCommand statusWindow = .readStatus ∧ answered.windowCommand statusWindow = .requestOverrun 7 ∧
    inRun.windowCommand [0xFF, 9, 0] = .requestBadFrame [0xFF, 9, 0] ∧ inRun.sdo 2 = [0xFF, 0xFF] ∧
    answered.sdo 2 = [3, 1] ∧ (answered.sdo 9).drop 8 = [0xFF] := by decide +kernel

/-! Frames. -/

/-- The body of a MANIFEST-ASK for BLOCK generation 2. -/
def askTwo : List Byte := 1 :: toBytes 4 2

/-- An ANNOUNCE body of a station in RUN that holds nothing. -/
def announceBody : List Byte := 1 :: announceBlockBytes Announced.none 0 ++ announceBlockBytes Announced.none 0

theorem test_meets_FramesFiltered : frameOf (.manifestAskReceived (fromTwo 5) askTwo) = some (.manifestAsk, fromTwo 5, askTwo) ∧
    inRun.running = true ∧ (inPower .closing).running = false ∧ ¬ frameFormed .manifestAsk (fromTwo 6) askTwo ∧
    frameFormed .manifestAsk (fromTwo 5) askTwo ∧ ¬ inRun.frameOurs { fromTwo 5 with fleet := 2 } ∧
    ¬ inRun.frameOurs { fromTwo 5 with sender := 1 } ∧ inRun.frameOurs (fromTwo 5) := by
  unfold frameFormed State.frameOurs; decide +kernel

theorem test_meets_FramesFiltered_drops : (List.replicate 15 (0 : Byte)).length < 16 ∧
    frameKindOfCode (byteAt (List.replicate 16 0) 4) = none ∧
    frameKindOfCode (byteAt (frameBytes 2 .manifestAsk 2 1 1 false 1 askTwo) 4) = some .manifestAsk ∧
    16 ≤ (frameBytes 2 .manifestAsk 2 1 1 false 1 askTwo).length ∧
    frameFormed .manifestAsk (headerOf (frameBytes 2 .manifestAsk 2 1 1 false 1 askTwo))
      ((frameBytes 2 .manifestAsk 2 1 1 false 1 askTwo).drop 16) ∧
    ¬ inRun.frameOurs (headerOf (frameBytes 2 .manifestAsk 2 1 1 false 1 askTwo)) ∧
    ¬ frameFormed .manifestAsk (headerOf (frameBytes 1 .manifestAsk 2 1 1 false 65535 askTwo))
      ((frameBytes 1 .manifestAsk 2 1 1 false 65535 askTwo).drop 16) := by
  unfold frameFormed State.frameOurs; decide +kernel

theorem test_meets_FramesLeaveStore : (frameOf (.manifestAskReceived (fromTwo 5) askTwo)).isSome = true := by decide

theorem test_meets_HeaderRefreshesRecord : knowing.frameTaken .manifestAsk (fromTwo 5) askTwo ∧
    knowing.peer (fromTwo 5).sender.toNat = some peerTwo ∧
    (({ fromTwo 5 with sequence := 256 } : LinkHeader).sequence - peerTwo.sequence - 1).toNat = 255 ∧
    256 ≤ (({ fromTwo 5 with sequence := 257 } : LinkHeader).sequence - peerTwo.sequence - 1).toNat ∧
    ({ peerTwo with received := 15 } : Peer).received + 1 = 16 := by
  unfold State.frameTaken frameFormed State.frameOurs; decide +kernel

/-- A full peer table of known cohort members. -/
def fullTable : State := { inRun with peers := (List.range 48).map (fun n => { peerTwo with station := n + 3 }) }

theorem test_meets_NewStationEntersTable : inRun.frameTaken .manifestAsk (fromTwo 5) askTwo ∧
    inRun.peer (fromTwo 5).sender.toNat = none ∧ inRun.peers.length < 48 ∧ fullTable.frameTaken .manifestAsk (fromTwo 5) askTwo ∧
    fullTable.peer (fromTwo 5).sender.toNat = none ∧ 48 ≤ fullTable.peers.length ∧
    (∀ p ∈ fullTable.peers, ¬ (p.state = .stale ∧ p.asks = 0) ∧ ¬ (p.state = .known ∧ p.cohort = false ∧ p.asks = 0)) := by
  unfold State.frameTaken frameFormed State.frameOurs; decide +kernel

/-- The full table with its first record changed. -/
def firstIs (p : Peer) : State := { inRun with peers := p :: fullTable.peers.tail }

theorem test_meets_NewStationEntersTable_kinds : inRun.frameTaken .announce { fromTwo 37 with addressee := 0 } announceBody ∧
    (parseAnnounce announceBody).isSome = true ∧ parseAnnounce (List.replicate 37 0) = none := by
  unfold State.frameTaken frameFormed State.frameOurs; decide +kernel

theorem test_meets_NewStationEntersTable_bodies : inRun.frameTaken .manifest (fromTwo 12) manTwo.body ∧ inRun.frameTaken .segment (fromTwo 22) segList ∧
    inRun.frameTaken .decline (fromTwo 9) (List.replicate 9 0) ∧
    (firstIs { peerTwo with station := 3, state := .stale }).frameTaken .manifestAsk (fromTwo 5) askTwo ∧
    48 ≤ (firstIs { peerTwo with station := 3, state := .stale }).peers.length ∧
    (firstIs { peerTwo with station := 3, state := .stale }).peer 2 = none := by
  unfold State.frameTaken frameFormed State.frameOurs; decide +kernel

theorem test_meets_NewStationEntersTable_displaced :
    (firstIs { peerTwo with station := 3, state := .stale }).displaced { peerTwo with station := 3, state := .stale } ∧
    (firstIs { peerTwo with station := 3, cohort := false }).displaced { peerTwo with station := 3, cohort := false } := by
  unfold State.displaced Peer.goesBefore; decide +kernel

theorem test_meets_AnnounceTaken : knowing.frameTaken .announce { fromTwo 37 with addressee := 0 } announceBody ∧
    knowing.peer 2 = some peerTwo ∧ (fromTwo 37).vehicle.toNat = knowing.supply.config.vehicle ∧
    parseAnnounce announceBody = some (false, { block := Announced.none, product := Announced.none }) ∧
    knowing.frameTaken .announce { fromTwo 37 with addressee := 0 } (List.replicate 37 0) ∧
    parseAnnounce (List.replicate 37 0) = none := by
  unfold State.frameTaken frameFormed State.frameOurs; decide +kernel

/-- A frame waiting in the CONTROL class. -/
def someDecline : OutFrame := { kind := .decline, addressee := 2, body := [1, 0, 0, 0, 2, 1, 0, 0, 2], ask := none }

theorem test_meets_ManifestAskTaken : knowing.frameTaken .manifestAsk (fromTwo 5) askTwo ∧
    knowing.frameTaken .manifestAsk { fromTwo 5 with addressee := 3 } askTwo ∧ (3 : Nat) ≠ knowing.supply.config.station ∧
    (fromTwo 5).addressee.toNat = knowing.supply.config.station ∧ domainOfCode (byteAt askTwo 0) = some .block ∧
    (pooled knowing).servable .block (field askTwo 1 4) = true ∧ knowing.servable .block (field askTwo 1 4) = false ∧
    knowing.link.control.length < 8 ∧ 8 ≤ (List.replicate 8 someDecline).length := by
  unfold State.frameTaken frameFormed State.frameOurs; decide +kernel

theorem test_meets_ReadsForPeersComplete : (pooled inRun).entry .block 2 = some entryTwo ∧ entryTwo.servable = true ∧
    (pooled inRun).link.control.length < 8 ∧
    (pooled inRun).cellOf entryTwo 0 = some (0, { stamp := 1, index := 0, bytes := segList }) ∧ segCrcGood segList = true := by
  decide +kernel

/-- A state with segment 0 of generation 2 to serve, and its read as given. -/
def serving (r : Option ServeRead) (s : State) : State :=
  { s with fetch := { s.fetch with serve := [{ peer := 2, domain := .block, gen := 2, next := 0, remaining := 1 }], reading := r } }

theorem test_meets_ReadsForPeersComplete_serve : (serving (some (.taken 1 segList)) inRun).fetch.reading = some (.taken 1 segList) ∧
    (serving (some .evicted) inRun).fetch.reading = some .evicted ∧ (serving (some .evicted) inRun).link.control.length < 8 ∧
    (serving none (pooled inRun)).running = true ∧ (serving none (pooled inRun)).link.data = none ∧
    (serving none (pooled inRun)).entry .block 2 = some entryTwo ∧
    (serving none (pooled inRun)).cellOf entryTwo 0 = some (0, { stamp := 1, index := 0, bytes := segList }) ∧
    (serving none inRun).servable .block 2 = false := by decide +kernel

theorem test_meets_ManifestTaken : (slotted { slotTwo with state := .manifestWanted, manifest := none }).frameTaken .manifest (fromTwo 12)
      manTwo.body ∧
    (fromTwo 12).addressee.toNat = (slotted slotTwo).supply.config.station ∧ parseManifest manTwo.body = some manTwo ∧
    ((slotted slotTwo).domain manTwo.domain).held < manTwo.gen ∧ manTwo.digest ∉ (slotted slotTwo).backup.barred ∧
    (slotted { slotTwo with state := .manifestWanted, manifest := none }).slotHolding .block 2 = some 0 ∧
    ((slotted { slotTwo with state := .manifestWanted, manifest := none }).slot 0).manifest = none ∧
    (slotted slotTwo).slotHolding .block 2 = some 0 ∧ ((slotted slotTwo).slot 0).manifest = some manTwo ∧
    ({ manTwo with digest := 0 } : Manifest).digest ≠ manTwo.digest ∧ (slotted slotTwo).fetch.asks = [] ∧
    (∀ j : SlotId, ((slotted slotTwo).slot j).state ≠ .manifestWanted) ∧ ((slotted wantedTwo).slot 0).asks < 4 := by
  unfold State.frameTaken frameFormed State.frameOurs; decide +kernel

/-- The body of a SEGMENT-ASK for BLOCK generation 2. -/
def segAsk (first count : Nat) : List Byte := 1 :: toBytes 4 2 ++ toBytes 2 first ++ toBytes 1 count

theorem test_meets_SegmentAskTaken : (pooled knowing).frameTaken .segmentAsk (fromTwo 8) (segAsk 0 1) ∧
    domainOfCode (byteAt (segAsk 0 1) 0) = some .block ∧ field (segAsk 0 1) 1 4 = 2 ∧ field (segAsk 0 1) 5 2 = 0 ∧
    field (segAsk 0 1) 7 1 = 1 ∧ field (segAsk 0 9) 7 1 = 9 ∧ field (segAsk 0 0) 7 1 = 0 ∧
    (pooled knowing).entry .block 2 = some entryTwo ∧ entryTwo.manifest.count < 0 + 2 ∧ 0 + 1 ≤ entryTwo.manifest.count ∧
    (pooled knowing).fetch.serve = [] ∧
    (List.replicate 16 ({ peer := 3, domain := .block, gen := 2, next := 0, remaining := 1 } : ServeEntry)).length = 16 ∧
    (pooled knowing).link.control.length < 8 ∧ knowing.frameTaken .segmentAsk (fromTwo 8) (segAsk 7 8) ∧
    knowing.servable .block 2 = false ∧ knowing.link.control.length < 8 ∧ field (segAsk 7 8) 7 1 = 8 ∧
    8 ≤ (List.replicate 8 ({ kind := .decline, addressee := 2, body := [], ask := none } : OutFrame)).length := by
  unfold State.frameTaken frameFormed State.frameOurs; decide +kernel

/-- A segment with a failing CRC. -/
def segBad : List Byte := segList.dropLast ++ [~~~(segList.getLastD 0)]

theorem test_meets_SegmentTaken : ({ slotted slotTwo with peers := [peerTwo] } : State).frameTaken .segment (fromTwo 22) segList ∧
    segDomain segList = some .block ∧ (fromTwo 22).sequence = peerTwo.sequence + 1 ∧ peerTwo.received < 15 ∧ peerTwo.loss ≤ 15 ∧
    segDomain segBad = some .block ∧ segCrcGood segBad = false ∧ segBad.length = 22 ∧ segCrcGood segList = true ∧
    segOpsGood segList = true ∧ (slotted slotTwo).slotHolding .block (segGen segList) = some 0 ∧
    segIndex segList < ((slotted slotTwo).slot 0).count ∧ (slotted slotTwo).queueHasPlace = true ∧ (slotted slotTwo).pool.held = false := by
  unfold State.frameTaken frameFormed State.frameOurs; decide +kernel

/-- A SENT segment ask to station 2, due at once. -/
def askSent : Ask :=
  { id := 0, kind := .segment, slot := 0, domain := .block, gen := 2, peer := 2, first := 0, count := 1, covered := [0], sent := true,
    queued := 0, timeout := some 0 }

/-- In RUN with that ask outstanding. -/
def asking : State :=
  { slotted slotTwo with peers := [{ peerTwo with asks := 1, asked := some 0 }], fetch := { Fetch.initial with asks := [askSent], nextAsk := 1 } }

/-- A DECLINE of that ask. -/
def declineBody (r : DeclineReason) : DeclineBody := { domain := .block, gen := 2, kind := .segment, index := 0, reason := r }

theorem test_meets_DeclineTaken : asking.frameTaken .decline (fromTwo 9) (declineBody .busy).bytes ∧
    parseDecline (declineBody .busy).bytes = some (declineBody .busy) ∧ parseDecline (declineBody .evicted).bytes = some (declineBody .evicted) ∧
    asking.peer 2 = some { peerTwo with asks := 1, asked := some 0 } ∧
    asking.fetch.asks.find? (fun a => a.matchesDecline 2 (declineBody .busy)) = some askSent ∧
    (∀ a ∈ asking.fetch.asks, a.matchesDecline 2 { declineBody .busy with index := 1 } = false) := by
  unfold State.frameTaken frameFormed State.frameOurs; decide +kernel

/-! The transmitter and the link timers. -/

/-- A chosen frame in a phase. -/
def chosenIn (p : AccessPhase) (n : Nat) : Chosen :=
  { cls := .ask, frame := { kind := .segmentAsk, addressee := 2, body := segAsk 0 1, ask := some 0 }, phase := p, backoff := n, slotFrom := 0,
    line := [] }

/-- In RUN at a rate of 20 a second, 1,200 microseconds after the start, with a frame chosen. -/
def sendingIn (p : AccessPhase) (n : Nat) : State :=
  { asking with clock := 1200, link := { Link.silent with asr := 20, chosen := some (chosenIn p n) } }

/-- The same with `n` ends of transmissions that a hold cut off still to come. -/
def cutOffAt (n : Nat) : State := { sendingIn .sending 0 with link := { (sendingIn .sending 0).link with cutOff := n } }

theorem test_meets_TransmissionEndMakesAskSent : (sendingIn .sending 0).link.chosen = some (chosenIn .sending 0) ∧
    (chosenIn .sending 0).phase = .sending ∧ (chosenIn .sending 0).frame.ask = some 0 ∧ (sendingIn .sending 0).link.cutOff = 0 ∧
    0 < (cutOffAt 1).link.cutOff := by decide +kernel

theorem test_meets_PacedEndsRaiseRate : (sendingIn .sending 0).link.chosen = some (chosenIn .sending 0) ∧
    (chosenIn .sending 0).phase = .sending ∧ (sendingIn .sending 0).link.cutOff = 0 ∧ (chosenIn .sending 0).cls ≠ .announce ∧ (sendingIn .sending 0).link.increase + 1 ≠ 16 ∧
    ({ Link.silent with increase := 15 } : Link).increase + 1 = 16 := by decide +kernel

theorem test_meets_ChannelAccessRuns : (sendingIn .defer 0).link.chosen = some (chosenIn .defer 0) ∧
    (sendingIn .defer 2).link.chosen = some (chosenIn .defer 2) ∧ (sendingIn .defer 0).pins.csense = false ∧
    (sendingIn .defer 0).pins.clearFrom + 3 * Config.slotTime (sendingIn .defer 0).link.rateCode ≤ (sendingIn .defer 0).clock ∧
    (sendingIn .backoff 1).link.chosen = some (chosenIn .backoff 1) ∧ (sendingIn .backoff 2).link.chosen = some (chosenIn .backoff 2) ∧
    (chosenIn .backoff 2).slotFrom + Config.slotTime (sendingIn .backoff 2).link.rateCode ≤ (sendingIn .backoff 2).clock := by decide +kernel

theorem test_meets_CreditAndDecreaseHoldRun :
    1000000 ≤ (({ inRun with clock := 50000 } : State).clock - 0) * ({ Link.silent with asr := 20, creditFrom := some 0 } : Link).asr ∧
    ({ Link.silent with decreaseHold := some 0 } : Link).decreaseHold = some 0 ∧ 0 ≤ inRun.clock := by decide +kernel

theorem test_meets_CongestionMarkHeard : frameOf (.manifestAskReceived { fromTwo 5 with flags := 1 } askTwo) =
      some (.manifestAsk, { fromTwo 5 with flags := 1 }, askTwo) ∧ inRun.running = true ∧
    frameFormed .manifestAsk { fromTwo 5 with flags := 1 } askTwo ∧ inRun.frameOurs { fromTwo 5 with flags := 1 } ∧
    (1 : Byte).getLsbD 0 = true ∧ inRun.link.decreaseHold = none := by
  unfold frameFormed State.frameOurs; decide +kernel

theorem test_meets_DecayHalvesRate : ({ Link.silent with decay := some 0 } : Link).decay = some 0 ∧ 0 ≤ inRun.clock ∧ inRun.running = true ∧
    frameFormed .announce { fromTwo 37 with addressee := 0 } announceBody ∧ inRun.frameOurs { fromTwo 37 with addressee := 0 } := by
  unfold frameFormed State.frameOurs; decide +kernel

theorem test_meets_AnnouncementFormed : ({ Link.silent with announceAt := some 0 } : Link).announceAt = some 0 ∧ 0 ≤ inRun.clock ∧
    inRun.link.chosen = none := by decide +kernel

/-! Peers, asks, assembly and the pool. -/

/-- Sixty seconds after its station was heard. -/
def later : State := { knowing with clock := 60000000 }

theorem test_meets_PeerRecordsAge : later.running = true ∧ later.peer (2#16).toNat = some peerTwo ∧ peerTwo.state = .known ∧
    peerTwo.heard + 8000000 ≤ later.clock ∧ peerTwo.heard + 60000000 ≤ later.clock ∧ peerTwo.asks = 0 ∧
    ({ later with peers := [{ peerTwo with state := .stale, asks := 1 }] } : State).peer 2 = some { peerTwo with state := .stale, asks := 1 } ∧
    ({ later with peers := [{ peerTwo with unresponsive := some 5, busy := some 5 }] } : State).peer 2 =
      some { peerTwo with unresponsive := some 5, busy := some 5 } := by decide +kernel

theorem test_meets_AskTimesOut : asking.running = true ∧ askSent ∈ asking.fetch.asks ∧ askSent.sent = true ∧ askSent.timeout = some 0 ∧
    0 ≤ asking.clock ∧ (∀ b ∈ asking.fetch.asks, b.sent = true → b = askSent) ∧ inRun.fetch.asks = [] ∧
    asking.peer askSent.peer = some { peerTwo with asks := 1, asked := some 0 } ∧ peerTwo.removalDue = false ∧ peerTwo.timeouts < 2 ∧
    ({ peerTwo with timeouts := 2 } : Peer).unresponsive = none := by decide +kernel

/-- The slot with its one segment, its digest computation running. -/
def digestingTwo : Slot := { slotTwo with presence := [presentZero], digesting := true }

theorem test_meets_DigestJudged : ((slotted digestingTwo).slot 0).manifest = some manTwo ∧ manTwo.kind = .delta ∧
    ((slotted digestingTwo).slot 0).digesting = true ∧ digestOf manTwo (((slotted digestingTwo).slot 0).presence.map (·.crc)) = manTwo.digest ∧
    digestOf { manTwo with digest := 0 } ((({ digestingTwo with manifest := some { manTwo with digest := 0 } } : Slot).presence).map (·.crc)) ≠
      ({ manTwo with digest := 0 } : Manifest).digest ∧ digestingTwo.failures < 2 ∧ digestingTwo.origin = .peer ∧
    2 ≤ ({ digestingTwo with failures := 2 } : Slot).failures := by decide +kernel

/-- A BASELINE manifest of generation 3 with the same segment, which a later slot has while an earlier one collects. -/
def baseThree : Manifest :=
  let m : Manifest := { domain := .block, gen := 3, kind := .baseline, count := 1, digest := 0 }
  { m with digest := digestOf m [segCrc segList] }

/-- Slot 0 collects generation 2, and slot 1 has its digest computation of the BASELINE running. -/
def overtaking : State := (slotted slotTwo).setSlot 1 { digestingTwo with gen := 3, manifest := some baseThree }

theorem test_meets_DigestJudged_baseline : (overtaking.slot 1).manifest = some baseThree ∧ baseThree.kind = .baseline ∧
    (overtaking.slot 1).digesting = true ∧ digestOf baseThree ((overtaking.slot 1).presence.map (·.crc)) = baseThree.digest ∧
    overtaking.overtakenBy 1 0 ∧ ¬ overtaking.overtakenBy 1 2 ∧ overtaking.slotAsks 0 = [] ∧ asking.slotAsks 0 ≠ [] ∧
    ({ overtaking with port := { overtaking.port with inProgress := some (.segmentDigest 1) } } : State).port.inProgress =
      some (.segmentDigest 1) := by
  unfold State.overtakenBy; decide +kernel

theorem test_meets_SlotAndQueueEventsRun : ((slotted { slotTwo with state := .draining }).slot 0).state = .draining ∧
    (slotted { slotTwo with state := .draining }).slotAsks 0 = [] ∧
    (0 : SlotId) ∈ ({ slotted { slotTwo with state := .admitWait } with pool := { inRun.pool with grants := [0] } } : State).pool.grants ∧
    (slotted slotTwo).entry .block 2 = none ∧ lowestUnused 0 (pooled inRun).store.index.used < 65536 ∧
    ({ inRun with port := { inRun.port with inProgress := some (.segmentHeld offerTwo) } } : State).queueHasPlace = true ∧
    inRun.pool.held = false := by decide +kernel

/-- What the presence set of generation 2 holds of its segment. -/
def segmentZero : Presence := presenceOf 0 segList (.peer 2)

/-- Generation 2 verified in the pool, its slot, as given, with a grant on its way. -/
def adopted (x : Slot) : State :=
  let s := pooled (slotted x)
  { s with pool := { s.pool with grants := [0], pins := [{ holder := .slot 0, domain := .block, gen := 2 }] } }
def adoptedWaits : State := adopted { slotTwo with state := .admitWait, presence := [segmentZero] }

theorem test_meets_SlotAndQueueEventsRun_lost : (0 : SlotId) ∈ adoptedWaits.pool.grants ∧ (0 : SlotId) ∉ adoptedWaits.pool.waitList ∧
    adoptedWaits.entry .block 2 = some entryTwo ∧
    entryTwo.verified = true ∧ adoptedWaits.slotHolding .block 2 = some 0 ∧
    (adoptedWaits.slot 0).presence.find? (fun q => q.index == 0) = some segmentZero ∧ (adoptedWaits.slot 0).state = .admitWait ∧
    ((adoptedWaits.deliver (.indexLost .block 2 0)).slot 0).lost ≠ [] := by decide +kernel

/-- A grant between the failing read and its index write leaves the slot VERIFIED with the index lost, and it does not begin its apply; one
after that write has it collect the index (R86, R93, R96). -/
theorem test_lost_waiting :
    let s := adoptedWaits.deliver (.indexLost .block 2 0)
    ((s.slotAdmitted 0).slot 0).state = .verified ∧ ((s.slotAdmitted 0).slot 0).lost = [segmentZero] ∧
    (s.slotAdmitted 0).nextApply .block = none ∧ (((s.lostWrite .block 2 1 0).slotAdmitted 0).slot 0).state = .collecting ∧
    (((s.lostWrite .block 2 1 0).slotAdmitted 0).slot 0).lost = [] := by decide +kernel

/-- The entry of generation 2 before its segment is there. -/
def emptyTwo : ManifestEntry := { entryTwo with verified := false, present := [] }

/-- A state whose pool has that entry and a write in progress. -/
def writing (w : PoolWrite) (e : ManifestEntry) : State :=
  { slotted slotTwo with
    pool := { inRun.pool with writing := w }
    store := { inRun.store with index := { entries := [e], used := [], stampSource := 1 } } }

theorem test_meets_SegmentWriteCommits : (writing (.segment offerTwo false) emptyTwo).pool.writing = .segment offerTwo false ∧
    (writing (.segment offerTwo false) emptyTwo).entry offerTwo.domain offerTwo.gen = some emptyTwo ∧ emptyTwo.verified = false ∧
    offerTwo.index ∉ emptyTwo.present ∧ lowestUnused 0 (writing (.segment offerTwo false) emptyTwo).store.index.used < 65536 ∧
    (writing (.segment offerTwo false) entryTwo).entry offerTwo.domain offerTwo.gen = some entryTwo ∧ entryTwo.verified = true := by decide +kernel

/-- The manifest of generation 2 with two segments. -/
def manTwoOfTwo : Manifest := { manTwo with count := 2 }

theorem test_meets_SegmentWriteCommits_slot :
    (writing (.segment { offerTwo with publish := true } false) emptyTwo).slotHolding .block 2 = some 0 ∧
    ((writing (.segment offerTwo false) emptyTwo).slot 0).entered = true ∧ ((writing (.segment offerTwo false) emptyTwo).slot 0).presence = [] ∧
    ((writing (.segment offerTwo false) emptyTwo).slot 0).state = .collecting ∧
    ((writing (.segment offerTwo false) emptyTwo).slot 0).presence.length + 1 = ((writing (.segment offerTwo false) emptyTwo).slot 0).count ∧
    ((slotted { slotTwo with manifest := some manTwoOfTwo }).slot 0).presence.length + 1 ≠
      ((slotted { slotTwo with manifest := some manTwoOfTwo }).slot 0).count ∧
    (pooled inRun).slotHolding .block 2 = none ∧ (pooled inRun).slotDraining .block 2 = none := by decide +kernel

/-- All places used. -/
def allUsed : List Nat := List.range' 0 65536

theorem lowestUnused_range' : ∀ (n k : Nat), lowestUnused k (List.range' k n) = k + n
  | 0, k => rfl
  | n + 1, k => by
    rw [List.range'_succ]
    unfold lowestUnused
    rw [if_pos rfl, lowestUnused_range' n (k + 1)]
    omega

theorem lowestUnused_zero {l : List Nat} (h : 0 ∉ l) : lowestUnused 0 l = 0 := by
  cases l with
  | nil => rfl
  | cons a l => unfold lowestUnused; rw [if_neg fun e => h (by simp [e])]

/-- A verified entry of BLOCK generation 1 with the segment in place 0, and a verified BASELINE of generation 3. -/
def entryOne : ManifestEntry := { entryTwo with manifest := { manTwo with gen := 1 }, stamp := 2 }
def entryBase : ManifestEntry := { entryTwo with manifest := baseThree, stamp := 3 }

/-- The segment write of generation 2 in progress with no place free, generation `g`'s segment in place 0. -/
def fullPool (es : List ManifestEntry) (stamp : Nat) : State :=
  let s := writing (.segment { offerTwo with publish := true } true) emptyTwo
  { s with store := { s.store with
      index := { entries := emptyTwo :: es, used := allUsed, stampSource := 3 }
      cells := [(0, { stamp := stamp, index := 0, bytes := segList })] } }

theorem fullPool_full (es : List ManifestEntry) (n : Nat) : 65536 ≤ lowestUnused 0 (fullPool es n).store.index.used :=
  Nat.le_of_eq (lowestUnused_range' 65536 0).symm

theorem place_zero_freed (es : List ManifestEntry) (n : Nat) :
    lowestUnused 0 (usedWithout (fullPool es n).store.cells n (fullPool es n).store.index.used) < 65536 := by
  rw [lowestUnused_zero]
  · decide
  · unfold usedWithout
    rw [List.mem_filter]
    rintro ⟨_, h⟩
    simp [fullPool, placeGet] at h

/-- One eviction makes room, of the generation that is not the servable baseline (R67, R72). -/
theorem test_meets_SegmentWriteCommits_evicts : (fullPool [entryOne] 2).evictsInTurn [entryOne] ∧
    (fullPool [entryBase, entryOne] 2).evicts entryOne ∧ (fullPool [entryBase, entryOne] 2).entry .block 2 = some emptyTwo ∧
    ¬ emptyTwo.sameGen entryOne := by
  have pins : ∀ es, (fullPool es 2).pool.pins = [] := fun _ => rfl
  have able : ∀ es x, x ∈ es → x.verified = true → (fullPool es 2).evictable x := fun es x h k =>
    ⟨List.mem_cons_of_mem _ h, k, by rw [pins]; simp⟩
  refine ⟨⟨fullPool_full _ _, ⟨able _ _ (by simp) rfl, fun y hy => ?_⟩, place_zero_freed [entryOne] 2⟩, ⟨able _ _ (by simp) rfl, fun y hy => ?_⟩, ?_, ?_⟩
  · obtain ⟨h, k, _⟩ := hy
    simp only [fullPool, List.mem_cons, List.not_mem_nil, or_false] at h
    rcases h with rfl | rfl
    · exact absurd k (by decide)
    · exact .inl rfl
  · obtain ⟨h, k, _⟩ := hy
    simp only [fullPool, List.mem_cons, List.not_mem_nil, or_false] at h
    rcases h with rfl | rfl | rfl
    · exact absurd k (by decide)
    · refine .inr (.inl ⟨?_, ?_⟩)
      · rintro ⟨⟨x, hx, h1, h2, h3, h4⟩, _⟩
        simp only [fullPool, List.mem_cons, List.not_mem_nil, or_false] at hx
        rcases hx with rfl | rfl | rfl <;> revert h2 h4 <;> decide
      · refine ⟨⟨entryBase, by simp [fullPool], rfl, rfl, by decide, rfl⟩, fun x hx _ h2 _ => ?_⟩
        simp only [fullPool, List.mem_cons, List.not_mem_nil, or_false] at hx
        rcases hx with rfl | rfl | rfl <;> revert h2 <;> decide
    · exact .inl rfl
  · decide +kernel
  · unfold ManifestEntry.sameGen; decide

/-- Slot 1 waits for admission with its segment of generation 4 in place 0. -/
def emptyFour : ManifestEntry := { emptyTwo with manifest := { manTwo with gen := 4 }, stamp := 2, present := [0] }
def holderWaits : State :=
  let s := (fullPool [emptyFour] 2).setSlot 1 { slotTwo with state := .admitWait, gen := 4, admitted := false }
  { s with pool := { s.pool with waitList := [1] } }

/-- No place free and nothing to give up or to empty, in CLOSING, the pool being held. -/
def fullHeld : State :=
  let s := fullPool [] 2
  { s with pool := { s.pool with held := true }, supply := { s.supply with power := .closing } }

/-- Nothing to give up, with a slot that waits for admission and holds places and without one, and the write under a hold (R67, R74). -/
theorem test_meets_SegmentWriteCommits_waits : (∀ x, ¬ holderWaits.evictable x) ∧ holderWaits.newestHolder 1 emptyFour ∧
    ¬ emptyTwo.sameGen emptyFour ∧ (∀ x, ¬ (fullPool [] 2).evictable x) ∧ (∀ i h, ¬ (fullPool [] 2).newestHolder i h) ∧
    (fullPool [] 2).pool.held = false ∧ fullHeld.pool.held = true ∧ fullHeld.supply.power = .closing ∧
    (∀ x, ¬ fullHeld.evictable x) ∧ (∀ i h, ¬ fullHeld.newestHolder i h) ∧ fullHeld.entry .block 2 = some emptyTwo ∧
    fullHeld.pool.writing = .segment { offerTwo with publish := true } true := by
  have none : ∀ (s : State), (∀ y ∈ s.store.index.entries, y.verified = false) → ∀ x, ¬ s.evictable x := by
    rintro s h x ⟨h1, h2, _⟩
    rw [h x h1] at h2; cases h2
  have empty : ∀ (s : State), s.pool.waitList = [] → ∀ i h, ¬ s.newestHolder i h := by
    rintro s hw i h ⟨a, b, e, _⟩
    rw [hw] at e
    simp at e
  exact ⟨none _ (by decide +kernel), ⟨[], [], rfl, by decide +kernel, by decide, by simp⟩, by unfold ManifestEntry.sameGen; decide,
    none _ (by decide +kernel), empty _ rfl, rfl, rfl, rfl, none _ (by decide +kernel), empty _ rfl, rfl, rfl⟩

/-- That pool with the offer of generation 2 at the head of a queue of `n`, no write in progress. -/
def queueFull (es : List ManifestEntry) (n : Nat) (waiting : Bool) : State :=
  let s := fullPool es 2
  { s with pool := { s.pool with writing := .none, queue := List.replicate n offerTwo, waiting := waiting, retryDue := waiting } }

/-- A free place, one to be made by an eviction or by emptying a waiting slot, and none, at a head that waits and at one that does not. -/
theorem test_meets_SlotAndQueueEventsRun_room : inRun.freeFor offerTwo ∧ (queueFull [entryOne] 4 true).roomToMakeFor offerTwo ∧
    (queueFull [] 4 false).noRoomFor offerTwo ∧ (queueFull [] 4 true).pool.queue = offerTwo :: List.replicate 3 offerTwo ∧
    (queueFull [] 4 true).pool.writing = .none ∧ (queueFull [] 4 true).pool.retryDue = true ∧
    (queueFull [] 4 false).pool.waiting = false ∧ (queueFull [] 4 false).pool.indexQueue = [] := by
  have hf : ∀ es n w, 65536 ≤ lowestUnused 0 (queueFull es n w).store.index.used := fun es _ _ => fullPool_full es 2
  have h2 : (queueFull [entryOne] 4 true).entry offerTwo.domain offerTwo.gen = some emptyTwo := by decide +kernel
  have h3 : (queueFull [] 4 false).entry offerTwo.domain offerTwo.gen = some emptyTwo := by decide +kernel
  refine ⟨.inl (by decide +kernel), ⟨emptyTwo, h2, rfl, by decide, hf _ _ _, .inl ⟨[entryOne], ⟨hf _ _ _, ⟨⟨by simp [queueFull, fullPool], rfl, ?_⟩,
      fun y hy => ?_⟩, place_zero_freed [entryOne] 2⟩, by decide, fun x hx => ?_⟩⟩,
    ⟨emptyTwo, h3, rfl, by decide, hf _ _ _, ?_, fun i h hh => ?_⟩, rfl, rfl, rfl, rfl, rfl⟩
  · exact fun p h => nomatch h
  · obtain ⟨h, k, _⟩ := hy
    simp only [queueFull, fullPool, List.mem_cons, List.not_mem_nil, or_false] at h
    rcases h with rfl | rfl
    · exact absurd k (by decide)
    · exact .inl rfl
  · cases List.mem_singleton.mp hx; unfold ManifestEntry.sameGen; decide
  · rintro x ⟨h1, h2, _⟩
    cases List.mem_singleton.mp h1; cases h2
  · obtain ⟨a, b, e, _⟩ := hh
    have e : ([] : List SlotId) = a ++ i :: b := e
    simp at e

/-- With an index write queued the head that waits does not hold it up. -/
theorem test_index_write_passes_waiting :
    let s : State := { pooled inRun with pool := { inRun.pool with queue := [offerTwo], waiting := true, indexQueue := [.remove .block 2] } }
    s.poolReady = true ∧ (s.poolPump 1).pool.writing = .index (.remove .block 2) ∧ (s.poolPump 1).pool.queue = [offerTwo] := by
  decide +kernel

/-- A write that keeps its place counts among the four (log entry 16). -/
theorem test_kept_place : [true, false].map (fun k =>
    let p : Pool := { inRun.pool with queue := List.replicate 3 offerTwo, writing := .segment offerTwo k }
    ({ inRun with pool := p } : State).queueHasPlace) = [false, true] := by decide +kernel

/-- A stored segment of a slot that waits for admission begins no digest computation (R86, R88); a write that finds no room under a hold
is discarded, its PUBLISH-SEGMENT answered DROPPED (log entry 16). -/
theorem test_stale_segment : ((slotted { slotTwo with state := .admitWait }).segmentStored offerTwo).slot 0 =
      { slotTwo with state := .admitWait, presence := [presentZero] } ∧
    (inRun.discardOffer { offerTwo with publish := true }).port.response.map Response.outcome = some OutcomeCode.dropped.code := by
  decide +kernel

/-- A manifest with the pool for a slot's earlier generation is not the slot's (R82). -/
theorem test_enterOutstanding :
    ({ slotted { Slot.empty with state := .manifestWanted, domain := .block, gen := 3 } with
        pool := { inRun.pool with indexQueue := [.enter 0 manTwo .peer false] } } : State).enterOutstanding 0 = false ∧
    ({ slotted { Slot.empty with state := .manifestWanted, domain := .block, gen := 2 } with
        pool := { inRun.pool with indexQueue := [.enter 0 manTwo .peer false] } } : State).enterOutstanding 0 = true := by decide +kernel

/-- A queued index write is made at the entry to DORMANT (R74). -/
theorem test_dormant_makes_queued :
    (({ writing .none emptyTwo with pool := { inRun.pool with indexQueue := [.remove .block 2] } } : State).enterDormant).store.index.entries
      = [] := by decide +kernel

theorem test_meets_IndexWriteCommits : (writing (.index (.verified .block 2)) { entryTwo with verified := false }).entry .block 2 = some { entryTwo with verified := false } ∧
    entryTwo.present.length = entryTwo.manifest.count ∧ (writing (.index (.digestFailed .block 2)) emptyTwo).entry .block 2 = some emptyTwo ∧
    (writing (.index (.remove .block 2)) emptyTwo).entry .block 2 = some emptyTwo ∧ emptyTwo.verified = false := by decide +kernel

/-- The verified entry of generation 2 with a failing segment, pinned by `y`, and the index write `w` in progress. -/
def losing (w : IndexWrite) (y : List PinHolder) (e : ManifestEntry) : State :=
  let s := writing (.index w) e
  { s with
    pool := { s.pool with pins := y.map (fun h => { holder := h, domain := .block, gen := 2 }) }
    store := { s.store with
      index := { entries := [e], used := [0], stampSource := 1 }
      cells := [(0, { stamp := 1, index := 0, bytes := List.replicate 16 0 })] } }

theorem test_meets_IndexWriteCommits_lost :
    (losing (.lost .block 2 1 0) [] entryTwo).entry .block 2 = some entryTwo ∧ entryTwo.stamp = 1 ∧ 0 ∈ entryTwo.present ∧
    ¬ (losing (.lost .block 2 1 0) [] entryTwo).pinned .block 2 ∧ (losing (.lost .block 2 1 0) [.repair 5] entryTwo).pinned .block 2 ∧
    (losing (.lost .block 2 1 0) [.slot 0] entryTwo).slotPinned .block 2 ∧
    (losing (.lost .block 2 1 0) [.slot 0] entryTwo).cellOf entryTwo 0 =
      some (0, { stamp := 1, index := 0, bytes := List.replicate 16 0 }) ∧ entryTwo.stamp ≠ 2 ∧ 1 ∉ entryTwo.present ∧
    (losing (.unpinned .block 2) [] emptyTwo).entry .block 2 = some emptyTwo ∧ emptyTwo.verified = false ∧
    ¬ (losing (.unpinned .block 2) [] emptyTwo).pinned .block 2 ∧ entryTwo.verified = true := by
  unfold State.pinned State.slotPinned
  refine ⟨by decide +kernel, rfl, by decide, (by rintro ⟨p, h, _⟩; cases h), ⟨_, .head _, rfl, rfl⟩, ⟨_, .head _, rfl, rfl, 0, rfl⟩,
    by decide +kernel, by decide, by decide, by decide +kernel, rfl, (by rintro ⟨p, h, _⟩; cases h), rfl⟩

/-- A failing segment leaves the entry as it is until its index write (R66, R73); the write takes the index from a pinned entry, and an
unpinned entry from the table. -/
theorem test_read_failure :
    (((losing (.verified .block 2) [.slot 0] entryTwo).readFailure entryTwo 0).store.index.entries = [entryTwo] ∧
     ((losing (.verified .block 2) [.slot 0] entryTwo).readFailure entryTwo 0).todo.mail = [.indexLost .block 2 0]) ∧
    ((losing (.lost .block 2 1 0) [.repair 5] entryTwo).lostWrite .block 2 1 0).store.index.entries.map
      (fun e => (e.present, e.verified)) = [([], false)] ∧
    ((losing (.lost .block 2 1 0) [] entryTwo).lostWrite .block 2 1 0).store.index.entries = [] := by decide +kernel

/-- In RUN with the manifest of generation 2 being entered for slot 0. -/
def entering : State :=
  { slotted { Slot.empty with state := .manifestWanted, domain := .block, gen := 2 } with
    pool := { inRun.pool with writing := .index (.enter 0 manTwo .peer false) } }

theorem test_meets_IndexWriteCommits_enter : entering.pool.writing = .index (.enter 0 manTwo .peer false) ∧
    (entering.slot 0).state = .manifestWanted ∧ (entering.slot 0).domain = .block ∧ (entering.slot 0).gen = 2 ∧
    (entering.slot 0).presence = [] ∧ 1 ≤ manTwo.count ∧ entering.entry .block 2 = none ∧ entering.store.index.entries.length < 128 ∧
    entering.pool.reserved + manTwo.count ≤ 65536 := by decide +kernel

/-- The same with a table of 128 entries, all alike. -/
def crowdedTable (e : ManifestEntry) : State :=
  { entering with store := { entering.store with index := { entries := List.replicate 128 e, used := [0], stampSource := 3 } } }

theorem test_meets_IndexWriteCommits_full : 128 ≤ (crowdedTable entryOne).store.index.entries.length ∧
    (crowdedTable entryOne).evicts entryOne ∧ (crowdedTable entryOne).entry .block 2 = none ∧
    (∀ x, ¬ (crowdedTable emptyFour).evictable x) ∧ ((crowdedTable emptyFour).slot 0).asks < 4 := by
  refine ⟨by decide +kernel, ⟨⟨List.mem_replicate.mpr ⟨by decide, rfl⟩, rfl, fun p h => nomatch h⟩, fun y hy => .inl (List.mem_replicate.mp hy.1).2⟩,
    by decide +kernel, fun x hx => ?_, by decide +kernel⟩
  have := hx.2.1
  rw [(List.mem_replicate.mp hx.1).2] at this
  cases this

/-- A start whose record has been read. -/
def startRead (ignition : Bool) (window : Nat) : State :=
  { State.reset with supply := { State.reset.supply with
      recordRead := true, ignition := ignition, config := { StartRecord.default with parkedWindow := window } } }

theorem test_meets_RestorationEndsStart : (startRead true 120).supply.power = .starting ∧ (startRead true 120).supply.recordRead = true ∧
    (startRead true 120).pool.restored = false ∧ (startRead true 120).supply.ignition = true ∧
    (startRead false 120).supply.config.parkedWindow ≠ 0 ∧ (startRead false 0).supply.ignition = false ∧
    (startRead false 0).supply.config.parkedWindow = 0 := by decide +kernel

/-- In RUN with BLOCK generation 2 held, 1 visible and the cohort wait over, and a cohort member that holds nothing. -/
def waiting : State :=
  { knowing with vis := { inRun.vis with block := { held := 2, visible := 1, pending := [2], timer := some 0 } } }

theorem test_meets_CohortWaitAdvances : (waiting.domain .block).timer = some 0 ∧ 0 ≤ waiting.clock ∧ (waiting.domain .block).pending = [2] ∧
    peerTwo ∈ waiting.peers ∧ peerTwo.cohort = true ∧ peerTwo.state = .known ∧ (peerTwo.values.get .block).held < 2 ∧
    waiting.lag.length + waiting.peers.length ≤ 14 ∧ inRun.peers = [] := by decide +kernel

/-- In RUN, in a cohort of two, with BLOCK generations 5 and 6 held, 4 visible, and the other member gone STALE at held 5. -/
def staleCohort : State :=
  { knowing with
    supply := { knowing.supply with config := { knowing.supply.config with cohortSize := 2 } }
    vis := { inRun.vis with block := { held := 6, visible := 4, pending := [5, 6], timer := some 90000000 } }
    peers := [{ peerTwo with state := .stale, values := peerTwo.values.set .block { Announced.none with held := 5 } }] }

/-- Its ANNOUNCE of a held generation, as it stands before the advance tests. -/
def announced (g : Gen) : State :=
  (staleCohort.takeHeader (fromTwo 37)).takeAnnounce 2 false (peerTwo.values.set .block { Announced.none with held := g })

/-- One ANNOUNCE with which a STALE member returns with new values makes one visibility advance and one header write (R147, R151). -/
theorem test_one_advance : (announced 6).vis = staleCohort.vis ∧ (announced 6).todo.viewChanged = true ∧
    ((announced 6).viewTests.domain .block).visible = 6 ∧ (announced 6).viewTests.store.domains = staleCohort.store.domains ∧
    ((announced 6).viewTests.todo.mail.countP (fun m => m == .bankRequest 3 .compact)) = 1 := by decide +kernel

/-- A changed view that takes BLOCK past its first entry and leaves PRODUCT. -/
theorem test_meets_CohortWaitAdvances_view : (announced 5).todo.viewChanged = true ∧ ((announced 5).domain .block).pending = [5] ++ [6] ∧
    (announced 5).agrees .block 5 ∧ ¬ (announced 5).agrees .block 6 ∧ ((announced 5).domain .product).pending = [] := by
  unfold State.agrees; decide +kernel

/-! Supply. -/

/-- The lines at a reading. -/
def reading (mv : Nat) (s : State) : State := { s with pins := { s.pins with vsense := mv } }

theorem test_meets_DipEntered : inRun.risesAboveRun 7919 false = false ∧ 7919 < Config.holdThreshold false ∧
    Config.holdThreshold inRun.pins.vsel24 ≤ inRun.pins.vsense ∧ inRun.supply.power = .run ∧ ¬ (7920 < Config.holdThreshold false) ∧
    inRun.risesAboveRun 7920 false = false ∧ ((bankFive idleBank []).bank 5).state = .idle ∧
    ((bankFive { idleBank with state := .scrubbing, work := .scrubCheck 0 } []).bank 5).work.busy = true := by decide +kernel

/-- In DIP-HOLD under the run threshold, out of a prior state. -/
def dipped (p : Power) (ignition : Bool) (dips : Nat) : State :=
  { reading 9000 inRun with
    supply := { inRun.supply with power := .dipHold, prior := some p, ignition := ignition, dipTimer := some 1500000 }
    backup := { inRun.backup with dips := dips } }

theorem test_meets_SupplyRiseActs : (reading 9000 (inPower .unpowered)).risesAboveRun 9001 false = true ∧
    (inPower .unpowered).supply.power = .unpowered ∧ (dipped .run true 4).risesAboveRun 9001 false = true ∧
    (dipped .run true 4).supply.power = .dipHold ∧ 4 ≤ (dipped .run true 4).backup.dips ∧ (dipped .run true 4).supply.erase = none ∧
    (dipped .run true 3).backup.dips < 4 ∧ (dipped .run true 3).supply.prior = some .run ∧ (dipped .run true 3).supply.ignition = true ∧
    (dipped .run false 3).supply.config.parkedWindow ≠ 0 ∧ (dipped .starting true 3).supply.prior = some .starting ∧
    (dipped .closing false 3).supply.pendingStart = false ∧ (dipped .closing false 3).pins.wake = false := by decide +kernel

theorem test_meets_SupplyRiseActs_banks :
    (({ Bank.unstarted with prior := some .idle } : Bank)).unoccupied ∧
    ¬ inRun.scrubInterval < 2 * ({ Bank.unstarted with prior := some .idle } : Bank).header.scrubAge ∧
    (reading 9000 inRun).rests ∧ (reading 9000 (inPower .dormant)).rests ∧ (reading 9000 inRun).risesAboveRun 9001 false = true := by
  refine ⟨⟨rfl, rfl, rfl, rfl, fun g h => nomatch h⟩, ?_⟩
  unfold State.rests; decide +kernel

/-- A reset taken at the start of the clock. -/
def inReset : State := { inPower .dormant with supply := { (inPower .dormant).supply with resetting := some 20000 } }

/-- In CLOSING under the run threshold, bank 5 erasing. -/
def closingErases : State :=
  reading 9000 ((inPower .closing).setBank 5 { idleBank with state := .faulted, work := .eraseFree 0, hold := .closing })

/-- DORMANT under the run threshold with the three grounds of a start as given. -/
def dormantWith (pending ignition wake : Bool) : State :=
  let s := reading 9000 (inPower .dormant)
  { s with supply := { s.supply with pendingStart := pending, ignition := ignition }, pins := { s.pins with wake := wake } }

theorem test_meets_SupplyRiseActs_closing : closingErases.rests ∧ closingErases.risesAboveRun 9001 false = true ∧
    (closingErases.bank 5).state ≠ .held ∧ (closingErases.bank 5).work.busy = true ∧
    (∀ p i w, (dormantWith p i w).rests ∧ (dormantWith p i w).risesAboveRun 9001 false = true ∧ (dormantWith p i w).supply.resetting = none ∧
      (dormantWith p i w).backup.valid = false) ∧ inReset.supply.resetting ≠ none ∧ (reading 9000 inReset).rests := by
  unfold State.rests; decide +kernel

/-- A good domain header. -/
def someHeader : DomainHeader := DomainHeader.sealed { held := 2, visible := 1, pending := [2], check := 0 }

/-- In RUN with that header being written for BLOCK. -/
def headerInWrite : State := { inRun with domainWrites := { block := some someHeader, product := none } }

theorem test_meets_SupplyLossAndResetAct : inRun.supply.power ≠ .unpowered ∧ (∀ b : BankId, (inRun.bank b).work = .none) ∧
    inRun.pool.writing = .none ∧ inRun.supply.erase = none ∧ lowestFree 0 (inRun.places 0) < 65536 ∧
    (inPower .dormant).supply.power = .dormant ∧ (inPower .dormant).supply.pendingStart = false ∧
    inReset.supply.power = .dormant ∧ inReset.supply.resetting = some 20000 ∧ inReset.clock < 20000 ∧ 20000 ≤ ({ inReset with clock := 20000 } : State).clock ∧
    (reading 9000 inRun).pins.vsense ≤ Config.runThreshold inRun.pins.vsel24 ∧ Config.runThreshold inRun.pins.vsel24 < inRun.pins.vsense ∧
    inRun.backup.dips < 4 ∧ inRun.backup.valid = false ∧
    inRun.domainWrites.get .block = none ∧ headerInWrite.domainWrites.get .block = some someHeader ∧
    (∀ b : BankId, (headerInWrite.bank b).work = .none) ∧ headerInWrite.pool.writing = .none ∧ headerInWrite.supply.erase = none := by
  decide +kernel

theorem test_meets_SupplyLossAndResetAct_valid : ({ inRun.backup with valid := true } : Backup).sealed.good = true ∧
    ({ inRun.backup with valid := true } : Backup).sealed.valid = true := ⟨Backup.sealed_good _, rfl⟩

/-- DORMANT with WAKE low, no start pending, above the run threshold, and the directory valid after `dips` dips. -/
def dormantValid (dips : Nat) : State :=
  { inPower .dormant with backup := ({ inRun.backup with valid := true, dips := dips } : Backup).sealed }

/-- A directory whose check is the inverse of the one that agrees. -/
def checkInverted (k : Backup) : Backup := { k with check := ~~~crc16 k.bytes }

theorem checkInverted_good (k : Backup) : (checkInverted k).good = false := by
  show (~~~crc16 k.bytes == crc16 k.bytes) = false
  rw [beq_eq_false_iff_ne]
  intro h
  have := congrArg (BitVec.getLsbD · 0) h
  simp at this

/-- A valid directory whose check disagrees. -/
def dormantBroken : State := { inPower .dormant with backup := checkInverted { inRun.backup with valid := true } }

/-- The kinds of start that a state meets the conditions of (R184). -/
theorem test_meets_startsWake : (dormantValid 3).backup.valid = true ∧ (dormantValid 3).backup.good = true ∧
    (dormantValid 3).backup.dips < 4 ∧ (dormantValid 3).supply.erase = none ∧ 4 ≤ (dormantValid 4).backup.dips ∧
    dormantBroken.backup.good = false ∧ (∀ b : BankId, (dormantBroken.bank b).work = .none) ∧ dormantBroken.pool.writing = .none ∧
    (dormantWith true true true).backup.valid = false := by
  exact ⟨rfl, Backup.sealed_good _, by decide, rfl, by decide, checkInverted_good _, fun b => test_meets_SupplyLossAndResetAct.2.1 b, rfl, rfl⟩

theorem test_meets_IgnitionAndTimersAct : parkedOut.supply.ignition = false ∧ parkedOut.supply.power = .parked ∧
    inRun.supply.ignition = true ∧ inRun.supply.power = .run ∧ inRun.supply.config.parkedWindow ≠ 0 ∧
    parkedOut.supply.parked = .running 0 ∧ 0 ≤ parkedOut.clock ∧
    (reading 9000 ({ dipped .run true 1 with clock := 1500000 })).supply.dipTimer = some 1500000 ∧
    (dipped .run true 1).pins.vsense ≤ Config.runThreshold false ∧
    ({ inRun.supply with stable := some 0 } : Supply).stable = some 0 := by decide +kernel

/-- A start with the default record in store memory. -/
def recorded (kind : StartKind) : State :=
  { State.reset with
    supply := { State.reset.supply with kind := kind }
    store := { StoreMemory.blank with
      startRecord := StartRecord.default.bytes
      headers := Vector.replicate 16 (StoredHeader.sealed BankHeader.erased) } }

theorem test_meets_StartRecordJudged : State.reset.supply.power = .starting ∧ State.reset.supply.recordRead = false ∧
    parseStartRecord State.reset.store.startRecord = none ∧
    parseStartRecord (recorded .cold).store.startRecord = some StartRecord.default ∧ (recorded .cold).pool.restored = false ∧
    (recorded .cold).backup.cause.cause ≠ .commissioned ∧ (recorded .cold).store.headers[(0 : BankId)].good = true ∧
    (recorded .cold).supply.kind = .cold ∧ (recorded .warm).supply.kind = .warm ∧
    State.reset.store.headers[(0 : BankId)].good = false := by decide +kernel

theorem test_meets_CommissionEraseWrites : (erasing (some 1) inRun).supply.erase = some { record := StartRecord.default, write := some 1 } ∧
    (erasing (some 5) inRun).supply.erase = some { record := StartRecord.default, write := some 5 } ∧
    (∀ b : BankId, ((erasing (some 5) inRun).bank b).work = .none) ∧ (erasing (some 5) inRun).pool.writing = .none := by decide +kernel

/-! The store banks. -/

/-- An apply request for the one segment of generation 2. -/
def requestTwo : ApplyRequest := { gen := 2, kind := .delta, segment := some 0, first := true, last := true, cursor := 0 }

/-- The run of a LIST of medium 5. -/
def runList : ApplyRun := { request := requestTwo, ops := [.list 5 1 1], cursor := 0, endDone := false }

/-- Bank 5 at work. -/
def working (w : BankWork) (l : List (Nat × Record)) : State := pooled (bankFive { idleBank with state := .applying, work := w } l)

theorem test_meets_ApplyRecordCommits : (runList.ops.drop runList.cursor).head? = some (.list 5 1 1) ∧
    ((working (.applyAdd runList) []).bank 5).work = .applyAdd runList ∧ (Op.list 5 1 1).payload = some (.block 1 1) ∧
    lowestFree 0 ((working (.applyAdd runList) []).places 5) < 65536 ∧
    ((working (.applyEnd runList 0) [(0, recFive)]).bank 5).work = .applyEnd runList 0 ∧
    placeGet 0 ((working (.applyEnd runList 0) [(0, recFive)]).places 5) = some recFive ∧ runList.ops.length = runList.cursor + 1 ∧
    runList.request.last = true ∧ (Op.unlist 5).payload = none := by decide +kernel

theorem test_unoccupied (w : BankWork) (k : BankState) : ({ idleBank with state := k, work := w } : Bank).unoccupied :=
  ⟨rfl, rfl, rfl, rfl, fun g h => nomatch h⟩

theorem test_meets_HeaderCommitEndsOperation : ¬ inRun.scrubInterval < 2 * BankHeader.erased.scrubAge ∧
    ((working (.advance requestTwo) []).bank 5).work = .advance requestTwo ∧
    ((working (.compactHeader { visible := 1, floor := 0, next := 65536, freed := 0 }) []).bank 5).work =
      .compactHeader { visible := 1, floor := 0, next := 65536, freed := 0 } ∧
    ((working (.scrubHeader 65536 false) []).bank 5).work = .scrubHeader 65536 false ∧ (1024 : Nat) < 65536 ∧
    (placesIn 1024 (stepEnd 1024) [(1024, recFive)]).head? = some (1024, recFive) ∧
    (placesIn 1024 (stepEnd 1024) [(2048, recFive)]).head? = none ∧ ((working .recoverHeader []).bank 5).work = .recoverHeader ∧
    ({ idleBank with state := .faulted, work := .eraseHeader, quiesce := .inForce 3 } : Bank).quiesce = .inForce 3 := by decide +kernel

/-- A BASELINE apply request of generation 3. -/
def requestBase : ApplyRequest := { requestTwo with gen := 3, kind := .baseline }

/-- A FAULTED bank at the header write of its erasure, that request waiting. -/
def erasedWaits : Bank :=
  { idleBank with state := .faulted, work := .eraseHeader, waiting := some requestBase, quiesce := .inForce 3 }

theorem test_meets_HeaderCommitEndsOperation_more : erasedWaits.waiting = some requestBase ∧ requestBase.kind = .baseline ∧
    erasedWaits.header.applied < requestBase.gen ∧ erasedWaits.quiesce = .inForce requestBase.gen ∧ erasedWaits.scrubDue = false ∧
    erasedWaits.hold = .none ∧
    ({ idleBank with state := .scrubbing, work := .scrubHeader 1024 false, scrubDue := true, compactWanted := true } : Bank).hold = .none ∧
    ({ idleBank with state := .scrubbing, work := .scrubHeader 1024 false, scrubDue := true, compactWanted := true } : Bank).scrubDue
      = true := by decide +kernel

/-- Bank 5 after a command. -/
def bankAfter (c : Instr) (s : State) : Option Bank :=
  match exec c s with
  | .next t => some (t.bank 5)
  | _ => none

/-- Bank 5 at the end of its recovery after a start, the compaction wanted flag set, with the given flag, request and hold. -/
def recovered (full due : Bool) (r : Option ApplyRequest) (h : HoldPending) : State :=
  bankFive { idleBank with
    state := .recovering, work := .recoverHeader, compactWanted := true, fullScan := full, scrubDue := due, waiting := r, hold := h
    header := { BankHeader.erased with applied := 1 } } [(0, recFive)]

theorem test_meets_HeaderCommitEndsOperation_recovery : ((recovered true false none .none).bank 5).work = .recoverHeader ∧
    ((recovered true false none .none).bank 5).compactWanted = true ∧ ((recovered true false none .none).bank 5).scrubDue = false ∧
    ((recovered true false none .none).bank 5).waiting = none ∧ ((recovered true false none .none).bank 5).hold = .none ∧
    ((recovered false true none .none).bank 5).scrubDue = true ∧ ((recovered true false (some requestTwo) .none).bank 5).waiting = some requestTwo ∧
    requestTwo.kind = .delta ∧ ((recovered true false (some requestTwo) .none).bank 5).quiesce = .absent ∧
    ((recovered true false (some requestTwo) .none).recoveredHeader 5).applied + 1 = requestTwo.gen ∧
    ((recovered true false none .dip).bank 5).hold ≠ .none := by decide +kernel

/-- A recovery's end goes on to the compaction of a start, or to the waiting request (R57). -/
theorem test_recovery_ends : (bankAfter (.bankHeaderWriteCommit 5) (recovered true false none .none)).map Bank.state = some .compacting ∧
    (bankAfter (.bankHeaderWriteCommit 5) (recovered true false (some requestTwo) .none)).map Bank.state = some .applying := by decide +kernel

/-- An apply cursor in a phase. -/
def cursorIn (p : CursorPhase) : ApplyCursor := { ApplyCursor.initial with phase := p }

/-- Slot 0 is APPLYING generation 2, bank 5 alone has still to advance, and its header write is in progress. -/
def lastAdvance : State :=
  (working (.advance requestTwo) []).setSlot 0
    { slotTwo with state := .applying, cursors := (Vector.replicate 16 (cursorIn .advanced)).set 5 (cursorIn .running) }

theorem test_meets_HeaderCommitEndsOperation_applied : (lastAdvance.bank 5).work = .advance requestTwo ∧ lastAdvance.todo.mail = [] ∧
    (lastAdvance.slot 0).state = .applying ∧ (lastAdvance.slot 0).domain = lastAdvance.bankDomain 5 ∧
    (lastAdvance.slot 0).gen = requestTwo.gen ∧ (lastAdvance.slot 0).lost = [] ∧ 0 ∉ lastAdvance.pool.waitList ∧
    (∀ j : SlotId, j ≠ 0 → (lastAdvance.slot j).state ≠ .applying ∧ (lastAdvance.slot j).state ≠ .blocked) ∧
    (∀ e ∈ lastAdvance.banksOf .block, e ≠ 5 → (lastAdvance.slot 0).cursors[e].phase = .advanced) ∧ lastAdvance.peers = [] ∧
    (∀ j : SlotId, j ≠ 0 → (lastAdvance.slot j).state = .empty) ∧ lastAdvance.pool.waitList = [] := by decide +kernel

/-- The last bank's ADVANCED makes the generation held, and, with no cohort to agree, visible, and its slot EMPTY (R99, R145). -/
theorem test_generation_applied : (match exec (.bankHeaderWriteCommit 5) lastAdvance with
    | .next t => some ((t.domain .block).held, (t.domain .block).visible, (t.domain .block).pending, (t.slot 0).state)
    | _ => none) = some (2, 2, [], .empty) := by decide +kernel

/-- In CLOSING with bank 5 at a pass end of its due scrub, the hold pending, and bank 6 as given. -/
def closingScrub (six : Bank) : State :=
  let s := (inPower .closing).setBank 5
    { idleBank with state := .scrubbing, work := .scrubHeader 1024 false, scrubDue := true, hold := .closing }
  ({ s with supply := { s.supply with ignition := false } } : State).setBank 6 six

theorem test_meets_ClosingEntered_end : (closingScrub Bank.unstarted).supply.power = .closing ∧ (closingScrub Bank.unstarted).rests ∧
    (∀ e : BankId, e ≠ 5 → ((closingScrub Bank.unstarted).bank e).state = .held ∨
      ((closingScrub Bank.unstarted).bank e).state = .faulted ∧ ((closingScrub Bank.unstarted).bank e).work.busy = false) ∧
    (closingScrub Bank.unstarted).supply.pendingStart = false ∧ (closingScrub Bank.unstarted).pins.wake = false ∧
    (closingScrub { idleBank with state := .applying, work := .applyRead requestTwo, hold := .closing }).rests ∧
    ((closingScrub { idleBank with state := .applying, work := .applyRead requestTwo, hold := .closing }).bank 6).state = .applying := by
  unfold State.rests; decide +kernel

theorem test_meets_ClosingEntered_banks : (bankFive idleBank []).supply.power = .run ∧ (bankFive idleBank []).portFree ∧
    ((working (.applyAdd runList) []).bank 5).work.busy = true ∧ ((working (.applyRead requestTwo) []).bank 5).state = .applying ∧
    ((bankFive { idleBank with state := .recovering, work := .recoverWait 0 } []).bank 5).work = .recoverWait 0 ∧
    ((bankFive { idleBank with state := .faulted } []).bank 5).work = .none := by unfold State.portFree; decide +kernel

theorem test_meets_PlacesFreed : Memory.wf 65536 ((working (.eraseFree 0) [(0, recFive)]).places 5) = true ∧
    ((working (.eraseFree 0) [(0, recFive)]).bank 5).work = .eraseFree 0 ∧
    ((working (.compactFree { visible := 1, floor := 0, next := 0, freed := 0 } 0) [(0, recFive)]).bank 5).work =
      .compactFree { visible := 1, floor := 0, next := 0, freed := 0 } 0 ∧
    ((working (.recoverWrite 0) [(0, recFive)]).bank 5).work = .recoverWrite 0 ∧
    placeGet 0 ((working (.recoverWrite 0) [(0, recFive)]).places 5) = some recFive ∧
    ((working (.recoverWrite 0) [(0, recFive)]).bank 5).header.applied < recFive.added ∧
    recFive.added ≤ ({ BankHeader.erased with applied := 1 } : BankHeader).applied := by decide +kernel

theorem test_meets_ScrubRuns : ((working (.scrubCheck 0) [(0, recFive)]).bank 5).work = .scrubCheck 0 ∧
    placeGet 0 ((working (.scrubCheck 0) [(0, recFive)]).places 5) = some recFive ∧ recFive.good = true ∧
    ((working (.scrubCheck 0) [(0, recFive)]).bank 5).header.scrubCursor = 0 ∧
    placeGet 0 ((working (.scrubCheck 0) [(0, badFive)]).places 5) = some badFive ∧ badFive.good = false ∧
    ((working (.scrubCheck 0) [(0, badFive)]).bank 5).header.applied < badFive.added ∧
    inRun.scrubInterval < 2 * (inRun.scrubInterval / 2 + 1) ∧ inRun.scrubInterval ≤ inRun.scrubInterval ∧ inRun.started = true := by
  decide +kernel

/-- Bank 5 is HELD in a power state, its scrub age at the interval. -/
def heldFive (p : Power) : State :=
  (inPower p).setBank 5 { idleBank with
    state := .held, prior := some .idle, header := { BankHeader.erased with scrubAge := inRun.scrubInterval } }

theorem test_meets_ScrubRuns_held : ((heldFive .closing).bank 5).state = .held ∧ (heldFive .closing).started = true ∧
    ({ heldFive .dipHold with supply := { (heldFive .dipHold).supply with recordRead := true } } : State).started = true ∧
    (heldFive .closing).scrubInterval ≤ ((heldFive .closing).bank 5).header.scrubAge ∧
    ((bankFive { idleBank with state := .faulted } []).bank 5).state = .faulted := by decide +kernel

/-- A scrub becoming due at a HELD bank waits there (R23), and its resume begins it (R25, R29). -/
theorem test_held_scrub_waits : (bankAfter (.scrubAgeDue 5) (heldFive .closing)).map (fun k => (k.state, k.scrubDue)) = some (.held, true) ∧
    ((((heldFive .closing).scrubBecomesDue 5).resumeBank 5).bank 5).state = .scrubbing := by decide +kernel

/-- A repair of the failing record at place 0, reading generation 2 as its added generation. -/
def repairTwo (p : RepairPhase) : RepairRun :=
  { place := 0, key := 5, added := 2, version := some (.block 1 1), phase := p, fullScan := false }

theorem test_meets_RepairRuns : ((working (.repair (repairTwo (.collect [0, 1] []))) []).bank 5).work = .repair (repairTwo (.collect [0, 1] [])) ∧
    (working (.repair (repairTwo (.collect [0, 1] []))) []).bankDomain 5 = .block ∧
    (working (.repair (repairTwo (.collect [0, 1] []))) []).entry .block 2 = some entryTwo ∧ 0 ∈ entryTwo.present ∧
    (working .none []).cellOf entryTwo 0 = some (0, { stamp := 1, index := 0, bytes := segList }) ∧ segCrcGood segList = true ∧
    (bankFive idleBank []).entry .block 2 = none ∧ opsOn 14 .block .delta 5 5 segList ≠ [] ∧ opsOn 14 .block .delta 5 19 segList = [] := by
  decide +kernel

theorem test_meets_RepairRuns_write : (repairTwo .free).phase = .free ∧ (repairTwo .free).fullScan = false ∧
    ({ repairTwo .free with fullScan := true } : RepairRun).fullScan = true ∧
    ((bankFive { idleBank with state := .recovering, hold := .dip } []).bank 5).hold ≠ .none := by decide +kernel

/-- A full scan that waits at the failing record of place 0. -/
def scanWaits (r : Record) : State :=
  let s := pooled (bankFive { idleBank with state := .recovering, work := .recoverWait 0, fullScan := true,
                                            header := { BankHeader.erased with applied := 2 } } [(0, r)])
  { s with pool := { s.pool with restored := true } }

theorem test_meets_RepairRuns_fullScan : ((scanWaits badFive).bank 5).work = .recoverWait 0 ∧ (scanWaits badFive).pool.restored = true ∧
    ((scanWaits badFive).bank 5).fullScan = true ∧ Memory.wf 65536 ((scanWaits badFive).places 5) = true ∧
    placeGet 0 ((scanWaits badFive).places 5) = some badFive ∧ badFive.added ≤ ((scanWaits badFive).bank 5).header.applied ∧
    (scanWaits badFive).servable .block badFive.added = false ∧
    (scanWaits { badFive with added := 2 }).servable .block 2 = true ∧
    (scanWaits { badFive with added := 2 }).indicesNaming .block 2 5 ≠ [] ∧ ({ badFive with added := 2 } : Record).good = false := by
  decide +kernel

theorem test_meets_ApplyReadBegins : ((working (.applyRead requestTwo) []).bank 5).work = .applyRead requestTwo ∧
    requestTwo.segment = some 0 ∧ (bankFive { idleBank with state := .applying, work := .applyRead requestTwo } []).entry .block 2 = none ∧
    (working (.applyRead requestTwo) []).entry .block 2 = some entryTwo ∧ 0 ∈ entryTwo.present ∧ entryTwo.servable = true ∧
    (working (.applyRead requestTwo) []).cellOf entryTwo 0 = some (0, { stamp := 1, index := 0, bytes := segList }) ∧
    segCrcGood segList = true ∧ segOps segList = some [.list 5 1 1] ∧ (Op.list 5 1 1).wellFormed .block .delta = true ∧
    (Op.list 5 1 1).wellPlaced 14 .block 5 = true ∧ currentPlace [] 5 0 = none ∧ currentPlace [(0, recFive)] 5 0 = some 0 ∧
    BankHeader.erased.freeCount ≠ 0 := by decide +kernel

/-- Bank 5 reads a segment of generation 2, whose entry is `e`, for a request whose slot has drained or not, and slot 0 holds that generation. -/
def readFive (drained : Bool) (e : ManifestEntry) : State :=
  let s := (slotted slotTwo).setBank 5 { idleBank with state := .applying, work := .applyRead { requestTwo with drained := drained } }
  { s with store := { s.store with
      index := { entries := [e], used := [0], stampSource := 1 }
      cells := [(0, { stamp := 1, index := 0, bytes := segList })] } }

theorem test_meets_ApplyReadBegins_drained : ((readFive true emptyTwo).bank 5).work = .applyRead { requestTwo with drained := true } ∧
    (readFive true emptyTwo).servable .block 2 = false ∧ (readFive true emptyTwo).bankDomain 5 = .block ∧
    (readFive false emptyTwo).entry .block 2 = some emptyTwo ∧ 0 ∉ emptyTwo.present ∧
    segCrcGood (List.replicate 16 0) = false ∧
    (losing (.lost .block 2 1 0) [.slot 0] entryTwo).entry .block 2 = some entryTwo ∧ requestTwo.drained = false := by decide +kernel

/-- The read of a drained slot's request is EVICTED, whatever the slot that holds the generation by then has of it (R73); that of another is not. -/
theorem test_drained_read : (bankAfter (.applyReadComplete 5) (readFive true { entryTwo with verified := false })).map Bank.work = some .none ∧
    (bankAfter (.applyReadComplete 5) (readFive false { entryTwo with verified := false })).map Bank.work = some (.applyAdd runList) := by
  decide +kernel

/-- The drain of a slot marks the request whose read is under way, and withdraws the one that waits (R73, R102). -/
theorem test_drain_marks : ((((readFive false entryTwo).setBank 5 { (readFive false entryTwo).bank 5 with waiting := some requestTwo }).drainSlot 0).bank 5) =
    { idleBank with state := .applying, work := .applyRead { requestTwo with drained := true } } := by decide +kernel

/-! ## A few commands on small states -/

/-- The response that stands in the port after a command. -/
def responseAfter (c : Instr) (s : State) : Option Response :=
  match exec c s with
  | .next t => t.port.response
  | _ => none

/-- A lookup of medium 5 finds the live record: LISTED, visible generation 1, CHECK-FAIL clear, reason 1 and action 1, since 1. -/
theorem test_lookup_listed : responseAfter (.checkMedium 5) (bankFive idleBank [(0, recFive)]) =
    some { kind := 1, outcome := 2, overrun := false, body := [0, 0, 0, 1, 0, 5, 0, 0, 0, 1] } := by decide +kernel

/-- A lookup that meets only the failing record: CLEAR with CHECK-FAIL set. -/
theorem test_lookup_check_fail : responseAfter (.checkMedium 5) (bankFive idleBank [(0, badFive)]) =
    some { kind := 1, outcome := 3, overrun := false, body := [0, 0, 0, 1, 1] } := by decide +kernel

/-- A read segment goes to its adding write, and the adding commit of a last op to the advance. -/
theorem test_apply_read : (bankAfter (.applyReadComplete 5) (working (.applyRead requestTwo) [])).map Bank.work = some (.applyAdd runList) := by
  decide +kernel
theorem test_apply_add : (bankAfter (.bankRecordCommit 5) (working (.applyAdd runList) [])).map Bank.work = some (.advance requestTwo) := by
  decide +kernel

/-- Slots 0 and 1 are VERIFIED with BASELINEs of generations 3 and 4, slot 0 with the lost indices `l`. -/
def twoVerified (l : List Presence) : State :=
  (slotted { slotTwo with state := .verified, gen := 3, manifest := some baseThree, lost := l }).setSlot 1
    { slotTwo with state := .verified, gen := 4, manifest := some { baseThree with gen := 4 } }

/-- A verified BASELINE with a lost index keeps the later one from beginning (R96). -/
theorem test_lost_index_waits : (twoVerified []).nextApply .block = some 0 ∧ (twoVerified [presentZero]).nextApply .block = none := by
  decide +kernel

/-- The step takes the front of the queue. -/
theorem test_step_takes_front : (match step { inRun with pending := [.supplyFall 7919 false, .readStatus] } with
    | .next t => some (t.supply.power, t.pending)
    | _ => none) = some (.dipHold, [.readStatus]) := by decide +kernel

/-- The blank headers that the part comes with fail their checks, and a written one passes it (R19, R143, R206, log entry 9). -/
theorem test_header_checks : (StoreMemory.blank.headers[(0 : BankId)]).good = false ∧ StoreMemory.blank.domains.block.good = false ∧
    someHeader.good = true ∧ someHeader.torn.good = false ∧ entryTwo.good = true ∧ entryTwo.torn.good = false := by decide +kernel

/-- The power state and the domain headers after a command. -/
def powerAfter (c : Instr) (s : State) : Option (Power × DomainHeader) :=
  match exec c s with
  | .next t => some (t.supply.power, t.store.domains.block)
  | _ => none

/-- A domain header write that a loss of supply tears (R143). -/
theorem test_header_write_stopped : (powerAfter (.supplyLoss true) headerInWrite).map (fun x => x.2.good) = some false := by decide +kernel

/-- One that a reset meets completes, or leaves the header as it was (R183, R143, log entry 44). -/
theorem test_header_write_reset : (headerInWrite.resetDomainHeader .block).store.domains.block =
    if Config.headerBegun headerInWrite.draws then someHeader else inRun.store.domains.block := by
  rw [show headerInWrite.resetDomainHeader .block = if Config.headerBegun headerInWrite.draws then _ else _ from rfl]
  split <;> rfl

/-- Before its 20 ms are over a reset does not end (R183). -/
theorem test_reset_extension : powerAfter .resetExtensionEnd inReset = some (.dormant, inReset.store.domains.block) ∧
    (powerAfter .resetExtensionEnd { inReset with clock := 20000 }).map Prod.fst = some .starting := by decide +kernel

/-- The table spells no command by bits. -/
theorem test_no_words (s : State) : decodeTableWord 8 1 = none ∧ s.withFetchWord 8 1 = s := ⟨rfl, rfl⟩

end Sys2Proof.Tests
end

/-! # Lookups (R44)

What a bank answers to a lookup, branch by branch of its state, and what the answer becomes on the validator port. -/

namespace Sys2Proof.Machine

section

variable {s : State} {b : BankId} {key : Nat}

/-! ## The response that an answer becomes -/

/-- R199: the outcome of a lookup's response. -/
def LookupAnswer.outcome (d : Domain) : LookupAnswer → OutcomeCode
  | .busy => .busy
  | .hold => .hold
  | .fault => .fault
  | .found _ _ => if d = .block then .listed else .found
  | .absent _ => if d = .block then .clear else .notFound

/-- R199: the bytes of a lookup's response after the visible generation and the CHECK-FAIL mark. -/
def LookupAnswer.recordBytes (d : Domain) : LookupAnswer → List Byte
  | .found r _ => if d = .block then r.payload.stored ++ toBytes 4 r.added else toBytes 2 r.key ++ r.payload.stored
  | _ => []

/-- The key's bank puts its answer into the port, whatever the answer is (R199). -/
theorem lookupAnswered_eq {kind : RequestKind} {d : Domain} (hb : s.bankOf d key = b) :
    s.lookupAnswered kind d key = (s.lookupEffect b key).withResponse kind.code ((s.lookup b key).outcome d)
      (toBytes 4 (s.domain d).visible ++ [if (s.lookup b key).checkFailed then 1 else 0] ++ (s.lookup b key).recordBytes d) := by
  unfold State.lookupAnswered
  dsimp only
  rw [hb]
  cases s.lookup b key with
  | busy => rfl
  | hold => rfl
  | fault => rfl
  | found r c => cases d <;> rfl
  | absent c => cases d <;> rfl

/-! ## What a lookup changes -/

/-- A lookup changes nothing outside the banks. -/
theorem lookupEffect_banksOnly (s : State) (b : BankId) (key : Nat) :
    s.lookupEffect b key = { s with banks := (s.lookupEffect b key).banks } := by
  have hmark := banking_banksOnly s b (fun k => k.markFailing (failingPlaces (s.places b) key))
  have hscrub := (beginScrub_shape (s.markFailing b (failingPlaces (s.places b) key)) b).1
  unfold State.lookupEffect
  dsimp only
  split
  · split
    · rw [hscrub]; rfl
    · exact hmark
  · rfl

/-- A lookup that meets no failing record of its key changes nothing (R44). -/
theorem lookupEffect_of_clean (h : (s.lookup b key).checkFailed = false) : s.lookupEffect b key = s := by
  unfold State.lookupEffect
  rw [if_neg (by simp [h])]

/-! ## The bank's answer -/

theorem lookup_of_recovering (h : (s.bank b).state = .recovering) : s.lookup b key = .busy := by
  simp only [State.lookup, h]

theorem lookup_of_held (h : (s.bank b).state = .held) : s.lookup b key = .hold := by
  simp only [State.lookup, h]

theorem lookup_of_faulted (h : (s.bank b).state = .faulted) : s.lookup b key = .fault := by
  simp only [State.lookup, h]

theorem hidesUntil_iff (h : BankHeader) (v : Gen) : h.hidesUntil v = true ↔ ∃ g, h.erasureMark = some g ∧ v < g := by
  unfold BankHeader.hidesUntil
  cases h.erasureMark <;> simp

/-- Some record that bank `b` holds for the key fails its check (R45). -/
def State.keyFails (s : State) (b : BankId) (key : Nat) : Bool :=
  ((s.places b).filter (fun pr => pr.2.key == key)).any (fun pr => !pr.2.good)

theorem keyFails_iff : s.keyFails b key = true ↔ ∃ pr ∈ s.places b, pr.2.key = key ∧ pr.2.good = false := by
  simp [State.keyFails]

/-- R11, R44: the answer of bank `b` from its records, at the visible generation of its domain. -/
def State.evaluated (s : State) (b : BankId) (key : Nat) : LookupAnswer :=
  let v := (s.domain (s.bankDomain b)).visible
  match ((s.places b).filter (fun pr => pr.2.key == key)).find?
      (fun pr => pr.2.liveAt (floorAt (s.bank b).header.baselines v) v) with
  | some pr => .found pr.2 (s.keyFails b key)
  | none => .absent (s.keyFails b key)

/-- A bank that is working or idle answers from its records unless its erasure mark hides them (R44). -/
theorem lookup_of_working
    (h : (s.bank b).state = .idle ∨ (s.bank b).state = .applying ∨ (s.bank b).state = .compacting ∨ (s.bank b).state = .scrubbing) :
    s.lookup b key =
      if (s.bank b).header.hidesUntil (s.domain (s.bankDomain b)).visible then .fault else s.evaluated b key := by
  unfold State.lookup
  dsimp only
  rcases h with h | h | h | h <;> rw [h] <;> rfl

/-- An evaluation finds a live record of the key, or there is none (R11). -/
theorem evaluated_cases {f : Gen} (hf : IsFloor (s.bank b).header.baselines (s.domain (s.bankDomain b)).visible f) :
    (∃ pr ∈ s.places b, pr.2.key = key ∧ pr.2.lives f (s.domain (s.bankDomain b)).visible ∧
      s.evaluated b key = .found pr.2 (s.keyFails b key)) ∨
    ((∀ pr ∈ s.places b, pr.2.key = key → ¬ pr.2.lives f (s.domain (s.bankDomain b)).visible) ∧
      s.evaluated b key = .absent (s.keyFails b key)) := by
  obtain rfl := isFloor_unique (floorAt_isFloor _ _) hf
  unfold State.evaluated
  dsimp only
  split
  next pr hfind =>
    have hmem := List.mem_of_find?_eq_some hfind
    have hlive := List.find?_some hfind
    rw [List.mem_filter, beq_iff_eq] at hmem
    exact .inl ⟨pr, hmem.1, hmem.2, (liveAt_iff_lives _ _ _).mp hlive, rfl⟩
  next hfind =>
    refine .inr ⟨fun pr hpr hkey hlive => ?_, rfl⟩
    have hdead := List.find?_eq_none.mp hfind pr (List.mem_filter.mpr ⟨hpr, beq_iff_eq.mpr hkey⟩)
    exact hdead ((liveAt_iff_lives _ _ _).mpr hlive)

/-- The CHECK-FAIL mark of an evaluated answer (R45). -/
theorem evaluated_checkFailed (s : State) (b : BankId) (key : Nat) : (s.evaluated b key).checkFailed = s.keyFails b key := by
  rcases evaluated_cases (s := s) (b := b) (key := key) (floorAt_isFloor _ _) with ⟨pr, -, -, -, h⟩ | ⟨-, h⟩ <;> rw [h] <;> rfl

/-- An answer without evaluation carries no CHECK-FAIL mark, so the mark always comes from a failing record of the key (R45). -/
theorem keyFails_of_lookup_checkFailed (h : (s.lookup b key).checkFailed = true) : s.keyFails b key = true := by
  have working {p : Bool} (hw : (if p then LookupAnswer.fault else s.evaluated b key).checkFailed = true) :
      s.keyFails b key = true := by
    cases p with
    | true => cases hw
    | false => rw [← evaluated_checkFailed]; exact hw
  cases hk : (s.bank b).state with
  | recovering => rw [lookup_of_recovering hk] at h; cases h
  | held => rw [lookup_of_held hk] at h; cases h
  | faulted => rw [lookup_of_faulted hk] at h; cases h
  | idle => exact working (lookup_of_working (.inl hk) ▸ h)
  | applying => exact working (lookup_of_working (.inr (.inl hk)) ▸ h)
  | compacting => exact working (lookup_of_working (.inr (.inr (.inl hk))) ▸ h)
  | scrubbing => exact working (lookup_of_working (.inr (.inr (.inr hk))) ▸ h)

/-- A key whose records all pass their check leaves the part as it was (R44). -/
theorem lookupEffect_of_good (h : ∀ pr ∈ s.places b, pr.2.key = key → pr.2.good = true) : s.lookupEffect b key = s := by
  refine lookupEffect_of_clean (Bool.eq_false_iff.mpr fun hc => ?_)
  obtain ⟨pr, hpr, hkey, hbad⟩ := keyFails_iff.mp (keyFails_of_lookup_checkFailed hc)
  rw [h pr hpr hkey] at hbad
  cases hbad

/-- An answer without record bytes and CHECK-FAIL mark is its outcome alone, and the lookup changes nothing (R44). -/
theorem bare_response {d : Domain} {a : LookupAnswer} (h : s.lookup b key = a) (hbytes : a.recordBytes d = [])
    (hclean : a.checkFailed = false) :
    (s.lookup b key).outcome d = a.outcome d ∧ (s.lookup b key).recordBytes d = [] ∧ (s.lookup b key).checkFailed = false ∧
      s.lookupEffect b key = s := by
  subst h
  exact ⟨rfl, hbytes, hclean, lookupEffect_of_clean hclean⟩

end

/-- Settles O8: the response is the answer of the key's bank, which each row of R44 gives. -/
theorem lookupAnsweredByBank : Obligations.LookupAnsweredByBank := by
  unfold Obligations.LookupAnsweredByBank
  intro s c kind d key b f hl hkey hs hp h8 _ hb hf
  obtain rfl : s.bankDomain b = d := bankDomain_of_val h8 hb
  have hexec : exec c s = .next (s.lookupAnswered kind (s.bankDomain b) key) := by
    rw [(exec_lookup hl hs hp).1]; unfold State.answerLookup; rw [if_neg hkey]
  rw [lookupAnswered_eq (bankOf_of_val hb)] at hexec
  refine ⟨_, _, _, _, hexec, by rw [lookupEffect_banksOnly], by rw [lookupEffect_banksOnly], lookupEffect_of_good,
    fun hk => bare_response (lookup_of_recovering hk) rfl rfl, fun hk => bare_response (lookup_of_held hk) rfl rfl,
    fun hk => bare_response (lookup_of_faulted hk) rfl rfl,
    fun hk => ⟨fun g hg hv => bare_response (a := .fault) ?marked rfl rfl, fun hmark => ?evaluated⟩⟩
  case marked => rw [lookup_of_working hk, if_pos ((hidesUntil_iff _ _).mpr ⟨g, hg, hv⟩)]
  case evaluated =>
    have hshown : ¬ (s.bank b).header.hidesUntil (s.domain (s.bankDomain b)).visible = true := fun hh => by
      obtain ⟨g, hg, hv⟩ := (hidesUntil_iff _ _).mp hh
      exact Nat.not_lt.mpr (hmark g hg) hv
    rw [lookup_of_working hk, if_neg hshown]
    refine ⟨by rw [evaluated_checkFailed, keyFails_iff], fun pr hpr hprk hlive hone => ?_, fun hnone => ?_⟩
    · rcases evaluated_cases (key := key) hf with ⟨qr, hqr, hqrk, hqlive, h⟩ | ⟨hnone, -⟩
      · rw [h, hone qr hqr hqrk hqlive]
        exact ⟨rfl, rfl⟩
      · exact absurd hlive (hnone pr hpr hprk)
    · rcases evaluated_cases (key := key) hf with ⟨qr, hqr, hqrk, hqlive, -⟩ | ⟨-, h⟩
      · exact absurd hqlive (hnone qr hqr hqrk)
      · rw [h]
        exact ⟨rfl, rfl⟩

end Sys2Proof.Machine

/-! # The timeout of an ask (R135)

Which ask ASK_TIMEOUT ends, and how its peer's record is charged for it through the running out of the event. -/

namespace Sys2Proof.Machine

section

variable {s : State} {a : Ask} {p : Peer} {now : Instant}

/-! ## The ask that expires -/

theorem due_iff {t : Option Instant} : s.due t = true ↔ ∃ t0, t = some t0 ∧ t0 ≤ s.clock := by
  cases t with
  | none => simp [State.due]
  | some t0 => simp [State.due]

/-- R135: the ask is SENT and has reached its timeout. -/
def State.askExpired (s : State) (a : Ask) : Prop := a.sent = true ∧ ∃ t0, a.timeout = some t0 ∧ t0 ≤ s.clock

theorem mem_expiredAsks :
    a ∈ s.fetch.asks.filter (fun a => a.sent && s.due a.timeout) ↔ a ∈ s.fetch.asks ∧ s.askExpired a := by
  rw [List.mem_filter, Bool.and_eq_true, due_iff, State.askExpired]

theorem timedOutAsk_of_none (h : ∀ a ∈ s.fetch.asks, ¬ s.askExpired a) : s.timedOutAsk = none := by
  have hnil : s.fetch.asks.filter (fun a => a.sent && s.due a.timeout) = [] :=
    List.eq_nil_iff_forall_not_mem.mpr fun a ha => h a (mem_expiredAsks.mp ha).1 (mem_expiredAsks.mp ha).2
  rw [State.timedOutAsk, hnil, firstBy]

theorem timedOutAsk_of_only (ha : a ∈ s.fetch.asks) (he : s.askExpired a)
    (honly : ∀ b ∈ s.fetch.asks, s.askExpired b → b = a) : s.timedOutAsk = some a :=
  firstBy_first (mem_expiredAsks.mpr ⟨ha, he⟩) fun b hb => .inl (honly b (mem_expiredAsks.mp hb).1 (mem_expiredAsks.mp hb).2)

/-- Without an ask to expire the command changes nothing (R135). -/
theorem exec_askTimeout_none (h : s.timedOutAsk = none) : exec .askTimeout s = .next s := by
  show execAskTimeout s = _
  rw [execAskTimeout, h]

/-- The expiring ask is counted and ends with cause TIMED-OUT (R135). -/
theorem exec_askTimeout_some (h : s.timedOutAsk = some a) :
    exec .askTimeout s = .next (s.countAskTimeout.endAsk a .timedOut).settle := by
  show execAskTimeout s = _
  rw [execAskTimeout, h]

/-! ## What the peer is charged (R115) -/

/-- The end of an ask never touches the mark of a due removal (R114). -/
theorem askEnded_removalDue (p : Peer) (now : Instant) (e : AskEnd) : (p.askEnded now e).removalDue = p.removalDue :=
  Peer.headed_removalDue (askEnded_headed p now e)

theorem timedOut_unresponsive_third (ht : p.timeouts = 2) (hu : p.unresponsive = none) :
    (p.timedOut now).unresponsive = some (now + 10000000) := by
  simp [Peer.timedOut, ht, hu, Config.unresponsiveFor, Config.second]

theorem timedOut_unresponsive_same (h : p.timeouts < 2 ∨ p.unresponsive ≠ none) :
    (p.timedOut now).unresponsive = p.unresponsive := by
  have hcond : ¬ ((min 3 (p.timeouts + 1) = 3 && p.unresponsive.isNone) = true) := by
    rw [Bool.and_eq_true, decide_eq_true_eq, Option.isNone_iff_eq_none]
    rintro ⟨h3, hnone⟩
    rcases h with h | h
    · omega
    · exact h hnone
  rw [Peer.timedOut]
  exact if_neg hcond

/-- The charge that an ask's end makes stands in the peer's record once the event has run out (R114 to R116). -/
theorem settle_endAsk_peer {e : AskEnd} (hr : s.running = true) (hp : s.peer a.peer = some p) (hrem : p.removalDue = false) :
    ∃ q, (s.endAsk a e).settle.peer a.peer = some q ∧ q.unasked = (p.askEnded s.clock e).unasked :=
  settle_peer (sameStore_running (sameStore_of_calm (calm_endAsk a e)) hr)
    (endAsk_peer hp ((askEnded_removalDue p s.clock e).trans hrem))

end

/-- Settles O42: the one expired ask is the one that the command ends, and the running out of the event keeps its peer's charge. -/
theorem askTimesOut : Obligations.AskTimesOut := by
  unfold Obligations.AskTimesOut
  refine ⟨fun s hnone => exec_askTimeout_none (timedOutAsk_of_none ?_), fun s a t0 hr ha hsent hto hle honly => ?_⟩
  · rintro a ha ⟨hsent, t0, hto, hle⟩
    exact Nat.not_lt.mpr hle (hnone a ha hsent t0 hto)
  have honly' : ∀ b ∈ s.fetch.asks, s.askExpired b → b = a := fun b hb ⟨hbs, t1, hbt, hbl⟩ => honly b hb hbs t1 hbt hbl
  refine ⟨s.countAskTimeout.endAsk a .timedOut, exec_askTimeout_some (timedOutAsk_of_only ha ⟨hsent, t0, hto, hle⟩ honly'),
    endAsk_asks _ _ _, congrArg Counters.askTimeouts (endAsk_counters _ _ _), fun p hp hrem => ?_⟩
  obtain ⟨q, hq, hcharge⟩ := settle_endAsk_peer (s := s.countAskTimeout) (e := .timedOut) hr hp hrem
  obtain ⟨-, -, -, -, -, -, -, hloss, htimeouts, hunresponsive, hbusy, -, -, hvalues, -⟩ := unasked_eq_fields hcharge
  exact ⟨q, hq, hloss, htimeouts, hvalues, hbusy,
    fun ht hu => hunresponsive.trans (timedOut_unresponsive_third (p := { p with asks := p.asks - 1 }) ht hu),
    fun h => hunresponsive.trans (timedOut_unresponsive_same (p := { p with asks := p.asks - 1 }) h)⟩

end Sys2Proof.Machine

/-! # The pace of the link (R168, R169)

What a congestion mark, an ANNOUNCE and the decay timer make of the send rate and its timers. Only the reading of a frame's header touches
them: the taking of its sender, the use of its body and the running out of the event all leave the pace as it is. -/

namespace Sys2Proof.Machine

/-- The values by which R168 and R169 lower the allowed send rate. -/
structure Pace where
  asr : Nat
  increase : Nat
  decreaseHold : Option Instant
  decay : Option Instant

def Link.pace (l : Link) : Pace :=
  { asr := l.asr, increase := l.increase, decreaseHold := l.decreaseHold, decay := l.decay }

section

variable {s t : State} {k : FrameKind} {h : LinkHeader} {body : List Byte} {c : Instr}

theorem Quiet.pace (q : Quiet s t) : t.link.pace = s.link.pace := congrArg Link.pace q.link

theorem State.still.pace (q : s.still t) : t.link.pace = s.link.pace := by
  simp only [Link.pace, q.asr, q.increase, q.decreaseHold, q.decay]

/-! ## Asks and answers leave the pace alone -/

theorem manifestAskEnded_link (s : State) (i : SlotId) : (s.manifestAskEnded i).link = s.link := by
  unfold State.manifestAskEnded
  split <;> rfl

theorem endAsk_pace (s : State) (a : Ask) (e : AskEnd) : (s.endAsk a e).link.pace = s.link.pace := by
  unfold State.endAsk
  extract_lets s1 s2 s3 s4
  have hpeer : s3.link.pace = s.link.pace := (quiet_peerAskEnded (s := s2) a.peer e).pace
  have hslot : s4.link.pace = s3.link.pace := by
    unfold s4
    split
    · exact congrArg Link.pace (manifestAskEnded_link s3 a.slot)
    · rfl
  exact hslot.trans hpeer

theorem endAsks_pace (e : AskEnd) (asks : List Ask) (s : State) :
    (asks.foldl (fun s a => s.endAsk a e) s).link.pace = s.link.pace := by
  induction asks generalizing s with
  | nil => rfl
  | cons a asks ih => exact (ih (s.endAsk a e)).trans (endAsk_pace s a e)

theorem indexArrived_pace (s : State) (d : Domain) (g : Gen) (i : Nat) : (s.indexArrived d g i).link.pace = s.link.pace :=
  endAsks_pace .arrived _ _

theorem manifestAnswered_pace (s : State) (n : Station) (d : Domain) (g : Gen) :
    (s.manifestAnswered n d g).link.pace = s.link.pace := by
  unfold State.manifestAnswered
  split
  · exact endAsk_pace _ _ _
  · rfl

theorem takeDecline_pace (s : State) (n : Station) (b : DeclineBody) : (s.takeDecline n b).link.pace = s.link.pace := by
  unfold State.takeDecline
  dsimp only
  split
  · exact endAsk_pace s.countDecline _ _
  · rfl

theorem answerPeer_pace (s : State) (k : FrameKind) (n : Station) (b : List Byte) :
    (s.answerPeer k n b).link.pace = s.link.pace := by
  unfold State.answerPeer State.offerControl
  split <;> rfl

theorem takeManifestAsk_pace (s : State) (n : Station) (d : Domain) (g : Gen) :
    (s.takeManifestAsk n d g).link.pace = s.link.pace := by
  unfold State.takeManifestAsk
  split
  · rfl
  · exact answerPeer_pace _ _ _ _

theorem takeSegmentAsk_pace (s : State) (n : Station) (d : Domain) (g : Gen) (first count : Nat) :
    (s.takeSegmentAsk n d g first count).link.pace = s.link.pace := by
  unfold State.takeSegmentAsk
  split
  · rfl
  split
  · exact answerPeer_pace _ _ _ _
  extract_lets total
  split
  · rfl
  split
  · rfl
  split
  · exact answerPeer_pace _ _ _ _
  · rfl

/-! ## Manifests and segments leave the pace alone -/

theorem openSlot_link {d : Domain} {g : Gen} {o : Origin} {i : SlotId} (ho : s.openSlot d g o = some (i, t)) : t.link = s.link := by
  unfold State.openSlot at ho
  split at ho
  · cases ho
  · cases ho
    rfl

theorem takeManifest_link (s : State) (m : Manifest) : (s.takeManifest m).link = s.link := by
  unfold State.takeManifest
  dsimp only
  split
  · rfl
  split
  · rfl
  split
  · split
    · rfl
    · split <;> rfl
  · split
    · split
      next i s' hopen => exact openSlot_link (t := s') hopen
      next => rfl
    · rfl

theorem takeSegment_pace (s : State) (n : Station) (d : Domain) (bytes : List Byte) :
    (s.takeSegment n d bytes).link.pace = s.link.pace := by
  unfold State.takeSegment
  cases s.judgeSegment d bytes with
  | badCrc | differs => exact (quiet_peerSegmentFailure (s := s.countSegmentCrc) n).pace
  | draining => exact indexArrived_pace s.countDiscardedDrain d _ _
  | accepted i =>
    dsimp only
    split <;> rfl
  | badOps | badIndex | duplicate | noSlot => rfl

/-! ## A whole frame -/

/-- No frame's body changes the pace (R174): the blocks that use the bodies are not the LNK. -/
theorem frameUse_pace (c : Instr) (s : State) : (frameUse c s).link.pace = s.link.pace := by
  cases c <;> try rfl
  case announceReceived h body =>
    show (s.useAnnounce h body).link.pace = _
    unfold State.useAnnounce
    split
    · rfl
    · exact (quiet_takeAnnounce _ _ _).pace
  case manifestAskReceived h body =>
    show (s.useManifestAsk h body).link.pace = _
    unfold State.useManifestAsk
    split
    · rfl
    split
    · rfl
    · exact takeManifestAsk_pace _ _ _ _
  case manifestReceived h body =>
    show (s.useManifest h body).link.pace = _
    unfold State.useManifest
    split
    · rfl
    split
    · rfl
    · exact (manifestAnswered_pace _ _ _ _).trans (congrArg Link.pace (takeManifest_link _ _))
  case segmentAskReceived h body =>
    show (s.useSegmentAsk h body).link.pace = _
    unfold State.useSegmentAsk
    split
    · rfl
    split
    · rfl
    · exact takeSegmentAsk_pace _ _ _ _ _ _
  case segmentReceived h body =>
    show (s.useSegment h body).link.pace = _
    unfold State.useSegment
    split
    · rfl
    · exact takeSegment_pace _ _ _ _
  case declineReceived h body =>
    show (s.useDecline h body).link.pace = _
    unfold State.useDecline
    split
    · rfl
    split
    · rfl
    · exact takeDecline_pace _ _ _

theorem settle_pace (hr : s.running = true) : s.settle.link.pace = s.link.pace := (settle_still_running hr).pace

theorem readHeader_running (hr : s.running = true) : (s.readHeader k h).running = true :=
  sameStore_running (sameStore_of_calm (calm_readHeader k h)) hr

/-- The pace that the header of a passed frame gives stands at the end of the event, also where the sender's number is one that the peer
table refuses (R107, R174). -/
theorem exec_frame_pace (hc : frameOf c = some (k, h, body)) (hr : s.running = true) (hf : frameFormed k h body)
    (ho : s.frameOurs h) : ∃ t, exec c s = .next t ∧ t.link.pace = (s.readHeader k h).link.pace := by
  refine ⟨_, exec_frame hc s, ?_⟩
  by_cases hbad : badSender h = true
  · have hreceive : s.receive k h body (frameUse c) = (s.readHeader k h).countMalformed.settle := by
      simp [State.receive, hr, filterFrame_passed hf ho, hbad]
    have hrun : (s.readHeader k h).countMalformed.running = true := readHeader_running hr
    rw [hreceive, settle_pace hrun]
    rfl
  · have hreceive : s.receive k h body (frameUse c) = (frameUse c ((s.readHeader k h).takeHeader h)).settle := by
      simp [State.receive, hr, filterFrame_passed hf ho, hbad]
    have hheader := quiet_takeHeader (s := s.readHeader k h) h
    have hrun : (frameUse c ((s.readHeader k h).takeHeader h)).running = true :=
      sameStore_running (sameStore_trans (sameStore_of_calm hheader.calm) (frameUse_sameStore c _)) (readHeader_running hr)
    rw [hreceive, settle_pace hrun, frameUse_pace, hheader.pace]

/-! ## The mark and the decay timer -/

/-- Reading a marked header hears the mark; an ANNOUNCE then restarts the decay timer beside it (R168, R169). -/
theorem readHeader_marked_pace (hm : h.flags.getLsbD 0 = true) :
    (s.readHeader k h).link.pace = { s.markHeard.link.pace with decay := (s.readHeader k h).link.decay } := by
  have hmark : congestionMark h = true := hm
  unfold State.readHeader
  rw [if_pos hmark]
  dsimp only
  split <;> rfl

/-- The decay timer's expiry (R169). -/
def State.decayed (s : State) : State :=
  ((s.changeAsr (s.link.asr / 2)).linked (fun l => { l with increase := 0 })).startDecay

theorem exec_decayTimerExpiry_due {t0 : Nat} (hd : s.link.decay = some t0) (ht : t0 ≤ s.clock) :
    exec .decayTimerExpiry s = .next s.decayed := by
  have hdue : s.due s.link.decay = true := due_iff.mpr ⟨t0, hd, ht⟩
  show execDecayTimerExpiry s = _
  rw [execDecayTimerExpiry, if_pos hdue, State.decayed]

theorem decayed_pace (s : State) : s.decayed.link.pace =
    { asr := max s.supply.config.msr (min s.supply.config.psr (s.link.asr / 2)), increase := 0,
      decreaseHold := s.link.decreaseHold, decay := some (s.clock + 4000000) } := by
  obtain ⟨-, hasr, -, hhold, -⟩ := changeAsr_facts s (s.link.asr / 2)
  have hclock := (calm_changeAsr (s := s) (s.link.asr / 2)).clock
  simp [State.decayed, State.startDecay, Link.pace, Config.decayPeriod, Config.second, hasr, hhold, hclock]

theorem decayed_linkOnly (s : State) : LinkOnly s s.decayed :=
  linkOnly_trans (changeAsr_linkOnly s _) ⟨rfl, rfl, rfl⟩

end

/-- Settles O38: the mark is heard as the header is read, before the sender and the body count, and what follows keeps the pace. -/
theorem congestionMarkHeard : Obligations.CongestionMarkHeard := by
  unfold Obligations.CongestionMarkHeard
  intro s c k h body hc hr hf ho hm
  obtain ⟨t, hexec, hpace⟩ := exec_frame_pace hc hr hf ho
  rw [readHeader_marked_pace hm] at hpace
  have hasr : t.link.asr = s.markHeard.link.asr := congrArg Pace.asr hpace
  have hincrease : t.link.increase = s.markHeard.link.increase := congrArg Pace.increase hpace
  have hhold : t.link.decreaseHold = s.markHeard.link.decreaseHold := congrArg Pace.decreaseHold hpace
  refine ⟨t, hexec, ?_⟩
  rw [hasr, hincrease, hhold]
  exact markHeard_facts s

/-- Settles O39: the expiry is the change of the ASR to its half, and an ANNOUNCE restarts the timer as its header is read. -/
theorem decayHalvesRate : Obligations.DecayHalvesRate := by
  unfold Obligations.DecayHalvesRate
  refine ⟨fun s t0 hd ht => ?expiry, fun s h body hr hf ho => ?announce⟩
  case expiry =>
    have hpace := decayed_pace s
    exact ⟨s.decayed, exec_decayTimerExpiry_due hd ht, congrArg Pace.asr hpace, congrArg Pace.increase hpace,
      congrArg Pace.decay hpace, (decayed_linkOnly s).1⟩
  case announce =>
    obtain ⟨t, hexec, hpace⟩ := exec_frame_pace (c := .announceReceived h body) rfl hr hf ho
    exact ⟨t, hexec, (congrArg Pace.decay hpace).trans (readHeader_decay s h)⟩

end Sys2Proof.Machine

/-! # The step, the invariant and the state after reset -/

namespace Sys2Proof.Machine

/-- The invariant reads neither the queue nor the clock nor the banks' working records. -/
theorem State.Inv.of_rest {s t : State} (h : s.Inv)
    (ht : t = { s with clock := t.clock, banks := t.banks, pending := t.pending }) : t.Inv := by
  rw [ht]
  exact { h with }

/-- The tick of the clock keeps the invariant. -/
theorem tick_inv {s : State} (h : s.Inv) : (tick s).Inv := by
  unfold tick
  split
  · exact h
  · exact State.Inv.of_rest ((commitDomainHeaders_ok (Ok.refl false s)).inv h) rfl

/-- Settles O4: a command keeps the invariant by the rule of each command, and the tick by `tick_inv`. -/
theorem stepKeepsInvariant : Obligations.StepKeepsInvariant := by
  unfold Obligations.StepKeepsInvariant
  intro s t h hstep
  unfold step at hstep
  split at hstep
  next => cases hstep; exact tick_inv h
  next c rest _ => exact (exec_ok hstep).inv (State.Inv.of_rest h rfl)

/-- Settles O3: the rule that every command keeps the queue and the clock. -/
theorem everyCommandAnswers : Obligations.EveryCommandAnswers := by
  unfold Obligations.EveryCommandAnswers
  intro c s
  obtain ⟨t, hexec, hok⟩ := exec_keeps c s
  exact ⟨t, hexec, hok.pending, hok.clock⟩

/-- Settles O7: what `settle` leaves alone outside the two power states that it may end. -/
theorem eventRunsOutWithinBlocks : Obligations.EventRunsOutWithinBlocks := by
  unfold Obligations.EventRunsOutWithinBlocks
  exact fun s hclosing hdormant => ⟨settle_still hclosing hdormant, settle_pending s, settle_clock s⟩

/-- Settles O1: by the definition of a step. -/
theorem stepTakesFrontCommand : Obligations.StepTakesFrontCommand := by
  unfold Obligations.StepTakesFrontCommand
  exact fun _ _ _ => rfl

/-- The tick of an unpowered part changes nothing. -/
theorem tick_unpowered {s : State} (h : s.supply.power = .unpowered) : tick s = s := by
  unfold tick
  rw [if_pos (by simp [h])]

/-- The tick of a powered part, field by field. -/
theorem tick_powered {s : State} (h : s.supply.power ≠ .unpowered) :
    tick s = { s with
      clock := s.clock + 1, banks := if s.running = true then s.banks.map Bank.aged else s.banks
      domainWrites := { block := none, product := none }
      store := { s.store with domains := s.commitDomainHeaders.store.domains } } := by
  have hrun : s.commitDomainHeaders.running = s.running := by simp [State.running]
  have hshape := s.commitDomainHeaders_shape
  unfold tick
  rw [if_neg (by simp [h])]
  dsimp only
  rw [hrun]
  generalize s.commitDomainHeaders = t at hshape ⊢
  generalize t.store.domains = headers at hshape ⊢
  subst hshape
  rfl

/-- Settles O2: the tick of a step on an empty queue, and the scrub age that it gives each bank. -/
theorem emptyQueueTicks : Obligations.EmptyQueueTicks := by
  unfold Obligations.EmptyQueueTicks
  intro s hempty
  have hstep : step s = .next (tick s) := by
    unfold step
    rw [hempty]
  refine ⟨fun hoff => by rw [hstep, tick_unpowered hoff], fun hon => ⟨tick s, hstep, ?_, fun d => ?_, fun b => ?_⟩⟩
  · rw [tick_powered hon]
  · rw [tick_powered hon]
    exact s.commitDomainHeaders_header d
  · rw [tick_powered hon]
    unfold State.bank
    by_cases hrun : s.running = true <;> simp [hrun, Bank.aged]

/-- Settles O5: the state after reset is one closed state, of which every bound is evaluated. -/
theorem resetHasInvariant : Obligations.ResetHasInvariant := by
  unfold Obligations.ResetHasInvariant
  constructor
  case counters =>
    unfold Counters.bounded
    decide
  all_goals decide

/-- Settles O6: the fields of the state after reset. -/
theorem resetBeginsPowerOnStart : Obligations.ResetBeginsPowerOnStart := by
  unfold Obligations.ResetBeginsPowerOnStart
  decide

end Sys2Proof.Machine

/-! # The validator port: requests and windows -/

namespace Sys2Proof.Machine

/-! ## Taking a request -/

/-- Settles O10: the handlers of a lookup of key 0 and of a bad request frame at a free port. -/
theorem badKeyAndBadFrameAnswered : Obligations.BadKeyAndBadFrameAnswered := by
  unfold Obligations.BadKeyAndBadFrameAnswered
  refine ⟨fun s c kind d hlookup hserving hfree => ?lookup, fun s window kind hwindow htakes hfree => ?badFrame⟩
  case lookup =>
    rw [(exec_lookup hlookup hserving hfree).1]
    rfl
  case badFrame =>
    show Host.Outcome.next _ = _
    simp only [hwindow, htakes, portFree_notBusy hfree, Bool.not_true, Bool.false_eq_true, if_false]
    rfl

/-- A well-formed request that its power state turns away, at a free port (R197). -/
theorem exec_request_turned {s : State} {c : Instr} {kind : RequestKind} {o : OutcomeCode} (hkind : requestKindOf c = some kind)
    (hwf : c.wf = true) (hfree : s.portFree) (htakes : s.takesRequests = true) (hanswer : s.powerAnswer kind = some o) :
    exec c s = .next (s.withResponse kind.code o []) := by
  obtain ⟨ok, handle, hexec, hok⟩ := exec_request hkind s
  rw [hexec, hok hwf, request_turned htakes hfree hanswer]

/-- Settles O11: the answer that each power state gives of its own. -/
theorem powerStateTurnsRequestAway : Obligations.PowerStateTurnsRequestAway := by
  unfold Obligations.PowerStateTurnsRequestAway
  intro s c kind hkind hwf hfree
  refine ⟨fun hp hk => ?starting, fun hp hk hk' => ?commissioning, fun hp hk => ?closing⟩
  case starting => exact exec_request_turned hkind hwf hfree (by simp [State.takesRequests, hp]) (by simp [State.powerAnswer, hp, hk])
  case commissioning =>
    exact exec_request_turned hkind hwf hfree (by simp [State.takesRequests, hp]) (by simp [State.powerAnswer, hp, hk, hk'])
  case closing =>
    exact exec_request_turned hkind hwf hfree (by simp [State.takesRequests, hp]) (by rcases hk with rfl | rfl <;> simp [State.powerAnswer, hp])

/-- In DIP-HOLD, DORMANT and UNPOWERED the port takes no requests (R197). -/
theorem takesRequests_of_dip {s : State} (h : s.supply.power = .dipHold ∨ s.supply.power = .dormant ∨ s.supply.power = .unpowered) :
    s.takesRequests = false := by
  unfold State.takesRequests
  rcases h with h | h | h <;> rw [h]

/-- Settles O12: every command of the port first asks whether the power state takes requests. -/
theorem portTakesNothingInDipOrDormant : Obligations.PortTakesNothingInDipOrDormant := by
  unfold Obligations.PortTakesNothingInDipOrDormant
  intro s c hpower hc
  have hno := takesRequests_of_dip hpower
  rcases hc with hc | ⟨n, rfl⟩ | ⟨n, rfl⟩ | ⟨w, rfl⟩
  · obtain ⟨kind, hkind⟩ := Option.isSome_iff_exists.mp hc
    obtain ⟨ok, handle, hexec, -⟩ := exec_request hkind s
    rw [hexec]
    simp [State.request, hno]
  · show Host.Outcome.next _ = _
    simp [hno]
  · show Host.Outcome.next _ = _
    simp [hno]
  · show Host.Outcome.next _ = _
    cases readWindow w <;> simp [hno]

/-! ## Reading a response -/

/-- R195: a whole unread response is read, and no DROPPED response waits; an armed erase begins. -/
theorem responseRead_whole {s : State} {r : Response} {n : Nat} (hr : s.port.response = some r) (hn : r.bytes.length ≤ n)
    (hd : s.port.dropped = none) :
    s.responseRead n = { s with
      port := { s.port with response := none }, supply := { s.supply with erase := s.supply.erase.map Erase.begun } } := by
  unfold State.responseRead State.placeDropped
  rw [hr]
  dsimp only [State.porting]
  rw [if_pos hn, hd]
  rfl

/-- R195, R198: a whole unread response is read, and the DROPPED response that waits takes the buffer; an armed erase begins. -/
theorem responseRead_dropped {s : State} {r : Response} {n : Nat} {k : Byte} (hr : s.port.response = some r)
    (hn : r.bytes.length ≤ n) (hd : s.port.dropped = some k) :
    s.responseRead n = { s with
      port := { s.port with
        inProgress := none, overrun := false, dropped := none
        response := some { kind := k, outcome := OutcomeCode.dropped.code, overrun := s.port.overrun, body := [] } }
      supply := { s.supply with erase := s.supply.erase.map Erase.begun } } := by
  unfold State.responseRead State.placeDropped
  rw [hr]
  dsimp only [State.porting]
  rw [if_pos hn, hd]
  rfl

/-- R195: a response that the window has not clocked out whole stays. -/
theorem responseRead_part {s : State} {r : Response} {n : Nat} (hr : s.port.response = some r) (hn : n < r.bytes.length) :
    s.responseRead n = s := by
  unfold State.responseRead
  rw [hr]
  exact if_neg (by omega)

/-- Settles O13: an overrun at a busy port, and then the reading of the response that the window has clocked out. -/
theorem requestWhileBusyIsOverrun : Obligations.RequestWhileBusyIsOverrun := by
  unfold Obligations.RequestWhileBusyIsOverrun
  intro s c n htakes hbusy hc
  rw [exec_busyWindow htakes (portBusy_of hbusy) hc]
  refine ⟨fun hpart => by rw [overrunWindow_unread hpart], fun r hr hn => ?_⟩
  refine ⟨fun hd => ?none, fun k hd => ?dropped⟩
  case none => exact congrArg Host.Outcome.next (responseRead_whole (s := s.overrunBy) hr hn hd)
  case dropped => exact congrArg Host.Outcome.next (responseRead_dropped (s := s.overrunBy) hr hn hd)

/-- R195: with no unread response, and in DIP-HOLD, SDO carries fill. -/
theorem sdo_fill {s : State} {n : Nat} (h : s.ready = false ∨ s.supply.power = .dipHold) : s.sdo n = List.replicate n 0xFF#8 := by
  unfold State.sdo
  split
  next r hr =>
    refine if_neg ?_
    rcases h with h | h
    · simp only [State.ready, State.portPowered, hr, Option.isSome_some, Bool.and_true, Bool.and_eq_false_iff, bne_eq_false_iff_eq] at h
      rw [takesRequests_of_dip (.inr h)]
      simp
    · rw [takesRequests_of_dip (.inl h)]
      simp
  next => rfl

/-- R195, R209: SDO carries the unread response and then fill. -/
theorem sdo_response {s : State} {r : Response} {n : Nat} (htakes : s.takesRequests = true) (hr : s.port.response = some r) :
    s.sdo n = (r.bytes ++ List.replicate n 0xFF#8).take n := by
  unfold State.sdo
  rw [hr]
  exact if_pos htakes

/-- R209: SDI bytes of fill carry no request. -/
theorem readWindow_fill {sdi : List Byte} (h : ∀ x ∈ sdi, x = 0xFF#8) : readWindow sdi = .fill := by
  have hdrop : sdi.dropWhile (· == 0xFF#8) = [] := List.dropWhile_eq_nil_iff.mpr (by simpa using h)
  unfold readWindow
  rw [hdrop]

/-- R209: a good request frame has a length that its request code allows. -/
theorem readWindow_request {sdi : List Byte} {kind : Byte} {body : List Byte} (h : readWindow sdi = .request kind body) :
    ∃ n, requestLengthOk kind n = true := by
  unfold readWindow at h
  split at h
  next => cases h
  next k rest _ =>
    dsimp only at h
    split at h
    next => cases h
    next hgood =>
      cases h
      simp only [Bool.or_eq_true, not_or, Bool.not_eq_true', Bool.not_eq_false] at hgood
      exact ⟨_, hgood.1.2⟩

/-- R209: every code with an allowed length is a request's. -/
theorem requestCommand_of_lengthOk {kind : Byte} {n : Nat} (h : requestLengthOk kind n = true) (body : List Byte) :
    ∃ (c : Instr) (k : RequestKind), requestCommand kind body = some c ∧ requestKindOf c = some k ∧ k.code = kind := by
  have hcode : kind = 1 ∨ kind = 2 ∨ kind = 3 ∨ kind = 4 ∨ kind = 5 ∨ kind = 6 ∨ kind = 7 ∨ kind = 8 ∨ kind = 9 ∨ kind = 10 ∨
      kind = 11 := by
    by_contra hne
    simp only [not_or] at hne
    obtain ⟨h1, h2, h3, h4, h5, h6, h7, h8, h9, h10, h11⟩ := hne
    unfold requestLengthOk at h
    rw [if_neg h1, if_neg h2, if_neg h3, if_neg h4, if_neg h5, if_neg h6, if_neg h7, if_neg h8, if_neg h9, if_neg h10,
      if_neg h11] at h
    cases h
  rcases hcode with rfl | rfl | rfl | rfl | rfl | rfl | rfl | rfl | rfl | rfl | rfl <;> exact ⟨_, _, rfl, rfl, rfl⟩

/-- A window that reads the response runs `responseRead` where the port takes requests. -/
theorem exec_responseRead {s : State} (htakes : s.takesRequests = true) (n : Nat) :
    exec (.responseRead n) s = .next (s.responseRead n) :=
  congrArg Host.Outcome.next (if_pos htakes)

/-- Settles O22: SDO and the windows by their definitions, and the reading of a response by its length. -/
theorem responseReadFreesBuffer : Obligations.ResponseReadFreesBuffer := by
  unfold Obligations.ResponseReadFreesBuffer
  refine ⟨fun s n h => sdo_fill h, fun s r n htakes hr => ?sdo, fun s sdi hfill => ?fill, fun s sdi kind body hw hfree => ?request,
    fun s r n htakes hr => ?read⟩
  case sdo =>
    rw [sdo_response htakes hr]
    refine ⟨fun hn => List.take_append_of_le_length hn, fun hn => ?_⟩
    rw [List.take_append, List.take_of_length_le hn, List.take_replicate, Nat.min_eq_left (Nat.sub_le _ _)]
  case fill =>
    unfold State.windowCommand
    rw [readWindow_fill hfill]
  case request =>
    obtain ⟨n, hlength⟩ := readWindow_request hw
    obtain ⟨c, k, hcommand, hkind, hcode⟩ := requestCommand_of_lengthOk hlength body
    refine ⟨k, ?_, hcode⟩
    unfold State.windowCommand
    rw [hw]
    simp [portFree_notBusy hfree, hcommand, hkind]
  case read =>
    rw [exec_responseRead htakes]
    refine ⟨fun hn => by rw [responseRead_part hr hn], fun hn => ⟨fun hd he => ?none, fun k hd he => ?dropped, fun rec hd he => ?erase⟩⟩
    case none => rw [responseRead_whole hr hn hd, he, Option.map_none, ← he]
    case dropped => rw [responseRead_dropped hr hn hd, he, Option.map_none, ← he]
    case erase =>
      rw [responseRead_whole hr hn hd, he]
      rfl

end Sys2Proof.Machine

/-! # The validator port: what the requests answer -/

namespace Sys2Proof.Machine

/-! ## Lookups that meet a failing record -/

section

variable {s : State} {b : BankId} {key : Nat}

/-- R45, R49: what a lookup that meets a failing record does to the bank and leaves of the others. -/
theorem lookupEffect_of_failing (hfail : (s.lookup b key).checkFailed = true) (hfaulted : (s.bank b).state ≠ .faulted) :
    ((s.lookupEffect b key).bank b).scrubDue = true ∧
    ((s.lookupEffect b key).bank b).state = (if (s.bank b).state = .idle then .scrubbing else (s.bank b).state) ∧
    ∀ e, e ≠ b → (s.lookupEffect b key).bank e = s.bank e := by
  obtain ⟨pr, hpr, hkey, hbad⟩ := keyFails_iff.mp (keyFails_of_lookup_checkFailed hfail)
  have hplaces : failingPlaces (s.places b) key ≠ [] :=
    List.ne_nil_of_mem (List.mem_map_of_mem (List.mem_filter.mpr ⟨hpr, by simp [hkey, hbad]⟩))
  have hmark := markFailing_due (s.bank b) _ hplaces hfaulted
  have hother : ∀ e, e ≠ b → (s.markFailing b (failingPlaces (s.places b) key)).bank e = s.bank e :=
    fun e he => State.banking_bank_other _ _ _ _ he
  have hbank : (s.markFailing b (failingPlaces (s.places b) key)).bank b = (s.bank b).markFailing (failingPlaces (s.places b) key) :=
    State.banking_bank _ _ _
  unfold State.lookupEffect
  rw [if_pos hfail]
  dsimp only
  rw [hbank, hmark.2]
  by_cases hidle : (s.bank b).state = .idle
  · obtain ⟨-, hrest, hdue, hstate⟩ := beginScrub_shape (s.markFailing b (failingPlaces (s.places b) key)) b
    rw [if_pos (by simp [hidle]), if_pos hidle]
    exact ⟨by rw [hdue, hbank, hmark.1], hstate, fun e he => (hrest e he).trans (hother e he)⟩
  · rw [if_neg (by simp [hidle]), if_neg hidle]
    exact ⟨by rw [hbank, hmark.1], by rw [hbank, hmark.2], hother⟩

end

/-- Settles O9: the lookup carries the CHECK-FAIL mark, and its effect on the banks follows from that. -/
theorem failingRecordMakesScrubDue : Obligations.FailingRecordMakesScrubDue := by
  unfold Obligations.FailingRecordMakesScrubDue
  intro s c kind d key b hlookup hkey hserving hfree h8 _ hb hstate hmark hfail
  have hdomain := bankDomain_of_val h8 hb
  have hhides : (s.bank b).header.hidesUntil (s.domain (s.bankDomain b)).visible = false := by
    rw [Bool.eq_false_iff, Ne, hidesUntil_iff, hdomain]
    rintro ⟨g, hg, hlt⟩
    exact Nat.not_le.mpr hlt (hmark g hg)
  have hfaulted : (s.bank b).state ≠ .faulted := by rcases hstate with h | h | h | h <;> rw [h] <;> decide
  obtain ⟨hdue, hbank, hother⟩ := lookupEffect_of_failing (lookup_checkFailed hstate hhides hfail) hfaulted
  refine ⟨_, (exec_lookup hlookup hserving hfree).1, ?_⟩
  unfold State.answerLookup
  rw [if_neg hkey, lookupAnswered_eq (bankOf_of_val hb)]
  refine ⟨hdue, hbank, hother, ?_⟩
  rw [lookupEffect_banksOnly]
  rfl

/-! ## Status -/

section

variable {s : State}

theorem toBytes_one (n : Nat) : toBytes 1 n = [BitVec.ofNat 8 n] := by simp [toBytes]

/-- R20: the needs-baseline flag, bank by bank. -/
theorem needsBaseline_iff (s : State) (d : Domain) :
    s.needsBaseline d = true ↔ ∃ b : BankId, s.bankDomain b = d ∧ (s.bank b).header.faultMark = true := by
  simp [State.needsBaseline, State.banksOf, allBanks]

/-- R210: the status block of a domain, byte by byte. -/
theorem statusBlock_bytes (s : State) (d : Domain) :
    s.statusBlock d = toBytes 4 (s.domain d).held ++ toBytes 4 (s.domain d).visible ++
      [BitVec.ofNat 8 (s.domain d).pending.length] ++ toBytes 4 ((s.domain d).pending.getD 0 0) ++
      toBytes 4 ((s.domain d).pending.getD 1 0) ++ toBytes 4 ((s.domain d).pending.getD 2 0) ++
      [if ∃ b : BankId, s.bankDomain b = d ∧ (s.bank b).header.faultMark = true then 1 else 0] := by
  unfold State.statusBlock
  dsimp only
  rw [if_congr (needsBaseline_iff s d) rfl rfl, toBytes_one]
  simp [List.range_succ]

theorem statusBlock_length (s : State) (d : Domain) : (s.statusBlock d).length = 22 := by
  simp [statusBlock_bytes, toBytes_length]

/-- R210: the block of a slot, byte by byte. -/
theorem Slot.statusBlock_bytes (x : Slot) :
    x.statusBlock = x.state.code :: (if x.state = .empty then [0, 0, 0, 0, 0] else domainCode x.domain :: toBytes 4 x.gen) ++
      toBytes 2 x.presence.length ++ toBytes 2 x.count := by
  have hzero : toBytes 4 0 = [0, 0, 0, 0] := by decide
  unfold Slot.statusBlock Slot.countsBody
  by_cases h : x.state = .empty <;> simp [h, hzero]

theorem Slot.statusBlock_length (x : Slot) : x.statusBlock.length = 10 := by
  simp [Slot.statusBlock, Slot.countsBody, toBytes_length]

theorem slotBlocks_length (s : State) : (allSlots.flatMap (fun i => (s.slot i).statusBlock)).length = 60 := by
  simp [List.length_flatMap, Slot.statusBlock_length, allSlots]

/-- R120: the five counts. -/
theorem peerSummary_counts (s : State) :
    s.peerSummary =
      [BitVec.ofNat 8 (s.peers.countP (fun p => p.state == .known)),
       BitVec.ofNat 8 (s.peers.countP (fun p => p.state == .stale)),
       BitVec.ofNat 8 (s.peers.countP (fun p => p.state == .known && p.cohort)),
       BitVec.ofNat 8 (s.peers.countP (fun p => p.state == .known && p.parked)),
       BitVec.ofNat 8 (s.peers.countP (fun p => p.state == .known && p.congested))] := by
  simp only [State.peerSummary, State.peerCount, List.countP_eq_length_filter]

/-- R210: the first five bytes of a status body. -/
def State.statusHead (s : State) : List Byte :=
  [s.supply.power.code, if s.supply.power = .starting then s.supply.kind.code else 0,
    s.backup.cause.cause.code, s.backup.cause.kind.code, BitVec.ofNat 8 s.backup.cause.dips]

/-- R210: the bytes of a status body after the slot blocks. -/
def State.statusTail (s : State) : List Byte :=
  toBytes 2 s.link.asr ++ [s.link.lowRate.code, BitVec.ofNat 8 s.load] ++ s.peerSummary ++
    allBanks.map (fun b => (s.bank b).state.code) ++ toBytes 2 s.port.flags.toNat

theorem statusTail_length (s : State) : s.statusTail.length = 27 := by
  simp [State.statusTail, toBytes_length, State.peerSummary, allBanks]

/-- R210: the four parts of a status body. -/
theorem statusBody_parts (s : State) :
    s.statusBody = s.statusHead ++ ((s.statusBlock .block ++ s.statusBlock .product) ++
      (allSlots.flatMap (fun i => (s.slot i).statusBlock) ++ s.statusTail)) := by
  simp [State.statusBody, State.statusHead, State.statusTail, toBytes_one]

/-- No power state that takes requests turns READ-STATUS away (R197). -/
theorem readStatus_noPowerAnswer (htakes : s.takesRequests = true) : s.powerAnswer .readStatus = none := by
  revert htakes
  unfold State.takesRequests State.powerAnswer
  cases s.supply.power <;> simp

end

/-- Settles O14: the four parts of the status body, each by its bytes and its length. -/
theorem statusAnswered : Obligations.StatusAnswered := by
  unfold Obligations.StatusAnswered
  intro s htakes hfree
  have hhead : s.statusHead.length = 5 := rfl
  have hdomains : (s.statusBlock .block ++ s.statusBlock .product).length = 44 := by simp [statusBlock_length]
  have hslots := slotBlocks_length s
  refine ⟨s.statusBody, congrArg Host.Outcome.next (request_answered htakes hfree (readStatus_noPowerAnswer htakes)), ?_⟩
  rw [statusBody_parts]
  refine ⟨?length, ?head, ?domains, ?slots, ?tail⟩
  case length => simp only [List.length_append, hhead, statusBlock_length, hslots, statusTail_length]
  case head => exact List.take_left' hhead
  case domains =>
    rw [List.drop_left' hhead, List.take_left' hdomains, statusBlock_bytes, statusBlock_bytes]
    simp only [List.flatMap_cons, List.flatMap_nil, List.append_nil]
  case slots =>
    rw [← List.append_assoc, List.drop_left' (by rw [List.length_append, hhead, hdomains]), List.take_left' hslots]
    simp only [Slot.statusBlock_bytes]
    rfl
  case tail =>
    rw [← List.append_assoc, ← List.append_assoc,
      List.drop_left' (by rw [List.length_append, List.length_append, hhead, hdomains, hslots])]
    unfold State.statusTail
    rw [peerSummary_counts]
    rfl

/-! ## Counters, notices and the lag list -/

/-- Settles O15: the two requests run their own rules in a serving power state. -/
theorem countersAndNoticesAnswered : Obligations.CountersAndNoticesAnswered := by
  unfold Obligations.CountersAndNoticesAnswered
  intro s hserving hfree
  refine ⟨congrArg Host.Outcome.next (serving_request hserving hfree (by decide) (by decide)), ?length, _,
    congrArg Host.Outcome.next (serving_request hserving hfree (by decide) (by decide)), rfl, rfl, ?attention⟩
  case length => simp [Counters.list, toBytes_length]
  case attention => simp [State.attention, State.porting]

/-- R209: an enable set with a bit above the eleven is not allowed. -/
theorem noticeEnable_bodyRefused {en : BitVec 16} (h : 2048 ≤ en.toNat) : bodyAllowed .setNoticeEnable (toBytes 2 en.toNat) = false := by
  have hfield : field (toBytes 2 en.toNat) 0 2 = en.toNat := field_two _ en.isLt
  show (requestLengthOk 6 2 && decide (field (toBytes 2 en.toNat) 0 2 < 2048)) = false
  rw [hfield, decide_eq_false (by omega), Bool.and_false]

/-- Settles O16: an allowed set is taken by its own rule, and another one turned away before it. -/
theorem noticeEnablesReplaced : Obligations.NoticeEnablesReplaced := by
  unfold Obligations.NoticeEnablesReplaced
  intro s en hserving hfree
  refine ⟨fun hlow => ?taken, fun hhigh => ?refused⟩
  case taken =>
    have hpowered : s.portPowered = true := by rcases hserving with h | h | h <;> simp [State.portPowered, h]
    have hexec : exec (.setNoticeEnable en) s = .next (s.request .setNoticeEnable 2 true (fun s =>
        (s.respond .setNoticeEnable .ok (toBytes 2 en.toNat)).porting (fun p => { p with enables := en }))) := by
      rw [← noticeEnable_bodyAllowed hlow]
      rfl
    rw [serving_request hserving hfree (by decide) (by decide)] at hexec
    refine ⟨_, hexec, rfl, rfl, ?_⟩
    show ((s.portPowered && (s.port.flags &&& en) != 0#16) = true) ↔ _
    simp [hpowered]
  case refused =>
    show Host.Outcome.next _ = _
    rw [noticeEnable_bodyRefused hhigh]
    unfold State.request
    simp only [serving_takesRequests hserving, portFree_notBusy hfree, Bool.not_true, Bool.not_false, Bool.false_eq_true, if_false,
      if_true]
    rfl

/-- Settles O17: READ-LAG by the two shapes of the lag list. -/
theorem readLagTakesOldestEntry : Obligations.ReadLagTakesOldestEntry := by
  unfold Obligations.ReadLagTakesOldestEntry
  intro s hserving hfree
  have hexec : exec .readLag s = .next s.readLag :=
    congrArg Host.Outcome.next (serving_request hserving hfree (by decide) (by decide))
  rw [hexec]
  unfold State.readLag
  refine ⟨fun h => ?_, fun e rest h => ?_⟩
  · rw [h]
    rfl
  · rw [h]
    rfl

/-! ## Commissioning -/

/-- A well-formed COMMISSION runs its own rule where the power state does not turn it away. -/
theorem exec_commission {s : State} {body : List Byte} (hfree : s.portFree) (hwf : Instr.wf (.commission body) = true)
    (htakes : s.takesRequests = true) (hanswer : s.powerAnswer .commission = none) :
    exec (.commission body) s = .next (s.commission body) := by
  show Host.Outcome.next (s.request .commission body.length (bodyAllowed .commission body) (fun s => s.commission body)) = _
  rw [show bodyAllowed .commission body = true from (Sys2Proof.Laws.Operands.commission body hwf).1 _ rfl,
    request_answered htakes hfree hanswer]

/-- Settles O21: COMMISSION by the power state, the erase in hand and the record. -/
theorem commissionJudged : Obligations.CommissionJudged := by
  unfold Obligations.CommissionJudged
  intro s body hfree hwf
  have commissioning (hp : s.supply.power = .commissioning) : exec (.commission body) s = .next (s.commission body) :=
    exec_commission hfree hwf (by simp [State.takesRequests, hp]) (by simp [State.powerAnswer, hp])
  refine ⟨fun hp he => ?judged, fun h => ?refused⟩
  case judged =>
    rw [commissioning hp]
    unfold State.commission
    rw [if_pos (by simp [hp, he])]
    refine ⟨fun hok => ?_, fun hbad => ?_⟩
    · dsimp only
      rw [if_pos hok]
      rfl
    · dsimp only
      rw [if_neg (by simp [hbad])]
      rfl
  case refused =>
    have hexec : exec (.commission body) s = .next (s.commission body) := by
      rcases h with ⟨hp, -⟩ | h
      · exact commissioning hp
      · exact exec_commission hfree hwf (serving_takesRequests h) (serving_noPowerAnswer h (by decide) (by decide))
    rw [hexec]
    unfold State.commission
    rw [if_neg]
    · rfl
    · rcases h with ⟨-, he⟩ | h | h | h
      · simp [he]
      all_goals simp [h]

end Sys2Proof.Machine

/-! # Frames of the fleet link: the filter, the sender's record and the announced values -/

namespace Sys2Proof.Machine

/-! ## The receive filter -/

section

variable {s : State} {k : FrameKind} {h : LinkHeader} {body : List Byte} {use : State → State}

/-- Outside RUN and PARKED a frame is discarded (R173). -/
theorem receive_off (hr : s.running = false) : s.receive k h body use = s := by
  unfold State.receive
  rw [hr]
  rfl

/-- A frame that is not well formed is counted and not used (R173). -/
theorem receive_malformed (hr : s.running = true) (hf : ¬ frameFormed k h body) : s.receive k h body use = s.countMalformed := by
  unfold State.receive
  rw [hr, filterFrame_malformed hf]
  rfl

/-- A well-formed frame that is not for this station is counted and not used (R173). -/
theorem receive_foreign (hr : s.running = true) (hf : frameFormed k h body) (ho : ¬ s.frameOurs h) :
    s.receive k h body use = s.countForeign := by
  unfold State.receive
  rw [hr, filterFrame_foreign hf ho]
  rfl

/-- A frame from a sender number that the peer table does not take is counted after its header is read (R107). -/
theorem receive_badSender (hr : s.running = true) (hf : frameFormed k h body) (ho : s.frameOurs h) (hs : badSender h = true) :
    s.receive k h body use = (s.readHeader k h).countMalformed.settle := by
  unfold State.receive
  rw [hr, filterFrame_passed hf ho]
  dsimp only
  rw [hs]
  rfl

end

/-- The bytes of a frame shorter than its header, or of an unknown kind, are malformed (R173). -/
theorem filterBytes_short {s : State} {frame : List Byte} (h : frame.length < 16 ∨ frameKindOfCode (byteAt frame 4) = none) :
    s.filterBytes frame = .malformed := by
  unfold State.filterBytes
  by_cases hl : frame.length < 16
  · exact if_pos hl
  · rw [if_neg hl, h.resolve_left hl]
    rfl

/-- Longer bytes of a known kind are filtered as a frame (R173). -/
theorem filterBytes_frame {s : State} {frame : List Byte} {k : FrameKind} (hl : 16 ≤ frame.length)
    (hk : frameKindOfCode (byteAt frame 4) = some k) :
    s.filterBytes frame = s.filterFrame (some k) (headerOf frame) (frame.drop 16) := by
  unfold State.filterBytes
  rw [if_neg (by omega), hk]

/-- R173: what the filter's verdict counts. -/
def State.filterCounted (s : State) : Filtered → State
  | .malformed => s.countMalformed
  | .foreign => s.countForeign
  | .passed => s

/-- A RECEIVE_FILTER_DROP counts what the filter makes of its bytes. -/
theorem exec_receiveFilterDrop {s : State} (hr : s.running = true) (frame : List Byte) :
    exec (.receiveFilterDrop frame) s = .next (s.filterCounted (s.filterBytes frame)) := by
  show Host.Outcome.next _ = _
  rw [hr]
  cases s.filterBytes frame <;> rfl

theorem exec_receiveFilterDrop_off {s : State} (hr : s.running = false) (frame : List Byte) :
    exec (.receiveFilterDrop frame) s = .next s := by
  show Host.Outcome.next _ = _
  rw [hr]
  rfl

/-- Settles O23: the tests of the filter in their order, for the six frames and for the bytes of a dropped one. -/
theorem framesFiltered : Obligations.FramesFiltered := by
  unfold Obligations.FramesFiltered
  refine ⟨fun s c k h body hc => ?frames, fun s frame => ?bytes⟩
  case frames =>
    rw [exec_frame hc]
    refine ⟨fun hr => ?_, fun hr hf => ?_, fun hr hf ho => ?_⟩
    · rw [receive_off hr]
    · rw [receive_malformed hr hf]
      rfl
    · rw [receive_foreign hr hf ho]
      rfl
  case bytes =>
    refine ⟨fun hr => exec_receiveFilterDrop_off hr frame, fun hr hshort => ?_, fun k hr hl hk => ⟨fun hf => ?_, fun hf ho => ?_⟩⟩
    · rw [exec_receiveFilterDrop hr, filterBytes_short hshort]
      rfl
    · rw [exec_receiveFilterDrop hr, filterBytes_frame hl hk, filterFrame_malformed hf]
      rfl
    · rw [exec_receiveFilterDrop hr, filterBytes_frame hl hk, filterFrame_foreign hf ho]
      rfl

/-! ## What no frame writes -/

/-- In RUN and PARKED the running out of an event keeps what a frame left of the store. -/
theorem sameStore_settle {s u : State} (hr : s.running = true) (h : s.sameStore u) : s.sameStore u.settle :=
  sameStore_trans h (settle_sameStore (sameStore_running h hr))

/-- The reception of a frame writes no store memory when its use does not. -/
theorem receive_sameStore {s : State} {k : FrameKind} {h : LinkHeader} {body : List Byte} {use : State → State}
    (huse : ∀ x : State, x.sameStore (use x)) : s.sameStore (s.receive k h body use) := by
  have hread : s.sameStore (s.readHeader k h) := sameStore_of_calm (calm_readHeader k h)
  by_cases hr : s.running = true
  · by_cases hf : frameFormed k h body
    · by_cases ho : s.frameOurs h
      · by_cases hs : badSender h = true
        · rw [receive_badSender hr hf ho hs]
          exact sameStore_settle hr (sameStore_trans hread (sameStore_of_calm (quiet_counting _).calm))
        · have ht : s.frameTaken k h body := ⟨hr, hf, ho, by simpa [badSender, not_or] using hs⟩
          rw [receive_taken ht]
          exact sameStore_settle hr
            (sameStore_trans (sameStore_trans hread (sameStore_of_calm (quiet_takeHeader h).calm)) (huse _))
      · rw [receive_foreign hr hf ho]
        exact sameStore_of_calm (quiet_counting _).calm
    · rw [receive_malformed hr hf]
      exact sameStore_of_calm (quiet_counting _).calm
  · rw [receive_off (Bool.eq_false_iff.mpr hr)]
    exact sameStore_of_calm (.refl s)

theorem filterCounted_calm (s : State) (f : Filtered) : Calm s (s.filterCounted f) := by
  cases f with
  | malformed => exact (quiet_counting (fun c => { c with malformed := bumpBy 1 c.malformed })).calm
  | foreign => exact (quiet_counting (fun c => { c with foreign := bumpBy 1 c.foreign })).calm
  | passed => exact .refl s

/-- Settles O24: no frame's use writes store memory, and a dropped frame counts at most. -/
theorem framesLeaveStore : Obligations.FramesLeaveStore := by
  unfold Obligations.FramesLeaveStore
  intro s c hc
  rcases hc with hc | ⟨frame, rfl⟩
  · obtain ⟨⟨k, h, body⟩, hc⟩ := Option.isSome_iff_exists.mp hc
    exact ⟨_, exec_frame hc s, receive_sameStore (frameUse_sameStore c)⟩
  · by_cases hr : s.running = true
    · exact ⟨_, exec_receiveFilterDrop hr frame, sameStore_of_calm (filterCounted_calm s _)⟩
    · exact ⟨s, exec_receiveFilterDrop_off (Bool.eq_false_iff.mpr hr) frame, sameStore_of_calm (.refl s)⟩

/-! ## The sender's record -/

/-- The use of an ANNOUNCE, a MANIFEST-ASK or a SEGMENT-ASK changes its sender's record in the announced values alone, and no other
record. -/
theorem frameUse_peer {c : Instr} {k : FrameKind} {h : LinkHeader} {body : List Byte} (hc : frameOf c = some (k, h, body))
    (hk : k = .announce ∨ k = .manifestAsk ∨ k = .segmentAsk) {x : State} {r : Peer} (hr : x.peer h.sender.toNat = some r) :
    (∃ (b : Bool) (v : PerDomain Announced), (frameUse c x).peer h.sender.toNat = some { r with parked := b, values := v }) ∧
    ∀ n, n ≠ h.sender.toNat → (frameUse c x).peer n = x.peer n := by
  by_cases hann : k = .announce
  · subst hann
    obtain rfl := announce_of_frame hc
    refine ⟨?_, fun n hn => ?_⟩
    · show ∃ b v, (x.useAnnounce h body).peer h.sender.toNat = _
      rw [useAnnounce_peer hr, if_pos rfl]
      cases parseAnnounce body with
      | none => exact ⟨r.parked, r.values, rfl⟩
      | some bv => exact ⟨bv.1, bv.2, rfl⟩
    · exact (useAnnounce_peer hr n).trans (if_neg hn)
  · have hpeers := useAsk_peers hc (hk.resolve_left hann) x
    exact ⟨⟨r.parked, r.values, (peer_congr hpeers _).trans hr⟩, fun n _ => peer_congr hpeers n⟩

/-- The other records at the end of an event whose frame changed none of them. -/
theorem settle_otherPeers {s u : State} {n : Station} (hr : u.running = true) (h : u.peer n = s.peer n) :
    (u.settle.peer n).map Peer.unasked = (s.peer n).map Peer.unasked := by
  rw [settle_peers hr, h]

/-- Settles O25: the record is refreshed as the header is taken; the frame's use and the rest of the event change no field that the
header writes. -/
theorem headerRefreshesRecord : Obligations.HeaderRefreshesRecord := by
  unfold Obligations.HeaderRefreshesRecord
  intro s c k h body p hc hk htaken hp
  have hrunning := frameTaken_running hc htaken
  have hheader := header_peer (k := k) hp
  obtain ⟨⟨b, v, huse⟩, hothers⟩ := frameUse_peer hc hk ((hheader _).trans (if_pos rfl))
  obtain ⟨q, hq, hunasked⟩ := settle_peer hrunning huse
  obtain ⟨station, vehicle, cohort, state, heard, sequence, received, loss, timeouts, unresponsive, busy, congested, -, -, removal⟩ :=
    unasked_eq_fields hunasked
  obtain ⟨rstation, rvehicle, rcohort, rstate, rheard, rsequence, rcongested, rremoval, -, -, -, rfar, rnear⟩ :=
    refreshed_facts p s.clock s.supply.config.vehicle h
  refine ⟨_, q, exec_frameTaken hc htaken, hq, station.trans (rstation.trans (peer_found hp).2), vehicle.trans rvehicle,
    by rw [cohort]; exact rcohort, state.trans rstate, heard.trans rheard, sequence.trans rsequence, congested.trans rcongested,
    removal.trans rremoval, ⟨fun hfar => ?far, fun hnear => ?near⟩, fun n hn => ?others⟩
  case far =>
    rw [loss, received, timeouts, unresponsive, busy]
    exact rfar hfar
  case near =>
    rw [loss, received, timeouts, unresponsive, busy]
    exact rnear hnear
  case others => exact settle_otherPeers hrunning ((hothers n hn).trans ((hheader n).trans (if_neg hn)))

/-! ## A new station -/

/-- R109: no record of a full table can be displaced. -/
theorem displaceable_none {s : State}
    (h : ∀ p ∈ s.peers, ¬ (p.state = .stale ∧ p.asks = 0) ∧ ¬ (p.state = .known ∧ p.cohort = false ∧ p.asks = 0)) :
    s.displaceable = none := by
  have hstale : s.peers.filter (fun p => p.state == .stale && p.asks == 0) = [] :=
    List.filter_eq_nil_iff.mpr fun p hp => by simpa using (h p hp).1
  have hknown : s.peers.filter (fun p => p.state == .known && !p.cohort && p.asks == 0) = [] :=
    List.filter_eq_nil_iff.mpr fun p hp => by simpa [and_assoc] using (h p hp).2
  unfold State.displaceable
  rw [hstale, hknown]
  rfl

theorem readHeader_peers (s : State) (k : FrameKind) (h : LinkHeader) : (s.readHeader k h).peers = s.peers :=
  (congrArg State.peers (readHeader_linkOnly s k h).1 :)

theorem readHeader_counters (s : State) (k : FrameKind) (h : LinkHeader) :
    (s.readHeader k h).port.counters = s.port.counters :=
  (congrArg (fun t => t.port.counters) (readHeader_linkOnly s k h).1 :)

/-- R109: at a full table without a record to displace, the header of a new station's frame is refused and counted. -/
theorem header_refused {s : State} {k : FrameKind} {h : LinkHeader} (hp : s.peer h.sender.toNat = none) (hfull : 48 ≤ s.peers.length)
    (hnone : s.displaceable = none) : (s.readHeader k h).takeHeader h = (s.readHeader k h).countPeerRefusal := by
  have hpeers := readHeader_peers s k h
  have hdisplaceable : (s.readHeader k h).displaceable = none := by
    unfold State.displaceable at hnone ⊢
    rw [hpeers]
    exact hnone
  unfold State.takeHeader State.enterPeer
  rw [peer_congr hpeers, hp]
  dsimp only
  rw [if_neg (by rw [hpeers]; exact Nat.not_lt.mpr hfull), hdisplaceable]

/-- Settles O26: the entry of the station's record as its header is taken, and what the frame's use keeps of it. -/
theorem newStationEntersTable : Obligations.NewStationEntersTable := by
  unfold Obligations.NewStationEntersTable
  intro s c k h body hc htaken hp
  have hrunning := frameTaken_running hc htaken
  have hexec := exec_frameTaken hc htaken
  refine ⟨fun gone hgone => ?enters, fun hfull hnone => ?refused⟩
  case enters =>
    have hheader := enterPeer_peer (k := k) hp hgone
    have hkept := frameUse_kept hc ((s.readHeader k h).takeHeader h)
    have hrecord := (hheader h.sender.toNat).trans (if_pos rfl)
    obtain ⟨r, hr, hheaded⟩ := (hkept _).2 _ hrecord rfl
    obtain ⟨q, hq, hunasked⟩ := settle_peer hrunning hr
    refine ⟨_, q, hexec, hq, (Peer.headed_of_unasked hunasked).trans hheaded, fun hk => ?ask, fun hk => ?announce, fun n hn => ?gone,
      fun hk n hn hstays => ?others⟩
    case ask =>
      have hsame := (peer_congr (useAsk_peers hc hk _) h.sender.toNat).trans hrecord
      obtain rfl := Option.some.inj (hr.symm.trans hsame)
      exact hunasked
    case announce =>
      subst hk
      obtain rfl := announce_of_frame hc
      have huse := (useAnnounce_peer (body := body) hrecord h.sender.toNat).trans (if_pos rfl)
      have hvalue := hr.symm.trans huse
      refine ⟨fun parked v hparse => ?_, fun hparse => ?_⟩
      · rw [hparse] at hvalue
        obtain rfl := Option.some.inj hvalue
        exact hunasked
      · rw [hparse] at hvalue
        obtain rfl := Option.some.inj hvalue
        exact hunasked
    case gone =>
      have hself : n ≠ h.sender.toNat := by
        rintro rfl
        rcases hgone with ⟨-, hno⟩ | ⟨-, x, hx, hsome⟩
        · rw [hno] at hn
          cases hn
        · rw [hsome] at hn
          have hfound : ¬ (x.station == h.sender.toNat) = true := List.find?_eq_none.mp hp x hx.1
          exact hfound (by simpa using hn)
      have hleft : ((s.readHeader k h).takeHeader h).peer n = none := by rw [hheader, if_neg hself, if_pos hn]
      have hgoes := settle_peers hrunning n
      rw [(hkept n).1 hleft] at hgoes
      exact Option.map_eq_none_iff.mp hgoes
    case others =>
      have hstay : ((s.readHeader k h).takeHeader h).peer n = s.peer n := by rw [hheader, if_neg hn, if_neg hstays]
      have hk' : k = .announce ∨ k = .manifestAsk ∨ k = .segmentAsk := by
        rcases hk with hk | hk | hk
        · exact .inr (.inl hk)
        · exact .inr (.inr hk)
        · exact .inl hk
      exact settle_otherPeers hrunning (((frameUse_peer hc hk' hrecord).2 n hn).trans hstay)
  case refused =>
    have hheader := header_refused (k := k) hp hfull (displaceable_none hnone)
    refine ⟨_, hexec, ?_, ?_⟩
    · have hleft : ((s.readHeader k h).takeHeader h).peer h.sender.toNat = none := by
        rw [hheader]
        exact (peer_congr (readHeader_peers s k h) _).trans hp
      have hgoes := settle_peers hrunning h.sender.toNat
      rw [(frameUse_kept hc _ _).1 hleft] at hgoes
      exact Option.map_eq_none_iff.mp hgoes
    · rw [frameUse_refusals, hheader]
      show bumpBy 1 (s.readHeader k h).port.counters.peerRefusals = _
      rw [readHeader_counters]
      rfl

end Sys2Proof.Machine

/-! # The validator port: publishing and the end of the parked window -/

namespace Sys2Proof.Machine

/-! ## PUBLISH-MANIFEST -/

section

variable {s : State} {body : List Byte} {m : Manifest} {i : SlotId}

theorem exec_publishManifest (hrunning : s.running = true) (hfree : s.portFree) (hlength : body.length = 12) :
    exec (.publishManifest body) s = .next (s.publishManifest (parseManifest body)).settle := by
  have hallowed : bodyAllowed .publishManifest body = true := by
    simp [bodyAllowed, requestLengthOk, requestBodyOk, RequestKind.code, hlength]
  show Host.Outcome.next (s.request _ _ _ _) = _
  rw [hallowed, running_request hrunning hfree]

/-- R94, step 2 on: what becomes of a published manifest that is neither barred nor old. -/
def State.publishNew (s : State) (m : Manifest) : State :=
  match s.slotHolding m.domain m.gen with
  | some i =>
    match (s.slot i).manifest with
    | some held =>
      if held.digest == m.digest then s.respond .publishManifest .acceptedJoined (s.slotBody i)
      else s.respond .publishManifest .conflict []
    | none => s.offerPublished i m false
  | none =>
    if s.hasRoom m.domain then
      match s.openSlot m.domain m.gen .local with
      | some (i, s) => s.offerPublished i m true
      | none => s.respond .publishManifest .noSlot []
    else s.respond .publishManifest .noSlot []

theorem publishManifest_slot (hbarred : m.digest ∉ s.backup.barred) (hnew : (s.domain m.domain).held < m.gen)
    (hdelta : m.kind = .delta → m.gen = (s.domain m.domain).held + 1) : s.publishManifest (some m) = s.publishNew m := by
  unfold State.publishManifest
  dsimp only
  rw [if_neg (by simpa using hbarred), if_neg (by simpa using ⟨hnew, hdelta⟩)]
  rfl

/-- R94: what the offer of a published manifest changes. -/
theorem offerPublished_facts (s : State) (i : SlotId) (m : Manifest) (opened : Bool) :
    (s.enterOutstanding i = false → (s.offerPublished i m opened).slot i = { s.slot i with origin := .local }) ∧
    (s.enterOutstanding i = true → (s.offerPublished i m opened).slot i = s.slot i) ∧
    (∀ j : SlotId, j ≠ i → (s.offerPublished i m opened).slot j = s.slot j) ∧
    (s.offerPublished i m opened).pool = { s.pool with indexQueue := s.pool.indexQueue ++ [.enter i m .request opened] } ∧
    (s.offerPublished i m opened).port = { s.port with inProgress := some .manifest } ∧
    s.offerPublished i m opened = { s with
      slots := (s.offerPublished i m opened).slots, pool := (s.offerPublished i m opened).pool
      port := (s.offerPublished i m opened).port } := by
  unfold State.offerPublished
  rw [claimOrigin_request]
  cases s.enterOutstanding i
  · exact ⟨fun _ => State.setSlot_slot s i _, nofun, fun j hj => State.setSlot_slot_other s i j _ hj, rfl, rfl, rfl⟩
  · exact ⟨nofun, fun _ => rfl, fun _ _ => rfl, rfl, rfl, rfl⟩

end

/-- Settles O18, by the cases of R94: the checks of the manifest, then the slot of its generation. -/
theorem publishedManifestJudged : Obligations.PublishedManifestJudged := by
  unfold Obligations.PublishedManifestJudged
  intro s body hrunning hfree hrests hlength
  have hexec := exec_publishManifest hrunning hfree hlength
  refine ⟨fun hparse => ?bad, fun m hparse => ?parsed⟩
  all_goals rw [hexec, hparse]
  case bad => exact congrArg Host.Outcome.next (respond_settle hrests hrunning _ _ _)
  case parsed =>
    refine ⟨fun hbarred => ?barred, fun hbarred => ⟨fun hold => ?old, fun hnew hdelta => ?judged⟩⟩
    case barred =>
      unfold State.publishManifest
      dsimp only
      rw [if_pos (by simpa using hbarred), respond_settle hrests hrunning]
    case old =>
      unfold State.publishManifest
      dsimp only
      rw [if_neg (by simpa using hbarred), if_pos (by simpa using hold), respond_settle hrests hrunning]
    case judged =>
      refine ⟨fun i held hslot hheld => ?holds, fun i hslot hnone => ?offered, fun hslot hroom => ?noRoom, fun i hslot hroom hempty hlower => ?opened⟩
      case holds =>
        rw [publishManifest_slot hbarred hnew hdelta, State.publishNew, hslot]
        dsimp only
        rw [hheld]
        dsimp only
        by_cases hdigest : held.digest = m.digest
        · rw [if_pos (by simpa using hdigest), if_pos hdigest, if_pos hdigest, respond_settle hrests hrunning]
          rfl
        · rw [if_neg (by simpa using hdigest), if_neg hdigest, if_neg hdigest, respond_settle hrests hrunning]
      case offered =>
        have hoffers : s.publishManifest (some m) = s.offerPublished i m false := by
          rw [publishManifest_slot hbarred hnew hdelta, State.publishNew, hslot]
          dsimp only
          rw [hnone]
        rw [hoffers]
        exact ⟨s.offerPublished i m false, rfl, offerPublished_facts s i m false⟩
      case noRoom =>
        rw [publishManifest_slot hbarred hnew hdelta, State.publishNew, hslot]
        dsimp only
        rw [if_neg (by simp [hroom]), respond_settle hrests hrunning]
      case opened =>
        rw [publishManifest_slot hbarred hnew hdelta, State.publishNew, hslot]
        dsimp only
        rw [if_pos hroom]
        unfold State.openSlot
        rw [allSlots_findEmpty hempty hlower]
        dsimp only
        let opened := (s.setSlot i { Slot.empty with state := .manifestWanted, domain := m.domain, gen := m.gen, origin := .local }).wantAsking
        have hopened : opened.slot i = { Slot.empty with state := .manifestWanted, domain := m.domain, gen := m.gen, origin := .local } :=
          State.setSlot_slot _ _ _
        obtain ⟨hclaims, hkeeps, hother, hpool, hport, hrest⟩ := offerPublished_facts opened i m true
        refine ⟨_, rfl, ?_, fun j hj => (hother j hj).trans (State.setSlot_slot_other _ _ _ _ hj), hpool, hport, hrest⟩
        cases hout : opened.enterOutstanding i
        · rw [hclaims hout, hopened]
        · rw [hkeeps hout, hopened]


/-! ## PUBLISH-SEGMENT -/

section

variable {s : State} {body : List Byte} {d : Domain} {i : SlotId}

theorem exec_publishSegment (hrunning : s.running = true) (hfree : s.portFree) (hlow : 16 ≤ body.length) (hhigh : body.length ≤ 256) :
    exec (.publishSegment body) s = .next (s.publishSegment body).settle := by
  have hallowed : bodyAllowed .publishSegment body = true := by
    simp [bodyAllowed, requestLengthOk, requestBodyOk, RequestKind.code, hlow, hhigh]
  show Host.Outcome.next (s.request _ _ _ _) = _
  rw [hallowed, running_request hrunning hfree]

/-- R87, checks 3 to 5: a good segment of a COLLECTING slot within its count is taken, or a duplicate. -/
theorem judgeSegment_collecting (hcrc : segCrcGood body = true) (hops : segOpsGood body = true)
    (hslot : s.slotHolding d (segGen body) = some i) (hstate : (s.slot i).state = .collecting) (hindex : segIndex body < (s.slot i).count) :
    s.judgeSegment d body = if ∃ p ∈ (s.slot i).presence, p.index = segIndex body then .duplicate else .accepted i := by
  unfold State.judgeSegment
  simp only [hcrc, hops, hslot, hstate, Nat.not_le.mpr hindex, Bool.not_true, Bool.false_eq_true, if_false, beq_self_eq_true, if_true,
    List.any_eq_true, beq_iff_eq]

theorem noSlotBody_of_slot {g : Gen} (hslot : s.slotHolding d g = some i) : s.noSlotBody d g = (s.slot i).countsBody := by
  unfold State.noSlotBody
  rw [hslot]
  rfl

end

/-- Settles O19: by the check that the segment fails first, or by the place that the pool has for it. -/
theorem publishedSegmentJudged : Obligations.PublishedSegmentJudged := by
  unfold Obligations.PublishedSegmentJudged
  intro s body hrunning hfree hlow hhigh
  have hexec := exec_publishSegment hrunning hfree hlow hhigh
  refine ⟨fun hrests hbad => ?bad, fun d i hdomain hcrc hops hslot hstate hindex =>
    ⟨fun hrests hpresent => ?duplicate, fun hnew => ⟨fun hplace hheld => ?queued, fun hfull => ?held⟩⟩⟩
  all_goals
    rw [hexec]
    unfold State.publishSegment
  case bad =>
    rw [← respond_settle hrests hrunning]
    cases hdomain : segDomain body with
    | none => rfl
    | some d =>
      dsimp only
      unfold State.judgeSegment
      cases hcrc : segCrcGood body with
      | false => rfl
      | true =>
        have hops : segOpsGood body = false := by simpa [hdomain, hcrc] using hbad
        rw [hops]
        rfl
  case duplicate =>
    rw [hdomain]
    dsimp only
    rw [judgeSegment_collecting hcrc hops hslot hstate hindex, if_pos hpresent]
    dsimp only
    rw [noSlotBody_of_slot hslot, respond_settle hrests hrunning]
    rfl
  case queued =>
    rw [hdomain]
    dsimp only
    rw [judgeSegment_collecting hcrc hops hslot hstate hindex, if_neg (by simpa using hnew)]
    dsimp only
    rw [if_pos (by simp [hplace, hheld])]
    rfl
  case held =>
    rw [hdomain]
    dsimp only
    rw [judgeSegment_collecting hcrc hops hslot hstate hindex, if_neg (by simpa using hnew)]
    dsimp only
    rw [if_neg (by simp [hfull])]
    rfl

end Sys2Proof.Machine

/-! # The entry to CLOSING and its end -/

namespace Sys2Proof.Machine

section

variable {s : State}

/-- The three events that bring the part into CLOSING change nothing of the banks and the store before it does so. -/
theorem exec_entersClosing {c : Instr}
    (h : c = .parkEnd ∧ s.supply.power = .parked ∧ s.portFree ∨
      c = .parkedWindowExpiry ∧ s.supply.power = .parked ∧ (∃ t, s.supply.parked = .running t ∧ t ≤ s.clock) ∨
      c = .ignitionOff ∧ s.supply.power = .run ∧ s.supply.ignition = true ∧ s.supply.config.parkedWindow = 0) :
    ∃ x : State, exec c s = .next x.enterClosing.settle ∧ x.banks = s.banks ∧ x.store = s.store ∧
      (c = .parkEnd → x.port.inProgress = none ∧ x.port.response =
        some { kind := RequestKind.parkEnd.code, outcome := OutcomeCode.accepted.code, overrun := s.port.overrun, body := [] }) := by
  rcases h with ⟨rfl, hpower, hfree⟩ | ⟨rfl, hpower, t, htimer, hdue⟩ | ⟨rfl, hpower, hignition, hwindow⟩
  · refine ⟨s.respond .parkEnd .accepted [], ?_, rfl, rfl, fun _ => ⟨rfl, rfl⟩⟩
    show Host.Outcome.next (s.request .parkEnd 0 true State.parkEnd) = _
    rw [running_request (by simp [State.running, hpower]) hfree, State.parkEnd, if_pos (by simp [hpower])]
  · refine ⟨s, ?_, rfl, rfl, nofun⟩
    show execParkedWindowExpiry s = _
    unfold execParkedWindowExpiry State.windowExpired
    simp only [htimer, if_pos hdue, hpower]
  · refine ⟨s.ignite false, ?_, ?_, ?_, nofun⟩
    all_goals unfold State.ignite
    all_goals simp only [hpower]
    · show execIgnitionOff s = _
      unfold execIgnitionOff State.ignite State.ignitionWent State.park
      simp [hignition, hpower, hwindow]
    · rfl
    · rfl

/-- A bank that goes HELD in CLOSING leaves nothing more for the event to bring about. -/
theorem rests_of_bankHeld {t : State} {b : BankId} (hrests : s.rests) (hclosing : s.supply.power = .closing)
    (hframe : t = { s with banks := t.banks, store := { s.store with headers := t.store.headers }, backup := t.backup })
    (hheld : (t.bank b).state = .held) (hscan : (t.bank b).fullScan = (s.bank b).fullScan)
    (hother : ∀ e, e ≠ b → t.bank e = s.bank e) : t.rests := by
  obtain ⟨hevent, -, -, hcold⟩ := hrests
  have hpower : t.supply.power = .closing := by rw [hframe]; exact hclosing
  have hstopped : t.running = false := by simp [State.running, hpower]
  have hscanned : ∀ e, (t.bank e).scanned = (s.bank e).scanned := by
    intro e
    by_cases he : e = b
    · rw [he, Bank.scanned, Bank.scanned, hscan]
    · rw [hother e he]
  refine ⟨?_, arbiter_rest.mpr (.inr (.inl hstopped)), beginServeRead_rest.mpr (.inr (by simp [hstopped])), settleCold_rest.mpr ?_⟩
  · obtain ⟨hview, hmail, hpool, hopening, happly, hdrive, hask⟩ := settleOnce_none.mp hevent
    have hdrive' : t.nextDrive = none := nextDrive_held (by rw [hframe]) (by rw [hframe]) hheld hother hdrive
    refine settleOnce_none.mpr ⟨?_, ?_, ?_, ?_, ?_, hdrive', ?_⟩
    all_goals rw [hframe]
    exacts [hview, hmail, hpool, hopening, happly, hask]
  · have hsame := settleCold_rest.mp hcold
    simp only [hscanned]
    rw [hframe]
    exact hsame

end

/-! ## The pass end at which a pending hold takes effect -/

section

variable {u : State} {b : BankId} {next : Nat}

/-- R28: at the commit of the pass end of a due scrub the pending closing hold takes effect. -/
theorem headerCommit_heldAtPassEnd (hwork : (u.bank b).work = .scrubHeader next false) (hdue : (u.bank b).scrubDue = true)
    (hhold : (u.bank b).hold = .closing) (hnext : next < 65536) :
    u.headerCommit b = ((u.heading b (fun h => { h with scrubCursor := next })).writeScrubHeader b).goHeld b .scrubbing (.scrubPaused next) := by
  have hbank : ((u.heading b (fun h => { h with scrubCursor := next })).writeScrubHeader b).bank b =
      { u.bank b with header := { (u.bank b).header with scrubCursor := next } } :=
    (writeScrubHeader_bank _ _ _).trans (heading_bank _ _ _)
  have hpast : ¬ Config.bankPlaces ≤ next := Nat.not_le.mpr hnext
  unfold State.headerCommit
  rw [hwork]
  dsimp only
  unfold State.scrubPassEnd State.scrubPassWrite
  simp only [Bool.false_eq_true, if_false, hpast]
  rw [hbank, if_neg (by simp [Bank.scrubPauses, hdue]), if_pos (by simp [hhold])]

theorem heldAtPassEnd_bank (b : BankId) :
    (((u.heading b (fun h => { h with scrubCursor := next })).writeScrubHeader b).goHeld b .scrubbing (.scrubPaused next)).bank b =
      { u.bank b with
        header := { (u.bank b).header with scrubCursor := next }
        state := .held, prior := some .scrubbing, work := .scrubPaused next, hold := .none } := by
  rw [goHeld_bank, writeScrubHeader_bank, heading_bank]

theorem heldAtPassEnd_other {e : BankId} (he : e ≠ b) :
    (((u.heading b (fun h => { h with scrubCursor := next })).writeScrubHeader b).goHeld b .scrubbing (.scrubPaused next)).bank e = u.bank e := by
  have hheading : (u.heading b (fun h => { h with scrubCursor := next })).bank e = u.bank e := State.setBank_bank_other _ _ _ _ he
  unfold State.goHeld
  rw [writeScrubHeader_bank, State.banking_bank_other _ _ _ _ he, writeScrubHeader_bank, hheading]

end

/-- Settles O20: `enterClosing` with what it does to the banks, and the last pass end. -/
theorem closingEntered : Obligations.ClosingEntered := by
  unfold Obligations.ClosingEntered
  refine ⟨fun s hpower hfree => ?wrongState, fun s c hevent => ?entered⟩
  case wrongState =>
    show Host.Outcome.next (s.request .parkEnd 0 true State.parkEnd) = _
    have htakes : s.takesRequests = true := by rcases hpower with h | h <;> simp [State.takesRequests, h]
    have hanswer : s.powerAnswer .parkEnd = none := by rcases hpower with h | h <;> simp [State.powerAnswer, h]
    have hparked : ¬ (s.supply.power == .parked) = true := by rcases hpower with h | h <;> simp [h]
    rw [request_answered htakes hfree hanswer, State.parkEnd, if_neg hparked]
    rfl
  case entered =>
    obtain ⟨x, hexec, hbanks, hstore, hanswer⟩ := exec_entersClosing hevent
    obtain ⟨hpower, hparked, hstable, hresponse, hfacts⟩ := enterClosing_facts x
    obtain ⟨hasks, hserve, hreads, hqueue, hwaiting, hheld, hchosen, hannounce, hcontrol, hask, hdata, hannounceAt, hdecay⟩ := hfacts
    refine ⟨x.enterClosing, hexec, hpower, hparked, hstable, fun hc => ?_, hasks, hserve, hreads, hqueue, hwaiting, hheld, hchosen, hannounce,
      hcontrol, hask, hdata, hannounceAt, hdecay, fun b => ?_, fun u b next hclosing hrests hstate hwork hdue hhold hnext => ?_⟩
    · obtain ⟨hidle, haccepted⟩ := hanswer hc
      exact (hresponse hidle).trans haccepted
    · have hbank : x.bank b = s.bank b := by unfold State.bank; rw [hbanks]
      obtain ⟨hidle, hbusy, happly, hwaits, hfaulted, -⟩ := enterClosing_banks x b
      rw [hbank, hstore] at *
      exact ⟨hidle, hbusy, fun r => happly r rfl, hwaits, fun hstate hwork => (hfaulted hstate hwork).1⟩
    · let t := ((u.heading b (fun h => { h with scrubCursor := next })).writeScrubHeader b).goHeld b .scrubbing (.scrubPaused next)
      have hexec : exec (.bankHeaderWriteCommit b) u = .next t.settle := by
        rw [exec_bankHeaderWriteCommit, headerCommit_heldAtPassEnd hwork hdue hhold hnext]
      have hbank := heldAtPassEnd_bank (u := u) (next := next) b
      have hother : ∀ e, e ≠ b → t.bank e = u.bank e := fun e he => heldAtPassEnd_other he
      have hstopped : (t.bank b).state = .held := by rw [hbank]
      have hrests' : t.rests := rests_of_bankHeld hrests hclosing rfl hstopped (by rw [hbank]) hother
      refine ⟨fun hothers hpending hignition hwake => ?_, fun e he hnotHeld hnotFaulted => ?_⟩
      · refine ⟨_, hexec, closing_settle hclosing hrests' (fun e => ?_) hpending hignition hwake⟩
        by_cases he : e = b
        · simp [Bank.stopped, he, hstopped]
        · rw [hother e he]
          rcases hothers e he with h | ⟨h, hwork⟩
          · simp [Bank.stopped, h]
          · simp [Bank.stopped, h, hwork]
      · have hgoesOn : t.settle = t := closing_goes_on hclosing hrests' (b := e) (by simp [hother e he, Bank.stopped, hnotHeld, hnotFaulted])
        exact ⟨_, hexec.trans (congrArg _ hgoesOn), hclosing, hstopped, by rw [hbank]⟩

end Sys2Proof.Machine

/-! # Frames for this station: ANNOUNCE, the asks and the reads that answer them -/

namespace Sys2Proof.Machine

/-! ## ANNOUNCE -/

section

variable {s : State}

/-- R110, R118: what the refreshing of a record changes. -/
theorem refreshPeer_shape (s : State) (p : Peer) (h : LinkHeader) :
    s.refreshPeer p h = { s with peers := (s.refreshPeer p h).peers, lag := (s.refreshPeer p h).lag, todo := (s.refreshPeer p h).todo } := by
  have hcohort : ∀ (t : State) (a b : Peer), t.cohortHeader a b = { t with lag := (t.cohortHeader a b).lag, todo := (t.cohortHeader a b).todo } := by
    intro t a b
    unfold State.cohortHeader
    split
    · rfl
    · split <;> rfl
  unfold State.refreshPeer
  dsimp only
  rw [hcohort]
  split <;> rfl

/-- R111, R154: what an ANNOUNCE with a good body changes. -/
theorem takeAnnounce_shape (s : State) (n : Station) (b : Bool) (v : PerDomain Announced) :
    s.takeAnnounce n b v =
      { s with peers := (s.takeAnnounce n b v).peers, lag := (s.takeAnnounce n b v).lag, todo := (s.takeAnnounce n b v).todo } := by
  unfold State.takeAnnounce
  split
  · rfl
  · dsimp only
    split <;> rfl

/-- R147: until the advance tests of the event, an ANNOUNCE makes no generation visible. -/
theorem announce_visibility {h : LinkHeader} {body : List Byte} {p : Peer} (hp : s.peer h.sender.toNat = some p) :
    (((s.readHeader .announce h).takeHeader h).useAnnounce h body).vis = s.vis ∧
    (((s.readHeader .announce h).takeHeader h).useAnnounce h body).domainWrites = s.domainWrites := by
  have hread := (readHeader_linkOnly s .announce h).1
  have hfound : (s.readHeader .announce h).peer h.sender.toNat = some p :=
    (peer_congr (congrArg State.peers hread) _).trans hp
  have huse : ∀ t : State, (t.useAnnounce h body).vis = t.vis ∧ (t.useAnnounce h body).domainWrites = t.domainWrites := by
    intro t
    unfold State.useAnnounce
    split
    · exact ⟨rfl, rfl⟩
    next parked v _ =>
      exact ⟨(congrArg State.vis (takeAnnounce_shape t h.sender.toNat parked v) :),
        (congrArg State.domainWrites (takeAnnounce_shape t h.sender.toNat parked v) :)⟩
  have htake : (s.readHeader .announce h).takeHeader h = (s.readHeader .announce h).refreshPeer p h := by
    unfold State.takeHeader
    rw [hfound]
  refine ⟨(huse _).1.trans ?_, (huse _).2.trans ?_⟩
  · rw [htake, refreshPeer_shape]
    exact (congrArg State.vis hread :)
  · rw [htake, refreshPeer_shape]
    exact (congrArg State.domainWrites hread :)

/-- R169: an ANNOUNCE taken restarts the decay timer. -/
theorem announce_decay (s : State) (h : LinkHeader) (body : List Byte) :
    (((s.readHeader .announce h).takeHeader h).useAnnounce h body).link.decay = some (s.clock + 4000000) := by
  have huse : (((s.readHeader .announce h).takeHeader h).useAnnounce h body).link = ((s.readHeader .announce h).takeHeader h).link := by
    unfold State.useAnnounce
    split
    · rfl
    · exact (quiet_takeAnnounce _ _ _).link
  rw [huse, (quiet_takeHeader h).link, readHeader_decay]

end

/-- Settles O27: the record as the header left it, with what the body writes; the event after it changes neither. -/
theorem announceTaken : Obligations.AnnounceTaken := by
  unfold Obligations.AnnounceTaken
  intro s h body p htaken hp
  have hrunning := frameTaken_running (c := .announceReceived h body) rfl htaken
  have hheader := (header_peer (k := .announce) hp h.sender.toNat).trans (if_pos rfl)
  have huse := (useAnnounce_peer (body := body) hheader h.sender.toNat).trans (if_pos rfl)
  obtain ⟨-, -, hcohort, -, -, -, -, -, hvalues, hparked, -, -, -⟩ := refreshed_facts p s.clock s.supply.config.vehicle h
  have hdecay := announce_decay s h body
  obtain ⟨hvis, hwrites⟩ := announce_visibility (body := body) hp
  refine ⟨_, exec_frameTaken (c := .announceReceived h body) rfl htaken, hdecay, (settle_still_running hrunning).decay.trans hdecay,
    hvis, hwrites, fun hvehicle hbody => ?view, ?record⟩
  case view =>
    obtain ⟨⟨parked, v⟩, hparse⟩ := Option.ne_none_iff_exists'.mp hbody
    show (((s.readHeader .announce h).takeHeader h).useAnnounce h body).todo.viewChanged = true
    unfold State.useAnnounce State.takeAnnounce
    rw [hparse]
    dsimp only
    rw [hheader]
    dsimp only
    rw [if_pos (hcohort.mpr hvehicle)]
    rfl
  case record =>
    cases hparse : parseAnnounce body with
    | none =>
      rw [hparse] at huse
      obtain ⟨q, hq, hunasked⟩ := settle_peer hrunning huse
      have hfields := unasked_eq_fields hunasked
      obtain ⟨-, -, -, -, -, -, -, -, -, -, -, -, qparked, qvalues, -⟩ := hfields
      refine ⟨q, hq, nofun, fun _ => ⟨qparked.trans hparked, qvalues.trans hvalues, ?_⟩⟩
      show (((s.readHeader .announce h).takeHeader h).useAnnounce h body).port.counters.malformed = _
      unfold State.useAnnounce
      rw [hparse]
      exact (header_keeps s .announce h).malformedCounted
    | some body' =>
      rw [hparse] at huse
      obtain ⟨q, hq, hunasked⟩ := settle_peer hrunning huse
      obtain ⟨-, -, -, -, -, -, -, -, -, -, -, -, qparked, qvalues, -⟩ := unasked_eq_fields hunasked
      refine ⟨q, hq, fun parked v hbody => ?_, nofun⟩
      cases hbody
      exact ⟨qparked, qvalues⟩

/-! ## MANIFEST-ASK -/

section

variable {s : State}

/-- The counters that the header of a taken frame leaves to its use. -/
theorem HeaderKeeps.controlDropCounted {x : State} (h : HeaderKeeps s x) :
    x.countControlDrop.port.counters.controlDrops = upOne s.port.counters.controlDrops := by
  obtain ⟨n, hcounters⟩ := h.counters
  show bumpBy 1 x.port.counters.controlDrops = _
  rw [hcounters]
  rfl

/-- R141: a decline joins the CONTROL class, or is dropped and counted. -/
theorem decline_offered {x : State} (hkeeps : HeaderKeeps s x) (n : Station) (d : Domain) (g : Gen) (k : AskKind) (index : Nat) (r : DeclineReason) :
    (x.decline n d g k index r).fetch = s.fetch ∧
    (x.decline n d g k index r).port.counters.malformed = s.port.counters.malformed ∧
    (s.link.control.length < 8 → (x.decline n d g k index r).link.control = s.link.control ++
      [{ kind := .decline, addressee := n
         body := DeclineBody.bytes { domain := d, gen := g, kind := k, index := index, reason := r }, ask := none }]) ∧
    (8 ≤ s.link.control.length → (x.decline n d g k index r).link.control = s.link.control ∧
      (x.decline n d g k index r).port.counters.controlDrops = upOne s.port.counters.controlDrops) := by
  have hmalformed : x.port.counters.malformed = s.port.counters.malformed := by
    obtain ⟨m, hcounters⟩ := hkeeps.counters
    rw [hcounters]
  rcases Nat.lt_or_ge s.link.control.length 8 with hroom | hfull
  · rw [decline_room (by rw [hkeeps.control]; exact hroom)]
    refine ⟨hkeeps.fetch, hmalformed, fun _ => ?_, fun hfull => absurd hroom (Nat.not_lt.mpr hfull)⟩
    show x.link.control ++ _ = _
    rw [hkeeps.control]
  · rw [decline_full (by rw [hkeeps.control]; exact hfull)]
    exact ⟨hkeeps.fetch, hmalformed, fun hroom => absurd hroom (Nat.not_lt.mpr hfull), fun _ => ⟨hkeeps.control, hkeeps.controlDropCounted⟩⟩

end

/-- Settles O28: by where the ask is addressed, and by whether its generation is servable. -/
theorem manifestAskTaken : Obligations.ManifestAskTaken := by
  unfold Obligations.ManifestAskTaken
  intro s h body htaken
  have hrunning := frameTaken_running (c := .manifestAskReceived h body) rfl htaken
  have hexec := exec_frameTaken (c := .manifestAskReceived h body) rfl htaken
  have hstill := settle_still_running hrunning
  have hkeeps := header_keeps s .manifestAsk h
  let x := (s.readHeader .manifestAsk h).takeHeader h
  refine ⟨fun helsewhere => ?elsewhere, fun d hhere hdomain => ⟨fun hservable => ?servable, fun hgone => ?declined⟩⟩
  case elsewhere =>
    have huse : x.useManifestAsk h body = x := by
      unfold State.useManifestAsk
      rw [hkeeps.addressed, if_pos (by simpa using helsewhere)]
    refine ⟨x, hexec.trans (congrArg (fun t => Host.Outcome.next (State.settle t)) huse), hkeeps.fetch, ?_, hkeeps.control⟩
    have hreads := hstill.manifestReads
    dsimp only [frameUse] at hreads
    rw [huse] at hreads
    exact hreads.trans (congrArg Fetch.manifestReads hkeeps.fetch)
  all_goals
    have huse : x.useManifestAsk h body = x.takeManifestAsk h.sender.toNat d (field body 1 4) := by
      unfold State.useManifestAsk
      rw [hkeeps.addressed, if_neg (by simpa using hhere), hdomain]
    have hservable' := hkeeps.servable d (field body 1 4)
    unfold State.takeManifestAsk at huse
    refine ⟨_, hexec, ?_⟩
  case servable =>
    rw [hservable', if_pos hservable] at huse
    refine ⟨hstill.manifestReads.trans ?_, hstill.serve.trans ?_⟩
    · show (x.useManifestAsk h body).fetch.manifestReads = _
      rw [huse]
      exact congrArg (fun f => f.manifestReads ++ _) hkeeps.fetch
    · show (x.useManifestAsk h body).fetch.serve = _
      rw [huse]
      exact (congrArg Fetch.serve hkeeps.fetch :)
  case declined =>
    rw [hservable', if_neg (by simp [hgone])] at huse
    obtain ⟨hfetch, -, hroom, hfull⟩ := decline_offered hkeeps h.sender.toNat d (field body 1 4) .manifest 0 .notHeld
    show (x.useManifestAsk h body).fetch = _ ∧ (_ → (x.useManifestAsk h body).link.control = _) ∧
      (_ → (x.useManifestAsk h body).link.control = _ ∧ (x.useManifestAsk h body).port.counters.controlDrops = _)
    rw [huse]
    have hbody : DeclineBody.bytes { domain := d, gen := field body 1 4, kind := .manifest, index := 0, reason := .notHeld } =
        domainCode d :: toBytes 4 (field body 1 4) ++ [1, 0, 0, 2] := by
      have hzero : toBytes 2 0 = [0, 0] := by decide
      simp [DeclineBody.bytes, askKindCode, DeclineReason.code, hzero]
    rw [hbody] at hroom
    exact ⟨hfetch, hroom, hfull⟩

/-! ## The reads for peers -/

section

variable {s : State} {x : ServeEntry} {rest : List ServeEntry}

/-- R138: a serve read begins for the head entry while nothing is formed or being formed. -/
theorem beginServeRead_reads (hserve : s.fetch.serve = x :: rest) (hrunning : s.running = true) (hdata : s.link.data = none)
    (hidle : s.fetch.reading = none) :
    s.beginServeRead = s.fetching (fun f => { f with reading := some (s.takeServeRead x.domain x.gen x.next) }) := by
  unfold State.beginServeRead
  rw [hserve]
  dsimp only
  rw [if_pos (by simp [hrunning, hdata, hidle])]

theorem takeServeRead_of_entry {d : Domain} {g : Gen} {i : Nat} {e : ManifestEntry} (hentry : s.entry d g = some e) (hservable : e.servable = true) :
    s.takeServeRead d g i = .taken e.stamp (((s.cellOf e i).map (fun pc => pc.2.bytes)).getD []) := by
  unfold State.takeServeRead
  rw [hentry]
  dsimp only
  rw [if_pos hservable]
  cases s.cellOf e i <;> rfl

theorem takeServeRead_gone {d : Domain} {g : Gen} {i : Nat} (hgone : s.servable d g = false) : s.takeServeRead d g i = .evicted := by
  unfold State.servable at hgone
  unfold State.takeServeRead
  cases hentry : s.entry d g with
  | none => rfl
  | some e =>
    rw [hentry] at hgone
    exact if_neg (Bool.eq_false_iff.mp hgone)

end

/-- Settles O29: each read by the entry it is for and what it took. -/
theorem readsForPeersComplete : Obligations.ReadsForPeersComplete := by
  unfold Obligations.ReadsForPeersComplete
  refine ⟨fun s r rest e hreads hentry hservable hroom => ?manifest, fun s x rest hserve =>
    ⟨fun stamp bytes hreading hgood => ?segment, fun hreading hroom => ?evicted, fun hrunning hdata hidle =>
      ⟨fun e p c hentry hservable hcell => ?taken, fun hgone => ?gone⟩⟩⟩
  case manifest =>
    show execManifestReadComplete s = _
    have hentry' : (s.fetching (fun f => { f with manifestReads := rest })).entry r.domain r.gen = some e := hentry
    unfold execManifestReadComplete State.manifestReadDone
    simp only [hreads, hentry', hservable, List.isEmpty_cons, Bool.false_eq_true, if_false, if_true]
    unfold State.answerPeer State.offerControl
    rw [if_pos (show (s.fetching _).link.control.length < Config.controlPlaces from hroom)]
    rfl
  case segment =>
    show execServeReadComplete s = _
    unfold execServeReadComplete State.serveReadDone
    simp only [hreading, hserve, State.serveRead, hgood, if_true]
    rfl
  case evicted =>
    show execServeReadComplete s = _
    unfold execServeReadComplete State.serveReadDone
    simp only [hreading, hserve, State.serveRead]
    rw [decline_room (show (s.fetching _).link.control.length < 8 from hroom)]
    rfl
  case taken =>
    rw [beginServeRead_reads hserve hrunning hdata hidle, takeServeRead_of_entry hentry hservable, hcell]
    rfl
  case gone =>
    rw [beginServeRead_reads hserve hrunning hdata hidle, takeServeRead_gone hgone]
    rfl

end Sys2Proof.Machine

/-! # Frames for this station: MANIFEST, SEGMENT-ASK, SEGMENT and DECLINE -/

namespace Sys2Proof.Machine

/-! ## MANIFEST -/

section

variable {s : State}

/-- R133: what the end of the ask that a MANIFEST answers leaves alone, and which asks it leaves. -/
theorem manifestAnswered_asks (s : State) (n : Station) (d : Domain) (g : Gen) :
    (∀ a : Ask, s.fetch.asks.find? (fun a => a.kind == .manifest && a.peer == n && a.domain == d && a.gen == g) = some a →
      (s.manifestAnswered n d g).fetch.asks = s.fetch.asks.filter (fun x => x.id != a.id)) ∧
    ((∀ a ∈ s.fetch.asks, ¬ (a.kind = .manifest ∧ a.peer = n ∧ a.domain = d ∧ a.gen = g)) →
      (s.manifestAnswered n d g).fetch.asks = s.fetch.asks) := by
  refine ⟨fun a ha => ?_, fun hnone => ?_⟩
  · unfold State.manifestAnswered
    rw [ha]
    exact endAsk_asks s a .answered
  · have hfind : s.fetch.asks.find? (fun a => a.kind == .manifest && a.peer == n && a.domain == d && a.gen == g) = none :=
      List.find?_eq_none.mpr fun a ha => by simpa [and_assoc] using hnone a ha
    unfold State.manifestAnswered
    rw [hfind]

theorem manifestAnswered_keeps (s : State) (n : Station) (d : Domain) (g : Gen) :
    (∀ j, (s.slot j).state ≠ .manifestWanted ∨ (s.slot j).asks < 4 → (s.manifestAnswered n d g).slot j = s.slot j) ∧
    (s.manifestAnswered n d g).port.counters = s.port.counters ∧
    (∀ k, s.port.flags.getLsbD k = true → (s.manifestAnswered n d g).port.flags.getLsbD k = true) := by
  unfold State.manifestAnswered
  split
  · exact ⟨endAsk_slot s _ _, endAsk_counters s _ _, endAsk_flags s _ _⟩
  · exact ⟨fun _ _ => rfl, rfl, fun _ h => h⟩

/-- R83: a manifest above the held generation and not barred, with a slot open for its generation. -/
theorem takeManifest_slot {m : Manifest} {i : SlotId} (hnew : (s.domain m.domain).held < m.gen) (hbarred : m.digest ∉ s.backup.barred)
    (hslot : s.slotHolding m.domain m.gen = some i) :
    ((s.slot i).manifest = none → s.takeManifest m = s.queueIndex (.enter i m .peer false)) ∧
    ∀ held : Manifest, (s.slot i).manifest = some held →
      s.takeManifest m = if held.digest = m.digest then s else s.countConflict.raise .manifestConflict := by
  unfold State.takeManifest
  dsimp only
  rw [if_neg (Nat.not_le.mpr hnew), if_neg (by simpa using hbarred), hslot]
  dsimp only
  refine ⟨fun h => by rw [h], fun held h => ?_⟩
  rw [h]
  exact if_congr beq_iff_eq rfl rfl

/-- R83, R133: the use of such a manifest, in the state that the header of its frame makes of `s`. -/
theorem manifestUse_facts {x : State} {m : Manifest} {i : SlotId} (hkeeps : HeaderKeeps s x) (hnew : (s.domain m.domain).held < m.gen)
    (hbarred : m.digest ∉ s.backup.barred) (hslot : s.slotHolding m.domain m.gen = some i) :
    (x.takeManifest m).fetch = s.fetch ∧
    ((s.slot i).manifest = none → (x.takeManifest m).pool = { s.pool with indexQueue := s.pool.indexQueue ++ [.enter i m .peer false] }) ∧
    ∀ held : Manifest, (s.slot i).manifest = some held → (x.takeManifest m).pool = s.pool ∧ (x.takeManifest m).slots = s.slots ∧
      (held.digest ≠ m.digest → (x.takeManifest m).port.counters.conflicts = upOne s.port.counters.conflicts ∧
        (x.takeManifest m).port.flags.getLsbD 7 = true) := by
  obtain ⟨hoffers, hholds⟩ := takeManifest_slot (s := x) (m := m) (i := i) (by rw [hkeeps.held]; exact hnew) (by rw [hkeeps.backup]; exact hbarred)
    (by rw [hkeeps.slotHolding]; exact hslot)
  rw [hkeeps.slot] at hoffers hholds
  refine ⟨?_, fun hmanifest => ?_, fun held hmanifest => ?_⟩
  · cases hmanifest : (s.slot i).manifest with
    | none => rw [hoffers hmanifest]; exact hkeeps.fetch
    | some held =>
      rw [hholds held hmanifest]
      split <;> exact hkeeps.fetch
  · rw [hoffers hmanifest, ← hkeeps.pool]
    rfl
  · rw [hholds held hmanifest]
    by_cases hdigest : held.digest = m.digest
    · rw [if_pos hdigest]
      exact ⟨hkeeps.pool, hkeeps.slots, fun hother => absurd hdigest hother⟩
    · rw [if_neg hdigest]
      refine ⟨hkeeps.pool, hkeeps.slots, fun _ => ⟨?_, ?_⟩⟩
      · obtain ⟨n, hn⟩ := hkeeps.counters
        show bumpBy 1 x.port.counters.conflicts = _
        rw [hn]
        rfl
      · show (x.port.flags ||| Notice.mask .manifestConflict).getLsbD 7 = true
        simp [Notice.mask, Notice.bit]

end

/-- Settles O30: what the slot makes of the manifest, and then the end of the ask that it answers. -/
theorem manifestTaken : Obligations.ManifestTaken := by
  unfold Obligations.ManifestTaken
  intro s h body m i htaken hhere hparse hnew hbarred hslot
  have hkeeps := header_keeps s .manifest h
  have hexec := exec_frameTaken (c := .manifestReceived h body) rfl htaken
  dsimp only [frameUse] at hexec
  generalize (s.readHeader .manifest h).takeHeader h = x at hkeeps hexec
  have huse : x.useManifest h body = (x.takeManifest m).manifestAnswered h.sender.toNat m.domain m.gen := by
    unfold State.useManifest
    rw [hkeeps.addressed, if_neg (by simpa using hhere), hparse]
  rw [huse] at hexec
  obtain ⟨hfetch, hoffered, hheld⟩ := manifestUse_facts hkeeps hnew hbarred hslot
  obtain ⟨hends, hnoEnd⟩ := manifestAnswered_asks (x.takeManifest m) h.sender.toNat m.domain m.gen
  obtain ⟨hslots, hcounters, hflags⟩ := manifestAnswered_keeps (x.takeManifest m) h.sender.toNat m.domain m.gen
  have hpool := (calm_manifestAnswered (s := x.takeManifest m) h.sender.toNat m.domain m.gen).pool
  rw [hfetch] at hends hnoEnd
  refine ⟨_, hexec, fun hmanifest => hpool.trans (hoffered hmanifest), fun held hmanifest => ?_, hends, hnoEnd⟩
  obtain ⟨hsame, hsameSlots, hconflict⟩ := hheld held hmanifest
  have hslot' : ∀ j, (x.takeManifest m).slot j = s.slot j := fun j => congrArg (fun v => v[j]) hsameSlots
  refine ⟨hpool.trans hsame, fun j hj => (hslots j (by rw [hslot']; exact hj)).trans (hslot' j), fun hdigest => ?_⟩
  rw [hcounters]
  exact ⟨(hconflict hdigest).1, hflags 7 (hconflict hdigest).2⟩

/-! ## SEGMENT-ASK -/

/-- Settles O31: by the tests of R137 in turn. -/
theorem segmentAskTaken : Obligations.SegmentAskTaken := by
  unfold Obligations.SegmentAskTaken
  intro s h body d g first count htaken hhere hdomain hg hfirst hcount
  have hrunning := frameTaken_running (c := .segmentAskReceived h body) rfl htaken
  have hkeeps := header_keeps s .segmentAsk h
  let x := (s.readHeader .segmentAsk h).takeHeader h
  have huse : x.useSegmentAsk h body = x.takeSegmentAsk h.sender.toNat d g first count := by
    unfold State.useSegmentAsk
    rw [hkeeps.addressed, if_neg (by simpa using hhere), hdomain, hg, hfirst, hcount]
  have hexec : exec (.segmentAskReceived h body) s = .next (x.takeSegmentAsk h.sender.toNat d g first count).settle :=
    (exec_frameTaken (c := .segmentAskReceived h body) rfl htaken).trans (congrArg (fun t => Host.Outcome.next (State.settle t)) huse)
  have hstill : (x.takeSegmentAsk h.sender.toNat d g first count).still (x.takeSegmentAsk h.sender.toNat d g first count).settle := by
    rw [← huse]
    exact settle_still_running hrunning
  have hserve : x.fetch.serve = s.fetch.serve := congrArg Fetch.serve hkeeps.fetch
  have hmalformed := hkeeps.malformedCounted
  unfold State.takeSegmentAsk at hexec hstill
  rw [hkeeps.servable] at hexec hstill
  refine ⟨fun hbad => ?badCount, fun hlow hhigh hgone => ?gone, fun e hlow hhigh hentry hservable => ?servable⟩
  case badCount =>
    rw [if_pos (by simpa using hbad)] at hexec
    exact ⟨_, hexec, hkeeps.fetch, hmalformed⟩
  case gone =>
    rw [if_neg (by simp; omega), if_pos (by simp [hgone])] at hexec
    exact ⟨_, hexec, decline_offered hkeeps h.sender.toNat d g .segment first .notHeld⟩
  case servable =>
    have hheld : s.servable d g = true := by
      unfold State.servable
      rw [hentry]
      exact hservable
    rw [if_neg (by simp; omega), if_neg (by simp [hheld]), hkeeps.entry, hentry] at hexec hstill
    dsimp only at hexec hstill
    rw [hserve] at hexec hstill
    refine ⟨fun hpast => ?past, fun hwithin => ⟨fun hcovered => ?absorbed, fun hnew => ?fresh⟩⟩
    case past =>
      rw [if_pos hpast] at hexec
      exact ⟨_, hexec, hkeeps.fetch, hmalformed⟩
    case absorbed =>
      rw [if_neg (Nat.not_lt.mpr hwithin), if_pos (by simpa [ServeEntry.absorbs, and_assoc] using hcovered)] at hexec hstill
      exact ⟨_, hexec, hstill.serve.trans hserve⟩
    case fresh =>
      rw [if_neg (Nat.not_lt.mpr hwithin), if_neg (by simpa [ServeEntry.absorbs, and_assoc] using hnew)] at hexec hstill
      refine ⟨fun hroom => ?_, fun hfull => ?_⟩
      · rw [if_neg (show ¬ Config.serveEntries ≤ _ from Nat.not_le.mpr hroom)] at hexec hstill
        exact ⟨_, hexec, hstill.serve.trans (congrArg (· ++ _) hserve)⟩
      · rw [if_pos (show Config.serveEntries ≤ _ from hfull)] at hexec
        obtain ⟨hfetch, -, hdeclined⟩ := decline_offered hkeeps h.sender.toNat d g .segment first .busy
        exact ⟨_, hexec, hfetch, hdeclined⟩

/-! ## SEGMENT -/

section

variable {s x : State} {n : Station} {d : Domain} {body : List Byte} {i : SlotId}

/-- R87, check 1: a failing segment CRC. -/
theorem takeSegment_badCrc (hcrc : segCrcGood body = false) : x.takeSegment n d body = x.countSegmentCrc.peerSegmentFailure n := by
  unfold State.takeSegment State.judgeSegment
  rw [hcrc]
  rfl

theorem takeSegment_duplicate (hcrc : segCrcGood body = true) (hops : segOpsGood body = true)
    (hslot : x.slotHolding d (segGen body) = some i) (hstate : (x.slot i).state = .collecting) (hindex : segIndex body < (x.slot i).count)
    (hpresent : ∃ p ∈ (x.slot i).presence, p.index = segIndex body) : x.takeSegment n d body = x.countDuplicate := by
  unfold State.takeSegment
  rw [judgeSegment_collecting hcrc hops hslot hstate hindex, if_pos hpresent]

theorem takeSegment_queued (hcrc : segCrcGood body = true) (hops : segOpsGood body = true)
    (hslot : x.slotHolding d (segGen body) = some i) (hstate : (x.slot i).state = .collecting) (hindex : segIndex body < (x.slot i).count)
    (hnew : ∀ p ∈ (x.slot i).presence, p.index ≠ segIndex body) (hplace : x.queueHasPlace = true) (hheld : x.pool.held = false) :
    x.takeSegment n d body = x.queueOffer (offerOf d body (.peer n) false) := by
  unfold State.takeSegment
  rw [judgeSegment_collecting hcrc hops hslot hstate hindex, if_neg (by simpa using hnew)]
  dsimp only
  rw [if_pos (by simp [hplace, hheld])]

theorem peerSegmentFailure_counters (x : State) (n : Station) : (x.peerSegmentFailure n).port.counters = x.port.counters := by
  unfold State.peerSegmentFailure
  cases x.peer n with
  | none => rfl
  | some p =>
    dsimp only
    split <;> rfl

/-- R110: a header one past the last leaves the loss score as it is. -/
theorem refreshed_inSequence {p : Peer} {now : Instant} {v : Nat} {h : LinkHeader} (hsequence : h.sequence = p.sequence + 1)
    (hreceived : p.received < 15) (hloss : p.loss ≤ 15) : (p.refreshed now v h).loss = p.loss := by
  have hgap : (h.sequence - p.sequence - 1).toNat = 0 := by rw [hsequence]; bv_omega
  obtain ⟨-, -, -, -, -, -, -, -, -, -, -, -, hnear⟩ := refreshed_facts p now v h
  obtain ⟨-, -, -, -, hcounts⟩ := hnear (by rw [hgap]; decide)
  rw [(hcounts (by omega)).2, hgap]
  omega

end

/-- Settles O32: by the check that the segment fails first. -/
theorem segmentTaken : Obligations.SegmentTaken := by
  unfold Obligations.SegmentTaken
  intro s h body d p htaken hdomain hp hsequence hreceived hloss
  have hkeeps := header_keeps s .segment h
  have hrunning := frameTaken_running (c := .segmentReceived h body) rfl htaken
  have hexec := exec_frameTaken (c := .segmentReceived h body) rfl htaken
  have hheader := (header_peer (k := .segment) hp h.sender.toNat).trans (if_pos rfl)
  dsimp only [frameUse] at hexec hrunning
  generalize (s.readHeader .segment h).takeHeader h = x at hkeeps hexec hheader hrunning
  have huse : x.useSegment h body = x.takeSegment h.sender.toNat d body := by
    unfold State.useSegment
    rw [hdomain]
  rw [huse] at hexec hrunning
  obtain ⟨refusals, hcounters⟩ := hkeeps.counters
  refine ⟨fun hcrc => ?badCrc, fun i hcrc hops hslot hstate hindex => ?good⟩
  case badCrc =>
    rw [takeSegment_badCrc hcrc] at hexec hrunning
    have hcalm := (quiet_peerSegmentFailure (s := x.countSegmentCrc) h.sender.toNat).calm
    obtain ⟨q, hq, hunasked⟩ := settle_peer hrunning (peerSegmentFailure_peer (x := x.countSegmentCrc) hheader)
    obtain ⟨-, -, -, -, -, -, -, hscore, -⟩ := unasked_eq_fields hunasked
    refine ⟨_, q, hexec, hcalm.pool.trans hkeeps.pool, ?_, hq, ?_⟩
    · rw [peerSegmentFailure_counters]
      show bumpBy 1 x.port.counters.segmentCrc = _
      rw [hcounters]
      rfl
    · rw [hscore]
      dsimp only
      rw [refreshed_inSequence hsequence hreceived hloss]
  case good =>
    rw [← hkeeps.slotHolding] at hslot
    rw [← hkeeps.slot] at hstate hindex
    refine ⟨fun hpresent => ?duplicate, fun hnew hplace hheld => ?queued⟩
    case duplicate =>
      rw [← hkeeps.slot] at hpresent
      rw [takeSegment_duplicate hcrc hops hslot hstate hindex hpresent] at hexec
      refine ⟨_, hexec, hkeeps.pool, ?_⟩
      show bumpBy 1 x.port.counters.duplicate = _
      rw [hcounters]
      rfl
    case queued =>
      rw [← hkeeps.slot] at hnew
      have hplace' : x.queueHasPlace = true := by
        unfold State.queueHasPlace
        rw [hkeeps.pool]
        exact hplace
      rw [takeSegment_queued hcrc hops hslot hstate hindex hnew hplace' (by rw [hkeeps.pool]; exact hheld)] at hexec
      refine ⟨_, hexec, ?_, hkeeps.slots⟩
      rw [← hkeeps.pool]
      rfl

/-! ## DECLINE -/

section

variable {x : State} {n : Station} {b : DeclineBody}

theorem takeDecline_unmatched (hnone : ∀ a ∈ x.fetch.asks, a.matchesDecline n b = false) : x.takeDecline n b = x.countDecline := by
  have hfind : x.countDecline.fetch.asks.find? (fun a => a.matchesDecline n b) = none :=
    List.find?_eq_none.mpr fun a ha => by simp [hnone a ha]
  unfold State.takeDecline
  dsimp only
  rw [hfind]

theorem takeDecline_matched {a : Ask} (ha : x.fetch.asks.find? (fun a => a.matchesDecline n b) = some a) :
    x.takeDecline n b = x.countDecline.endAsk a (.declined b.reason b.domain b.gen) := by
  have hfind : x.countDecline.fetch.asks.find? (fun a => a.matchesDecline n b) = some a := ha
  unfold State.takeDecline
  dsimp only
  rw [hfind]

theorem matchesDecline_peer {a : Ask} (h : a.matchesDecline n b = true) : a.peer = n := by
  simp only [Ask.matchesDecline, Bool.and_eq_true, beq_iff_eq] at h
  exact h.1.1.1.2

/-- R116: what a matched decline makes of the record of its sender. -/
theorem askEnded_declined (p : Peer) (now : Instant) (r : DeclineReason) (d : Domain) (g : Gen) :
    (p.askEnded now (.declined r d g)).timeouts = 0 ∧ (p.askEnded now (.declined r d g)).removalDue = p.removalDue ∧
    (r = .busy → (p.askEnded now (.declined r d g)).busy = some (now + 1000000) ∧ (p.askEnded now (.declined r d g)).values = p.values) ∧
    (r ≠ .busy → (p.askEnded now (.declined r d g)).values = p.values.set d ((p.values.get d).narrowed g)) := by
  cases r
  · exact ⟨rfl, rfl, fun _ => ⟨rfl, rfl⟩, fun h => absurd rfl h⟩
  · exact ⟨rfl, rfl, nofun, fun _ => rfl⟩
  · exact ⟨rfl, rfl, nofun, fun _ => rfl⟩

end

/-- Settles O33: the record as the header left it, with what the end of the matched ask makes of it. -/
theorem declineTaken : Obligations.DeclineTaken := by
  unfold Obligations.DeclineTaken
  intro s h body b p htaken hhere hparse hp
  have hkeeps := header_keeps s .decline h
  have hrunning := frameTaken_running (c := .declineReceived h body) rfl htaken
  have hexec := exec_frameTaken (c := .declineReceived h body) rfl htaken
  have hheader := (header_peer (k := .decline) hp h.sender.toNat).trans (if_pos rfl)
  obtain ⟨-, rvehicle, -, rstate, rheard, rsequence, rcongested, rremoval, rvalues, rparked, -, rfar, rnear⟩ :=
    refreshed_facts p s.clock s.supply.config.vehicle h
  generalize p.refreshed s.clock s.supply.config.vehicle h = r at *
  dsimp only [frameUse] at hexec hrunning
  generalize (s.readHeader .decline h).takeHeader h = x at hkeeps hexec hheader hrunning
  have huse : x.useDecline h body = x.takeDecline h.sender.toNat b := by
    unfold State.useDecline
    rw [hkeeps.addressed, if_neg (by simpa using hhere), hparse]
  rw [huse] at hexec hrunning
  have hcounted : x.countDecline.port.counters.declines = upOne s.port.counters.declines := by
    obtain ⟨refusals, hcounters⟩ := hkeeps.counters
    show bumpBy 1 x.port.counters.declines = _
    rw [hcounters]
    rfl
  rcases hfind : s.fetch.asks.find? (fun a => a.matchesDecline h.sender.toNat b) with _ | a
  case none =>
    have hnone : ∀ a ∈ s.fetch.asks, a.matchesDecline h.sender.toNat b = false := fun a ha =>
      Bool.eq_false_iff.mpr (List.find?_eq_none.mp hfind a ha)
    rw [takeDecline_unmatched (by rw [hkeeps.fetch]; exact hnone)] at hexec hrunning
    obtain ⟨q, hq, hunasked⟩ := settle_peer (u := x.countDecline) hrunning hheader
    obtain ⟨-, vehicle, -, state, heard, sequence, received, loss, timeouts, unresponsive, busy, congested, parked, values, removal⟩ :=
      unasked_eq_fields hunasked
    refine ⟨_, q, hexec, hcounted, hq, fun _ => ⟨congrArg Fetch.asks hkeeps.fetch, state.trans rstate, heard.trans rheard,
      vehicle.trans rvehicle, sequence.trans rsequence, congested.trans rcongested, parked.trans rparked, values.trans rvalues,
      removal.trans rremoval, ?_⟩, fun a ha => absurd (hfind.symm.trans ha) nofun⟩
    unfold Peer.countsAfter
    rw [loss, received, timeouts, unresponsive, busy]
    exact ⟨rfar, rnear⟩
  case some =>
    have hmatches : a.matchesDecline h.sender.toNat b = true := List.find?_some (p := fun a : Ask => a.matchesDecline h.sender.toNat b) hfind
    have hpeer : a.peer = h.sender.toNat := matchesDecline_peer hmatches
    rw [takeDecline_matched (by rw [hkeeps.fetch]; exact hfind)] at hexec hrunning
    obtain ⟨etimeouts, eremoval, ebusy, enarrowed⟩ := askEnded_declined r x.clock b.reason b.domain b.gen
    have hended : (x.countDecline.endAsk a (.declined b.reason b.domain b.gen)).peer h.sender.toNat = some (r.askEnded x.clock (.declined b.reason b.domain b.gen)) := by
      rw [← hpeer]
      exact endAsk_peer (y := x.countDecline) (by rw [hpeer]; exact hheader) (eremoval.trans rremoval)
    obtain ⟨q, hq, hunasked⟩ := settle_peer hrunning hended
    obtain ⟨-, -, -, -, -, -, -, -, timeouts, -, busy, -, -, values, -⟩ := unasked_eq_fields hunasked
    refine ⟨_, q, hexec, ?_, hq, fun hnone => ?_, fun a' ha' => ?_⟩
    · rw [endAsk_counters]
      exact hcounted
    · rw [hnone a (List.mem_of_find?_eq_some hfind)] at hmatches
      cases hmatches
    · obtain rfl := Option.some.inj (hfind.symm.trans ha')
      rw [timeouts, busy, values]
      refine ⟨?_, etimeouts, fun hbusy => ?_, fun hnarrow => ?_⟩
      · rw [endAsk_asks]
        exact congrArg (fun f : Fetch => f.asks.filter (fun x => x.id != a.id)) hkeeps.fetch
      · rw [← hkeeps.clock, ← rvalues]
        exact ebusy hbusy
      · rw [enarrowed hnarrow, rvalues, perDomain_get_set_same]
        exact ⟨(narrowed_facts _ _).1, (narrowed_facts _ _).2, fun d hd => perDomain_get_set_other _ _ _ _ hd⟩

end Sys2Proof.Machine

/-! # The transmitter, the link timers and the ages of the peers' records -/

namespace Sys2Proof.Machine

/-! ## The end of a transmission -/

section

variable {s : State} {c : Chosen}

/-- R131: the ask of the frame that ends is SENT. -/
def State.askMarked (s : State) (c : Chosen) : State :=
  match c.frame.ask with
  | some id => s.askSent id
  | none => s

/-- R167: the end of a frame of a paced class counts towards the next increase. -/
def State.endCounted (s : State) (c : Chosen) : State := if c.cls.paced then s.pacedEnd else s

theorem askMarked_shape (s : State) (c : Chosen) :
    s.askMarked c = { s with fetch := { s.fetch with asks := (s.askMarked c).fetch.asks } } := by
  unfold State.askMarked
  split <;> rfl

theorem askMarked_asks (s : State) (c : Chosen) :
    (∀ id : Nat, c.frame.ask = some id → (s.askMarked c).fetch.asks = s.fetch.asks.map (fun a =>
      if a.id = id then { a with sent := true, timeout := some (s.clock + 600000) } else a)) ∧
    ((∀ a ∈ s.fetch.asks, c.frame.ask ≠ some a.id) → (s.askMarked c).fetch.asks = s.fetch.asks) := by
  unfold State.askMarked
  cases hask : c.frame.ask with
  | none => exact ⟨nofun, fun _ => rfl⟩
  | some id =>
    have hmap : (s.askSent id).fetch.asks = s.fetch.asks.map (fun a =>
        if a.id = id then { a with sent := true, timeout := some (s.clock + 600000) } else a) :=
      List.map_congr_left fun a _ => if_congr beq_iff_eq rfl rfl
    refine ⟨fun id' h => ?_, fun hother => ?_⟩
    · cases h
      exact hmap
    · refine hmap.trans ?_
      conv_rhs => rw [← List.map_id s.fetch.asks]
      exact List.map_congr_left fun a ha => if_neg fun h => hother a ha (by rw [h])

theorem endCounted_shape (s : State) (c : Chosen) :
    s.endCounted c = { s with link := (s.endCounted c).link, port := { s.port with flags := (s.endCounted c).port.flags } } := by
  unfold State.endCounted
  split
  · exact pacedEnd_shape s
  · rfl

theorem paced_iff (x : TxClass) : x.paced = true ↔ x ≠ .announce := by cases x <;> simp [TxClass.paced]

/-- R162 to R165: what follows a transmission's end changes nothing that its end has set. -/
theorem transmissionEnd_channelKeeps (s : State) (c : Chosen) : ChannelKeeps ((s.askMarked c).endCounted c) (s.transmissionEnd c) := by
  have hfree : ChannelKeeps ((s.askMarked c).endCounted c) (((s.askMarked c).endCounted c).linked (fun l => { l with chosen := none })) :=
    { eq := rfl, asks := rfl, serve := rfl, asr := rfl, increase := rfl, lowRate := rfl, announceAt := rfl }
  exact (hfree.trans (followChannel_channelKeeps _)).trans (transmitNext_channelKeeps _)

/-- R167, R170: what the end of a frame makes of the rate. -/
theorem endCounted_rate (s : State) (c : Chosen) :
    (c.cls = .announce → (s.endCounted c).link.asr = s.link.asr ∧ (s.endCounted c).link.increase = s.link.increase) ∧
    (c.cls ≠ .announce → s.link.increase + 1 ≠ 16 →
      (s.endCounted c).link.asr = s.link.asr ∧ (s.endCounted c).link.increase = s.link.increase + 1) ∧
    (c.cls ≠ .announce → s.link.increase + 1 = 16 → (s.endCounted c).link.increase = 0 ∧
      (s.endCounted c).link.asr = max s.supply.config.msr (min s.supply.config.psr (s.link.asr + max 1 (s.supply.config.psr / 16)))) ∧
    ((s.endCounted c).link.asr = s.link.asr → (s.endCounted c).link.lowRate = s.link.lowRate) ∧
    ((s.endCounted c).link.asr ≠ s.link.asr →
      (s.link.lowRate = .ok → (s.endCounted c).link.asr ≤ s.supply.config.lowThreshold →
        (s.endCounted c).link.lowRate = .low ∧ (s.endCounted c).port.flags.getLsbD 2 = true) ∧
      (s.link.lowRate = .ok → s.supply.config.lowThreshold < (s.endCounted c).link.asr → (s.endCounted c).link.lowRate = .ok) ∧
      (s.link.lowRate = .low → s.supply.config.lowThreshold + 4 ≤ (s.endCounted c).link.asr →
        (s.endCounted c).link.lowRate = .ok ∧ (s.endCounted c).port.flags.getLsbD 3 = true) ∧
      (s.link.lowRate = .low → (s.endCounted c).link.asr < s.supply.config.lowThreshold + 4 → (s.endCounted c).link.lowRate = .low)) := by
  unfold State.endCounted
  by_cases hclass : c.cls = .announce
  · rw [if_neg (by simp [paced_iff, hclass])]
    exact ⟨fun _ => ⟨rfl, rfl⟩, fun h => absurd hclass h, fun h => absurd hclass h, fun _ => rfl, fun h => absurd rfl h⟩
  · rw [if_pos ((paced_iff _).mpr hclass)]
    unfold State.pacedEnd
    by_cases hcount : s.link.increase + 1 = 16
    · rw [if_pos hcount]
      obtain ⟨-, hasr, hincrease, -, hsame, hchanged⟩ :=
        changeAsr_facts (s.linked (fun l => { l with increase := 0 })) (s.link.asr + increaseStep s.supply.config.psr)
      refine ⟨fun h => absurd h hclass, fun _ h => absurd hcount h, fun _ _ => ⟨?_, hasr⟩, hsame, hchanged⟩
      rcases hincrease with h | h <;> exact h
    · rw [if_neg hcount]
      exact ⟨fun h => absurd h hclass, fun _ _ => ⟨rfl, rfl⟩, fun _ h => absurd h hcount, fun _ => rfl, fun h => absurd rfl h⟩

end

/-- Settles O34: the marking of the ask, which nothing after it undoes. -/
theorem transmissionEndMakesAskSent : Obligations.TransmissionEndMakesAskSent := by
  unfold Obligations.TransmissionEndMakesAskSent
  refine ⟨fun s hcut => exec_transmissionEnd_cutOff hcut, fun s c hchosen hphase hcut => ?_⟩
  have hchannel := transmissionEnd_channelKeeps s c
  have hcounted := endCounted_shape (s.askMarked c) c
  have hmarked := askMarked_shape s c
  have hasks : (s.transmissionEnd c).fetch.asks = (s.askMarked c).fetch.asks := hchannel.asks.trans (congrArg (fun t : State => t.fetch.asks) hcounted :)
  obtain ⟨hmine, hother⟩ := askMarked_asks s c
  refine ⟨_, exec_transmissionEnd hchosen hphase hcut, fun id hid => hasks.trans (hmine id hid), fun hno => hasks.trans (hother hno), ?_, ?_⟩
  · rw [hchannel.serve, hcounted, hmarked]
  · obtain ⟨asks, hmarked'⟩ : ∃ f, s.askMarked c = { s with fetch := f } := ⟨_, hmarked⟩
    obtain ⟨link, flags, hcounted'⟩ : ∃ l f, (s.askMarked c).endCounted c =
        { s.askMarked c with link := l, port := { (s.askMarked c).port with flags := f } } := ⟨_, _, hcounted⟩
    obtain ⟨link', fetch, draws, hend⟩ : ∃ l f d, s.transmissionEnd c =
        { (s.askMarked c).endCounted c with link := l, fetch := f, draws := d } := ⟨_, _, _, hchannel.eq⟩
    rw [hend, hcounted', hmarked']

/-- Settles O35: the rate after the end of a paced frame, which the arbiter leaves as it is. -/
theorem pacedEndsRaiseRate : Obligations.PacedEndsRaiseRate := by
  unfold Obligations.PacedEndsRaiseRate
  intro s c hchosen hphase hcut
  have hchannel := transmissionEnd_channelKeeps s c
  have hflags : (s.transmissionEnd c).port = ((s.askMarked c).endCounted c).port := by rw [hchannel.eq]
  have hmarked := askMarked_shape s c
  refine ⟨_, exec_transmissionEnd hchosen hphase hcut, ?_⟩
  rw [hchannel.asr, hchannel.increase, hchannel.lowRate, hflags, hmarked]
  exact endCounted_rate { s with fetch := { s.fetch with asks := (s.askMarked c).fetch.asks } } c

/-! ## Channel access, credit and the decrease hold -/

/-- Settles O36: by the phase of the chosen frame. -/
theorem channelAccessRuns : Obligations.ChannelAccessRuns := by
  unfold Obligations.ChannelAccessRuns
  refine ⟨fun s busy => ?sense, fun s c hchosen hphase hclear hquiet => ?quiet, fun s c hchosen hphase hclear hslot => ?slot⟩
  case sense =>
    refine ⟨_, rfl, ?_, fun hbusy => ?_, fun hbusy => ?_⟩
    · cases busy
      all_goals
        dsimp only
        rw [followChannel_eq]
        rfl
    · subst hbusy
      dsimp only
      rw [followChannel_eq]
      rfl
    · subst hbusy
      dsimp only
      rw [followChannel_eq]
      show s.link.chosen.map _ = _
      exact congrArg (s.link.chosen.map ·) (funext fun c => by simp)
  case quiet =>
    have htest : (c.phase == .defer && s.quietEnough) = true := by
      rw [Bool.and_eq_true, State.quietEnough, Bool.and_eq_true]
      exact ⟨by simp [hphase], by simp [hclear], decide_eq_true hquiet⟩
    have hexec : exec .quietIntervalEnd s = .next (s.enterBackoff c) := by
      show execQuietIntervalEnd s = _
      unfold execQuietIntervalEnd
      rw [hchosen]
      dsimp only
      rw [if_pos htest]
    refine ⟨fun hzero => ⟨_, hexec, ?_⟩, fun hnonzero => ?_⟩
    · unfold State.enterBackoff
      dsimp only
      rw [if_pos hzero]
      exact startTransmission_starts (c' := { c with phase := .backoff, slotFrom := s.clock }) rfl rfl rfl
    · rw [hexec]
      unfold State.enterBackoff
      dsimp only
      rw [if_neg hnonzero]
      rfl
  case slot =>
    have hexec : exec .backoffSlotEnd s = .next (s.backoffFalls c) := by
      show execBackoffSlotEnd s = _
      unfold execBackoffSlotEnd
      rw [hchosen]
      dsimp only
      rw [if_pos (by simpa [hphase, hclear] using hslot)]
    refine ⟨fun hlast => ⟨_, hexec, ?_⟩, fun hmore => ?_⟩
    · unfold State.backoffFalls
      dsimp only
      rw [if_pos hlast]
      exact startTransmission_starts (c' := { c with backoff := c.backoff - 1, slotFrom := s.clock }) rfl rfl rfl
    · rw [hexec]
      unfold State.backoffFalls
      dsimp only
      rw [if_neg (by omega)]
      rfl

/-- Settles O37: both timers by their tests. -/
theorem creditAndDecreaseHoldRun : Obligations.CreditAndDecreaseHoldRun := by
  unfold Obligations.CreditAndDecreaseHoldRun
  refine ⟨fun s t0 hfrom hdue => ?credit, fun s t0 hhold hdue => ?hold⟩
  case credit =>
    have hcredit : s.creditIsDue = true := by
      unfold State.creditIsDue
      rw [hfrom]
      exact decide_eq_true hdue
    show execCreditDue s = _
    unfold execCreditDue
    rw [if_pos hcredit]
    rfl
  case hold =>
    show execDecreaseHoldExpiry s = _
    unfold execDecreaseHoldExpiry
    rw [hhold, if_pos (show s.due (some t0) = true from decide_eq_true hdue)]
    rfl

/-! ## Announcements -/

/-- Settles O40: the jitter keeps the new period within its bounds, whatever was drawn. -/
theorem announcementFormed : Obligations.AnnouncementFormed := by
  unfold Obligations.AnnouncementFormed
  intro s t0 hat hdue
  have hexec : exec .announcementTimerExpiry s = .next s.formAnnounce.transmitNext := by
    show execAnnouncementTimerExpiry s = _
    unfold execAnnouncementTimerExpiry
    rw [hat, if_pos (show s.due (some t0) = true from decide_eq_true hdue)]
  refine ⟨s.formAnnounce, _, hexec, rfl, (transmitNext_channelKeeps _).announceAt, jitter_low _ _, jitter_high _ _, rfl, fun hchosen => ?_⟩
  unfold State.formAnnounce State.linked State.draw Link.placeAnnounce
  dsimp only
  rw [hchosen]
  simp [State.announceBody]

/-! ## The ages of the records -/

section

variable {s : State} {n : Station} {p : Peer}

theorem ageReached {x : PeerState} {k : Nat} (hstate : p.state = x) (hage : p.heard + k ≤ s.clock) :
    (p.state == x && decide (p.heard + k ≤ s.clock)) = true := by
  rw [hstate, beq_self_eq_true, Bool.true_and]
  exact decide_eq_true hage

/-- A change of the peer table, the lag list and what is to do is no change of the store. -/
theorem sameStore_of_quiet {u : State} (h : Quiet s u) : s.sameStore u := sameStore_of_calm h.calm

/-- A record replaced and reported. -/
theorem setPeer_reported {q : Peer} (hp : s.peer n = some p) (hq : q.station = p.station) :
    s.sameStore (s.setPeer q).peerReport ∧ ∀ m, ((s.setPeer q).peerReport).peer m = if m = n then some q else s.peer m :=
  ⟨sameStore_of_quiet ((quiet_setPeer q).trans quiet_peerReport), fun m => setPeer_lookup q hp hq m⟩

theorem peerStale_peer (hp : s.peer n = some p) (m : Station) :
    (s.peerStale p).peer m = if m = n then some { p with state := .stale } else s.peer m := by
  refine Eq.trans ?_ (setPeer_lookup { p with state := .stale } hp rfl m)
  unfold State.peerStale
  dsimp only
  split <;> rfl

end

/-- Settles O41: each timer sets one record, and the running out of the event leaves the table as it is. -/
theorem peerRecordsAge : Obligations.PeerRecordsAge := by
  unfold Obligations.PeerRecordsAge
  intro s n p hrunning hp
  refine ⟨fun hknown hage => ?stale, fun hstale hage hidle => ?removed, fun hstale hage hasked => ?marked,
    fun t0 huntil hdue => ?unresponsive, fun t0 huntil hdue => ?busy⟩
  case stale =>
    have hexec : exec (.staleExpiry n) s = .next (s.peerStale p).settle := by
      show execStaleExpiry n s = _
      unfold execStaleExpiry
      rw [hp]
      dsimp only
      rw [if_pos (ageReached (k := Config.staleAfter) hknown hage)]
    obtain ⟨q, hq, hunasked, hothers, hstore⟩ := settle_agedPeer hrunning (sameStore_of_quiet (quiet_peerStale p)) (peerStale_peer hp)
    exact ⟨_, q, hexec, hq, hunasked, hothers, hstore⟩
  case removed =>
    have hexec : exec (.removalExpiry n) s = .next (s.removePeer p).settle := by
      show execRemovalExpiry n s = _
      unfold execRemovalExpiry State.peerRemoval
      rw [hp]
      dsimp only
      rw [if_pos (ageReached (k := Config.removeAfter) hstale hage), if_pos hidle]
    have hstore := sameStore_of_quiet (quiet_removePeer (s := s) p)
    have hrunning' := sameStore_running hstore hrunning
    have hgone : (s.removePeer p).peer n.toNat = none := by rw [removePeer_peer, (peer_found hp).2, if_pos rfl]
    refine ⟨_, hexec, ?_, fun m hm => ?_, sameStore_trans hstore (settle_sameStore hrunning')⟩
    · have hsettled := settle_peers hrunning' n.toNat
      rw [hgone] at hsettled
      exact Option.map_eq_none_iff.mp hsettled
    · rw [settle_peers hrunning', removePeer_peer, (peer_found hp).2, if_neg hm]
  case marked =>
    have hexec : exec (.removalExpiry n) s = .next (s.setPeer { p with removalDue := true }) := by
      show execRemovalExpiry n s = _
      unfold execRemovalExpiry State.peerRemoval
      rw [hp]
      dsimp only
      rw [if_pos (ageReached (k := Config.removeAfter) hstale hage), if_neg hasked]
    have hset := setPeer_lookup { p with removalDue := true } hp rfl
    exact ⟨_, hexec, rfl, (hset _).trans (if_pos rfl), fun m hm => (hset m).trans (if_neg hm)⟩
  case unresponsive =>
    have hexec : exec (.unresponsiveExpiry n) s = .next ((s.setPeer { p with unresponsive := none, timeouts := 0 }).peerReport).settle := by
      show execUnresponsiveExpiry n s = _
      unfold execUnresponsiveExpiry
      rw [hp]
      dsimp only
      rw [huntil, if_pos (show s.due (some t0) = true from decide_eq_true hdue)]
    obtain ⟨hstore, hset⟩ := setPeer_reported (q := { p with unresponsive := none, timeouts := 0 }) hp rfl
    obtain ⟨q, hq, hunasked, hothers, hstore'⟩ := settle_agedPeer hrunning hstore hset
    exact ⟨_, q, hexec, hq, hunasked, hothers, hstore'⟩
  case busy =>
    have hexec : exec (.busyExpiry n) s = .next ((s.setPeer { p with busy := none }).peerReport).settle := by
      show execBusyExpiry n s = _
      unfold execBusyExpiry
      rw [hp]
      dsimp only
      rw [huntil, if_pos (show s.due (some t0) = true from decide_eq_true hdue)]
    obtain ⟨hstore, hset⟩ := setPeer_reported (q := { p with busy := none }) hp rfl
    obtain ⟨q, hq, hunasked, hothers, hstore'⟩ := settle_agedPeer hrunning hstore hset
    exact ⟨_, q, hexec, hq, hunasked, hothers, hstore'⟩

end Sys2Proof.Machine

/-! # The digest of a collected slot -/

namespace Sys2Proof.Machine

section

variable {s : State} {i : SlotId} {m : Manifest}

/-! ## The state that the result of a digest leaves -/

/-- R90: a right digest, before the drains of R101. -/
def State.digestVerified (s : State) (i : SlotId) : State :=
  ((s.setSlot i { s.slot i with digesting := false, state := .verified }).queueIndex
    (.verified (s.slot i).domain (s.slot i).gen)).answerDigest i .verified

/-- R91: a wrong digest, before the slot collects again or is abandoned. -/
def State.digestFailed (s : State) (i : SlotId) : State :=
  (((s.countDigestFailure).queueIndex (.digestFailed (s.slot i).domain (s.slot i).gen)).setSlot i { s.slot i with
    digesting := false, presence := [], failures := (s.slot i).failures + 1
    demoted := demote (s.slot i).demoted (s.sourcePeers (s.slot i).presence) }).answerDigest i .digestFail

theorem digestFailure_cases (s : State) (i : SlotId) (m : Manifest) :
    s.digestFailure i m = if 3 ≤ (s.slot i).failures + 1 ∨ (s.slot i).origin = .local then (s.digestFailed i).abandon i m.digest
      else (s.digestFailed i).wantAsking := by
  unfold State.digestFailure
  dsimp only
  exact if_congr (by simp) rfl rfl

theorem exec_digestCompletion (hdigesting : (s.slot i).digesting = true) (hmanifest : (s.slot i).manifest = some m) :
    exec (.digestCompletion i) s = .next (State.settle
      (if digestOf m ((s.slot i).presence.map (·.crc)) = m.digest then (s.digestVerified i).verifiedDrains i
      else if 3 ≤ (s.slot i).failures + 1 ∨ (s.slot i).origin = .local then (s.digestFailed i).abandon i m.digest
      else (s.digestFailed i).wantAsking)) := by
  have hdone : s.digestDone i = if digestOf m ((s.slot i).presence.map (·.crc)) = m.digest then (s.digestVerified i).verifiedDrains i
      else s.digestFailure i m := by
    unfold State.digestDone
    dsimp only
    split
    next m' hm _ =>
      obtain rfl := Option.some.inj (hmanifest.symm.trans hm)
      exact if_congr beq_iff_eq rfl rfl
    next hother => exact absurd hdigesting (hother m hmanifest)
  show execDigestCompletion i s = _
  unfold execDigestCompletion
  rw [if_pos hdigesting, hdone, digestFailure_cases]

/-- R90, R95: the answer to the PUBLISH-SEGMENT that waits for a slot's digest. -/
theorem answerDigest_facts (s : State) (i : SlotId) (code : OutcomeCode) :
    s.answerDigest i code = { s with port := (s.answerDigest i code).port } ∧
    (s.port.inProgress = some (.segmentDigest i) → (s.answerDigest i code).port.inProgress = none ∧
      (s.answerDigest i code).port.response = some
        { kind := RequestKind.publishSegment.code, outcome := code.code, overrun := s.port.overrun, body := (s.slot i).countsBody }) ∧
    (s.port.inProgress ≠ some (.segmentDigest i) → (s.answerDigest i code).port = s.port) ∧
    (s.answerDigest i code).port.counters = s.port.counters := by
  unfold State.answerDigest
  by_cases h : s.port.inProgress = some (.segmentDigest i)
  · rw [if_pos (by simpa using h)]
    exact ⟨rfl, fun _ => ⟨rfl, rfl⟩, fun hother => absurd h hother, rfl⟩
  · rw [if_neg (by simpa using h)]
    exact ⟨rfl, fun hmine => absurd hmine h, fun _ => rfl, rfl⟩

theorem countsBody_of_manifest {x : Slot} (h : x.manifest = some m) : x.countsBody = toBytes 2 x.presence.length ++ toBytes 2 m.count := by
  unfold Slot.countsBody Slot.count
  rw [h]

theorem digestVerified_facts (s : State) (i : SlotId) :
    s.digestVerified i = { s with slots := (s.digestVerified i).slots, pool := (s.digestVerified i).pool, port := (s.digestVerified i).port } ∧
    (s.digestVerified i).slot i = { s.slot i with digesting := false, state := .verified } ∧
    (∀ j, j ≠ i → (s.digestVerified i).slot j = s.slot j) ∧
    (s.digestVerified i).pool = { s.pool with indexQueue := s.pool.indexQueue ++ [.verified (s.slot i).domain (s.slot i).gen] } ∧
    (s.port.inProgress ≠ some (.segmentDigest i) → (s.digestVerified i).port = s.port) := by
  obtain ⟨hshape, -, hother, -⟩ := answerDigest_facts
    ((s.setSlot i { s.slot i with digesting := false, state := .verified }).queueIndex (.verified (s.slot i).domain (s.slot i).gen)) i .verified
  unfold State.digestVerified
  rw [hshape]
  exact ⟨rfl, State.setSlot_slot _ _ _, fun j hj => State.setSlot_slot_other _ _ _ _ hj, rfl, hother⟩

theorem digestVerified_answer (hmanifest : (s.slot i).manifest = some m) (hwaits : s.port.inProgress = some (.segmentDigest i)) :
    (s.digestVerified i).port.inProgress = none ∧ (s.digestVerified i).port.response = some
      { kind := RequestKind.publishSegment.code, outcome := OutcomeCode.verified.code, overrun := s.port.overrun
        body := toBytes 2 (s.slot i).presence.length ++ toBytes 2 m.count } := by
  obtain ⟨-, hanswer, -⟩ := answerDigest_facts
    ((s.setSlot i { s.slot i with digesting := false, state := .verified }).queueIndex (.verified (s.slot i).domain (s.slot i).gen)) i .verified
  obtain ⟨hidle, hresponse⟩ := hanswer hwaits
  refine ⟨hidle, hresponse.trans ?_⟩
  have hslot : ((s.setSlot i { s.slot i with digesting := false, state := .verified }).queueIndex
      (.verified (s.slot i).domain (s.slot i).gen)).slot i = { s.slot i with digesting := false, state := .verified } := State.setSlot_slot _ _ _
  rw [hslot, countsBody_of_manifest (x := { s.slot i with digesting := false, state := .verified }) hmanifest]
  rfl

theorem digestFailed_facts (s : State) (i : SlotId) :
    s.digestFailed i = { s with slots := (s.digestFailed i).slots, pool := (s.digestFailed i).pool, port := (s.digestFailed i).port } ∧
    (s.digestFailed i).slot i = { s.slot i with
      digesting := false, presence := [], failures := (s.slot i).failures + 1
      demoted := demote (s.slot i).demoted (s.sourcePeers (s.slot i).presence) } ∧
    (∀ j, j ≠ i → (s.digestFailed i).slot j = s.slot j) ∧
    (s.digestFailed i).pool = { s.pool with indexQueue := s.pool.indexQueue ++ [.digestFailed (s.slot i).domain (s.slot i).gen] } ∧
    (s.digestFailed i).port.counters.digestFailures = upOne s.port.counters.digestFailures := by
  obtain ⟨hshape, -, -, hcounters⟩ := answerDigest_facts
    (((s.countDigestFailure).queueIndex (.digestFailed (s.slot i).domain (s.slot i).gen)).setSlot i { s.slot i with
      digesting := false, presence := [], failures := (s.slot i).failures + 1
      demoted := demote (s.slot i).demoted (s.sourcePeers (s.slot i).presence) }) i .digestFail
  refine ⟨?_, ?_, fun j hj => ?_, ?_, congrArg Counters.digestFailures hcounters⟩
  all_goals
    unfold State.digestFailed
    rw [hshape]
  · rfl
  · exact State.setSlot_slot _ _ _
  · exact State.setSlot_slot_other _ _ _ _ hj
  · rfl

theorem digestFailed_answer (hmanifest : (s.slot i).manifest = some m) (hwaits : s.port.inProgress = some (.segmentDigest i)) :
    (s.digestFailed i).port.inProgress = none ∧ (s.digestFailed i).port.response = some
      { kind := RequestKind.publishSegment.code, outcome := OutcomeCode.digestFail.code, overrun := s.port.overrun
        body := toBytes 2 0 ++ toBytes 2 m.count } := by
  let x : Slot := { s.slot i with
    digesting := false, presence := [], failures := (s.slot i).failures + 1
    demoted := demote (s.slot i).demoted (s.sourcePeers (s.slot i).presence) }
  obtain ⟨-, hanswer, -⟩ := answerDigest_facts
    (((s.countDigestFailure).queueIndex (.digestFailed (s.slot i).domain (s.slot i).gen)).setSlot i x) i .digestFail
  obtain ⟨hidle, hresponse⟩ := hanswer hwaits
  refine ⟨hidle, hresponse.trans ?_⟩
  rw [State.setSlot_slot, countsBody_of_manifest (x := x) hmanifest]
  rfl

/-! ## The drains of a verified BASELINE -/

/-- R101: slot `y` drains when the BASELINE slot `x` of its domain enters VERIFIED. -/
def Slot.overtakes (x y : Slot) : Bool :=
  y.gen < x.gen && !y.holdsBaseline &&
    (y.state == .manifestWanted || y.state == .admitWait || y.state == .collecting || y.state == .verified || y.state == .blocked)

theorem holdsBaseline_iff (x : Slot) : x.holdsBaseline = true ↔ ∃ m, x.manifest = some m ∧ m.kind = .baseline := by
  unfold Slot.holdsBaseline
  cases x.manifest <;> simp

theorem overtakenBy_iff (s : State) (i j : SlotId) :
    s.overtakenBy i j ↔ (s.slot j).domain = (s.slot i).domain ∧ (s.slot i).overtakes (s.slot j) = true := by
  have hbaseline : (s.slot j).holdsBaseline = false ↔ ∀ m, (s.slot j).manifest = some m → m.kind ≠ .baseline := by
    rw [Bool.eq_false_iff, Ne, holdsBaseline_iff]
    simp
  unfold State.overtakenBy Slot.overtakes
  simp only [Bool.and_eq_true, Bool.or_eq_true, decide_eq_true_eq, beq_iff_eq, Bool.not_eq_true', hbaseline, or_assoc, and_assoc]

theorem overtakes_kept (x : Slot) {y z : Slot} (h : y.keptAs z) : x.overtakes z = x.overtakes y := by
  unfold Slot.keptAs at h
  rw [← h]
  rfl

theorem mem_domainSlots (s : State) (d : Domain) (j : SlotId) :
    j ∈ s.domainSlots d ↔ (s.slot j).state ≠ .empty ∧ (s.slot j).state ≠ .draining ∧ (s.slot j).domain = d := by
  simp [State.domainSlots, allSlots, and_assoc]

theorem overtakenBy_mem {j : SlotId} (h : s.overtakenBy i j) : j ∈ s.domainSlots (s.slot i).domain := by
  obtain ⟨hdomain, -, -, hstate⟩ := h
  rw [mem_domainSlots]
  refine ⟨?_, ?_, hdomain⟩ <;> rcases hstate with h | h | h | h | h <;> rw [h] <;> decide

/-- R101: what the drains after a BASELINE slot's entry to VERIFIED do. -/
theorem verifiedDrains_baseline (hbaseline : (s.slot i).holdsBaseline = true) :
    (∀ j, s.overtakenBy i j → s.slotDrained j ((s.verifiedDrains i).slot j)) ∧
    (∀ j, ¬ s.overtakenBy i j → (s.slot j).keptAs ((s.verifiedDrains i).slot j)) ∧
    ∀ w ∈ s.pool.indexQueue, w ∈ (s.verifiedDrains i).pool.indexQueue := by
  have hfold : s.verifiedDrains i = (s.domainSlots (s.slot i).domain).foldl
      (fun t j => if (s.slot i).overtakes (t.slot j) then t.drainSlot j else t) s := by
    unfold State.verifiedDrains
    dsimp only
    rw [if_neg (by simp [hbaseline])]
    rfl
  have hnodup : (s.domainSlots (s.slot i).domain).Nodup := List.Nodup.filter _ (List.nodup_finRange 6)
  obtain ⟨hdrained, hkept, -, hqueue⟩ := overtaken_drains s (s.slot i).overtakes (fun _ _ => overtakes_kept _)
    (s.domainSlots (s.slot i).domain) s hnodup rfl (fun j _ => Slot.keptAs_refl _)
  rw [← hfold] at hdrained hkept hqueue
  refine ⟨fun j hj => hdrained j (overtakenBy_mem hj) ((overtakenBy_iff s i j).mp hj).2, fun j hj => hkept j ?_, hqueue⟩
  by_cases hmem : j ∈ s.domainSlots (s.slot i).domain
  · refine .inr (Bool.eq_false_iff.mpr fun h => hj ((overtakenBy_iff s i j).mpr ⟨?_, h⟩))
    exact ((mem_domainSlots s _ j).mp hmem).2.2
  · exact .inl hmem

theorem slotDrained_congr {t : State} {j : SlotId} {y : Slot} (hfetch : t.fetch = s.fetch) (hdomain : (t.slot j).domain = (s.slot j).domain)
    (hgen : (t.slot j).gen = (s.slot j).gen) (h : t.slotDrained j y) : s.slotDrained j y := by
  have hasks : t.slotAsks j = s.slotAsks j := by unfold State.slotAsks; rw [hfetch, hdomain, hgen]
  unfold State.slotDrained at h ⊢
  rw [← hasks, ← hdomain, ← hgen]
  exact h

/-- R101, of the state before the digest: with a free port the drains touch no response either. -/
theorem verifiedDrains_port (hidle : s.port.inProgress = none) : (s.verifiedDrains i).port = s.port := by
  have hfold : ∀ (l : List SlotId) (x : Slot) (t : State), t.port = s.port →
      (l.foldl (fun t j => if x.overtakes (t.slot j) then t.drainSlot j else t) t).port = s.port := by
    intro l x
    induction l with
    | nil => exact fun t h => h
    | cons j l ih =>
      intro t h
      rw [List.foldl_cons]
      refine ih _ ?_
      split
      · exact ((drainSlot_facts t j).2.2.2 (by rw [h, hidle])).trans h
      · exact h
  unfold State.verifiedDrains
  dsimp only
  split
  · rfl
  · exact hfold _ (s.slot i) s rfl

/-! ## The barred list -/

/-- R92: a barred digest is the newest, and the list keeps its bound. -/
theorem bar_facts (l : List (BitVec 32)) (x : BitVec 32) : (bar l x).getLast? = some x ∧ (bar l x).length ≤ max 8 l.length := by
  have hlength : (l.filter (· != x)).length ≤ l.length := List.length_filter_le _ _
  unfold bar
  dsimp only
  refine ⟨List.getLast?_concat, ?_⟩
  split
  next h =>
    have hbound : (l.filter (· != x)).length < 8 := h
    simp only [List.length_append, List.length_singleton]
    omega
  next h =>
    have hbound : 8 ≤ (l.filter (· != x)).length := Nat.not_lt.mp h
    simp only [List.length_append, List.length_singleton, List.length_drop]
    omega

/-- R92: what the abandoning of a slot does. -/
theorem abandon_facts (s : State) (i : SlotId) (x : BitVec 32) :
    (s.abandon i x).backup.barred = bar s.backup.barred x ∧ (s.abandon i x).port.counters = s.port.counters ∧
    (s.abandon i x).port.flags.getLsbD 8 = true ∧ (s.port.inProgress = none → (s.abandon i x).port.response = s.port.response) ∧
    s.slotDrained i ((s.abandon i x).slot i) ∧ (∀ j, j ≠ i → (s.slot j).keptAs ((s.abandon i x).slot j)) ∧
    ∀ w ∈ s.pool.indexQueue, w ∈ (s.abandon i x).pool.indexQueue := by
  let t := ({ s with backup := Backup.sealed { s.backup with barred := bar s.backup.barred x } } : State).raise .genBarred
  obtain ⟨hbackup, hflags, hcounters, hport⟩ := drainSlot_facts t i
  obtain ⟨hdrained, hkept, -, -, hqueue⟩ := drainSlot_slots t i
  refine ⟨congrArg Backup.barred hbackup, hcounters, ?_, fun hidle => (congrArg Port.response (hport hidle) :), hdrained, hkept, hqueue⟩
  show (t.drainSlot i).port.flags.getLsbD 8 = true
  rw [hflags]
  show (s.port.flags ||| Notice.mask .genBarred).getLsbD 8 = true
  simp [Notice.mask, Notice.bit]

end

/-- Settles O43: a right digest verifies the slot and drains what it overtakes; a wrong one collects again or abandons the slot. -/
theorem digestJudged : Obligations.DigestJudged := by
  unfold Obligations.DigestJudged
  intro s i m hmanifest hdigesting
  have hexec := exec_digestCompletion hdigesting hmanifest
  refine ⟨fun hright => ?right, fun hwrong => ?wrong⟩
  case right =>
    rw [if_pos hright] at hexec
    obtain ⟨hshape, hslot, hother, hpool, hport⟩ := digestVerified_facts s i
    have hanswer := digestVerified_answer (s := s) (i := i) hmanifest
    generalize s.digestVerified i = t at *
    have hholds : (t.slot i).holdsBaseline = true ↔ m.kind = .baseline := by
      rw [hslot, holdsBaseline_iff]
      simp [hmanifest]
    refine ⟨_, hexec, fun hwaits => ?answer, fun hdelta => ?delta, fun hbaseline => ?baseline⟩
    case answer =>
      rw [verifiedDrains_port (hanswer hwaits).1]
      exact hanswer hwaits
    case delta =>
      have hstays : t.verifiedDrains i = t := by
        unfold State.verifiedDrains
        exact if_pos (by simp [← Bool.not_eq_true, hholds, hdelta])
      rw [hstays]
      exact ⟨hslot, hother, hpool, hshape, hport⟩
    case baseline =>
      obtain ⟨hdrained, hkept, hqueue⟩ := verifiedDrains_baseline (hholds.mpr hbaseline)
      have hfetch : t.fetch = s.fetch := (congrArg State.fetch hshape :)
      have hovertaken : ∀ j, j ≠ i → (t.overtakenBy i j ↔ s.overtakenBy i j) := fun j hj => by
        unfold State.overtakenBy
        rw [hslot, hother j hj]
      refine ⟨?_, fun j hj hovertakes => ?_, fun j hj hstays => ?_, hqueue _ ?_⟩
      · rw [← hslot]
        exact hkept i fun h => absurd h.2.1 (Nat.lt_irrefl _)
      · have hsame := hother j hj
        exact slotDrained_congr hfetch (by rw [hsame]) (by rw [hsame]) (hdrained j ((hovertaken j hj).mpr hovertakes))
      · rw [← hother j hj]
        exact hkept j fun h => hstays ((hovertaken j hj).mp h)
      · rw [hpool]
        exact List.mem_append_right _ (List.mem_singleton_self _)
  case wrong =>
    rw [if_neg hwrong] at hexec
    obtain ⟨hshape, hslot, hother, hpool, hcounted⟩ := digestFailed_facts s i
    have hanswer := digestFailed_answer (s := s) (i := i) hmanifest
    generalize s.digestFailed i = t at *
    have hqueued : .digestFailed (s.slot i).domain (s.slot i).gen ∈ t.pool.indexQueue := by
      rw [hpool]
      exact List.mem_append_right _ (List.mem_singleton_self _)
    by_cases habandoned : 3 ≤ (s.slot i).failures + 1 ∨ (s.slot i).origin = .local
    · rw [if_pos habandoned] at hexec
      obtain ⟨hbarred, hcounters, hflag, hresponse, hdrained, hkept, hqueue⟩ := abandon_facts t i m.digest
      have hbackup : t.backup = s.backup := (congrArg State.backup hshape :)
      have hfetch : t.fetch = s.fetch := (congrArg State.fetch hshape :)
      refine ⟨_, hexec, ?_, fun hwaits => ?_, fun hfew hpeer => ?_, fun _ => ⟨?_, ?_, hflag, ?_, fun j hj => ?_, hqueue _ hqueued⟩⟩
      · rw [hcounters]
        exact hcounted
      · rw [hresponse (hanswer hwaits).1]
        exact (hanswer hwaits).2
      · rcases habandoned with h | h
        · omega
        · rw [hpeer] at h
          cases h
      · rw [hbarred]
        exact (bar_facts _ _).1
      · rw [hbarred, hbackup]
        exact (bar_facts _ _).2
      · exact slotDrained_congr hfetch (by rw [hslot]) (by rw [hslot]) hdrained
      · rw [← hother j hj]
        exact hkept j hj
    · rw [if_neg habandoned] at hexec
      refine ⟨_, hexec, hcounted, fun hwaits => (hanswer hwaits).2, fun _ _ => ⟨(congrArg State.backup hshape :), ?_, ?_, ?_, hother, hpool⟩,
        fun h => absurd (h.imp_left fun h => by omega) habandoned⟩
      · show (t.slot i).state = _
        rw [hslot]
      · show (t.slot i).presence = _
        rw [hslot]
      · show (t.slot i).failures = _
        rw [hslot]

end Sys2Proof.Machine

/-! # The events of the slots and of the pool's write queue -/

namespace Sys2Proof.Machine

section

variable {s : State} {i : SlotId}

/-! ## Slots -/

theorem exec_slotDrainEnd (hstate : (s.slot i).state = .draining) (hasks : s.slotAsks i = []) :
    exec (.slotDrainEnd i) s = .next (s.vacate i).settle := by
  show execSlotDrainEnd i s = _
  unfold execSlotDrainEnd
  rw [if_pos (by simp [hstate, hasks])]

/-- R70: the grant of slot `i` is taken from the pool. -/
def State.grantTaken (s : State) (i : SlotId) : State :=
  { s with pool := { s.pool with grants := s.pool.grants.filter (· != i) } }

theorem exec_admissionGranted (hgrant : i ∈ s.pool.grants) : exec (.admissionGranted i) s = .next ((s.grantTaken i).slotAdmitted i).settle := by
  show execAdmissionGranted i s = _
  unfold execAdmissionGranted
  rw [if_pos (by simpa using hgrant)]
  rfl

theorem slotAdmitted_unverified (h : ∀ e, s.entry (s.slot i).domain (s.slot i).gen = some e → e.verified = false) :
    s.slotAdmitted i = (s.setSlot i { s.slot i with
      state := .collecting, lost := [], digesting := (s.slot i).presence.length == (s.slot i).count }).wantAsking := by
  unfold State.slotAdmitted
  dsimp only
  cases hentry : s.entry (s.slot i).domain (s.slot i).gen with
  | none => rfl
  | some e =>
    exact if_neg (by simp [h e hentry])

theorem slotAdmitted_verified {e : ManifestEntry} (hentry : s.entry (s.slot i).domain (s.slot i).gen = some e) (hverified : e.verified = true) :
    s.slotAdmitted i = if (s.slot i).lost.isEmpty then (s.setSlot i { s.slot i with state := .verified }).verifiedDrains i
      else ((s.setSlot i { s.slot i with state := .verified }).verifiedDrains i).wantAsking := by
  unfold State.slotAdmitted
  dsimp only
  rw [hentry]
  dsimp only
  rw [if_pos hverified]

/-! ## The write queue -/

theorem takeWrite_of_room {o : Offer} {rest : List Offer} {t : State}
    (h : s.freeFor o ∧ t = { s with pool := { s.pool with queue := rest, waiting := false, retryDue := false, writing := .segment o false } } ∨
      s.roomToMakeFor o ∧ t = { s with pool := { s.pool with queue := rest, waiting := false, retryDue := false, writing := .segment o true } } ∨
      s.noRoomFor o ∧ t = { s with pool := { s.pool with waiting := true, retryDue := false } }) :
    s.takeWrite o rest = t := by
  unfold State.takeWrite
  rcases h with ⟨hfree, rfl⟩ | ⟨hmake, rfl⟩ | ⟨hnone, rfl⟩
  · rw [writeRoom_free hfree]
    rfl
  · rw [writeRoom_evicts hmake]
    rfl
  · rw [writeRoom_wanting hnone]

theorem queueHasPlace_iff (s : State) : s.queueHasPlace = true ↔ s.pool.queue.length + (match s.pool.writing with
    | .segment _ true => 1
    | _ => 0) < 4 := by
  unfold State.queueHasPlace Pool.queueLoad PoolWrite.queuePlaces
  exact decide_eq_true_iff

end

/-- Settles O44: each event by the branch of its definition that its hypotheses name. -/
theorem slotAndQueueEventsRun : Obligations.SlotAndQueueEventsRun := by
  unfold Obligations.SlotAndQueueEventsRun
  refine ⟨fun s i hstate hasks => exec_slotDrainEnd hstate hasks, fun s i hgrant hunverified => ?collects,
    fun s i e hgrant hwaits hentry hverified => ?verified, fun s i d g k p hslot hpresent hstate => ?lost,
    fun s t o rest hidle hqueue hroom => ⟨fun hwaiting hretry => ?retry, fun hwaiting hindex => ?pump⟩,
    fun s w rest hidle hindex hother => ⟨?ready, ?index⟩, fun s _ => queueHasPlace_iff s, fun s o hheld hplace hopen => ?join⟩
  case collects => rw [exec_admissionGranted hgrant, slotAdmitted_unverified (s := s.grantTaken i) hunverified]; rfl
  case verified =>
    have hself : ((((s.grantTaken i).setSlot i { s.slot i with state := .verified })).verifiedDrains i).slot i =
        { s.slot i with state := .verified } :=
      (verifiedDrains_self ((s.grantTaken i).setSlot i { s.slot i with state := .verified }) i hwaits).trans (State.setSlot_slot _ _ _)
    have hadmitted := slotAdmitted_verified (s := s.grantTaken i) hentry hverified
    refine ⟨_, exec_admissionGranted hgrant, ?_, fun hlost => ?_⟩
    · rw [hadmitted]
      split <;> exact hself
    · rw [hadmitted, if_neg (show ¬ ((s.grantTaken i).slot i).lost.isEmpty = true from fun h => hlost (List.isEmpty_iff.mp h))]
      rfl
  case lost =>
    show (s.takeIndexLost d g k).slot i = _
    unfold State.takeIndexLost
    rw [hslot]
    dsimp only
    rw [hpresent]
    dsimp only
    rw [if_pos (by simpa [or_assoc] using hstate)]
    exact State.setSlot_slot s i _
  case retry =>
    show Host.Outcome.next s.retryWrite = _
    unfold State.retryWrite
    rw [hwaiting, hretry, hidle, hqueue]
    exact congrArg Host.Outcome.next (takeWrite_of_room hroom)
  case pump =>
    unfold State.poolPump
    rw [if_neg (by simp [hidle]), hindex, hwaiting, hqueue]
    exact takeWrite_of_room hroom
  case ready =>
    unfold State.poolReady
    simp [hidle, hindex]
  case index =>
    unfold State.poolPump
    rw [if_neg (by simp [hidle]), hindex]
    cases w with
    | enter i m what opened => exact absurd rfl (hother i m what opened)
    | _ => rfl
  case join =>
    show Host.Outcome.next s.joinQueue.settle = _
    unfold State.joinQueue
    rw [hheld]
    dsimp only
    rw [if_pos (by simp [hplace, hopen])]
    rfl

end Sys2Proof.Machine

/-! # The commits of the pool's segment writes -/

namespace Sys2Proof.Machine

section

variable {s t : State} {o : Offer} {e : ManifestEntry} {i : SlotId} {keeps : Bool}

/-- The state in which a pool write commits: it is no longer in progress. -/
def State.writeEnded (s : State) : State := { s with pool := { s.pool with writing := .none } }

theorem exec_poolSegmentWriteCommit (hwriting : s.pool.writing = .segment o keeps) :
    exec .poolSegmentWriteCommit s = .next (s.writeEnded.commitSegment o keeps).settle := by
  show Host.Outcome.next _ = _
  rw [hwriting]
  rfl

/-! ## The slot that takes a stored segment -/

theorem slotHolding_congr (h : ∀ j, (t.slot j).state = (s.slot j).state ∧ (t.slot j).domain = (s.slot j).domain ∧ (t.slot j).gen = (s.slot j).gen)
    (d : Domain) (g : Gen) : t.slotHolding d g = s.slotHolding d g := by
  unfold State.slotHolding
  congr 1
  funext j
  obtain ⟨hstate, hdomain, hgen⟩ := h j
  dsimp only
  rw [hstate, hdomain, hgen]

/-- R88: a slot with the presence entry of a stored segment. -/
def Slot.withSegment (x : Slot) (o : Offer) : Slot :=
  { x with
    presence := addPresence (presenceOf o.index o.bytes o.source) x.presence
    lost := x.lost.filter (fun p => p.index != o.index) }

/-- R88, R132: the slot has the segment, and the asks that cover it have its arrival. -/
def State.segmentTaken (s : State) (o : Offer) (i : SlotId) : State :=
  (s.setSlot i ((s.slot i).withSegment o)).indexArrived o.domain o.gen o.index

theorem segmentTaken_slot (s : State) (o : Offer) (i : SlotId) : (s.segmentTaken o i).slot i = (s.slot i).withSegment o := by
  unfold State.segmentTaken State.slot
  rw [indexArrived_slots]
  exact State.setSlot_slot s i _

theorem segmentTaken_slot_other {j : SlotId} (hj : j ≠ i) : (s.segmentTaken o i).slot j = s.slot j := by
  unfold State.segmentTaken State.slot
  rw [indexArrived_slots]
  exact State.setSlot_slot_other s i j _ hj

theorem segmentTaken_calm (s : State) (o : Offer) (i : SlotId) : Calm (s.setSlot i ((s.slot i).withSegment o)) (s.segmentTaken o i) :=
  calm_indexArrived _ _ _

theorem segmentTaken_slotHolding (h : s.slotHolding o.domain o.gen = some i) : (s.segmentTaken o i).slotHolding o.domain o.gen = some i := by
  refine (slotHolding_congr (fun j => ?_) _ _).trans h
  by_cases hj : j = i
  · subst hj
    rw [segmentTaken_slot]
    exact ⟨rfl, rfl, rfl⟩
  · rw [segmentTaken_slot_other hj]
    exact ⟨rfl, rfl, rfl⟩

/-- R88, R90: the entry joins the set, and a COLLECTING slot that has them all begins its digest. -/
theorem segmentStored_cases (hslot : s.slotHolding o.domain o.gen = some i) (hentered : (s.slot i).entered = true) :
    (((s.slot i).withSegment o).presence.length ≠ (s.slot i).count ∨ (s.slot i).state = .admitWait →
      s.segmentStored o = (s.segmentTaken o i).answerSegment o .stored) ∧
    (((s.slot i).withSegment o).presence.length = (s.slot i).count → (s.slot i).state = .collecting →
      s.segmentStored o = if o.publish then ((s.segmentTaken o i).slotting i (fun x => { x with digesting := true })).porting
          (fun p => { p with inProgress := some (.segmentDigest i) })
        else (s.segmentTaken o i).slotting i (fun x => { x with digesting := true })) := by
  have hheld : s.slotEntered o.domain o.gen = some i := by
    unfold State.slotEntered
    rw [hslot]
    exact if_pos hentered
  unfold State.segmentStored
  rw [hheld]
  dsimp only
  refine ⟨fun h => if_pos ?_, fun hwhole hstate => (if_neg ?_).trans (if_pos ?_)⟩
  · rcases h with h | h
    · exact Bool.or_eq_true_iff.mpr (.inl (bne_iff_ne.mpr h))
    · exact Bool.or_eq_true_iff.mpr (.inr (beq_iff_eq.mpr h))
  · rw [Bool.not_eq_true, Bool.or_eq_false_iff]
    exact ⟨bne_eq_false_iff_eq.mpr hwhole, beq_eq_false_iff_ne.mpr (by rw [hstate]; decide)⟩
  · exact beq_iff_eq.mpr hstate

/-- What the slot of a stored segment is afterwards, in the state that the write has left. -/
theorem segmentStored_added (hslot : s.slotHolding o.domain o.gen = some i) (hentered : (s.slot i).entered = true)
    (hnew : ∀ p ∈ (s.slot i).presence, p.index ≠ o.index) : s.segmentAdded o i [] (s.segmentStored o) := by
  obtain ⟨hmem, hlength⟩ := addPresence_new (presenceOf o.index o.bytes o.source) _ hnew
  have hlength' : ((s.slot i).withSegment o).presence.length = (s.slot i).presence.length + 1 := hlength
  obtain ⟨hmore, hwhole⟩ := segmentStored_cases hslot hentered
  rw [hlength'] at hmore hwhole
  have hself := segmentTaken_slot s o i
  have hother : ∀ j, j ≠ i → (s.segmentTaken o i).slot j = s.slot j := fun j hj => segmentTaken_slot_other hj
  have hcalm := segmentTaken_calm s o i
  have hsent : ∀ x ∈ s.todo.mail ++ [], x ∈ (s.segmentTaken o i).todo.mail := by
    rw [List.append_nil]
    exact indexArrived_sends (s.setSlot i ((s.slot i).withSegment o)) o.domain o.gen o.index
  have hanswer : (∀ j, ((s.segmentTaken o i).answerSegment o .stored).slot j = (s.segmentTaken o i).slot j) ∧
      ((s.segmentTaken o i).answerSegment o .stored).todo = (s.segmentTaken o i).todo := by
    unfold State.answerSegment
    split <;> exact ⟨fun _ => rfl, rfl⟩
  refine { presence := fun h => ?presence, more := fun h => ?more, whole := fun hcount hstate => ?whole }
  case presence =>
    by_cases hpart : (s.slot i).presence.length + 1 ≠ (s.slot i).count ∨ (s.slot i).state = .admitWait
    · rw [hmore hpart, hanswer.1 i, hanswer.2, hself]
      exact ⟨hmem, hlength, rfl, hsent, fun j hj => (hanswer.1 j).trans (hother j hj)⟩
    · obtain ⟨hcount, hwait⟩ := not_or.mp hpart
      have hstate : (s.slot i).state = .collecting := by
        rcases h with h | h | h
        · exact h
        · exact absurd h hwait
        · exact absurd h hcount
      rw [hwhole (not_not.mp hcount) hstate]
      have hslotting : ((s.segmentTaken o i).slotting i (fun x => { x with digesting := true })).slot i =
          { (s.slot i).withSegment o with digesting := true } := (State.slotting_slot _ _ _).trans (by rw [hself])
      have hrest : ∀ j, j ≠ i → ((s.segmentTaken o i).slotting i (fun x => { x with digesting := true })).slot j = s.slot j :=
        fun j hj => (State.setSlot_slot_other _ _ _ _ hj).trans (hother j hj)
      have hgoal : ∀ u : State, u.slots = ((s.segmentTaken o i).slotting i (fun x => { x with digesting := true })).slots →
          u.todo = (s.segmentTaken o i).todo →
          (∀ p : Presence, p ∈ (u.slot i).presence ↔ p ∈ (s.slot i).presence ∨
            p = { index := o.index, crc := segCrc o.bytes, bank := segBank o.bytes, ops := segOpCount o.bytes, source := o.source }) ∧
          (u.slot i).presence.length = (s.slot i).presence.length + 1 ∧ (u.slot i).state = (s.slot i).state ∧
          (∀ x ∈ s.todo.mail ++ [], x ∈ u.todo.mail) ∧ ∀ j, j ≠ i → u.slot j = s.slot j := by
        intro u hslots htodo
        have hu : ∀ j, u.slot j = ((s.segmentTaken o i).slotting i (fun x => { x with digesting := true })).slot j :=
          fun j => congrArg (fun v => v[j]) hslots
        rw [hu i, hslotting, htodo]
        exact ⟨hmem, hlength, rfl, hsent, fun j hj => (hu j).trans (hrest j hj)⟩
      split
      · exact hgoal _ rfl rfl
      · exact hgoal _ rfl rfl
  case more =>
    rw [hmore h, hanswer.1 i, hself]
    refine ⟨rfl, fun hpeer => ?_, fun hpublish => ?_⟩
    · unfold State.answerSegment
      rw [if_neg (by simp [hpeer])]
      exact ⟨hcalm.inProgress, hcalm.response⟩
    · unfold State.answerSegment
      rw [if_pos hpublish, noSlotBody_of_slot (segmentTaken_slotHolding hslot), hself]
      refine ⟨rfl, ?_⟩
      have hbody : ((s.slot i).withSegment o).countsBody = toBytes 2 ((s.slot i).presence.length + 1) ++ toBytes 2 (s.slot i).count := by
        rw [Slot.countsBody, hlength']
        rfl
      rw [hbody, show s.port.overrun = _ from hcalm.overrun.symm]
      rfl
  case whole =>
    rw [hwhole hcount hstate]
    have hdigests := congrArg Slot.digesting (State.slotting_slot (s.segmentTaken o i) i (fun x => { x with digesting := true }))
    by_cases hpublish : o.publish = true
    · rw [if_pos hpublish, if_pos hpublish]
      exact ⟨hdigests, hcalm.response, rfl⟩
    · rw [if_neg hpublish, if_neg hpublish]
      exact ⟨hdigests, hcalm.response, hcalm.inProgress⟩

/-! ## The write itself -/

/-- What the making of room changes: the pool index and its copy, pins, and messages that go out. -/
structure RoomMade (s t : State) (ix : PoolIndex) (m : List Msg) : Prop where
  shape : t = { s with
    store := { s.store with index := ix }, backup := t.backup, pool := { s.pool with pins := t.pool.pins }
    todo := { s.todo with mail := s.todo.mail ++ m } }
  free : lowestUnused 0 ix.used < 65536

/-- R66: the segment is stored in the lowest free place, and index and place join the pool index. -/
def State.segmentWritten (t : State) (o : Offer) (e : ManifestEntry) : State :=
  ({ t with store := { t.store with
      cells := placeWrite Config.poolPlaces (lowestUnused 0 t.store.index.used) { stamp := e.stamp, index := o.index, bytes := o.bytes } t.store.cells } } : State).writeIndex
    { t.store.index.update { e with present := useInsert o.index e.present } with
      used := useInsert (lowestUnused 0 t.store.index.used) t.store.index.used }

theorem commitSegment_stored (hentry : s.entry o.domain o.gen = some e) (hopen : e.verified = false) (hnew : o.index ∉ e.present)
    (hroom : s.makeRoom 130 = some t) (hkept : t.entry o.domain o.gen = some e) :
    s.commitSegment o keeps = (t.segmentWritten o e).segmentStored o := by
  have hwrite : s.writeSegment o = (.stored, t.segmentWritten o e) := by
    unfold State.writeSegment
    rw [hentry]
    dsimp only
    rw [if_neg (by simp [hopen, hnew]), hroom]
    dsimp only
    rw [hkept]
    rfl
  unfold State.commitSegment
  rw [hwrite]

/-- R66, R88: the commit of a segment write that has its room, in the words of the statement. -/
theorem segmentCommits_of_room {ix : PoolIndex} {m : List Msg} (hwriting : s.pool.writing = .segment o keeps)
    (hentry : s.entry o.domain o.gen = some e) (hopen : e.verified = false) (hnew : o.index ∉ e.present)
    (hroom : s.writeEnded.makeRoom 130 = some t) (hkept : t.entry o.domain o.gen = some e) (hmade : RoomMade s.writeEnded t ix m) :
    s.segmentCommits o e ix m := by
  obtain ⟨hshape, hfree⟩ := hmade
  have hcommit := commitSegment_stored (s := s.writeEnded) (keeps := keeps) hentry hopen hnew hroom hkept
  have hstore := segmentStored_sameStore (t.segmentWritten o e) o
  have hcells : (t.segmentWritten o e).store.cells =
      placeSet (lowestUnused 0 ix.used) { stamp := e.stamp, index := o.index, bytes := o.bytes } s.store.cells := by
    unfold State.segmentWritten
    rw [hshape]
    exact if_pos hfree
  have hslots : (t.segmentWritten o e).slots = s.slots := (congrArg State.slots hshape :)
  have hport : (t.segmentWritten o e).port = s.port := (congrArg State.port hshape :)
  have hmail : (t.segmentWritten o e).todo.mail = s.todo.mail ++ m := (congrArg (fun x : State => x.todo.mail) hshape :)
  have hslot : ∀ j, (t.segmentWritten o e).slot j = s.slot j := fun j => congrArg (fun v => v[j]) hslots
  refine ⟨_, (exec_poolSegmentWriteCommit hwriting).trans (congrArg (fun x => Host.Outcome.next (State.settle x)) hcommit), ?_,
    storeStays _, ?_, fun q hq => ?_, ?_, ?_, ?_, fun i hholds hentered hmissing => ?_⟩
  · have hpower := congrArg Supply.power hstore.supply
    exact hpower.trans (congrArg (fun x : State => x.supply.power) hshape :)
  · rw [hstore.cells, hcells]
    exact placeGet_set _ _ _
  · rw [hstore.cells, hcells]
    exact placeGet_set_other _ _ hq _ _
  · rw [hstore.index]
    unfold State.segmentWritten
    rw [hshape]
    rfl
  · exact hstore.places.trans (congrArg (fun x : State => x.store.places) hshape :)
  · exact hstore.startRecord.trans (congrArg (fun x : State => x.store.startRecord) hshape :)
  · have hholds' : (t.segmentWritten o e).slotHolding o.domain o.gen = some i :=
      (slotHolding_congr (fun j => by rw [hslot j]; exact ⟨rfl, rfl, rfl⟩) _ _).trans hholds
    obtain ⟨hpresence, hmore, hwhole⟩ := segmentStored_added hholds' (by rw [hslot]; exact hentered) (by rw [hslot]; exact hmissing)
    simp only [hslot, hport, hmail, List.append_nil] at hpresence hmore hwhole
    exact ⟨hpresence, hmore, hwhole⟩

/-! ## Room -/

/-- R72: what evictions in turn do does not depend on the write in progress. -/
theorem evictsInTurn_writeEnded {xs : List ManifestEntry} (h : s.evictsInTurn xs) : s.writeEnded.evictsInTurn xs := by
  induction xs generalizing s with
  | nil => exact h
  | cons x xs ih =>
    obtain ⟨hfull, hevicts, hrest⟩ := h
    exact ⟨hfull, hevicts, ih hrest⟩

theorem evictsInTurn_frees {xs : List ManifestEntry} (h : s.evictsInTurn xs) :
    lowestUnused 0 (xs.foldl State.removeEntry s).store.index.used < 65536 := by
  induction xs generalizing s with
  | nil => exact h
  | cons x xs ih => exact ih h.2.2

/-- R72: room made by evictions. -/
theorem roomMade_evictions {xs : List ManifestEntry} (h : s.evictsInTurn xs) :
    RoomMade s (xs.foldl State.removeEntry s) (xs.foldl State.removeEntry s).store.index [] := by
  refine ⟨?_, evictsInTurn_frees h⟩
  rw [List.append_nil]
  exact removeEntries_frame xs s

/-- R67: room made by the emptying of the newest slot of the wait list that holds places. -/
theorem makeRoom_emptied {h : ManifestEntry} (hfull : 65536 ≤ lowestUnused 0 s.store.index.used) (hnone : ∀ x, ¬ s.evictable x)
    (hholder : s.newestHolder i h) (hfree : lowestUnused 0 (usedWithout s.store.cells h.stamp s.store.index.used) < 65536) :
    s.makeRoom 130 = some ((s.emptyEntry h).post (.slotEmptied i)) := by
  unfold State.makeRoom
  rw [if_neg (show ¬ _ < Config.poolPlaces from Nat.not_lt.mpr hfull), evictNext_none hnone]
  dsimp only
  rw [waitingHolder_of_newest hholder]
  exact makeRoom_free hfree 128

/-- R67, R74: what becomes of a segment write that finds no room. -/
theorem deniedRoom_facts (s : State) (o : Offer) (keeps : Bool) :
    (s.deniedRoom o keeps).store = s.store ∧ (∀ j, (s.deniedRoom o keeps).slot j = s.slot j) ∧
    (s.pool.held = false → keeps = true → s.deniedRoom o keeps =
      { s with pool := { s.pool with queue := o :: s.pool.queue, waiting := true, retryDue := false } }) ∧
    (s.pool.held = false → keeps = false → s.deniedRoom o keeps = { s with pool := { s.pool with writing := .segment o false } }) ∧
    (s.pool.held = true → s.deniedRoom o keeps = s.discardOffer o) := by
  unfold State.deniedRoom
  cases hheld : s.pool.held <;> cases keeps
  · exact ⟨rfl, fun _ => rfl, nofun, fun _ _ => rfl, nofun⟩
  · exact ⟨rfl, fun _ => rfl, fun _ _ => rfl, nofun, nofun⟩
  all_goals
    refine ⟨?_, fun j => ?_, nofun, nofun, fun _ => rfl⟩
    all_goals
      rw [if_pos rfl]
      unfold State.discardOffer
      split <;> rfl

/-- R66: a segment that the pool had by then. -/
theorem commitSegment_duplicate (hentry : s.entry o.domain o.gen = some e) (hhad : e.verified = true ∨ o.index ∈ e.present) :
    s.commitSegment o keeps = s.countDuplicate.answerDuplicate o := by
  have hwrite : s.writeSegment o = (.duplicate, s) := by
    unfold State.writeSegment
    rw [hentry]
    exact if_pos (by simpa using hhad)
  unfold State.commitSegment
  rw [hwrite]

theorem commitSegment_denied (hentry : s.entry o.domain o.gen = some e) (hopen : e.verified = false) (hnew : o.index ∉ e.present)
    (hroom : s.makeRoom 130 = none) : s.commitSegment o keeps = s.deniedRoom o keeps := by
  have hwrite : s.writeSegment o = (.waits, s) := by
    unfold State.writeSegment
    rw [hentry]
    dsimp only
    rw [if_neg (by simp [hopen, hnew]), hroom]
  unfold State.commitSegment
  rw [hwrite]

theorem duplicateBody_facts {d : Domain} {g : Gen} (hentry : s.entry d g = some e) :
    (∀ i : SlotId, s.slotHolding d g = some i → s.duplicateBody d g = (s.slot i).countsBody) ∧
    (s.slotHolding d g = none → s.slotDraining d g = none →
      s.duplicateBody d g = toBytes 2 e.present.length ++ toBytes 2 e.manifest.count) := by
  unfold State.duplicateBody
  refine ⟨fun i hslot => ?_, fun hslot hdraining => ?_⟩
  · rw [hslot]
    rfl
  · rw [hslot, hdraining, hentry]
    rfl

end

/-- Settles O45: by what the entry has of the segment, and then by the room that the write finds. -/
theorem segmentWriteCommits : Obligations.SegmentWriteCommits := by
  unfold Obligations.SegmentWriteCommits
  intro s o keeps e hwriting hentry
  have hexec := exec_poolSegmentWriteCommit hwriting
  refine ⟨fun hopen hnew => ⟨fun xs hevicts hlength hother => ?evicts, fun hfull hnone => ⟨fun i h hholder hother hfree => ?empties,
    fun hnoHolder => ?waits⟩⟩, fun hhad => ?duplicate⟩
  case evicts =>
    have hevicts' := evictsInTurn_writeEnded hevicts
    obtain ⟨hentries, hused, hsource⟩ := removeEntries_index xs s.writeEnded
    exact ⟨_, ⟨hentries, hused, hsource⟩, segmentCommits_of_room hwriting hentry hopen hnew
      (makeRoom_of_evictsInTurn hevicts' (by omega)) (removeEntries_entry (s := s.writeEnded) hentry hother) (roomMade_evictions hevicts')⟩
  case empties =>
    exact segmentCommits_of_room hwriting hentry hopen hnew (makeRoom_emptied (s := s.writeEnded) hfull hnone hholder hfree)
      (emptyEntry_entry (s := s.writeEnded) hentry hother) ⟨rfl, hfree⟩
  case waits =>
    rw [commitSegment_denied (s := s.writeEnded) hentry hopen hnew (makeRoom_none (s := s.writeEnded) hfull hnone hnoHolder 130)] at hexec
    obtain ⟨hstore, hslots, hkept, hgoesOn, hdropped⟩ := deniedRoom_facts s.writeEnded o keeps
    refine ⟨_, hexec, hstore, hslots, fun hheld hkeeps => ?_, fun hheld hkeeps => ?_, fun hheld => ?_⟩
    · rw [hkept hheld hkeeps]
      exact ⟨rfl, rfl⟩
    · rw [hgoesOn hheld hkeeps]
      subst hkeeps
      show ({ s with pool := { s.pool with writing := .segment o false } } : State) = s
      rw [← hwriting]
    · rw [hdropped hheld]
      unfold State.discardOffer
      split <;> exact ⟨rfl, rfl⟩
  case duplicate =>
    rw [commitSegment_duplicate (s := s.writeEnded) hentry hhad] at hexec
    obtain ⟨hholds, hnone⟩ := duplicateBody_facts (s := s) hentry
    refine ⟨_, hexec, ?_, ?_, fun hpublish => ⟨s.duplicateBody o.domain o.gen, ?_, ?_, hholds, hnone⟩⟩
    all_goals unfold State.answerDuplicate
    · split <;> rfl
    · split <;> rfl
    · rw [if_pos hpublish]
      rfl
    · rw [if_pos hpublish]
      rfl

end Sys2Proof.Machine

/-! # The end of a start -/

namespace Sys2Proof.Machine

section

variable {s : State}

/-- The power state that a start ends in, with its timers and START raised (R187). -/
def State.broughtUp (s : State) : State :=
  (s.supplying (fun u => { u with
    power := if u.ignition then .run else .parked
    parked := if u.ignition then .stopped else s.freshWindow
    stable := some (s.clock + Config.stableRun) })).raise .start

theorem broughtUp_start (s : State) : s.broughtUp.port.flags.getLsbD 10 = true := by
  show (s.port.flags ||| Notice.start.mask).getLsbD 10 = true
  rw [BitVec.getLsbD_or, Bool.or_eq_true]
  exact .inr (by decide)

theorem endOfStart_eq (s : State) : s.endOfStart =
    (let t := s.broughtUp.startLink.formAnnounce.startVisibility.peerReport
     if !t.supply.ignition && t.supply.config.parkedWindow = 0 then t.enterClosing else t) := rfl

/-- R177: the LNK starts with its ASR at ISR and the decay timer running. -/
theorem startLink_facts (t : State) : t.startLink.supply = t.supply ∧ t.startLink.clock = t.clock ∧ t.startLink.port = t.port ∧
    t.startLink.link.asr = t.supply.config.isr ∧ t.startLink.link.lowRate = .ok ∧ t.startLink.link.increase = 0 ∧
    t.startLink.link.decreaseHold = none ∧ t.startLink.link.decay = some (t.clock + 4000000) := by
  unfold State.startLink
  dsimp only
  rw [followChannel_eq]
  exact ⟨rfl, rfl, rfl, rfl, rfl, rfl, rfl, rfl⟩

/-- Placing an ANNOUNCE touches the frames of the LNK alone. -/
theorem placeAnnounce_facts (l : Link) (f : OutFrame) : (l.placeAnnounce f).asr = l.asr ∧ (l.placeAnnounce f).lowRate = l.lowRate ∧
    (l.placeAnnounce f).increase = l.increase ∧ (l.placeAnnounce f).decreaseHold = l.decreaseHold ∧
    (l.placeAnnounce f).decay = l.decay := by
  unfold Link.placeAnnounce
  split
  · split <;> exact ⟨rfl, rfl, rfl, rfl, rfl⟩
  · exact ⟨rfl, rfl, rfl, rfl, rfl⟩

/-- R172: the next ANNOUNCE is due one jittered period on. -/
theorem formAnnounce_facts (t : State) : t.formAnnounce.supply = t.supply ∧ t.formAnnounce.port = t.port ∧
    t.formAnnounce.link.asr = t.link.asr ∧ t.formAnnounce.link.lowRate = t.link.lowRate ∧
    t.formAnnounce.link.increase = t.link.increase ∧ t.formAnnounce.link.decreaseHold = t.link.decreaseHold ∧
    t.formAnnounce.link.decay = t.link.decay ∧
    ∃ next, t.formAnnounce.link.announceAt = some next ∧ t.clock + 750000 ≤ next ∧ next ≤ t.clock + 1250000 := by
  obtain ⟨hasr, hlow, hincrease, hhold, hdecay⟩ :=
    placeAnnounce_facts t.link { kind := .announce, addressee := 0, body := t.announceBody, ask := none }
  exact ⟨rfl, rfl, hasr, hlow, hincrease, hhold, hdecay, _, rfl, jitter_low _ _, jitter_high _ _⟩

/-- What a start that ends in RUN or PARKED leaves (R187). -/
theorem endOfStart_facts (h : s.supply.ignition = true ∨ s.supply.config.parkedWindow ≠ 0) : ∃ next,
    s.endOfStart.supply = s.broughtUp.supply ∧ s.endOfStart.link.asr = s.supply.config.isr ∧ s.endOfStart.link.lowRate = .ok ∧
    s.endOfStart.link.increase = 0 ∧ s.endOfStart.link.decreaseHold = none ∧
    s.endOfStart.link.decay = some (s.clock + 4000000) ∧ s.endOfStart.link.announceAt = some next ∧
    s.clock + 750000 ≤ next ∧ next ≤ s.clock + 1250000 ∧ s.endOfStart.port.flags.getLsbD 10 = true := by
  obtain ⟨hsupply, hclock, hport, hasr, hlow, hincrease, hhold, hdecay⟩ := startLink_facts s.broughtUp
  obtain ⟨hsupply', hport', hasr', hlow', hincrease', hhold', hdecay', next, hnext, hleast, hmost⟩ :=
    formAnnounce_facts s.broughtUp.startLink
  have hopen : (!s.supply.ignition && decide (s.supply.config.parkedWindow = 0)) = false := by
    rcases h with h | h <;> simp [h]
  have hpower : s.broughtUp.startLink.formAnnounce.supply = s.broughtUp.supply := hsupply'.trans hsupply
  have hflag : s.broughtUp.startLink.formAnnounce.port.flags.getLsbD 10 = true := by
    rw [hport', hport]; exact broughtUp_start s
  refine ⟨next, ?_⟩
  rw [endOfStart_eq]
  dsimp only
  rw [startVisibility_supply, hpower, if_neg (by rw [show s.broughtUp.supply.ignition = s.supply.ignition from rfl,
      show s.broughtUp.supply.config = s.supply.config from rfl, hopen]; exact Bool.false_ne_true),
    startVisibility_supply, startVisibility_link]
  rw [hclock] at hleast hmost
  exact ⟨hpower, hasr'.trans hasr, hlow'.trans hlow, hincrease'.trans hincrease, hhold'.trans hhold, hdecay'.trans hdecay, hnext,
    hleast, hmost, startVisibility_flags _ _ hflag⟩

/-- A start that ends with the ignition off and a parked window of 0 ends in CLOSING (R187). -/
theorem endOfStart_closing (hignition : s.supply.ignition = false) (hwindow : s.supply.config.parkedWindow = 0) :
    s.endOfStart.supply.power = .closing := by
  obtain ⟨hsupply, -⟩ := startLink_facts s.broughtUp
  obtain ⟨hsupply', -⟩ := formAnnounce_facts s.broughtUp.startLink
  rw [endOfStart_eq]
  dsimp only
  rw [startVisibility_supply, hsupply', hsupply, if_pos (by
    show (!s.supply.ignition && decide (s.supply.config.parkedWindow = 0)) = true
    simp [hignition, hwindow])]
  exact (enterClosing_facts _).1

/-- The restoration of the pool and the slots leaves the supply and the clock, and ends the start (R75, R104, R187). -/
theorem exec_poolRebuildComplete (hpower : s.supply.power = .starting) (hread : s.supply.recordRead = true)
    (hrestored : s.pool.restored = false) :
    ∃ t : State, exec .poolRebuildComplete s = .next t.endOfStart.settle ∧ t.supply = s.supply ∧ t.clock = s.clock := by
  have hsteady := restoreSlots_steady s.restoreIndex
  refine ⟨{ s.restoreIndex.restoreSlots with pool := { s.restoreIndex.restoreSlots.pool with restored := true } }, ?_,
    hsteady.supply, hsteady.clock⟩
  show execPoolRebuildComplete s = _
  unfold execPoolRebuildComplete
  rw [if_pos (by simp [hpower, hread, hrestored])]

end

/-- Settles O47: restoring the pool and the slots leaves the supply and the clock, the start ends in one of its two ways, and the running
out of the event leaves alone what is named of a power state other than CLOSING. -/
theorem restorationEndsStart : Obligations.RestorationEndsStart := by
  unfold Obligations.RestorationEndsStart
  intro s hpower hread hrestored
  obtain ⟨t, hexec, hsupply, hclock⟩ := exec_poolRebuildComplete hpower hread hrestored
  refine ⟨t.endOfStart, hexec, fun h => ?running, fun hignition hwindow => ?closing⟩
  case running =>
    rw [← hsupply] at h
    obtain ⟨next, hup, hasr, hlow, hincrease, hhold, hdecay, hnext, hleast, hmost, hflag⟩ := endOfStart_facts h
    have hstate : t.endOfStart.supply.power = if s.supply.ignition = true then .run else .parked := by
      rw [hup]
      show (if t.supply.ignition = true then Power.run else .parked) = _
      rw [hsupply]
    have hrunning : t.endOfStart.running = true := by
      unfold State.running
      rw [hstate]
      split <;> rfl
    have hstill := settle_still_running hrunning
    have hparked := congrArg Supply.parked hstill.supply
    have hstable := congrArg Supply.stable hstill.supply
    dsimp only at hparked hstable
    rw [hclock] at hdecay hleast hmost
    refine ⟨next, hstill.power.trans hstate, hparked.trans ?_, hstable.trans ?_, hstill.asr.trans (hasr.trans (by rw [hsupply])),
      hstill.lowRate.trans hlow, hstill.increase.trans hincrease, hstill.decreaseHold.trans hhold, hstill.decay.trans hdecay,
      hstill.announceAt.trans hnext, hleast, hmost, hflag⟩
    · rw [hup]
      show (if t.supply.ignition = true then ParkedTimer.stopped else t.freshWindow) = _
      unfold State.freshWindow
      rw [hsupply, hclock, Nat.mul_assoc]
      rfl
    · rw [hup]
      show some (t.clock + Config.stableRun) = _
      rw [hclock]
      rfl
  case closing =>
    exact endOfStart_closing (by rw [hsupply]; exact hignition) (by rw [hsupply]; exact hwindow)

end Sys2Proof.Machine

/-! # Advance tests and the cohort wait -/

namespace Sys2Proof.Machine

section

variable {s : State}

/-- R148 reads the cohort size and the peer table. -/
theorem agrees_congr {t : State} (hsupply : t.supply = s.supply) (hpeers : t.peers = s.peers) (d : Domain) (g : Gen) :
    t.agrees d g ↔ s.agrees d g := by
  unfold State.agrees
  rw [hsupply, hpeers]

/-- What the advance tests at a changed view make of a domain (R147, R151). -/
structure Tested (s w : State) (d : Domain) (passed left : List Gen) : Prop where
  split : (s.domain d).pending = passed ++ left
  pass : ∀ x ∈ passed, s.agrees d x
  stop : ∀ x, left.head? = some x → ¬ s.agrees d x
  kept : passed = [] → w.domain d = s.domain d ∧ w.domainWrites.get d = s.domainWrites.get d
  advanced : ∀ v, passed.getLast? = some v →
    w.domain d = { held := (s.domain d).held, visible := v, pending := left
                   timer := if left = [] then none else some (s.clock + s.supply.config.cohortWait * 1000000) } ∧
    w.domainWrites.get d = some (DomainHeader.sealed { held := (s.domain d).held, visible := v, pending := left, check := 0 }) ∧
    w.store.domains.get d = (s.domainWrites.get d).getD (s.store.domains.get d) ∧
    w.port.flags.getLsbD (if d = .block then 0 else 1) = true

theorem advanceTest_tested (s : State) (d : Domain) : ∃ passed left, Tested s (s.advanceTest d) d passed left := by
  obtain ⟨passed, left, hsplit, hpass, hstop, hkept, hadvanced⟩ := advanceTest_facts s d
  exact ⟨passed, left, hsplit, hpass, hstop, fun h => by rw [hkept h]; exact ⟨rfl, rfl⟩, hadvanced⟩

theorem advanceTest_flags (s : State) (d : Domain) (n : Nat) (h : s.port.flags.getLsbD n = true) :
    (s.advanceTest d).port.flags.getLsbD n = true := advanceVisible_flags _ _ _ _ _ h

/-- A domain's advance test stands through the other domain's test after it. -/
theorem Tested.then_other {w : State} {d e : Domain} {passed left : List Gen} (h : Tested s w d passed left) (hother : d ≠ e) :
    Tested s (w.advanceTest e) d passed left := by
  obtain ⟨hvalues, -⟩ := advanceTest_other w e
  obtain ⟨hdomain, hwrites, hheader⟩ := hvalues d hother
  refine ⟨h.split, h.pass, h.stop, fun hp => ?_, fun v hv => ?_⟩
  · rw [hdomain, hwrites]; exact h.kept hp
  · rw [hdomain, hwrites, hheader]
    obtain ⟨hd, hw, hh, hf⟩ := h.advanced v hv
    exact ⟨hd, hw, hh, advanceTest_flags w e _ hf⟩

/-- A domain's advance test is as it would have been before the other domain's. -/
theorem Tested.before_other {w : State} {d e : Domain} {passed left : List Gen} (h : Tested (s.advanceTest e) w d passed left)
    (hother : d ≠ e) : Tested s w d passed left := by
  obtain ⟨hvalues, hpeers, hsupply, hclock, -⟩ := advanceTest_other s e
  obtain ⟨hdomain, hwrites, hheader⟩ := hvalues d hother
  refine ⟨?_, fun x hx => (agrees_congr hsupply hpeers d x).mp (h.pass x hx),
    fun x hx ha => h.stop x hx ((agrees_congr hsupply hpeers d x).mpr ha), fun hp => ?_, fun v hv => ?_⟩
  · rw [← hdomain]; exact h.split
  · rw [← hdomain, ← hwrites]; exact h.kept hp
  · rw [← hdomain, ← hwrites, ← hheader, ← hclock, ← hsupply]; exact h.advanced v hv

/-- R147: both domains are tested at the view as it stands. -/
theorem advanceTests_tested (s : State) (d : Domain) : ∃ passed left, Tested s s.advanceTests d passed left := by
  cases d with
  | block =>
    obtain ⟨passed, left, h⟩ := advanceTest_tested s .block
    exact ⟨passed, left, h.then_other nofun⟩
  | product =>
    obtain ⟨passed, left, h⟩ := advanceTest_tested (s.advanceTest .block) .product
    exact ⟨passed, left, h.before_other nofun⟩

theorem advanceTests_viewChanged (s : State) : s.advanceTests.todo.viewChanged = s.todo.viewChanged :=
  (advanceTest_other _ _).2.2.2.2.trans (advanceTest_other _ _).2.2.2.2

theorem settleOnce_view (h : s.todo.viewChanged = true) : s.settleOnce = some s.viewTests := by
  unfold State.settleOnce
  rw [if_pos h]

/-! ## The cohort wait -/

/-- R150: the KNOWN cohort members that do not hold the generation. -/
def State.laggards (s : State) (d : Domain) (g : Gen) : List Peer := s.countingMembers.filter (fun p => (p.values.get d).held < g)

theorem mem_laggards {d : Domain} {g : Gen} {p : Peer} :
    p ∈ s.laggards d g ↔ p ∈ s.peers ∧ p.cohort = true ∧ p.state = .known ∧ (p.values.get d).held < g := by
  unfold State.laggards State.countingMembers
  simp only [List.mem_filter, Bool.and_eq_true, beq_iff_eq, decide_eq_true_eq]
  exact ⟨fun ⟨⟨h1, h2, h3⟩, h4⟩ => ⟨h1, h2, h3, h4⟩, fun ⟨h1, h2, h3, h4⟩ => ⟨⟨h1, h2, h3⟩, h4⟩⟩

theorem laggards_length (s : State) (d : Domain) (g : Gen) : (s.laggards d g).length ≤ s.peers.length :=
  (List.length_filter_le _ _).trans (List.length_filter_le _ _)

/-- R150, R153: the lag list with the laggards entered, and COHORT-LAG raised when there is one. -/
def State.lagged (s : State) (d : Domain) (g : Gen) : State :=
  { s with
    lag := (s.laggards d g).foldl (fun l (p : Peer) => lagEnter l { station := p.station, domain := d, gen := g }) s.lag
    port := { s.port with flags := if (s.laggards d g).isEmpty then s.port.flags else s.port.flags ||| Notice.cohortLag.mask } }

theorem lagged_none {d : Domain} {g : Gen} (h : s.laggards d g = []) : s.lagged d g = s := by
  unfold State.lagged
  rw [h]
  rfl

theorem lagged_flag {d : Domain} {g : Gen} {p : Peer} (h : p ∈ s.laggards d g) : (s.lagged d g).port.flags.getLsbD 4 = true := by
  have hsome : (s.laggards d g).isEmpty = false := by
    cases hl : s.laggards d g with
    | nil => rw [hl] at h; cases h
    | cons => rfl
  show (if (s.laggards d g).isEmpty then s.port.flags else s.port.flags ||| Notice.cohortLag.mask).getLsbD 4 = true
  rw [hsome, if_neg Bool.false_ne_true, BitVec.getLsbD_or, Bool.or_eq_true]
  exact .inr (by decide)

theorem lagged_entry {d : Domain} {g : Gen} {p : Peer} (h : p ∈ s.laggards d g) (hroom : s.lag.length + s.peers.length ≤ 14) :
    { station := p.station, domain := d, gen := g } ∈ (s.lagged d g).lag :=
  (lagEnter_members d g (s.laggards d g) s.lag ((Nat.add_le_add_left (laggards_length s d g) _).trans hroom)).2 p h

/-- R150: at the end of the cohort wait the laggards are entered and the visible generation goes on. -/
theorem cohortExpired_eq {d : Domain} {g : Gen} {rest : List Gen} (h : (s.domain d).pending = g :: rest) :
    s.cohortExpired d =
      (s.lagged d g).advanceVisible d (g :: rest.takeWhile (s.passes d)) (rest.dropWhile (s.passes d)) := by
  unfold State.cohortExpired
  rw [h]
  dsimp only
  congr 1
  unfold State.lagged State.laggards
  split <;> rfl

theorem visibleNotice_bit (f : BitVec 16) (d : Domain) :
    (f ||| (visibleNotice d).mask).getLsbD (if d = .block then 0 else 1) = true := by
  rw [BitVec.getLsbD_or, Bool.or_eq_true]
  exact .inr (by cases d <;> decide)

/-- A visibility advance does not touch the flag of COHORT-LAG. -/
theorem visibleNotice_lag (f : BitVec 16) (d : Domain) : (f ||| (visibleNotice d).mask).getLsbD 4 = f.getLsbD 4 := by
  rw [BitVec.getLsbD_or, show (visibleNotice d).mask.getLsbD 4 = false by cases d <;> decide, Bool.or_false]

end

/-- Settles O48: the advance tests of both domains one after the other, and the advance past the head at the end of a cohort wait. -/
theorem cohortWaitAdvances : Obligations.CohortWaitAdvances := by
  unfold Obligations.CohortWaitAdvances
  refine ⟨fun s d hview => ?tests, fun s d t0 g rest htimer hdue hpending => ?wait⟩
  case tests =>
    obtain ⟨passed, left, h⟩ := advanceTests_tested { s with todo := { s.todo with viewChanged := false } } d
    exact ⟨s.viewTests, passed, left, settleOnce_view hview, advanceTests_viewChanged _, h.split, h.pass, h.stop, h.kept, h.advanced⟩
  case wait =>
    have hexec : exec (.cohortWaitExpiry d) s = .next (s.cohortExpired d).settle := by
      show execCohortWaitExpiry d s = _
      unfold execCohortWaitExpiry
      rw [if_pos (by rw [htimer]; exact decide_eq_true hdue)]
    obtain ⟨td, hshape⟩ := advanceVisible_shape (s.lagged d g) d (g :: rest.takeWhile (s.passes d)) (rest.dropWhile (s.passes d))
      ((g :: rest.takeWhile (s.passes d)).getLast (by simp)) (List.getLast?_eq_some_getLast (by simp))
    rw [← cohortExpired_eq hpending] at hshape
    have hdomain : (s.cohortExpired d).domain d =
        { held := (s.domain d).held, visible := (g :: rest.takeWhile (s.passes d)).getLast (by simp)
          pending := rest.dropWhile (s.passes d)
          timer := if rest.dropWhile (s.passes d) = [] then none else some (s.clock + s.supply.config.cohortWait * 1000000) } := by
      rw [hshape]
      exact PerDomain.set_get _ _ _
    refine ⟨s.cohortExpired d, rest.takeWhile (s.passes d), rest.dropWhile (s.passes d), hexec, takeWhile_dropWhile _ _,
      fun x hx => (passes_iff_agrees s d x).mp (List.mem_takeWhile_imp hx), fun x hx ha => ?stop, ?domain, fun e he => ?other, ?header,
      ?notice, fun hheld => ?noLag, fun p hp hcohort hknown hlag => ?lag, ?frame⟩
    case stop =>
      have := dropWhile_head _ _ _ hx
      rw [(passes_iff_agrees s d x).mpr ha] at this
      cases this
    case domain => exact hdomain
    case other => rw [hshape]; exact PerDomain.set_get_other _ _ _ _ he
    case header =>
      rw [congrArg Visibility.visible hdomain, hshape]
      exact PerDomain.set_get _ _ _
    case notice => rw [hshape]; exact visibleNotice_bit _ d
    case noLag =>
      have hnone : s.laggards d g = [] := List.eq_nil_iff_forall_not_mem.mpr fun p hp => by
        obtain ⟨hmem, hcohort, hknown, hlag⟩ := mem_laggards.mp hp
        exact absurd (hheld p hmem hcohort hknown) (Nat.not_le.mpr hlag)
      rw [hshape, lagged_none hnone]
      exact ⟨rfl, visibleNotice_lag _ d⟩
    case lag =>
      have hmem : p ∈ s.laggards d g := mem_laggards.mpr ⟨hp, hcohort, hknown, hlag⟩
      rw [hshape]
      exact ⟨(visibleNotice_lag _ d).trans (lagged_flag hmem), lagged_entry hmem⟩
    case frame => rw [hshape]; rfl

end Sys2Proof.Machine

/-! # Falls and rises of the supply -/

namespace Sys2Proof.Machine

section

variable {s : State} {mv : Nat} {v24 : Bool}

theorem exec_supplyFall (h : s.risesAboveRun mv v24 = false) : exec (.supplyFall mv v24) s = .next
    (if s.fallsBelowHold mv v24 && s.supply.power.dips then (s.supplyReads mv v24).enterDip.settle else s.supplyReads mv v24) := by
  show execSupplyFall mv v24 s = _
  unfold execSupplyFall
  rw [h, if_neg Bool.false_ne_true]

theorem fallsBelowHold_iff : s.fallsBelowHold mv v24 = true ↔
    mv < Config.holdThreshold v24 ∧ Config.holdThreshold s.pins.vsel24 ≤ s.pins.vsense := by
  unfold State.fallsBelowHold
  rw [Bool.and_eq_true, decide_eq_true_eq, decide_eq_true_eq]

theorem dips_iff {p : Power} : p.dips = true ↔ p = .starting ∨ p = .run ∨ p = .parked ∨ p = .closing := by
  cases p <;> decide

theorem not_dips {p : Power} (h : p = .unpowered ∨ p = .commissioning ∨ p = .dipHold ∨ p = .dormant) : p.dips = false := by
  rcases h with rfl | rfl | rfl | rfl <;> rfl

/-! ## A rise by power state -/

theorem supplyRisen_unpowered {t : State} (h : t.supply.power = .unpowered) :
    t.supplyRisen = (t.supplying (fun u => { u with ignition := t.pins.ign })).beginStart .powerOn := by
  unfold State.supplyRisen
  rw [h]

theorem supplyRisen_dipHold {t : State} (h : t.supply.power = .dipHold) : t.supplyRisen = t.dipRise := by
  unfold State.supplyRisen
  rw [h]

theorem supplyRisen_other {t : State} (h1 : t.supply.power ≠ .unpowered) (h2 : t.supply.power ≠ .dipHold) : t.supplyRisen = t := by
  unfold State.supplyRisen
  split
  · contradiction
  · contradiction
  · rfl

/-- R191: with fewer than four dips a rise in DIP-HOLD resumes. -/
theorem exec_supplyRise_resumes (hrise : s.risesAboveRun mv v24 = true) (hpower : s.supply.power = .dipHold) (hdips : s.backup.dips < 4) :
    exec (.supplyRise mv v24) s = .next (s.supplyReads mv v24).dipResume.settle := by
  rw [exec_supplyRise hrise, supplyRisen_dipHold (t := s.supplyReads mv v24) hpower, State.dipRise, if_pos (show (s.supplyReads mv v24).backup.dips < 4 from hdips)]

/-- In a power state that a rise leaves alone, it moves the lines and runs out. -/
theorem exec_supplyRise_reads (hrise : s.risesAboveRun mv v24 = true) (h1 : s.supply.power ≠ .unpowered) (h2 : s.supply.power ≠ .dipHold) :
    exec (.supplyRise mv v24) s = .next (s.supplyReads mv v24).settle := by
  rw [exec_supplyRise hrise, supplyRisen_other (t := s.supplyReads mv v24) h1 h2]

/-! ## Resumes (R191) -/

/-- The power state and parked timer with which a part resumes into RUN or PARKED. -/
theorem dipResume_running {t : State} {p q : Power} {w : ParkedTimer} (hprior : t.supply.prior = some p)
    (h : q = .run ∧ w = .stopped ∧ t.supply.ignition = true ∧ (p = .run ∨ p = .parked ∨ p = .closing) ∨
      q = .parked ∧ t.supply.ignition = false ∧ p = .run ∧ t.supply.config.parkedWindow ≠ 0 ∧
        w = .running (t.clock + t.supply.config.parkedWindow * 60000000) ∨
      q = .parked ∧ t.supply.ignition = false ∧ p = .parked ∧ w = t.supply.parked ∧ ∃ x, w = .running x) :
    t.dipResume = t.resumeRunning q w := by
  unfold State.dipResume
  rcases h with ⟨rfl, rfl, hignition, rfl | rfl | rfl⟩ | ⟨rfl, hignition, rfl, hwindow, rfl⟩ | ⟨rfl, hignition, rfl, hw, x, rfl⟩
  · simp only [hprior, hignition]
  · simp only [hprior, hignition]
  · simp only [hprior, hignition]
  · simp only [hprior, hignition, if_neg hwindow]
    rw [State.freshWindow, Nat.mul_assoc]
    rfl
  · simp only [hprior, hignition, ← hw]

theorem dipResume_starting {t : State} (hprior : t.supply.prior = some .starting) : t.dipResume = t.resumeStarting := by
  unfold State.dipResume
  simp only [hprior]

/-- With the ignition off, CLOSING and a parked window that has run out do not resume. -/
theorem dipResume_dormant {t : State} (hignition : t.supply.ignition = false)
    (h : t.supply.prior = some .closing ∨ (t.supply.prior = some .run ∧ t.supply.config.parkedWindow = 0) ∨
      (t.supply.prior = some .parked ∧ ∀ x, t.supply.parked ≠ .running x)) : t.dipResume = t.enterDormant := by
  unfold State.dipResume
  rcases h with hprior | ⟨hprior, hwindow⟩ | ⟨hprior, hparked⟩
  · simp only [hprior, hignition]
  · simp only [hprior, hignition, if_pos hwindow]
  · cases hp : t.supply.parked with
    | running x => exact absurd hp (hparked x)
    | _ => simp only [hprior, hignition]

/-- A resumed start stands again in STARTING with its pool going on (R191). -/
theorem resumeStarting_facts (t : State) :
    t.resumeStarting.supply = { t.supply with power := .starting, prior := none, dipTimer := none } ∧
    t.resumeStarting.pool.held = false := by
  unfold State.resumeStarting
  extract_lets started
  have hbanks : started.resumePool.resumeBanks.outside = started.resumePool.outside :=
    allBanks_outside (fun s e => resumeBank_on (.refl false e s)) _
  generalize started.resumePool.resumeBanks = resumed at *
  obtain ⟨hplaced, -⟩ := placeDropped_facts resumed
  have hsupply : resumed.supply = started.supply := by have h := congrArg State.supply hbanks; exact h
  have hheld : resumed.pool.held = false := by have h := congrArg (fun s => s.pool.held) hbanks; exact h
  rw [hplaced]
  exact ⟨hsupply, hheld⟩

/-- A part that passes to DORMANT with nothing to start for stays there. -/
theorem enterDormant_settle {t : State} (hignition : t.supply.ignition = false) (hpending : t.supply.pendingStart = false)
    (hwake : t.pins.wake = false) : t.enterDormant.settle = t.enterDormant := by
  obtain ⟨hpower, -, hpins, hignition', hpending', hrests⟩ := enterDormant_facts t
  rw [settle_dormant hrests hpower]
  exact dormantStart_none (hpending'.trans hpending) (hignition'.trans hignition) (by rw [hpins]; exact hwake)

/-- R184: a POWER-ON start is COLD with no dips counted. -/
theorem beginStart_powerOn (t : State) : (t.beginStart .powerOn).startsAt .powerOn .cold ∧ (t.beginStart .powerOn).settle = t.beginStart .powerOn ∧
    (t.beginStart .powerOn).backup.dips = 0 ∧ (t.beginStart .powerOn).supply.ignition = t.supply.ignition ∧
    (t.beginStart .powerOn).pins = t.pins := by
  obtain ⟨k, rfl, hstarts, hsettle, hignition, hpins, hdips, -⟩ := beginStart_facts t .powerOn
  exact ⟨hstarts, hsettle, hdips, hignition, hpins⟩

/-- R191: a DIP-RESTART start is COLD and keeps the dip count. -/
theorem beginStart_dipRestart {t : State} (herase : t.supply.erase = none) :
    (t.beginStart .dipRestart).startsAt .dipRestart .cold ∧ (t.beginStart .dipRestart).settle = t.beginStart .dipRestart ∧
    (t.beginStart .dipRestart).backup.dips = t.backup.dips := by
  obtain ⟨k, rfl, hstarts, hsettle, -, -, hdips, -⟩ := beginStart_facts t .dipRestart
  exact ⟨hstarts, hsettle, hdips.trans (finishWrites_writeFrame herase).dips⟩

/-! ## DORMANT -/

theorem dormantStart_resetting {t : State} (h : t.supply.resetting ≠ none) : t.dormantStart = t := by
  unfold State.dormantStart
  rw [if_neg]
  simp [h]

/-- Above the run threshold DORMANT begins the start it waits for (R181, R183, R189). -/
theorem dormantStart_starts {t : State} {c : Cause} (hpower : t.supply.power = .dormant) (hresetting : t.supply.resetting = none)
    (habove : t.aboveRun = true)
    (h : t.supply.pendingStart = true ∧ c = .resetLine ∨
      t.supply.pendingStart = false ∧ t.supply.ignition = true ∧ c = .ignitionWake ∨
      t.supply.pendingStart = false ∧ t.supply.ignition = false ∧ t.pins.wake = true ∧ c = .processorWake) :
    t.dormantStart = t.beginStart c ∧ (c = .resetLine ∨ c = .ignitionWake ∨ c = .processorWake) := by
  rw [dormantStart_eq hpower hresetting habove]
  rcases h with ⟨hpending, rfl⟩ | ⟨hpending, hignition, rfl⟩ | ⟨hpending, hignition, hwake, rfl⟩
  · exact ⟨by rw [hpending, if_pos rfl], .inl rfl⟩
  · exact ⟨by rw [hpending, hignition, if_neg Bool.false_ne_true, if_pos rfl], .inr (.inl rfl)⟩
  · exact ⟨by rw [hpending, hignition, hwake, if_neg Bool.false_ne_true, if_neg Bool.false_ne_true, if_pos rfl], .inr (.inr rfl)⟩

end

/-- Settles O49: a fall below the hold threshold enters DIP-HOLD in the power states that have a dip, and else moves the lines. -/
theorem dipEntered : Obligations.DipEntered := by
  unfold Obligations.DipEntered
  intro s mv v24 hrise
  refine ⟨fun h => ?none, fun hbelow hwas hpower => ?dip⟩
  case none =>
    rw [exec_supplyFall hrise, if_neg]
    · rfl
    · rw [Bool.and_eq_true, fallsBelowHold_iff]
      rintro ⟨hfall, hdips⟩
      rcases h with h | h
      · exact h hfall
      · rw [not_dips h] at hdips
        cases hdips
  case dip =>
    refine ⟨(s.supplyReads mv v24).enterDip, ?_, enterDip_facts (s.supplyReads mv v24)⟩
    rw [exec_supplyFall hrise, if_pos]
    rw [Bool.and_eq_true]
    exact ⟨fallsBelowHold_iff.mpr ⟨hbelow, hwas⟩, dips_iff.mpr hpower⟩

/-- Settles O50: by the power state in which the supply rises. -/
theorem supplyRiseActs : Obligations.SupplyRiseActs := by
  unfold Obligations.SupplyRiseActs
  intro s mv v24 hrise
  refine ⟨fun hpower => ?unpowered, fun hpower hdips herase => ?restart, fun hpower hdips => ⟨fun p q w hprior h => ?resume,
      fun hprior => ?starting, fun hignition hpending hwake h => ?dormant⟩, fun h1 h2 h3 h4 hrests => ?other,
    fun hpower hrests hbank => ?closing, fun hpower hrests => ⟨fun c hresetting h => ?wakes, fun h => ?sleeps⟩⟩
  case unpowered =>
    obtain ⟨hstarts, hsettle, hdips, hignition, hpins⟩ :=
      beginStart_powerOn ((s.supplyReads mv v24).supplying (fun u => { u with ignition := s.pins.ign }))
    refine ⟨_, ?_, hstarts, hdips, hignition, hpins⟩
    rw [exec_supplyRise hrise, supplyRisen_unpowered (t := s.supplyReads mv v24) hpower]
    exact congrArg Host.Outcome.next hsettle
  case restart =>
    obtain ⟨hstarts, hsettle, hdips'⟩ := beginStart_dipRestart (t := s.supplyReads mv v24) herase
    refine ⟨_, ?_, hstarts, hdips'⟩
    rw [exec_supplyRise hrise, supplyRisen_dipHold (t := s.supplyReads mv v24) hpower, State.dipRise, 
      if_neg (show ¬ (s.supplyReads mv v24).backup.dips < 4 from Nat.not_lt.mpr hdips), hsettle]
  case resume =>
    refine ⟨(s.supplyReads mv v24).resumeRunning q w, ?_, resumeRunning_facts (s.supplyReads mv v24) q w⟩
    rw [exec_supplyRise_resumes hrise hpower hdips, dipResume_running (t := s.supplyReads mv v24) hprior h]
  case starting =>
    refine ⟨(s.supplyReads mv v24).resumeStarting, ?_, resumeStarting_facts (s.supplyReads mv v24)⟩
    rw [exec_supplyRise_resumes hrise hpower hdips, dipResume_starting (t := s.supplyReads mv v24) hprior]
  case dormant =>
    obtain ⟨hpower', hcleared, -⟩ := enterDormant_facts (s.supplyReads mv v24)
    refine ⟨_, ?_, hpower', hcleared⟩
    rw [exec_supplyRise_resumes hrise hpower hdips, dipResume_dormant (t := s.supplyReads mv v24) hignition h,
      enterDormant_settle (t := s.supplyReads mv v24) hignition hpending hwake]
  case other =>
    rw [exec_supplyRise_reads hrise h1 h2, settle_rest (s := s.supplyReads mv v24) (supplyReads_rests hrests) h3 h4]
    rfl
  case closing =>
    obtain ⟨b, hheld, hfaulted⟩ := hbank
    have hstopped : (s.bank b).stopped = false := by
      unfold Bank.stopped
      rw [Bool.or_eq_false_iff, Bool.and_eq_false_imp]
      exact ⟨beq_eq_false_iff_ne.mpr hheld, fun h => by rw [hfaulted (eq_of_beq h)]; rfl⟩
    rw [exec_supplyRise_reads hrise (by simp [hpower]) (by simp [hpower]),
      closing_goes_on (u := s.supplyReads mv v24) hpower (supplyReads_rests hrests) hstopped]
    rfl
  case wakes =>
    obtain ⟨hstart, hcause⟩ := dormantStart_starts (t := s.supplyReads mv v24) hpower hresetting (supplyReads_aboveRun hrise) h
    refine ⟨_, ?_, beginStart_startsWake (z := s.supplyReads mv v24) hcause rfl rfl rfl rfl⟩
    rw [exec_supplyRise_reads hrise (by simp [hpower]) (by simp [hpower]), settle_dormant (t := s.supplyReads mv v24) (supplyReads_rests hrests) hpower, hstart]
  case sleeps =>
    rw [exec_supplyRise_reads hrise (by simp [hpower]) (by simp [hpower]), settle_dormant (t := s.supplyReads mv v24) (supplyReads_rests hrests) hpower]
    rcases h with h | ⟨hpending, hignition, hwake⟩
    · exact congrArg Host.Outcome.next (dormantStart_resetting (t := s.supplyReads mv v24) h)
    · exact congrArg Host.Outcome.next (dormantStart_none (t := s.supplyReads mv v24) hpending hignition hwake)

end Sys2Proof.Machine

/-! # Loss of supply, reset, ignition and timers -/

namespace Sys2Proof.Machine

section

variable {s : State}

/-! ## Torn writes (R143, R181) -/

theorem tearBanks_supply : ∀ (l : List BankId) (s : State), (l.foldl (fun s b => s.tearBank b) s).supply = s.supply
  | [], _ => rfl
  | b :: l, s => (tearBanks_supply l (s.tearBank b)).trans (tearBank_facts s b).2.2.1

/-- The pool's torn write damages an entry of the pool index alone. -/
theorem tearPool_facts (s : State) : s.tearPool.store.places = s.store.places ∧ s.tearPool.supply = s.supply := by
  unfold State.tearPool
  split
  · exact ⟨rfl, rfl⟩
  · split <;> exact ⟨rfl, rfl⟩
  · split <;> exact ⟨rfl, rfl⟩

/-- A torn domain header write damages that header alone. -/
theorem tearDomain_shape (s : State) (d : Domain) :
    s.tearDomain d = { s with store := { s.store with domains := (s.tearDomain d).store.domains } } := by
  unfold State.tearDomain
  split <;> rfl

theorem tearDomain_header (s : State) (d : Domain) : (s.tearDomain d).store.domains.get d =
    if (s.domainWrites.get d).isSome then (s.store.domains.get d).torn else s.store.domains.get d := by
  unfold State.tearDomain
  split
  · exact PerDomain.set_get _ _ _
  · rfl

theorem tearDomain_other (s : State) {d e : Domain} (h : e ≠ d) :
    (s.tearDomain d).store.domains.get e = s.store.domains.get e := by
  unfold State.tearDomain
  split
  · exact PerDomain.set_get_other _ _ _ _ h
  · rfl

/-- The header writes of both domains are torn. -/
def State.tearDomains (s : State) : State := (s.tearDomain .block).tearDomain .product

theorem tearDomains_shape (s : State) :
    s.tearDomains = { s with store := { s.store with domains := s.tearDomains.store.domains } } := by
  obtain ⟨a, hblock⟩ : ∃ a, s.tearDomain .block = { s with store := { s.store with domains := a } } := ⟨_, tearDomain_shape s _⟩
  unfold State.tearDomains
  rw [tearDomain_shape, hblock]

theorem tearDomains_header (s : State) (d : Domain) : s.tearDomains.store.domains.get d =
    if (s.domainWrites.get d).isSome then (s.store.domains.get d).torn else s.store.domains.get d := by
  unfold State.tearDomains
  cases d with
  | block => rw [tearDomain_other _ (by decide), tearDomain_header]
  | product =>
    rw [tearDomain_header, tearDomain_other _ (by decide)]
    rw [tearDomain_shape]

theorem tearDomains_places (s : State) : s.tearDomains.store.places = s.store.places := by
  obtain ⟨a, h⟩ : ∃ a, s.tearDomains = { s with store := { s.store with domains := a } } := ⟨_, tearDomains_shape s⟩
  rw [h]

theorem tearErase_none (h : s.supply.erase = none) : s.tearErase = s := by
  unfold State.tearErase
  rw [h]

/-- The banks' writes in progress are torn. -/
def State.tearBanks (s : State) : State := allBanks.foldl (fun s b => s.tearBank b) s

theorem tearWrites_eq (s : State) : s.tearWrites = s.tearBanks.tearPool.tearErase.tearDomains := rfl

/-- With no erase in progress the banks' torn writes alone touch the places of the banks. -/
theorem tearWrites_places (h : s.supply.erase = none) : s.tearWrites.store.places = s.tearBanks.store.places := by
  have hsupply : s.tearBanks.tearPool.supply = s.supply := (tearPool_facts _).2.trans (tearBanks_supply _ _)
  rw [tearWrites_eq, tearErase_none (by rw [hsupply]; exact h)]
  exact (tearDomains_places _).trans (tearPool_facts _).1

theorem tearPlace_places {b : BankId} {p : Nat} (h : p < 65536) :
    (s.tearPlace b p).places b = placeSet p (tornRecord (s.bankDomain b) s.draws) (s.places b) := by
  unfold State.tearPlace
  dsimp only [State.draw]
  rw [State.setPlaces_places, placeWrite, if_pos (show p < Config.bankPlaces from h)]
  rfl

/-- A record write left unfinished leaves a bad record in the lowest free place of its bank, and every other place as it was (R181). -/
theorem tearWrites_applyAdd {b : BankId} {run : ApplyRun} (hwork : (s.bank b).work = .applyAdd run) (herase : s.supply.erase = none)
    (hfree : lowestFree 0 (s.places b) < 65536) : ∃ r : Record, r.good = false ∧
    s.tearWrites.places b = placeSet (lowestFree 0 (s.places b)) r (s.places b) := by
  obtain ⟨t, hbank, hplaces, htorn⟩ := tearBanks_at b allBanks s (List.mem_finRange b) (List.nodup_finRange 16)
  have hlast : t.tearBank b = t.tearPlace b (lowestFree 0 (s.places b)) := by
    unfold State.tearBank
    rw [hbank, hwork, ← hplaces]
  refine ⟨tornRecord (t.bankDomain b) t.draws, tornRecord_bad _ _, ?_⟩
  have hkeeps : s.tearWrites.places b = s.tearBanks.places b := congrArg (fun v => v[b]) (tearWrites_places herase)
  have htorn' : s.tearBanks.places b = (t.tearBank b).places b := htorn
  rw [hkeeps, htorn', hlast, tearPlace_places hfree, hplaces]

/-! ## Loss of supply and reset -/

theorem exec_supplyLoss (h : s.supply.power ≠ .unpowered) (unfinished : Bool) : exec (.supplyLoss unfinished) s =
    .next (lostFrom (if unfinished = true then s.tearWrites else s.finishWrites.commitDomainHeaders)) := by
  show execSupplyLoss unfinished s = _
  unfold execSupplyLoss
  rw [if_neg (by simp [h]), loseSupply_eq]

theorem exec_resetTaken (h : s.supply.power ≠ .unpowered) :
    exec .resetTaken s = .next (resetFrom ((s.finishWrites.resetDomainHeader .block).resetDomainHeader .product)) := by
  show execResetTaken s = _
  unfold execResetTaken
  rw [if_neg (by simp [h]), takeReset_eq]

/-- With no write in progress but domain headers', a loss of supply touches these headers alone (R143, R181). -/
theorem lossWrites_headers (hbanks : ∀ b : BankId, (s.bank b).work = .none) (hpool : s.pool.writing = .none)
    (herase : s.supply.erase = none) (unfinished : Bool) :
    let w := if unfinished = true then s.tearWrites else s.finishWrites.commitDomainHeaders
    w.store = { s.store with domains := w.store.domains } ∧ w.backup = s.backup ∧
    ∀ d : Domain, (s.domainWrites.get d = none → w.store.domains.get d = s.store.domains.get d) ∧
      ∀ h : DomainHeader, s.domainWrites.get d = some h →
        (unfinished = false → w.store.domains.get d = h) ∧ (unfinished = true → (w.store.domains.get d).good = false) := by
  cases unfinished with
  | true =>
    have htear : s.tearWrites = s.tearDomains := tearWrites_none hbanks hpool herase
    simp only [if_true, htear]
    refine ⟨(congrArg State.store (tearDomains_shape s) :), (congrArg State.backup (tearDomains_shape s) :), fun d => ?_⟩
    rw [tearDomains_header]
    exact ⟨fun h => by rw [h]; rfl, fun h hh => ⟨nofun, fun _ => by rw [hh]; exact DomainHeader.torn_good _⟩⟩
  | false =>
    simp only [Bool.false_eq_true, if_false, finishWrites_none hbanks hpool herase]
    refine ⟨s.commitDomainHeaders_store, (congrArg State.backup s.commitDomainHeaders_shape :), fun d => ?_⟩
    rw [State.commitDomainHeaders_header]
    exact ⟨fun h => by rw [h]; rfl, fun h hh => ⟨fun _ => by rw [hh]; rfl, nofun⟩⟩

/-! ## DORMANT -/

/-- At or below the run threshold DORMANT goes on. -/
theorem dormantStart_below (h : s.pins.vsense ≤ Config.runThreshold s.pins.vsel24) : s.dormantStart = s := by
  have hbelow : s.aboveRun = false := decide_eq_false (Nat.not_lt.mpr h)
  unfold State.dormantStart
  rw [hbelow, Bool.and_false, if_neg Bool.false_ne_true]

theorem aboveRun_iff : s.aboveRun = true ↔ Config.runThreshold s.pins.vsel24 < s.pins.vsense := decide_eq_true_iff

theorem exec_resetExtensionEnd {t0 : Nat} (htimer : s.supply.resetting = some t0) (hdue : t0 ≤ s.clock) :
    exec .resetExtensionEnd s =
      .next (s.supplying (fun u => { u with resetting := none, pendingStart := true })).dormantStart := by
  show execResetExtensionEnd s = _
  unfold execResetExtensionEnd
  rw [if_pos (by rw [htimer]; exact decide_eq_true hdue)]
  rfl

/-! ## Ignition -/

/-- The ignition begins a start out of DORMANT; `t` agrees with `s` in what decides its kind (R184, R189). -/
theorem dormantStart_ignition {t : State} (hpower : t.supply.power = .dormant) (hresetting : t.supply.resetting = none)
    (habove : t.aboveRun = true) (hpending : t.supply.pendingStart = false) (hignition : t.supply.ignition = true)
    (hbackup : t.backup = s.backup) (hbanks : t.banks = s.banks) (hpool : t.pool = s.pool) (herase : t.supply.erase = s.supply.erase) :
    s.startsWake .ignitionWake t.dormantStart ∧ t.dormantStart.supply.ignition = true := by
  obtain ⟨hstart, hcause⟩ := dormantStart_starts hpower hresetting habove (.inr (.inl ⟨hpending, hignition, rfl⟩))
  obtain ⟨k, -, -, -, hkept, -⟩ := beginStart_facts t .ignitionWake
  rw [hstart]
  exact ⟨beginStart_startsWake hcause hbackup hbanks hpool herase, hkept.trans hignition⟩

theorem ignite_eq (h : s.supply.power ≠ .unpowered) (on : Bool) :
    s.ignite on = { s with pins := { s.pins with ign := on }, supply := { s.supply with ignition := on } } := by
  unfold State.ignite
  dsimp only
  rw [if_neg (by simp [h])]
  rfl

/-- R182: the debounced ignition comes on. -/
theorem exec_ignitionOn (hoff : s.supply.ignition = false) (h : s.supply.power ≠ .unpowered) : exec .ignitionOn s =
    .next (State.ignitionCame { s with pins := { s.pins with ign := true }, supply := { s.supply with ignition := true } }) := by
  show execIgnitionOn s = _
  unfold execIgnitionOn
  rw [hoff, if_neg Bool.false_ne_true, ignite_eq h]

/-- R182: the debounced ignition goes off in RUN. -/
theorem exec_ignitionOff_run (hon : s.supply.ignition = true) (hpower : s.supply.power = .run) : exec .ignitionOff s =
    .next (State.settle (State.park { s with pins := { s.pins with ign := false }, supply := { s.supply with ignition := false } })) := by
  show execIgnitionOff s = _
  unfold execIgnitionOff State.ignitionWent
  rw [hon, if_pos rfl, ignite_eq (by simp [hpower])]
  simp only [hpower]

theorem park_zero {t : State} (h : t.supply.config.parkedWindow = 0) : t.park = t.enterClosing := by
  unfold State.park
  rw [if_pos h]

/-- R188: the parked window has run out. -/
theorem exec_parkedWindowExpiry {t0 : Nat} (htimer : s.supply.parked = .running t0) (hdue : t0 ≤ s.clock) :
    exec .parkedWindowExpiry s = .next s.windowExpired := by
  show execParkedWindowExpiry s = _
  unfold execParkedWindowExpiry
  simp only [htimer, if_pos hdue]

theorem windowExpired_dipHold (h : s.supply.power = .dipHold) :
    s.windowExpired = s.supplying (fun u => { u with parked := .expired }) := by
  unfold State.windowExpired
  rw [h]

end

/-- Settles O51: the writes in progress end or are torn first, and what is left of the part is its two memories. -/
theorem supplyLossAndResetAct : Obligations.SupplyLossAndResetAct := by
  unfold Obligations.SupplyLossAndResetAct
  intro s hpowered
  refine ⟨fun unfinished => ?loss, ?reset, fun t0 hpower htimer hearly => ?early, fun t0 hpower htimer hdue => ⟨fun hbelow => ?below,
      fun habove => ?extension⟩,
    fun hpower hresetting hpending hignition => ⟨fun level h => ?quiet, fun habove => ?wake⟩⟩
  case loss =>
    obtain ⟨hpower, hsense, hignition, hpending, hcleared, hstore, hbackup⟩ :=
      lostFrom_facts (if unfinished = true then s.tearWrites else s.finishWrites.commitDomainHeaders)
    refine ⟨_, exec_supplyLoss hpowered unfinished, hpower, hsense, hignition, hpending, hcleared, fun hbanks hpool herase => ?_,
      fun b run hun hwork herase hfree => ?_⟩
    · rw [hstore, hbackup]
      exact lossWrites_headers hbanks hpool herase unfinished
    · obtain ⟨r, hbad, hplaces⟩ := tearWrites_applyAdd hwork herase hfree
      have hlost : ∀ t : State, t.store = (if unfinished = true then s.tearWrites else s.finishWrites.commitDomainHeaders).store →
          t.places b = placeSet (lowestFree 0 (s.places b)) r (s.places b) := fun t h => by
        rw [if_pos hun] at h
        rw [← hplaces]
        exact congrArg (fun m => m.places[b]) h
      rw [hlost _ hstore]
      exact ⟨⟨r, placeGet_set _ _ _, hbad⟩, fun q hq => placeGet_set_other _ _ hq _ _⟩
  case reset =>
    obtain ⟨hsupply, hpins, hclock⟩ := finishWrites_supply s
    obtain ⟨w, hw, hclock', hpins', hbackup, hstore, hheaders⟩ := resetDomainHeaders_facts s.finishWrites
    have hexec := exec_resetTaken hpowered
    rw [← hw] at hexec
    obtain ⟨hpower, hresetting, hcleared, hkept⟩ := resetFrom_facts w
    refine ⟨_, hexec, hpower, by rw [hresetting, hclock', hclock], hcleared, hkept.trans (hpins'.trans hpins),
      fun hbanks hpool herase => ?_⟩
    rw [finishWrites_none hbanks hpool herase] at hstore hbackup hheaders
    exact ⟨hstore, hbackup, hheaders⟩
  case early =>
    show execResetExtensionEnd s = _
    unfold execResetExtensionEnd
    rw [if_neg (by rw [htimer]; simp [State.due, hearly])]
  case below =>
    rw [exec_resetExtensionEnd htimer hdue]
    exact congrArg Host.Outcome.next
      (dormantStart_below (s := s.supplying (fun u => { u with resetting := none, pendingStart := true })) hbelow)
  case extension =>
    obtain ⟨hstart, hcause⟩ := dormantStart_starts (c := .resetLine)
      (t := s.supplying (fun u => { u with resetting := none, pendingStart := true })) hpower rfl (aboveRun_iff.mpr habove) (.inl ⟨rfl, rfl⟩)
    exact ⟨_, (exec_resetExtensionEnd htimer hdue).trans (congrArg Host.Outcome.next hstart),
      beginStart_startsWake hcause rfl rfl rfl rfl⟩
  case quiet =>
    show Host.Outcome.next (State.dormantStart { s with pins := { s.pins with wake := level } }) = _
    rcases h with rfl | hbelow
    · exact congrArg Host.Outcome.next (dormantStart_none (t := { s with pins := { s.pins with wake := false } }) hpending hignition rfl)
    · exact congrArg Host.Outcome.next (dormantStart_below (s := { s with pins := { s.pins with wake := level } }) hbelow)
  case wake =>
    obtain ⟨hstart, hcause⟩ := dormantStart_starts (c := .processorWake) (t := { s with pins := { s.pins with wake := true } })
      hpower hresetting (aboveRun_iff.mpr habove) (.inr (.inr ⟨hpending, hignition, rfl, rfl⟩))
    exact ⟨_, congrArg Host.Outcome.next hstart, beginStart_startsWake hcause rfl rfl rfl rfl⟩

/-- Settles O52: by the power state in which the ignition changes or a timer expires. -/
theorem ignitionAndTimersAct : Obligations.IgnitionAndTimersAct := by
  unfold Obligations.IgnitionAndTimersAct
  intro s
  refine ⟨fun hoff hpower => ?unpark, fun hoff hpower => ?resume, fun hoff hpower hresetting hpending habove => ?start,
    fun hon hpower => ⟨fun hwindow => ?park, fun hwindow => ?close⟩, fun t0 hpower htimer hdue hbelow => ?dip,
    fun t0 htimer hdue => ⟨fun hpower => ?window, fun hpower => ?held⟩, fun t0 htimer hdue => ?stable⟩
  case unpark =>
    rw [exec_ignitionOn hoff (by simp [hpower])]
    unfold State.ignitionCame
    simp only [hpower]
    rfl
  case resume =>
    obtain ⟨hsupply, hheld, hdecay, hannounce, -⟩ := resumeRunning_facts
      { s with pins := { s.pins with ign := true }, supply := { s.supply with ignition := true } } .run .stopped
    refine ⟨_, ?_, hsupply, hheld, hdecay, hannounce⟩
    rw [exec_ignitionOn hoff (by simp [hpower])]
    unfold State.ignitionCame
    simp only [hpower]
  case start =>
    refine ⟨_, ?_, dormantStart_ignition
      (t := { s with pins := { s.pins with ign := true }, supply := { s.supply with ignition := true } })
      hpower hresetting (aboveRun_iff.mpr habove) hpending rfl rfl rfl rfl rfl⟩
    rw [exec_ignitionOn hoff (by simp [hpower])]
    unfold State.ignitionCame
    simp only [hpower]
  case park =>
    rw [exec_ignitionOff_run hon hpower]
    unfold State.park State.freshWindow
    dsimp only
    rw [if_neg hwindow, Nat.mul_assoc]
    rfl
  case close =>
    refine ⟨_, (exec_ignitionOff_run hon hpower).trans (congrArg (fun t => Host.Outcome.next (State.settle t)) (park_zero hwindow)), (enterClosing_facts _).1, congrArg Supply.ignition (enterClosing_supply _)⟩
  case dip =>
    obtain ⟨hdormant, hcleared, hpins, -⟩ := enterDormant_facts s
    refine ⟨_, ?_, hdormant, hcleared⟩
    show execDipTimerExpiry s = _
    unfold execDipTimerExpiry
    rw [if_pos (by rw [hpower, htimer]; exact decide_eq_true hdue), dormantStart_below (by rw [hpins]; exact hbelow)]
  case window =>
    obtain ⟨hclosing, hparked, -⟩ := enterClosing_facts s
    refine ⟨_, ?_, hclosing, hparked⟩
    rw [exec_parkedWindowExpiry htimer hdue, State.windowExpired]
    simp only [hpower]
  case held =>
    exact (exec_parkedWindowExpiry htimer hdue).trans (congrArg Host.Outcome.next (windowExpired_dipHold hpower))
  case stable =>
    show execStableRunExpiry s = _
    unfold execStableRunExpiry
    rw [if_pos (by rw [htimer]; exact decide_eq_true hdue)]
    rfl

end Sys2Proof.Machine

/-! # The start record and the COMMISSION erase -/

namespace Sys2Proof.Machine

section

variable {s : State} {a b c : Bool}

/-! ## The start record (R186) -/

/-- The state in which the start record is judged: the straps are sampled and the domain headers read. -/
def State.headersRead (s : State) (a b : Bool) : State :=
  (s.linked (fun l => { l with rateCode := rateCodeOf a b })).takeHeaders (parseStartRecord s.store.startRecord)

theorem headersRead_shape (s : State) (a b : Bool) : ∃ vis domains writes, s.headersRead a b = { s with
    link := { s.link with rateCode := rateCodeOf a b }, vis := vis, domainWrites := writes
    store := { s.store with domains := domains } } :=
  (takeHeaders_facts (s.linked (fun l => { l with rateCode := rateCodeOf a b })) (parseStartRecord s.store.startRecord)).1

theorem headersRead_domain (a b : Bool) {d : Domain} (h : (s.store.domains.get d).good = true) : (s.headersRead a b).domain d =
    { held := (s.store.domains.get d).held, visible := (s.store.domains.get d).visible
      pending := (s.store.domains.get d).pending, timer := none } :=
  (takeHeaders_facts (s.linked (fun l => { l with rateCode := rateCodeOf a b })) (parseStartRecord s.store.startRecord)).2 d h

theorem exec_startRecordReadComplete (hpower : s.supply.power = .starting) (hread : s.supply.recordRead = false) :
    exec (.startRecordReadComplete a b c) s = .next (s.recordReadDone a b c) := by
  show execStartRecordReadComplete a b c s = _
  unfold execStartRecordReadComplete
  rw [if_pos (by rw [hpower, hread]; rfl)]

/-- R193: a bad record, or STRAP2 outside a COMMISSION's start, ends the start in COMMISSIONING. -/
theorem recordReadDone_commissioning
    (h : parseStartRecord s.store.startRecord = none ∨ c = true ∧ s.backup.cause.cause ≠ .commissioned) :
    s.recordReadDone a b c = (s.headersRead a b).enterCommissioning := by
  obtain ⟨vis, domains, writes, hshape⟩ := headersRead_shape s a b
  have hcause : (s.headersRead a b).backup.cause = s.backup.cause := by rw [hshape]
  rw [recordReadDone_eq s a b c _ rfl]
  cases hparse : parseStartRecord s.store.startRecord with
  | none => exact congrArg State.enterCommissioning (by unfold State.headersRead; rw [hparse])
  | some r =>
    obtain ⟨hstrap, hnot⟩ := h.resolve_left (by rw [hparse]; nofun)
    have htest : (c && (s.headersRead a b).backup.cause.cause != .commissioned) = true := by
      rw [hcause, hstrap, Bool.true_and, bne_iff_ne]
      exact hnot
    unfold State.headersRead at htest ⊢
    rw [hparse] at htest ⊢
    exact if_pos htest

/-- The banks start under the record now in force (R186, step 4). -/
def State.inForce (s : State) (r : StartRecord) : State := s.supplying (fun u => { u with recordRead := true, config := r })

theorem recordReadDone_starts {r : StartRecord} (hparse : parseStartRecord s.store.startRecord = some r)
    (h : c = false ∨ s.backup.cause.cause = .commissioned) :
    s.recordReadDone a b c = ((s.headersRead a b).inForce r).startBanks.settle := by
  obtain ⟨vis, domains, writes, hshape⟩ := headersRead_shape s a b
  have hcause : (s.headersRead a b).backup.cause = s.backup.cause := by rw [hshape]
  have htest : ¬ (c && (s.headersRead a b).backup.cause.cause != .commissioned) = true := by
    rw [hcause]
    rcases h with h | h <;> simp [h]
  rw [recordReadDone_eq s a b c _ rfl]
  unfold State.headersRead at htest ⊢
  rw [hparse] at htest ⊢
  exact if_neg htest

theorem enterCommissioning_start (t : State) : t.enterCommissioning.port.flags.getLsbD 10 = true := by
  show (t.port.flags ||| Notice.start.mask).getLsbD 10 = true
  rw [BitVec.getLsbD_or, Bool.or_eq_true]
  exact .inr (by decide)

/-! ## The COMMISSION erase (R193) -/

variable {r : StartRecord} {n : Nat}

theorem exec_commissionEraseWriteCommit (h : s.supply.erase = some { record := r, write := some n }) :
    exec .commissionEraseWriteCommit s = .next (s.eraseStep { record := r, write := some n } n) := by
  show execCommissionEraseWriteCommit s = _
  unfold execCommissionEraseWriteCommit
  simp only [h]

theorem eraseStep_next (h : n < 5) (e : Erase) : s.eraseStep e n =
    (s.eraseWrite e.record n).supplying (fun u => { u with erase := some { e with write := some (n + 1) } }) := if_pos h

theorem eraseStep_last (e : Erase) : s.eraseStep e 5 =
    ((s.eraseWrite e.record 5).supplying (fun u => { u with erase := none })).beginStart .commissioned := rfl

theorem eraseWrite_last (s : State) (r : StartRecord) :
    s.eraseWrite r 5 = { s with store := { s.store with startRecord := r.bytes } } := rfl

theorem eraseBanks_port_banks (l : List BankId) (s : State) :
    (l.foldl (fun s b => s.eraseBank b) s).port = s.port ∧ (l.foldl (fun s b => s.eraseBank b) s).banks = s.banks := by
  obtain ⟨-, -, -, -, -, hport, hbanks⟩ := eraseBanks_facts 0 l s
  exact ⟨hport, hbanks⟩

/-- R144, R193: an erased domain holds generation 0 in its header and its values. -/
theorem eraseDomain_facts (s : State) (d : Domain) :
    (s.eraseDomain d).store.domains.get d = DomainHeader.sealed { held := 0, visible := 0, pending := [], check := 0 } ∧
    (s.eraseDomain d).domain d = { held := 0, visible := 0, pending := [], timer := none } ∧
    (∀ e, e ≠ d → (s.eraseDomain d).store.domains.get e = s.store.domains.get e ∧ (s.eraseDomain d).domain e = s.domain e) ∧
    (s.eraseDomain d).store.places = s.store.places ∧ (s.eraseDomain d).port = s.port ∧ (s.eraseDomain d).banks = s.banks := by
  have hvis : (s.eraseDomain d).vis = s.vis.set d { held := 0, visible := 0, pending := [], timer := none } := by
    unfold State.eraseDomain
    simp [State.setDomain]
  refine ⟨?_, ?_, fun e he => ⟨?_, ?_⟩, ?_, ?_, ?_⟩
  · unfold State.eraseDomain
    rw [State.commitDomainHeader_header, State.writeDomainHeader_shape]
    dsimp only
    rw [PerDomain.set_get, Option.getD_some, State.setDomain_domain]
  · unfold State.domain
    rw [hvis]
    exact PerDomain.set_get _ _ _
  · unfold State.eraseDomain
    rw [State.commitDomainHeader_other _ _ _ he, State.writeDomainHeader_shape]
    exact State.commitDomainHeader_other _ _ _ he
  · unfold State.domain
    rw [hvis]
    exact PerDomain.set_get_other _ _ _ _ he
  · unfold State.eraseDomain
    rw [State.commitDomainHeader_store, State.writeDomainHeader_shape]
    rfl
  · unfold State.eraseDomain
    simp [State.setDomain]
  · unfold State.eraseDomain
    simp [State.setDomain]

theorem eraseDomains_facts (s : State) :
    let t := (s.eraseDomain .block).eraseDomain .product
    (∀ d : Domain, t.store.domains.get d = DomainHeader.sealed { held := 0, visible := 0, pending := [], check := 0 } ∧
      t.domain d = { held := 0, visible := 0, pending := [], timer := none }) ∧
    t.store.places = s.store.places ∧ t.port = s.port ∧ t.banks = s.banks := by
  obtain ⟨hheader, hdomain, -, hplaces, hport, hbanks⟩ := eraseDomain_facts s .block
  obtain ⟨hheader', hdomain', hother, hplaces', hport', hbanks'⟩ := eraseDomain_facts (s.eraseDomain .block) .product
  refine ⟨fun d => ?_, hplaces'.trans hplaces, hport'.trans hport, hbanks'.trans hbanks⟩
  cases d with
  | block => exact ⟨(hother .block (by decide)).1.trans hheader, (hother .block (by decide)).2.trans hdomain⟩
  | product => exact ⟨hheader', hdomain'⟩

/-- The erase writes memories; the port and the banks' volatile state stay. -/
theorem eraseWrite_port_banks (s : State) (r : StartRecord) (n : Nat) :
    (s.eraseWrite r n).port = s.port ∧ (s.eraseWrite r n).banks = s.banks := by
  unfold State.eraseWrite
  split
  · exact ⟨rfl, rfl⟩
  · exact eraseBanks_port_banks _ _
  · exact ⟨rfl, rfl⟩
  · obtain ⟨-, -, hport, hbanks⟩ := eraseDomains_facts s
    exact ⟨hport, hbanks⟩
  · exact ⟨rfl, rfl⟩
  · exact ⟨rfl, rfl⟩

/-- R184: with no write in progress a COMMISSIONED start is COLD and leaves store memory and the dip count. -/
theorem beginStart_commissioned {z : State} (hwork : ∀ b : BankId, (z.bank b).work = .none) (hpool : z.pool.writing = .none)
    (herase : z.supply.erase = none) : (z.beginStart .commissioned).startsAt .commissioned .cold ∧
    (z.beginStart .commissioned).store = z.store ∧ (z.beginStart .commissioned).backup.dips = z.backup.dips := by
  obtain ⟨k, rfl, hstarts, -, -, -, hdips, -, -, hstore⟩ := beginStart_facts z .commissioned
  rw [finishWrites_none hwork hpool herase] at hdips hstore
  exact ⟨hstarts, hstore, hdips⟩

end

/-- Settles O53: the judgement of the start record, and the start states of the banks one by one. -/
theorem startRecordJudged : Obligations.StartRecordJudged := by
  unfold Obligations.StartRecordJudged
  intro s a b c hpower hread
  obtain ⟨vis, domains, writes, hshape⟩ := headersRead_shape s a b
  refine ⟨fun h => ?commissioning, fun r hparse h hrestored => ?starts⟩
  case commissioning =>
    refine ⟨(s.headersRead a b).enterCommissioning, ?_, rfl, enterCommissioning_start _, ?_⟩
    · rw [exec_startRecordReadComplete hpower hread, recordReadDone_commissioning h]
    · rw [hshape]
      exact ⟨rfl, rfl, rfl, rfl⟩
  case starts =>
    have hout := startBanks_outside ((s.headersRead a b).inForce r)
    refine ⟨((s.headersRead a b).inForce r).startBanks, ?_, (outside_supply hout).trans ?_,
      (congrArg Link.rateCode (outside_link hout)).trans ?_, (startBanks_places _).trans ?_,
      fun d hd => (outside_domain hout d).trans (headersRead_domain a b hd), fun e => ?_⟩
    · rw [exec_startRecordReadComplete hpower hread, recordReadDone_starts hparse h]
    · rw [hshape]; rfl
    · rw [hshape]; rfl
    · rw [hshape]; rfl
    · obtain ⟨t, hbefore, hafter⟩ := startBanks_at e ((s.headersRead a b).inForce r)
      have hheaders : t.store.headers[e] = s.store.headers[e] := hbefore.header.trans (by rw [hshape]; rfl)
      have hdirectory : t.backup.headers[e] = s.backup.headers[e] := hbefore.directory.trans (by rw [hshape]; rfl)
      have hplaces : t.places e = s.places e := hbefore.places.trans (by rw [hshape]; rfl)
      have hkind : t.supply.kind = s.supply.kind := (congrArg Supply.kind (sameAt_supply hbefore)).trans (by rw [hshape]; rfl)
      have hnot : t.pool.restored = false := (sameAt_restored hbefore).trans (by rw [hshape]; exact hrestored)
      have hstart := startBank_facts (b := e) hnot
      rw [hheaders, hdirectory, hplaces, hkind] at hstart
      rw [hafter.bank]
      exact hstart

/-- Settles O54: the erase's writes in their order. -/
theorem commissionEraseWrites : Obligations.CommissionEraseWrites := by
  unfold Obligations.CommissionEraseWrites
  intro s r n herase
  obtain ⟨hport, hbanks⟩ := eraseWrite_port_banks s r n
  refine ⟨_, exec_commissionEraseWriteCommit herase, fun h => ?next, ?start, ?banks, ?index, ?domains, ?record⟩
  case next =>
    obtain ⟨hsupply, -⟩ := eraseWrite_supply s r n
    rw [eraseStep_next h]
    exact ⟨congrArg (fun u : Supply => { u with erase := some { record := r, write := some (n + 1) } }) hsupply, hport, hbanks⟩
  case start =>
    rintro rfl
    exact ⟨rfl, rfl, rfl, invalidateStartRecord_unreadable _⟩
  case banks =>
    rintro rfl
    obtain ⟨-, -, hindex, hcells, -⟩ := eraseBanks_facts 0 allBanks s
    exact ⟨fun e => (eraseBanks_facts e allBanks s).1 (List.mem_finRange e), hindex, hcells⟩
  case index =>
    rintro rfl
    exact ⟨rfl, rfl⟩
  case domains =>
    rintro rfl
    obtain ⟨hdomains, hplaces, -⟩ := eraseDomains_facts s
    refine ⟨fun d => ?_, rfl, rfl, rfl, hplaces⟩
    obtain ⟨hheader, hdomain⟩ := hdomains d
    exact ⟨hheader, congrArg Visibility.held hdomain, congrArg Visibility.visible hdomain, congrArg Visibility.pending hdomain⟩
  case record =>
    rintro rfl hwork hpool
    rw [eraseStep_last, eraseWrite_last]
    exact beginStart_commissioned hwork hpool rfl

end Sys2Proof.Machine

/-! # The record writes of an apply -/

namespace Sys2Proof.Machine

section

variable {s : State} {b : BankId} {p : Nat}

theorem writeRecord_places (h : p < 65536) (r : Record) : (s.writeRecord b p r).places b = placeSet p r.sealed (s.places b) := by
  unfold State.writeRecord placeWrite
  rw [setPlaces_places, if_pos (show p < Config.bankPlaces from h)]

theorem writeRecord_bank (r : Record) (e : BankId) : (s.writeRecord b p r).bank e = s.bank e := rfl

variable {run : ApplyRun} {op : Op}

/-- R33: the adding write. -/
theorem applyAddWrite_eq {pl : Payload} (hop : (run.ops.drop run.cursor).head? = some op) (hpl : op.payload = some pl) :
    s.applyAddWrite b run = ((s.writeRecord b (lowestFree 0 (s.places b))
      { key := op.key, payload := pl, added := run.request.gen, removed := none, check := 0 }).heading b
        (fun h => { h with freeCount := h.freeCount - 1 })).writeHeader b := by
  unfold State.applyAddWrite
  rw [hop]
  dsimp only
  rw [hpl]

theorem applyAddWrite_bank {pl : Payload} (hop : (run.ops.drop run.cursor).head? = some op) (hpl : op.payload = some pl) :
    (s.applyAddWrite b run).bank b =
      { s.bank b with header := { (s.bank b).header with freeCount := (s.bank b).header.freeCount - 1 } } := by
  rw [applyAddWrite_eq hop hpl, writeHeader_bank, heading_bank, writeRecord_bank]

theorem applyAddWrite_stored {pl : Payload} (hop : (run.ops.drop run.cursor).head? = some op) (hpl : op.payload = some pl) :
    (s.applyAddWrite b run).store.headers[b].fields.freeCount = ((s.applyAddWrite b run).bank b).header.freeCount := by
  rw [applyAddWrite_eq hop hpl, writeHeader_stored, writeHeader_bank]
  rfl

/-- R33: the ending write. -/
theorem applyEndWrite_eq {r : Record} (h : placeGet p (s.places b) = some r) :
    s.applyEndWrite b run p = s.writeRecord b p { r with removed := some run.request.gen } := by
  unfold State.applyEndWrite
  rw [h]

/-! ## The step after a write -/

/-- R27: under a dip hold the apply stops at the commit. -/
theorem applyStep_dip (h : (s.bank b).hold = .dip) : (s.applyStep b run).bank b =
    { s.bank b with state := .held, prior := some .applying, work := .applyPaused run, hold := .none } := by
  unfold State.applyStep
  rw [if_pos (by rw [h]; rfl), goHeld_bank]

theorem applyStep_goes (h : (s.bank b).hold ≠ .dip) : s.applyStep b run = s.applyResume b run := by
  unfold State.applyStep
  rw [if_neg (by simpa using h)]

/-- R33: after the ending write of a LIST or PUT its adding write follows. -/
theorem applyResume_adds (h : run.endDone = true) : (s.applyResume b run).bank b = { s.bank b with work := .applyAdd run } := by
  unfold State.applyResume
  rw [if_pos h, working_bank]

/-- R34: the last op of a last segment leads to the advance. -/
theorem applyResume_advances (hend : run.endDone = false) (hops : run.ops.length ≤ run.cursor) (hlast : run.request.last = true) :
    (s.applyResume b run).bank b = { s.bank b with work := .advance run.request } := by
  unfold State.applyResume
  rw [hend, if_neg Bool.false_ne_true, List.drop_of_length_le hops, State.applyOn, State.segmentEnd, if_pos hlast, working_bank]

end

/-- Settles O55: a commit's write, and after it either the hold or the next write. -/
theorem applyRecordCommits : Obligations.ApplyRecordCommits := by
  unfold Obligations.ApplyRecordCommits
  intro s b run op hop
  refine ⟨fun pl hwork hpl hfree => ?add, fun p r hwork hplace hp => ?finish⟩
  case add =>
    have hall := applyAddCommit_on (.refl true b s) rfl run
    have hstep := applyStep_on (.refl false b (s.applyAddWrite b run)) { run with cursor := run.cursor + 1, endDone := false }
    have hbank := applyAddWrite_bank (s := s) (b := b) hop hpl
    have hplaces : (s.applyAddCommit b run).places b = placeSet (lowestFree 0 (s.places b))
        (Record.sealed { key := op.key, payload := pl, added := run.request.gen, removed := none, check := 0 }) (s.places b) := by
      refine (places_of_store (hstep.places rfl) b).trans ?_
      rw [applyAddWrite_eq hop hpl]
      exact writeRecord_places hfree _
    have hfreeCount : ((s.applyAddCommit b run).bank b).header.freeCount = (s.bank b).header.freeCount - 1 :=
      (hstep.free rfl).trans (by rw [hbank])
    have hhold : ((s.applyAddWrite b run).bank b).hold = (s.bank b).hold := by rw [hbank]
    refine ⟨s.applyAddCommit b run, ?_, ?_, fun q hq => ?_, fun e he => ⟨hall.elsewhere e he, hall.others e he⟩, hfreeCount,
      (hstep.stored rfl (applyAddWrite_stored hop hpl)).trans hfreeCount, fun hdip => ?_, fun hdip hlength hlast => ?_⟩
    · show execBankRecordCommit b s = _
      unfold execBankRecordCommit
      simp only [hwork]
    · rw [hplaces]; exact placeGet_set _ _ _
    · rw [hplaces]; exact placeGet_set_other _ _ hq _ _
    · unfold State.applyAddCommit
      rw [applyStep_dip (hhold.trans hdip)]
      exact ⟨rfl, rfl, rfl⟩
    · unfold State.applyAddCommit
      dsimp only
      rw [applyStep_goes (by rw [hhold]; exact hdip), applyResume_advances (run := { run with cursor := run.cursor + 1, endDone := false }) rfl (Nat.le_of_eq hlength) hlast]
  case finish =>
    have hall := applyEndCommit_on (.refl true b s) rfl run p
    have hstep := applyStep_on (.refl false b (s.applyEndWrite b run p)) (runPastEnd run op)
    have hcommit := applyEndCommit_eq (s := s) (b := b) (p := p) hop
    have hwrite := applyEndWrite_eq (run := run) hplace
    have hbank : (s.applyEndWrite b run p).bank b = s.bank b := by rw [hwrite]; rfl
    rw [← hcommit] at hstep
    have hplaces : (s.applyEndCommit b run p).places b =
        placeSet p (Record.sealed { r with removed := some run.request.gen }) (s.places b) := by
      refine (places_of_store (hstep.places rfl) b).trans ?_
      rw [hwrite]
      exact writeRecord_places hp _
    refine ⟨s.applyEndCommit b run p, ?_, ?_, fun q hq => ?_, fun e he => ⟨hall.elsewhere e he, hall.others e he⟩,
      (hstep.free rfl).trans (by rw [hbank]), fun hdip => ?_, fun hdip hpl => ?_⟩
    · show execBankRecordCommit b s = _
      unfold execBankRecordCommit
      simp only [hwork]
    · rw [hplaces]; exact placeGet_set _ _ _
    · rw [hplaces]; exact placeGet_set_other _ _ hq _ _
    · rw [hcommit, applyStep_dip (by rw [hbank]; exact hdip)]
      exact ⟨rfl, rfl, congrArg BankWork.applyPaused (runPastEnd_eq run op)⟩
    · rw [hcommit, applyStep_goes (by rw [hbank]; exact hdip), runPastEnd, if_neg hpl, applyResume_adds rfl]

end Sys2Proof.Machine

/-! # Commits that free a place -/

namespace Sys2Proof.Machine

section

variable {s : State} {b : BankId} {p : Nat}

/-! ## What follows a freed place -/

theorem freePlace_hold (s : State) (b : BankId) (p : Nat) : ((s.freePlace b p).bank b).hold = (s.bank b).hold := by
  rw [freePlace_bank]

theorem compactCommit_after (s : State) (b : BankId) (k : CompactRun) (p : Nat) :
    BankOnly false b (s.freePlace b p) (s.compactCommit b k p) := by
  unfold State.compactCommit
  dsimp only
  split
  · exact goHeld_on (.refl _ _ _) _ _
  · exact compactOn_on (.refl _ _ _) _ _
  · exact compactOn_on (.refl _ _ _) _ _

/-- R27: a dip hold stops a compaction at the commit. -/
theorem compactCommit_dip (h : (s.bank b).hold = .dip) (k : CompactRun) :
    ((s.compactCommit b k p).bank b).state = .held ∧ ((s.compactCommit b k p).bank b).prior = some .compacting := by
  have hhold := (freePlace_hold s b p).trans h
  unfold State.compactCommit
  dsimp only
  rw [hhold]
  dsimp only
  rw [goHeld_bank]
  exact ⟨rfl, rfl⟩

theorem eraseCommit_after (s : State) (b : BankId) (p : Nat) : BankOnly false b (s.freePlace b p) (s.eraseCommit b p) := by
  unfold State.eraseCommit
  exact BankOnly.ite (banking_on (.refl _ _ _) _ (fun _ => rfl)) (eraseOn_on (.refl _ _ _))

/-- A hold stops an erasure at the commit (R43). -/
theorem eraseCommit_held (h : (s.bank b).hold ≠ .none) : ((s.eraseCommit b p).bank b).work = .erasePaused := by
  have hhold : ((s.freePlace b p).bank b).hold != .none := by rw [freePlace_hold]; exact bne_iff_ne.mpr h
  unfold State.eraseCommit
  dsimp only
  rw [if_pos hhold, banking_bank]

theorem recoverCommit_after (s : State) (b : BankId) (p : Nat) : BankOnly false b (s.recoverPlace b p) (s.recoverCommit b p) := by
  unfold State.recoverCommit
  exact BankOnly.ite (goHeld_on (.refl _ _ _) _ _) (recoverFrom_on (.refl _ _ _) _)

/-- A hold stops a recovery at the commit. -/
theorem recoverCommit_held (h : ((s.recoverPlace b p).bank b).hold ≠ .none) :
    ((s.recoverCommit b p).bank b).state = .held ∧ ((s.recoverCommit b p).bank b).work = .recoverPaused (p + 1) := by
  unfold State.recoverCommit
  dsimp only
  rw [if_pos (bne_iff_ne.mpr h), goHeld_bank]
  exact ⟨rfl, rfl⟩

/-- R57: a record added above the applied generation is freed. -/
theorem recoverPlace_frees {r : Record} (hplace : placeGet p (s.places b) = some r) (h : (s.bank b).header.applied < r.added) :
    s.recoverPlace b p = s.freePlace b p := by
  unfold State.recoverPlace
  rw [hplace]
  exact if_pos h

/-- R57: another record's removed generation is cleared. -/
theorem recoverPlace_clears {r : Record} (hplace : placeGet p (s.places b) = some r) (h : r.added ≤ (s.bank b).header.applied) :
    s.recoverPlace b p = s.writeRecord b p { r with removed := none } := by
  unfold State.recoverPlace
  rw [hplace]
  exact if_neg (Nat.not_lt.mpr h)

theorem exec_recoveryRecordCommit (h : (s.bank b).work = .recoverWrite p) :
    exec (.recoveryRecordCommit b) s = .next (s.recoverCommit b p).settle := by
  show execRecoveryRecordCommit b s = _
  unfold execRecoveryRecordCommit
  simp only [h]

end

/-- Settles O57: each of the three commits frees its place and goes on without another record write. -/
theorem placesFreed : Obligations.PlacesFreed := by
  unfold Obligations.PlacesFreed
  intro s b p hwf
  refine ⟨fun c h => ?frees, fun r hwork hplace hadded hp => ?clears⟩
  case frees =>
    rcases h with ⟨rfl, k, hwork⟩ | ⟨rfl, hwork⟩ | ⟨rfl, hwork, r, hplace, hadded⟩
    · obtain ⟨hnone, hkept, hothers, hcount, hstored⟩ := freePlace_facts hwf (compactCommit_after s b k p)
      refine ⟨s.compactCommit b k p, ?_, hnone, hkept, hothers, hcount, hstored, fun _ h => compactCommit_dip h k, nofun, nofun⟩
      show execCompactionPlaceCommit b s = _
      unfold execCompactionPlaceCommit
      simp only [hwork]
    · obtain ⟨hnone, hkept, hothers, hcount, hstored⟩ := freePlace_facts hwf (eraseCommit_after s b p)
      refine ⟨s.eraseCommit b p, ?_, hnone, hkept, hothers, hcount, hstored, nofun, nofun, fun _ h => eraseCommit_held h⟩
      show execErasurePlaceCommit b s = _
      unfold execErasurePlaceCommit
      simp only [hwork]
    · have hfrees := recoverPlace_frees hplace hadded
      have hafter := recoverCommit_after s b p
      rw [hfrees] at hafter
      obtain ⟨hnone, hkept, hothers, hcount, hstored⟩ := freePlace_facts hwf hafter
      exact ⟨s.recoverCommit b p, exec_recoveryRecordCommit hwork, hnone, hkept, hothers, hcount, hstored, nofun,
        fun _ h => recoverCommit_held (by rw [hfrees, freePlace_hold]; exact h), nofun⟩
  case clears =>
    have hall := recoverCommit_on (.refl true b s) rfl p
    have hafter := recoverCommit_after s b p
    rw [recoverPlace_clears hplace hadded] at hafter
    have hplaces : (s.recoverCommit b p).places b = placeSet p (Record.sealed { r with removed := none }) (s.places b) :=
      (places_of_store (hafter.places rfl) b).trans (writeRecord_places hp _)
    refine ⟨s.recoverCommit b p, exec_recoveryRecordCommit hwork, ?_, fun q hq => ?_,
      fun e he => ⟨hall.elsewhere e he, hall.others e he⟩, (hafter.free rfl).trans (by rw [writeRecord_bank])⟩
    · rw [hplaces]; exact placeGet_set _ _ _
    · rw [hplaces]; exact placeGet_set_other _ _ hq _ _

end Sys2Proof.Machine

/-! # Scrubs -/

namespace Sys2Proof.Machine

section

variable {s : State} {b : BankId} {p next limit : Nat}

/-! ## Going on (R50) -/

theorem scrubOn_passEnd (h : (placesIn next limit (s.places b)).head? = none) :
    (s.scrubOn b next limit).bank b = { s.bank b with work := .scrubHeader limit false } := by
  unfold State.scrubOn
  rw [h]
  exact working_bank _ _ _

theorem scrubOn_check {x : Nat × Record} (h : (placesIn next limit (s.places b)).head? = some x) : (s.scrubOn b next limit).bank b =
    { s.bank b with work := .scrubCheck x.1, header := { (s.bank b).header with scrubCursor := x.1 } } := by
  unfold State.scrubOn
  rw [h]
  dsimp only
  rw [working_bank, heading_bank]

/-- Without a dip hold the scrub goes on past a place at its cursor. -/
theorem scrubPast_goes (hhold : (s.bank b).hold ≠ .dip) (hcursor : (s.bank b).header.scrubCursor = p) :
    s.scrubPast b p = s.scrubOn b (p + 1) (stepEnd p) := by
  unfold State.scrubPast
  dsimp only
  rw [if_neg (by simpa using hhold), if_pos hcursor, if_pos hcursor]

theorem scrubChecked_good {r : Record} (hplace : placeGet p (s.places b) = some r) (h : r.good = true) :
    s.scrubChecked b p = s.scrubPast b p := by
  unfold State.scrubChecked
  rw [hplace]
  exact if_pos h

/-- R52: a failing record that cannot be repaired makes the bank FAULTED. -/
theorem scrubChecked_faults {r : Record} (hplace : placeGet p (s.places b) = some r) (hbad : r.good = false)
    (h : (s.bank b).header.applied < r.added ∨ s.servable (s.bankDomain b) r.added = false) : s.scrubChecked b p = s.enterFaulted b := by
  have htest : (decide ((s.bank b).header.applied < r.added) || !s.servable (s.bankDomain b) r.added) = true := by
    rcases h with h | h <;> simp [h]
  unfold State.scrubChecked
  rw [hplace]
  dsimp only
  rw [hbad, if_neg Bool.false_ne_true]
  unfold State.beginRepair
  rw [hplace]
  exact if_pos htest

theorem exec_scrubCheckCompletion (h : (s.bank b).work = .scrubCheck p) :
    exec (.scrubCheckCompletion b) s = .next (s.scrubChecked b p).settle := by
  show execScrubCheckCompletion b s = _
  unfold execScrubCheckCompletion
  simp only [h]

/-! ## Beginning (R48, R49) -/

theorem mayScrub_of_unoccupied {k : Bank} (hidle : k.state = .idle) (h : k.unoccupied) : k.mayScrub = true := by
  obtain ⟨hdue, hwaiting, hwanted, hhold, hquiesce⟩ := h
  unfold Bank.mayScrub
  rw [hidle, hdue, hwaiting, hwanted, hhold]
  cases hq : k.quiesce with
  | requested g => exact absurd hq (hquiesce g)
  | _ => rfl

/-- R49: the bank has its scrub due. -/
theorem scrubBecomesDue_eq (s : State) (b : BankId) : s.scrubBecomesDue b =
    if (s.bank b).state = .idle then (s.banking b (fun k => { k with scrubDue := true })).beginScrub b
    else s.banking b (fun k => { k with scrubDue := true }) := by
  unfold State.scrubBecomesDue
  dsimp only
  rw [banking_bank]
  exact if_congr beq_iff_eq rfl rfl

theorem exec_scrubAgeDue (hstarted : s.started = true) (hfaulted : (s.bank b).state ≠ .faulted)
    (hage : s.scrubInterval ≤ (s.bank b).header.scrubAge) : exec (.scrubAgeDue b) s = .next (s.scrubBecomesDue b) := by
  show execScrubAgeDue b s = _
  unfold execScrubAgeDue
  rw [if_pos (by rw [hstarted, bne_iff_ne.mpr hfaulted, decide_eq_true hage]; rfl)]

end

/-- Settles O58: a place's check, and the two ages at which a scrub begins. -/
theorem scrubRuns : Obligations.ScrubRuns := by
  unfold Obligations.ScrubRuns
  intro s b
  refine ⟨fun p r hwork hplace => ⟨fun hgood hhold hcursor => ?good, fun hbad h => ?bad⟩, fun hrunning hidle hfree hage => ?half,
    fun hstarted => ⟨fun hfaulted hage => ?due, fun hfaulted => ?ignored⟩⟩
  case good =>
    have hexec := exec_scrubCheckCompletion hwork
    rw [scrubChecked_good hplace hgood, scrubPast_goes hhold hcursor] at hexec
    obtain ⟨hshape, hothers, -⟩ := scrubOn_shape s b (p + 1) (stepEnd p)
    exact ⟨_, hexec, hshape, hothers, scrubOn_passEnd, fun x => scrubOn_check⟩
  case bad =>
    have hexec := exec_scrubCheckCompletion hwork
    rw [scrubChecked_faults hplace hbad h] at hexec
    exact ⟨_, hexec, enterFaulted_facts s b⟩
  case half =>
    obtain ⟨hshape, hothers, -, hstate⟩ := beginScrub_shape s b
    refine ⟨s.beginScrub b, ?_, hshape, hstate, hothers⟩
    have hhalf : s.scrubHalf b = true := decide_eq_true hage
    show execScrubAgeHalf b s = _
    unfold execScrubAgeHalf
    rw [if_pos (by rw [hrunning, mayScrub_of_unoccupied hidle hfree, hhalf]; rfl)]
  case due =>
    refine ⟨s.scrubBecomesDue b, exec_scrubAgeDue hstarted hfaulted hage, ?_⟩
    have hon : BankOnly false b s (s.banking b (fun k => { k with scrubDue := true })) := banking_on (.refl _ _ _) _ (fun _ => rfl)
    have hbank := banking_bank s b (fun k => { k with scrubDue := true })
    rw [scrubBecomesDue_eq]
    by_cases hidle : (s.bank b).state = .idle
    · obtain ⟨hbanks, -, hdue, hstate⟩ := beginScrub_shape (s.banking b (fun k => { k with scrubDue := true })) b
      obtain ⟨banks, hshape⟩ : ∃ banks, (s.banking b (fun k => { k with scrubDue := true })).beginScrub b =
          { s.banking b (fun k => { k with scrubDue := true }) with banks := banks } := ⟨_, hbanks⟩
      rw [if_pos hidle, if_pos hidle]
      exact ⟨by rw [hshape]; rfl, hdue.trans (by rw [hbank]), hstate, fun h => absurd hidle h, (beginScrub_on hon).others⟩
    · rw [if_neg hidle, if_neg hidle, hbank]
      exact ⟨rfl, rfl, rfl, fun _ => rfl, hon.others⟩
  case ignored =>
    show execScrubAgeDue b s = _
    unfold execScrubAgeDue
    rw [if_neg (by rw [hfaulted]; simp)]

end Sys2Proof.Machine

/-! # Repairs -/

namespace Sys2Proof.Machine

section

variable {s : State} {b : BankId} {r : RepairRun}

/-! ## Reads (R52, R53) -/

theorem exec_repairReadComplete (h : (s.bank b).work = .repair r) :
    exec (.repairReadComplete b) s = .next (s.repairReadDone b r).settle := by
  show execRepairReadComplete b s = _
  unfold execRepairReadComplete
  simp only [h]

theorem repairRead_gone {d : Domain} {g : Gen} (h : s.entry d g = none) (i : Nat) : s.repairRead d g i = (.readFail, s) := by
  unfold State.repairRead
  rw [h]

variable {i : Nat} {left : List Nat} {g : Gen} {ops : List Op} {e : ManifestEntry} {bytes : List Byte}

/-- R52: with segments left a read of the added generation goes on. -/
theorem repairReadDone_collect {j : Nat} (hphase : r.phase = .collect (i :: j :: left) ops)
    (hread : s.repairRead (s.bankDomain b) r.added i = (.segment bytes, s)) (hentry : s.entry (s.bankDomain b) r.added = some e) :
    s.repairReadDone b r = s.repairing b
      { r with phase := .collect (j :: left) (ops ++ opsOn s.supply.config.nB (s.bankDomain b) e.manifest.kind b r.key bytes) } := by
  unfold State.repairReadDone
  dsimp only
  rw [hphase]
  dsimp only
  rw [hread]
  dsimp only
  rw [kindOf_entry hentry]

/-- R52: an added generation that has left the pool ends the repair. -/
theorem repairReadDone_gone (hphase : r.phase = .collect (i :: left) ops) (hentry : s.entry (s.bankDomain b) r.added = none) :
    s.repairReadDone b r = s.enterFaulted b := by
  unfold State.repairReadDone
  dsimp only
  rw [hphase]
  dsimp only
  rw [repairRead_gone hentry]

/-- R53: the version is found. -/
theorem repairFound_rewrites {v : Payload} (h : r.version = some v) (removed : Option Gen) : s.repairFound b r removed =
    s.repairing b { r with phase := .rewrite { key := r.key, payload := v, added := r.added, removed := removed, check := 0 } } := by
  unfold State.repairFound
  rw [h]

/-- R53: an op on the key in a later generation gives the version's removed generation. -/
theorem repairReadDone_walk (hphase : r.phase = .walk g (i :: left))
    (hread : s.repairRead (s.bankDomain b) g i = (.segment bytes, s)) (hentry : s.entry (s.bankDomain b) g = some e)
    (hops : opsOn s.supply.config.nB (s.bankDomain b) e.manifest.kind b r.key bytes ≠ []) :
    s.repairReadDone b r = s.repairFound b r (some g) := by
  unfold State.repairReadDone
  dsimp only
  rw [hphase]
  dsimp only
  rw [hread]
  dsimp only
  rw [kindOf_entry hentry]
  cases hlist : opsOn s.supply.config.nB (s.bankDomain b) e.manifest.kind b r.key bytes with
  | nil => exact absurd hlist hops
  | cons op rest => rfl

/-- R53: the open generation without an op on the key leaves the version in force. -/
theorem repairReadDone_openCheck (hphase : r.phase = .openCheck g [i])
    (hread : s.repairRead (s.bankDomain b) g i = (.segment bytes, s)) (hentry : s.entry (s.bankDomain b) g = some e)
    (hops : opsOn s.supply.config.nB (s.bankDomain b) e.manifest.kind b r.key bytes = []) :
    s.repairReadDone b r = s.repairFound b r none := by
  unfold State.repairReadDone
  dsimp only
  rw [hphase]
  dsimp only
  rw [hread]
  dsimp only
  rw [kindOf_entry hentry, hops]

/-! ## The repair's write (R54) -/

theorem exec_repairCompletion (h : (s.bank b).work = .repair r) :
    exec (.repairCompletion b) s = .next (s.repairDone b r).settle := by
  show execRepairCompletion b s = _
  unfold execRepairCompletion
  simp only [h]

/-- The release of a repair's pins changes the pool alone. -/
theorem unpinRepair_shape (s : State) (b : BankId) : ∃ pool, s.unpinRepair b = { s with pool := pool } := by
  have hfold : ∀ (l : List Pin) (t : State), ∃ pool, l.foldl (fun s p => s.dropUnpinned p.domain p.gen) t = { t with pool := pool } := by
    intro l
    induction l with
    | nil => exact fun t => ⟨t.pool, rfl⟩
    | cons p l ih =>
      intro t
      obtain ⟨pool, h⟩ := ih (t.dropUnpinned p.domain p.gen)
      exact ⟨pool, by rw [List.foldl_cons, h, dropUnpinned_eq]⟩
  unfold State.unpinRepair
  extract_lets mine old unpinned dropped
  obtain ⟨pool, h⟩ := hfold mine unpinned
  have hdropped : dropped = { unpinned with pool := pool } := h
  rw [hdropped]
  split
  · exact ⟨_, rfl⟩
  · exact ⟨_, rfl⟩

/-- R54: the state in which the repair's write has committed, before the scrub or full scan goes on. -/
def State.repaired (s : State) (b : BankId) (r : RepairRun) : State :=
  (((s.repairWrite b r).countRepair).raise .scrubRepair).unpinRepair b

theorem writing_of_phase (h : r.phase = .free ∨ ∃ rec, r.phase = .rewrite rec) : r.writing = true := by
  unfold RepairRun.writing
  rcases h with h | ⟨rec, h⟩ <;> rw [h]

theorem repairDone_eq (h : r.writing = true) : s.repairDone b r = (s.repaired b r).pastRepair b r := if_pos h

theorem repairWrite_port (s : State) (b : BankId) (r : RepairRun) : (s.repairWrite b r).port = s.port := by
  unfold State.repairWrite
  split <;> rfl

theorem repairWrite_supply (s : State) (b : BankId) (r : RepairRun) : (s.repairWrite b r).supply = s.supply := by
  unfold State.repairWrite
  split <;> rfl

theorem repairWrite_hold (s : State) (b : BankId) (r : RepairRun) : ((s.repairWrite b r).bank b).hold = (s.bank b).hold := by
  unfold State.repairWrite
  split
  · rfl
  · rw [freePlace_bank]
  · rfl

/-- A repair's write counts the repair, raises SCRUB-REPAIR and leaves no pin of the repair. -/
theorem repaired_facts (s : State) (b : BankId) (r : RepairRun) :
    (s.repaired b r).port.counters.repairs = upOne s.port.counters.repairs ∧ (s.repaired b r).port.flags.getLsbD 9 = true ∧
    (∀ x ∈ (s.repaired b r).pool.pins, x.holder ≠ .repair b) ∧ ((s.repaired b r).bank b).hold = (s.bank b).hold ∧
    (s.repaired b r).store = (s.repairWrite b r).store ∧ (s.repaired b r).supply = (s.repairWrite b r).supply := by
  obtain ⟨-, hpins⟩ := unpinRepair_facts (((s.repairWrite b r).countRepair).raise .scrubRepair) b
  obtain ⟨pool, hshape⟩ := unpinRepair_shape (((s.repairWrite b r).countRepair).raise .scrubRepair) b
  refine ⟨?_, ?_, hpins, ?_, ?_, ?_⟩
  · unfold State.repaired
    rw [hshape]
    show bumpBy 1 (s.repairWrite b r).port.counters.repairs = _
    rw [repairWrite_port]
    rfl
  · unfold State.repaired
    rw [hshape]
    show ((s.repairWrite b r).countRepair.port.flags ||| Notice.scrubRepair.mask).getLsbD 9 = true
    rw [BitVec.getLsbD_or, Bool.or_eq_true]
    exact .inr (by decide)
  · unfold State.repaired
    rw [hshape]
    exact repairWrite_hold s b r
  · unfold State.repaired
    rw [hshape]
    rfl
  · unfold State.repaired
    rw [hshape]
    rfl

/-- What goes on past the place of a repair neither counts one nor lowers a flag; a full scan may take the pin of its next repair. -/
theorem pastRepair_port {w : State} (hpins : ∀ x ∈ w.pool.pins, x.holder ≠ .repair b) :
    (w.pastRepair b r).port.counters = w.port.counters ∧
    (∀ n, w.port.flags.getLsbD n = true → (w.pastRepair b r).port.flags.getLsbD n = true) ∧
    (r.fullScan = false ∨ (w.bank b).hold ≠ .none → ∀ x ∈ (w.pastRepair b r).pool.pins, x.holder ≠ .repair b) ∧
    (r.fullScan = true → ∀ x ∈ (w.pastRepair b r).pool.pins, x.holder = .repair b →
      ∃ q : RepairRun, ((w.pastRepair b r).bank b).work = .repair q ∧ r.place < q.place ∧ q.fullScan = true ∧
        x.domain = w.bankDomain b ∧ x.gen = q.added) := by
  unfold State.pastRepair
  by_cases hscan : r.fullScan = true
  · rw [if_pos hscan]
    by_cases hhold : (w.bank b).hold = .none
    · obtain ⟨hcounters, hflags, hpin⟩ := recoverFrom_port w b (r.place + 1)
      rw [if_neg (by rw [hhold]; decide)]
      exact ⟨hcounters, hflags, fun h => h.elim (fun h => absurd hscan (by rw [h]; decide)) (fun h => absurd hhold h), fun _ => hpin hpins⟩
    · rw [if_pos (bne_iff_ne.mpr hhold), goHeld_port, goHeld_pool]
      exact ⟨rfl, fun _ h => h, fun _ => hpins, fun _ x hx h => absurd h (hpins x hx)⟩
  · obtain ⟨hport, hpool⟩ := scrubPast_port w b r.place
    rw [if_neg hscan, hport, hpool]
    exact ⟨rfl, fun _ h => h, fun _ => hpins, fun h => absurd h hscan⟩

theorem repairDone_places (h : r.writing = true) : (s.repairDone b r).places b = (s.repairWrite b r).places b := by
  obtain ⟨-, -, -, -, hstore, -⟩ := repaired_facts s b r
  rw [repairDone_eq h]
  refine (places_of_store ((pastRepair_on (.refl false b _) r).places rfl) b).trans ?_
  exact places_of_store (congrArg (fun m => m.places) hstore) b

theorem repairWrite_rewrite {rec : Record} (h : r.phase = .rewrite rec) : s.repairWrite b r = s.writeRecord b r.place rec := by
  unfold State.repairWrite
  rw [h]

theorem repairWrite_free (h : r.phase = .free) : s.repairWrite b r = s.freePlace b r.place := by
  unfold State.repairWrite
  rw [h]

/-- R54: the write touches its place alone. -/
theorem repairWrite_others {q : Nat} (hq : q ≠ r.place) : placeGet q ((s.repairWrite b r).places b) = placeGet q (s.places b) := by
  cases hphase : r.phase with
  | rewrite rec =>
    rw [repairWrite_rewrite hphase, State.writeRecord, setPlaces_places]
    unfold placeWrite
    split
    · exact placeGet_set_other _ _ hq _ _
    · rfl
  | free =>
    rw [repairWrite_free hphase, freePlace_places]
    exact placeGet_free_other _ _ hq _
  | _ =>
    unfold State.repairWrite
    rw [hphase]

/-! ## A full scan at the pool's restoration (R59) -/

theorem exec_fullScanResume {p : Nat} (h : (s.bank b).work = .recoverWait p) :
    exec (.fullScanResume b) s = .next (if s.pool.restored then (s.recoverFrom b p).settle else s) := by
  show execFullScanResume b s = _
  unfold execFullScanResume
  simp only [h]

theorem markFailing_none (s : State) (b : BankId) : s.markFailing b [] = s := by
  have hself : s.banks.set b ((s.bank b).markFailing []) = s.banks := by
    rw [markFailing_nil]
    exact Vector.set_getElem_self _
  show { s with banks := s.banks.set b ((s.bank b).markFailing []) } = s
  rw [hself]

/-- A full scan takes up the failing record at which it waits. -/
theorem recoverFrom_failing {p : Nat} {rec : Record} (hrestored : s.pool.restored = true) (hscan : (s.bank b).fullScan = true)
    (hwf : Memory.wf 65536 (s.places b) = true) (hplace : placeGet p (s.places b) = some rec) (hbad : rec.good = false)
    (hadded : rec.added ≤ (s.bank b).header.applied) : s.recoverFrom b p = s.beginRepair b p true := by
  obtain ⟨rest, hrest⟩ : ∃ rest, placesIn p Config.bankPlaces (s.places b) = (p, rec) :: rest := by
    have hhead := placesIn_head _ _ hwf hplace
    cases hlist : placesIn p 65536 (s.places b) with
    | nil => rw [hlist] at hhead; cases hhead
    | cons x rest =>
      rw [hlist] at hhead
      cases hhead
      exact ⟨rest, hlist⟩
  have hundoes : undoes (s.bank b).header.applied rec = false := by
    unfold undoes
    rw [hbad, decide_eq_false (Nat.not_lt.mpr hadded)]
    rfl
  unfold State.recoverFrom State.recoverOn
  dsimp only
  rw [hrest]
  simp only [List.takeWhile_cons, List.dropWhile_cons, hundoes, hbad, hscan, Bool.not_false, Bool.not_true, Bool.or_self, Bool.and_false,
    Bool.false_eq_true, if_false, List.filter_nil, List.map_nil, markFailing_none, List.head?_cons, hrestored, if_true]

theorem beginRepair_faults {p : Nat} {rec : Record} (hplace : placeGet p (s.places b) = some rec)
    (h : s.servable (s.bankDomain b) rec.added = false) : s.beginRepair b p true = s.enterFaulted b := by
  unfold State.beginRepair
  rw [hplace]
  exact if_pos (by rw [h]; simp)

/-- R52: a repair of a servable generation pins it and reads its segments for this bank. -/
theorem beginRepair_reads {p : Nat} {rec : Record} (hplace : placeGet p (s.places b) = some rec)
    (hadded : rec.added ≤ (s.bank b).header.applied) (hservable : s.servable (s.bankDomain b) rec.added = true)
    (hindices : s.indicesNaming (s.bankDomain b) rec.added b ≠ []) : s.beginRepair b p true =
      (s.pin (.repair b) (s.bankDomain b) rec.added).repairing b
        { place := p, key := rec.key, added := rec.added, version := none, fullScan := true
          phase := .collect (s.indicesNaming (s.bankDomain b) rec.added b) [] } := by
  have htest : ¬ (decide ((s.bank b).header.applied < rec.added) || !s.servable (s.bankDomain b) rec.added) = true := by
    rw [hservable, decide_eq_false (Nat.not_lt.mpr hadded)]
    decide
  have hpinned : (s.pin (.repair b) (s.bankDomain b) rec.added).indicesNaming (s.bankDomain b) rec.added b =
      s.indicesNaming (s.bankDomain b) rec.added b := rfl
  unfold State.beginRepair
  rw [hplace]
  dsimp only
  rw [if_neg htest, hpinned]
  cases hlist : s.indicesNaming (s.bankDomain b) rec.added b with
  | nil => exact absurd hlist hindices
  | cons i left => rfl

end

/-- Settles O59: the reads by their phase, the write and what goes on past it, and the full scan that waited for the pool. -/
theorem repairRuns : Obligations.RepairRuns := by
  unfold Obligations.RepairRuns
  intro s b
  refine ⟨fun r hwork => ⟨fun i j left ops e pc hphase hentry hpresent hcell hgood => ?collect, fun i left ops hphase hentry => ?gone,
      fun g i left v e pc hversion hentry hpresent hcell hgood => ⟨fun hphase hops => ?walk, fun hphase hops => ?openCheck⟩,
      fun hphase => ?write⟩,
    fun p hwork => ⟨fun hrestored => ?waits, fun hrestored hscan hwf r hplace hbad hadded => ⟨fun hservable => ?faults,
      fun hservable hindices => ?repairs⟩⟩⟩
  case collect =>
    have hexec := exec_repairReadComplete hwork
    rw [repairReadDone_collect hphase (repairRead_segment hentry hpresent hcell hgood) hentry] at hexec
    exact ⟨_, hexec, rfl, working_bank _ _ _, (repairing_on (.refl false b s) _).others⟩
  case gone =>
    have hexec := exec_repairReadComplete hwork
    rw [repairReadDone_gone hphase hentry] at hexec
    obtain ⟨hstate, hmark, -, -, -, hplaces, -⟩ := enterFaulted_facts s b
    exact ⟨_, hexec, hstate, hmark, hplaces⟩
  case walk =>
    have hexec := exec_repairReadComplete hwork
    rw [repairReadDone_walk hphase (repairRead_segment hentry hpresent hcell hgood) hentry hops, repairFound_rewrites hversion] at hexec
    exact ⟨_, hexec, congrArg Bank.work (working_bank _ _ _)⟩
  case openCheck =>
    have hexec := exec_repairReadComplete hwork
    rw [repairReadDone_openCheck hphase (repairRead_segment hentry hpresent hcell hgood) hentry hops, repairFound_rewrites hversion] at hexec
    exact ⟨_, hexec, congrArg Bank.work (working_bank _ _ _)⟩
  case write =>
    have hwriting := writing_of_phase hphase
    have hplaces := repairDone_places (s := s) (b := b) hwriting
    have hall := repairDone_on (.refl true b s) rfl r
    obtain ⟨hrepairs, hflag, hpins, hhold, -, hsupply⟩ := repaired_facts s b r
    obtain ⟨hcounters, hflags, hnone, hnext⟩ := pastRepair_port (r := r) hpins
    have hdomain : (s.repaired b r).bankDomain b = s.bankDomain b := by
      unfold State.bankDomain
      rw [hsupply, repairWrite_supply]
    rw [hhold] at hnone
    rw [hdomain] at hnext
    rw [← repairDone_eq hwriting] at hcounters hflags hnone hnext
    refine ⟨s.repairDone b r, exec_repairCompletion hwork, by rw [hcounters]; exact hrepairs, hflags 9 hflag, hnone, hnext,
      fun rec hrec hplace => ?_, fun hfree hwf => ?_, fun q hq => ?_, fun e he => ⟨hall.elsewhere e he, hall.others e he⟩⟩
    · rw [hplaces, repairWrite_rewrite hrec, writeRecord_places hplace]
      exact placeGet_set _ _ _
    · rw [hplaces, repairWrite_free hfree, freePlace_places]
      exact placeGet_free _ hwf
    · rw [hplaces]
      exact repairWrite_others hq
  case waits =>
    rw [exec_fullScanResume hwork, hrestored, if_neg Bool.false_ne_true]
  case faults =>
    have hexec := exec_fullScanResume hwork
    rw [if_pos hrestored, recoverFrom_failing hrestored hscan hwf hplace hbad hadded, beginRepair_faults hplace hservable] at hexec
    obtain ⟨hstate, hmark, -, -, -, hplaces, -⟩ := enterFaulted_facts s b
    exact ⟨_, hexec, hstate, hmark, hplaces⟩
  case repairs =>
    have hexec := exec_fullScanResume hwork
    rw [if_pos hrestored, recoverFrom_failing hrestored hscan hwf hplace hbad hadded,
      beginRepair_reads hplace hadded hservable hindices] at hexec
    exact ⟨_, hexec, congrArg Bank.work (working_bank _ _ _), rfl⟩

end Sys2Proof.Machine

/-! # Apply reads -/

namespace Sys2Proof.Machine

section

variable {s : State} {b : BankId} {r : ApplyRequest} {k : Nat}

theorem exec_applyReadComplete (h : (s.bank b).work = .applyRead r) :
    exec (.applyReadComplete b) s = .next (s.applyReadDone b r).settle := by
  show execApplyReadComplete b s = _
  unfold execApplyReadComplete
  simp only [h]

/-! ## The pool's answer (R73) -/

theorem applyRead_evicted {d : Domain} {g : Gen} {drained : Bool}
    (h : s.entry d g = none ∨ drained = true ∧ s.servable d g = false) : s.applyRead d g k drained = (.evicted, s) := by
  unfold State.applyRead
  cases hentry : s.entry d g with
  | none => rfl
  | some e =>
    obtain ⟨hdrained, hservable⟩ := h.resolve_left (by rw [hentry]; nofun)
    unfold State.servable at hservable
    rw [hentry] at hservable
    have hgone : e.servable = false := hservable
    exact if_pos (by rw [hdrained, hgone]; rfl)

variable {e : ManifestEntry} {d : Domain} {g : Gen} {drained : Bool}

/-- A read that the pool does not answer EVICTED reads the index when the entry has it. -/
theorem applyRead_entry (hentry : s.entry d g = some e) (hservable : drained = true → e.servable = true) :
    s.applyRead d g k drained = if e.present.contains k then s.readCell e k else (.readFail, s) := by
  have htest : ¬ (drained && !e.servable) = true := by
    cases drained with
    | true => rw [hservable rfl]; decide
    | false => exact Bool.false_ne_true
  unfold State.applyRead
  rw [hentry]
  exact if_neg htest

theorem readCell_some {pc : Nat × PoolCell} (hcell : s.cellOf e k = some pc) : s.readCell e k =
    if segCrcGood pc.2.bytes then (.segment pc.2.bytes, s) else (.readFail, s.readFailure e k) := by
  unfold State.readCell
  rw [hcell]

theorem entry_names (h : s.entry d g = some e) : e.manifest.domain = d ∧ e.manifest.gen = g := by
  have hfound := List.find?_some h
  simp only [Bool.and_eq_true, beq_iff_eq] at hfound
  exact hfound

/-- R73: the GAU is told of the index that a slot's entry has lost. -/
theorem readFailure_tells (hentry : s.entry d g = some e) (hpinned : s.slotPinned d g) :
    .indexLost d g k ∈ (s.readFailure e k).todo.mail := by
  obtain ⟨hdomain, hgen⟩ := entry_names hentry
  obtain ⟨p, hp, hpd, hpg, i, hholder⟩ := hpinned
  unfold State.readFailure State.tellLost
  rw [if_pos, hdomain, hgen]
  · exact List.mem_append_right _ (List.mem_singleton_self _)
  · refine List.any_eq_true.mpr ⟨p, hp, ?_⟩
    rw [hpd, hpg, hdomain, hgen, hholder]
    simp

/-! ## What the bank makes of it (R31, R93) -/

/-- A request that ends without a report leaves the bank to its next work. -/
theorem applyReadEnded_evicted (h : (s.bank b).state ≠ .held) : s.applyReadEnded b r false = s.nextWork b := by
  unfold State.applyReadEnded
  dsimp only
  exact if_neg (by simpa using h)

/-- R93: a failed read is reported, and the bank goes on without its waiting request. -/
theorem applyReadEnded_failed (h : (s.bank b).state ≠ .held) : s.applyReadEnded b r true =
    ((s.report b (.readFail r.gen r.segment r.cursor)).banking b (fun k => { k with waiting := none })).nextWork b := by
  unfold State.applyReadEnded
  dsimp only
  rw [if_pos rfl]
  refine if_neg ?_
  rw [banking_bank]
  exact fun he => h (eq_of_beq he)

/-- What a failed read reports, and that it leaves the store and the pool. -/
theorem applyReadEnded_reports (h : (s.bank b).state ≠ .held) :
    let u := s.applyReadEnded b r true
    .bankReport b (.readFail r.gen r.segment r.cursor) ∈ u.todo.mail ∧ (∀ m ∈ s.todo.mail, m ∈ u.todo.mail) ∧
    u.store.places = s.store.places ∧ u.store.index = s.store.index ∧ u.pool = s.pool := by
  have hplaces := (applyReadEnded_on (.refl false b s) r true).places rfl
  dsimp only
  rw [applyReadEnded_failed h] at hplaces ⊢
  obtain ⟨hpool, hindex⟩ := nextWork_pool
    ((s.report b (.readFail r.gen r.segment r.cursor)).banking b (fun k => { k with waiting := none })) b
  exact ⟨nextWork_mail (List.mem_append_right _ (List.mem_singleton_self _)),
    fun m hm => nextWork_mail (List.mem_append_left _ hm), hplaces, hindex, hpool⟩

theorem applyReadDone_evicted (h : s.applyRead (s.bankDomain b) r.gen (r.segment.getD 0) r.drained = (.evicted, s)) :
    s.applyReadDone b r = s.applyReadEnded b r false := by
  unfold State.applyReadDone
  rw [h]

theorem applyReadDone_failed {t : State} (h : s.applyRead (s.bankDomain b) r.gen (r.segment.getD 0) r.drained = (.readFail, t)) :
    s.applyReadDone b r = t.applyReadEnded b r true := by
  unfold State.applyReadDone
  rw [h]

/-- The apply of a segment's ops from the request's cursor on. -/
def runOf (r : ApplyRequest) (bytes : List Byte) : ApplyRun :=
  { request := r, ops := (segOps bytes).getD [], cursor := r.cursor, endDone := false }

theorem applyReadDone_segment {bytes : List Byte}
    (h : s.applyRead (s.bankDomain b) r.gen (r.segment.getD 0) r.drained = (.segment bytes, s)) : s.applyReadDone b r =
    if (s.bank b).state = .held then s.working b (.applyPaused (runOf r bytes)) else s.applyResume b (runOf r bytes) := by
  unfold State.applyReadDone
  rw [h]
  exact if_congr beq_iff_eq rfl rfl

/-! ## The first write (R32, R36) -/

variable {run : ApplyRun} {op : Op} {rest : List Op} {pl : Payload}

/-- R36: a LIST or PUT that finds no free place stops the apply. -/
theorem applyOn_full (hformed : op.wellFormed (s.bankDomain b) run.request.kind = true)
    (hplaced : op.wellPlaced s.supply.config.nB (s.bankDomain b) b = true) (hpl : op.payload = some pl)
    (hcount : ((s.markFailing b (failingPlaces (s.places b) op.key)).bank b).header.freeCount = 0) :
    s.applyOn b run (op :: rest) = (s.markFailing b (failingPlaces (s.places b) op.key)).bankFull b run := by
  simp only [State.applyOn, hformed, hplaced, hpl, Bool.not_true, Bool.false_eq_true, if_false, hcount, if_true]

/-- R32: a LIST or PUT without a current record goes on to its adding write. -/
theorem applyOn_adds (hformed : op.wellFormed (s.bankDomain b) run.request.kind = true)
    (hplaced : op.wellPlaced s.supply.config.nB (s.bankDomain b) b = true) (hpl : op.payload = some pl)
    (hcount : ((s.markFailing b (failingPlaces (s.places b) op.key)).bank b).header.freeCount ≠ 0)
    (hcurrent : currentPlace (s.places b) op.key (applyFloor (s.bank b) run.request) = none) :
    s.applyOn b run (op :: rest) = (s.markFailing b (failingPlaces (s.places b) op.key)).working b (.applyAdd run) := by
  simp only [State.applyOn, hformed, hplaced, hpl, Bool.not_true, Bool.false_eq_true, if_false, hcount, hcurrent]

/-- R32: a LIST or PUT with a current record goes on to its ending write. -/
theorem applyOn_ends {p : Nat} (hformed : op.wellFormed (s.bankDomain b) run.request.kind = true)
    (hplaced : op.wellPlaced s.supply.config.nB (s.bankDomain b) b = true) (hpl : op.payload = some pl)
    (hcount : ((s.markFailing b (failingPlaces (s.places b) op.key)).bank b).header.freeCount ≠ 0)
    (hcurrent : currentPlace (s.places b) op.key (applyFloor (s.bank b) run.request) = some p) :
    s.applyOn b run (op :: rest) = (s.markFailing b (failingPlaces (s.places b) op.key)).working b (.applyEnd run p) := by
  simp only [State.applyOn, hformed, hplaced, hpl, Bool.not_true, Bool.false_eq_true, if_false, hcount, hcurrent]

theorem markFailing_bank (s : State) (b : BankId) (ps : List Nat) : (s.markFailing b ps).bank b = (s.bank b).markFailing ps :=
  banking_bank _ _ _

/-- R36: an apply that finds no free place is reported, and a compaction begins. -/
theorem bankFull_facts (s : State) (b : BankId) (run : ApplyRun) :
    .bankReport b (.bankFull run.request.gen run.request.segment run.cursor) ∈ (s.bankFull b run).todo.mail ∧
    ((s.bank b).hold = .none → ((s.bankFull b run).bank b).state = .compacting) := by
  unfold State.bankFull
  dsimp only
  generalize hstopped : (s.report b (.bankFull run.request.gen run.request.segment run.cursor)).banking b
    (fun k => { k with waiting := none, compactWanted := true, work := .none }) = t
  have hmail : .bankReport b (.bankFull run.request.gen run.request.segment run.cursor) ∈ t.todo.mail := by
    rw [← hstopped]
    exact List.mem_append_right _ (List.mem_singleton_self _)
  have hhold : (t.bank b).hold = (s.bank b).hold := by
    rw [← hstopped, banking_bank]
    rfl
  refine ⟨?_, fun h => ?_⟩
  · split
    · exact hmail
    · rw [beginCompaction_todo]
      exact hmail
  · rw [hhold, h, if_neg (by decide)]
    unfold State.beginCompaction
    rw [compactOn_state, banking_bank]

end

/-- Settles O60: by the pool's answer, and for a good segment by its first op's current record and the free count. -/
theorem applyReadBegins : Obligations.ApplyReadBegins := by
  unfold Obligations.ApplyReadBegins
  intro s b r k hwork hsegment
  have hexec := exec_applyReadComplete hwork
  have hindex : r.segment.getD 0 = k := by rw [hsegment]; rfl
  refine ⟨fun hgone hheld hfree hage => ?evicted, fun e hentry hpresent hservable hheld => ?missing,
    fun e pc hentry hpresent hservable hcell => ⟨fun hbad hheld => ?fails, fun hgood => ⟨fun hheld => ?paused,
      fun ops rest op pl hheld hops hrest hformed hplaced hpl => ?goes⟩⟩⟩
  case evicted =>
    rw [applyReadDone_evicted (applyRead_evicted hgone), applyReadEnded_evicted hheld] at hexec
    have hidle := nextWork_idle hfree hage
    refine ⟨_, hexec, ?_, ?_, (nextWork_on (.refl false b s)).others⟩
    · rw [hidle]
      rfl
    · rw [hidle, banking_bank, banking_bank]
  case missing =>
    have hread : s.applyRead (s.bankDomain b) r.gen (r.segment.getD 0) r.drained = (.readFail, s) := by
      rw [applyRead_entry hentry hservable, hindex, if_neg (by simpa using hpresent)]
    rw [applyReadDone_failed hread] at hexec
    obtain ⟨hreport, -, hplaces, hstore, hpool⟩ := applyReadEnded_reports (r := r) hheld
    exact ⟨_, hexec, hreport, hplaces, hstore, hpool⟩
  case fails =>
    have hread : s.applyRead (s.bankDomain b) r.gen (r.segment.getD 0) r.drained = (.readFail, s.readFailure e k) := by
      rw [applyRead_entry hentry hservable, hindex, if_pos (by simpa using hpresent), readCell_some hcell, hbad,
        if_neg Bool.false_ne_true]
    rw [applyReadDone_failed hread] at hexec
    obtain ⟨todo, hshape⟩ : ∃ todo, s.readFailure e k = { s with
        pool := { s.pool with indexQueue := s.pool.indexQueue ++ [.lost e.manifest.domain e.manifest.gen e.stamp k] }, todo := todo } :=
      ⟨_, readFailure_eq s e k⟩
    obtain ⟨hdomain, hgen⟩ := entry_names hentry
    rw [hdomain, hgen] at hshape
    obtain ⟨hreport, hmail, hplaces, hstore, hpool⟩ :=
      applyReadEnded_reports (s := s.readFailure e k) (r := r) (b := b) (by rw [hshape]; exact hheld)
    exact ⟨_, hexec, hreport, fun hpinned => hmail _ (readFailure_tells hentry hpinned), hplaces.trans (by rw [hshape]),
      hstore.trans (by rw [hshape]), hpool.trans (by rw [hshape])⟩
  case paused =>
    have hread : s.applyRead (s.bankDomain b) r.gen (r.segment.getD 0) r.drained = (.segment pc.2.bytes, s) := by
      rw [applyRead_entry hentry hservable, hindex, if_pos (by simpa using hpresent), readCell_some hcell, if_pos hgood]
    rw [applyReadDone_segment hread, if_pos hheld] at hexec
    exact ⟨_, hexec, working_bank _ _ _⟩
  case goes =>
    have hread : s.applyRead (s.bankDomain b) r.gen (r.segment.getD 0) r.drained = (.segment pc.2.bytes, s) := by
      rw [applyRead_entry hentry hservable, hindex, if_pos (by simpa using hpresent), readCell_some hcell, if_pos hgood]
    have hrun : runOf r pc.2.bytes = { request := r, ops := ops, cursor := r.cursor, endDone := false } := by
      unfold runOf
      rw [hops]
      rfl
    have hplaces := (applyReadDone_on (.refl false b s) r).places rfl
    have hdone := applyReadDone_segment hread
    rw [if_neg hheld, hrun, State.applyResume, if_neg Bool.false_ne_true] at hdone
    dsimp only at hdone
    rw [hrest] at hdone
    obtain ⟨hroom, hhold⟩ := markFailing_room (s.bank b) (failingPlaces (s.places b) op.key)
    rw [← markFailing_bank] at hroom
    refine ⟨_, hexec, hplaces, fun hcount hcurrent => ?_, fun p hcount hcurrent => ?_, fun hcount => ?_⟩
    · rw [hdone, applyOn_adds hformed hplaced hpl (by rw [hroom]; exact hcount) hcurrent]
      exact congrArg Bank.work (working_bank _ _ _)
    · rw [hdone, applyOn_ends hformed hplaced hpl (by rw [hroom]; exact hcount) hcurrent]
      exact congrArg Bank.work (working_bank _ _ _)
    · rw [hdone, applyOn_full hformed hplaced hpl (by rw [hroom]; exact hcount)]
      obtain ⟨hreport, hcompacts⟩ := bankFull_facts (s.markFailing b (failingPlaces (s.places b) op.key)) b
        { request := r, ops := ops, cursor := r.cursor, endDone := false }
      exact ⟨hreport, fun h => hcompacts (by rw [markFailing_bank, hhold]; exact h)⟩

end Sys2Proof.Machine

/-! # What a bank does next -/

namespace Sys2Proof.Machine

section

variable {s : State} {b : BankId} {r : ApplyRequest}

/-! ## A scrub and a compaction begin -/

/-- A check failure outside the scrub touches the scrub due flag, the work and the cursor alone (R51). -/
theorem markFailing_shape (k : Bank) (ps : List Nat) : ∃ due work cursor, k.markFailing ps =
    { k with scrubDue := due, work := work, header := { k.header with scrubCursor := cursor } } := by
  unfold Bank.markFailing
  split
  · exact ⟨_, _, _, rfl⟩
  · split
    · exact ⟨_, _, _, rfl⟩
    · exact ⟨_, _, _, rfl⟩

theorem scrubOn_bank (s : State) (b : BankId) (next limit : Nat) : ∃ work cursor, (s.scrubOn b next limit).bank b =
    { s.bank b with work := work, header := { (s.bank b).header with scrubCursor := cursor } } := by
  cases h : (placesIn next limit (s.places b)).head? with
  | none => exact ⟨_, _, scrubOn_passEnd h⟩
  | some x => exact ⟨_, _, scrubOn_check h⟩

theorem beginScrub_bank (s : State) (b : BankId) : ∃ work cursor, (s.beginScrub b).bank b =
    { s.bank b with state := .scrubbing, work := work, header := { (s.bank b).header with scrubCursor := cursor } } := by
  obtain ⟨work, cursor, h⟩ := scrubOn_bank (s.banking b (fun k => { k with state := .scrubbing })) b
    (s.bank b).header.scrubCursor (stepEnd (s.bank b).header.scrubCursor)
  rw [banking_bank] at h
  exact ⟨work, cursor, h⟩

theorem beginScrub_store (s : State) (b : BankId) : (s.beginScrub b).store = s.store := by
  obtain ⟨banks, h⟩ : ∃ banks, s.beginScrub b = { s with banks := banks } := ⟨_, (beginScrub_shape s b).1⟩
  rw [h]

/-- A compaction that no step bounds goes on to a dead place or to its header write. -/
theorem compactOn_bank (s : State) (b : BankId) (c : CompactRun) : ∃ ps work,
    (s.compactOn b c Config.bankPlaces).bank b = { (s.bank b).markFailing ps with work := work } ∧
    (work = .compactHeader c ∨ ∃ p, work = .compactFree c p) ∧ (s.compactOn b c Config.bankPlaces).store = s.store := by
  unfold State.compactOn
  dsimp only
  split
  · exact ⟨_, _, (working_bank _ _ _).trans (by rw [State.markFailing, banking_bank]), .inr ⟨_, rfl⟩, rfl⟩
  · rw [if_pos rfl]
    exact ⟨_, _, (working_bank _ _ _).trans (by rw [State.markFailing, banking_bank]), .inl rfl, rfl⟩

/-- R39: a compaction begins at the visible generation and its floor. -/
theorem beginCompaction_bank (s : State) (b : BankId) : ∃ due work cursor, ∃ c : CompactRun, (s.beginCompaction b).bank b =
      { s.bank b with state := .compacting, compactWanted := false, scrubDue := due, work := work
                      header := { (s.bank b).header with scrubCursor := cursor } } ∧
    c.visible = (s.domain (s.bankDomain b)).visible ∧ IsFloor (s.bank b).header.baselines c.visible c.floor ∧ c.next = 0 ∧ c.freed = 0 ∧
    (work = .compactHeader c ∨ ∃ p, work = .compactFree c p) ∧ (s.beginCompaction b).store = s.store := by
  obtain ⟨ps, work, hbank, hwork, hstore⟩ := compactOn_bank (s.banking b (fun k => { k with state := .compacting, compactWanted := false })) b
    { visible := (s.domain (s.bankDomain b)).visible
      floor := floorAt (s.bank b).header.baselines (s.domain (s.bankDomain b)).visible, next := 0, freed := 0 }
  obtain ⟨due, marked, cursor, hmark⟩ := markFailing_shape { s.bank b with state := .compacting, compactWanted := false } ps
  rw [banking_bank, hmark] at hbank
  exact ⟨due, work, cursor, _, hbank, rfl, floorAt_isFloor _ _, rfl, rfl, hwork, hstore⟩

/-! ## A request begins (R30, R31) -/

/-- R31: the request opens its generation in the header of the bank. -/
def ApplyRequest.opens (r : ApplyRequest) : Prop := r.segment ≠ none ∧ r.first = true ∧ r.cursor = 0

/-- R30, R31: the bank has begun a request, its header and the stored one with the generation open or not. -/
theorem beginRequest_facts (s : State) (b : BankId) (r : ApplyRequest) :
    (r.opens → (s.beginRequest b r).bank b = { s.bank b with
        state := .applying, waiting := none, work := if r.segment = none then .advance r else .applyRead r
        header := { (s.bank b).header with applyOpen := some r.gen } } ∧
      (s.beginRequest b r).store.headers[b] = StoredHeader.sealed { (s.bank b).header with
        applyOpen := some r.gen, scrubCursor := s.store.headers[b].fields.scrubCursor, scrubAge := s.store.headers[b].fields.scrubAge }) ∧
    (¬ r.opens → (s.beginRequest b r).bank b = { s.bank b with
        state := .applying, waiting := none, work := if r.segment = none then .advance r else .applyRead r } ∧
      (s.beginRequest b r).store.headers[b] = s.store.headers[b]) ∧
    (s.beginRequest b r).todo.mail = s.todo.mail ++ [.bankReport b (.taken r.gen r.segment)] := by
  unfold State.beginRequest
  dsimp only
  generalize hbegun : (s.banking b (fun k => { k with state := .applying, waiting := none })).report b (.taken r.gen r.segment) = t
  have hbank : t.bank b = { s.bank b with state := .applying, waiting := none } := by rw [← hbegun, report_bank, banking_bank]
  have hstore : t.store = s.store := by rw [← hbegun]; rfl
  have hmail : t.todo.mail = s.todo.mail ++ [.bankReport b (.taken r.gen r.segment)] := by rw [← hbegun]; rfl
  cases hsegment : r.segment with
  | none =>
    refine ⟨fun h => absurd hsegment h.1, fun _ => ⟨?_, congrArg (fun m => m.headers[b]) hstore⟩, hmail.trans (by rw [hsegment])⟩
    rw [working_bank, hbank, if_pos rfl]
  | some k =>
    have htest : (r.first && r.cursor == 0) = true ↔ r.opens := by
      unfold ApplyRequest.opens
      rw [Bool.and_eq_true, beq_iff_eq, hsegment]
      exact ⟨fun h => ⟨nofun, h⟩, fun h => h.2⟩
    dsimp only
    refine ⟨fun h => ?_, fun h => ?_, ?_⟩
    · rw [if_pos (htest.mpr h), working_bank, writeHeader_bank, heading_bank, hbank]
      refine ⟨rfl, (writeHeader_stored _ b).trans ?_⟩
      rw [heading_bank, hbank]
      exact congrArg (fun m : StoredHeader => StoredHeader.sealed { (s.bank b).header with
        applyOpen := some r.gen, scrubCursor := m.fields.scrubCursor, scrubAge := m.fields.scrubAge })
        (congrArg (fun m => m.headers[b]) hstore)
    · rw [if_neg (fun he => h (htest.mp he)), working_bank, hbank]
      exact ⟨rfl, congrArg (fun m => m.headers[b]) hstore⟩
    · rw [← hsegment]
      split
      · exact hmail
      · exact hmail

/-! ## The next work (R25) -/

/-- R41: a quiesce once it has been acknowledged. -/
def Quiesce.acknowledged : Quiesce → Quiesce
  | .requested g => .inForce g
  | q => q

/-- R25: the bank stands IDLE, with a REQUESTED quiesce acknowledged. -/
def State.idled (s : State) (b : BankId) : State := (s.banking b (fun k => { k with state := .idle, work := .none })).acknowledge b

theorem idled_facts (s : State) (b : BankId) :
    (s.idled b).bank b = { s.bank b with state := .idle, work := .none, quiesce := (s.bank b).quiesce.acknowledged } ∧
    (s.idled b).store = s.store ∧ (s.idled b).supply = s.supply ∧ (s.idled b).vis = s.vis ∧
    ((∀ g, (s.bank b).quiesce ≠ .requested g) → (s.idled b).todo.mail = s.todo.mail) ∧
    (∀ g, (s.bank b).quiesce = .requested g → .bankReport b (.quiesced g) ∈ (s.idled b).todo.mail) := by
  have hbank := banking_bank s b (fun k => { k with state := .idle, work := .none })
  unfold State.idled State.acknowledge
  rw [hbank]
  cases hquiesce : (s.bank b).quiesce with
  | requested g =>
    refine ⟨?_, rfl, rfl, rfl, fun h => absurd rfl (h g), fun g' h => ?_⟩
    · dsimp only
      rw [report_bank, banking_bank, hbank]
      rfl
    · cases h
      exact List.mem_append_right _ (List.mem_singleton_self _)
  | absent =>
    exact ⟨by dsimp only; rw [hbank]; simp [Quiesce.acknowledged, ← hquiesce], rfl, rfl, rfl, fun _ => rfl, nofun⟩
  | inForce g =>
    exact ⟨by dsimp only; rw [hbank]; simp [Quiesce.acknowledged, ← hquiesce], rfl, rfl, rfl, fun _ => rfl, nofun⟩

/-- R25, items 2 to 5: what the IDLE bank takes up. -/
def State.takesUp (s : State) (b : BankId) : State :=
  if (s.bank b).scrubDue then s.beginScrub b
  else
    match (s.bank b).waiting with
    | none => s.afterApplies b
    | some r =>
      match (s.bank b).refusal r with
      | none => s.beginRequest b r
      | some why => ((s.banking b (fun k => { k with waiting := none })).report b (.refused r.gen r.segment why)).afterApplies b

theorem nextWork_free (h : (s.bank b).hold = .none) : s.nextWork b = (s.idled b).takesUp b := by
  unfold State.nextWork State.takesUp State.idled
  rw [h]
  exact if_neg (by decide)

theorem nextWork_held (h : (s.bank b).hold ≠ .none) : s.nextWork b = s.goHeld b .idle .none := by
  unfold State.nextWork
  exact if_pos (bne_iff_ne.mpr h)

theorem takesUp_scrubs (h : (s.bank b).scrubDue = true) : s.takesUp b = s.beginScrub b := by
  unfold State.takesUp
  exact if_pos h

theorem takesUp_alone (hdue : (s.bank b).scrubDue = false) (h : (s.bank b).waiting = none) : s.takesUp b = s.afterApplies b := by
  unfold State.takesUp
  rw [hdue, h]
  exact if_neg Bool.false_ne_true

theorem takesUp_begins (hdue : (s.bank b).scrubDue = false) (h : (s.bank b).waiting = some r)
    (hrefusal : (s.bank b).refusal r = none) : s.takesUp b = s.beginRequest b r := by
  unfold State.takesUp
  rw [hdue, h]
  refine (if_neg Bool.false_ne_true).trans ?_
  dsimp only
  rw [hrefusal]

theorem afterApplies_compacts (h : (s.bank b).compactWanted = true) : s.afterApplies b = s.beginCompaction b := by
  unfold State.afterApplies
  exact if_pos h

theorem afterApplies_keeps (s : State) (b : BankId) : ((s.afterApplies b).bank b).quiesce = (s.bank b).quiesce ∧
    ((s.afterApplies b).bank b).fullScan = (s.bank b).fullScan := by
  unfold State.afterApplies
  split
  · obtain ⟨due, work, cursor, c, hbank, -⟩ := beginCompaction_bank s b
    rw [hbank]
    exact ⟨rfl, rfl⟩
  · split
    · obtain ⟨work, cursor, hbank⟩ := beginScrub_bank s b
      rw [hbank]
      exact ⟨rfl, rfl⟩
    · rw [banking_bank]
      exact ⟨rfl, rfl⟩

/-- What the bank takes up leaves its quiesce and full scan, and the messages sent. -/
theorem takesUp_keeps (s : State) (b : BankId) : ((s.takesUp b).bank b).quiesce = (s.bank b).quiesce ∧
    ((s.takesUp b).bank b).fullScan = (s.bank b).fullScan ∧ ∀ m ∈ s.todo.mail, m ∈ (s.takesUp b).todo.mail := by
  unfold State.takesUp
  split
  · obtain ⟨work, cursor, hbank⟩ := beginScrub_bank s b
    rw [hbank, beginScrub_todo]
    exact ⟨rfl, rfl, fun m hm => hm⟩
  · split
    · obtain ⟨hquiesce, hscan⟩ := afterApplies_keeps s b
      rw [afterApplies_todo]
      exact ⟨hquiesce, hscan, fun m hm => hm⟩
    · next r _ =>
      split
      · obtain ⟨hopens, hplain, hmail⟩ := beginRequest_facts s b r
        rw [hmail]
        by_cases h : r.opens
        · rw [(hopens h).1]
          exact ⟨rfl, rfl, fun m hm => List.mem_append_left _ hm⟩
        · rw [(hplain h).1]
          exact ⟨rfl, rfl, fun m hm => List.mem_append_left _ hm⟩
      · next why _ =>
        obtain ⟨hquiesce, hscan⟩ := afterApplies_keeps
          ((s.banking b (fun k => { k with waiting := none })).report b (.refused r.gen r.segment why)) b
        rw [report_bank, banking_bank] at hquiesce hscan
        rw [afterApplies_todo]
        exact ⟨hquiesce, hscan, fun m hm => List.mem_append_left _ hm⟩

theorem nextWork_fullScan (s : State) (b : BankId) : ((s.nextWork b).bank b).fullScan = (s.bank b).fullScan := by
  by_cases hhold : (s.bank b).hold = .none
  · obtain ⟨hbank, -⟩ := idled_facts s b
    obtain ⟨-, hscan, -⟩ := takesUp_keeps (s.idled b) b
    rw [nextWork_free hhold, hscan, hbank]
  · rw [nextWork_held hhold, goHeld_bank]

/-- R41: a REQUESTED quiesce is acknowledged before the next work. -/
theorem nextWork_quiesced {g : Gen} (hhold : (s.bank b).hold = .none) (h : (s.bank b).quiesce = .requested g) :
    ((s.nextWork b).bank b).quiesce = .inForce g ∧ .bankReport b (.quiesced g) ∈ (s.nextWork b).todo.mail := by
  obtain ⟨hbank, -, -, -, -, hreport⟩ := idled_facts s b
  obtain ⟨hquiesce, -, hmail⟩ := takesUp_keeps (s.idled b) b
  rw [nextWork_free hhold, hquiesce, hbank, h]
  exact ⟨rfl, hmail _ (hreport g h)⟩

/-- R30: a waiting request of the next generation, or of a baseline in force, is not refused. -/
theorem refusal_none {k : Bank} (h : r.kind = .delta ∧ k.quiesce = .absent ∧ k.header.applied + 1 = r.gen ∨
      r.kind = .baseline ∧ k.quiesce = .inForce r.gen ∧ k.header.applied < r.gen) : k.refusal r = none := by
  unfold Bank.refusal
  rcases h with ⟨hkind, hquiesce, hgen⟩ | ⟨hkind, hquiesce, hgen⟩
  · rw [if_neg (Nat.not_le.mpr (hgen ▸ Nat.lt_succ_self _)), hkind, hquiesce]
    exact if_pos (by simp [hgen])
  · rw [if_neg (Nat.not_le.mpr hgen), hkind, hquiesce]
    exact if_pos (beq_self_eq_true _)

/-- A quiesce that is not REQUESTED stays. -/
theorem acknowledged_same {q : Quiesce} (h : ∀ g, q ≠ .requested g) : q.acknowledged = q := by
  cases q with
  | requested g => exact absurd rfl (h g)
  | _ => rfl

/-- The waiting request begins next (R25, R30). -/
theorem nextWork_begins (hhold : (s.bank b).hold = .none) (hdue : (s.bank b).scrubDue = false) (hwaiting : (s.bank b).waiting = some r)
    (h : r.kind = .delta ∧ (s.bank b).quiesce = .absent ∧ (s.bank b).header.applied + 1 = r.gen ∨
      r.kind = .baseline ∧ (s.bank b).quiesce = .inForce r.gen ∧ (s.bank b).header.applied < r.gen) :
    s.nextWork b = (s.idled b).beginRequest b r ∧
    (s.idled b).bank b = { s.bank b with state := .idle, work := .none } ∧ (s.idled b).todo.mail = s.todo.mail := by
  have hquiet : ∀ g, (s.bank b).quiesce ≠ .requested g := by
    rcases h with ⟨-, h, -⟩ | ⟨-, h, -⟩ <;> rw [h] <;> exact nofun
  obtain ⟨hbank, -, -, -, hmail, -⟩ := idled_facts s b
  rw [acknowledged_same hquiet] at hbank
  refine ⟨?_, hbank, hmail hquiet⟩
  rw [nextWork_free hhold]
  exact takesUp_begins (by rw [hbank]; exact hdue) (by rw [hbank]; exact hwaiting) (refusal_none (by rw [hbank]; exact h))

end

end Sys2Proof.Machine

/-! # Header writes that end an operation -/

namespace Sys2Proof.Machine

section

variable {s : State} {b : BankId} {h : BankHeader} {q : Quiesce} {m : List Msg}

theorem headerCommit_exec {t : State} (hcommit : s.headerCommit b = t) : exec (.bankHeaderWriteCommit b) s = .next t.settle := by
  rw [exec_bankHeaderWriteCommit, hcommit]

/-! ## Recovery (R57, R59) -/

/-- What store memory holds of the recovered bank: after a full scan its whole header, else the scrub's fields as last written. -/
def State.recoveredStored (s : State) (b : BankId) : BankHeader :=
  if (s.bank b).fullScan = true then s.recoveredHeader b
  else { s.recoveredHeader b with scrubCursor := s.store.headers[b].fields.scrubCursor, scrubAge := s.store.headers[b].fields.scrubAge }

theorem recoverEndWrite_facts (s : State) (b : BankId) :
    (s.recoverEndWrite b).bank b = { s.bank b with header := s.recoveredHeader b, fullScan := false } ∧
    (s.recoverEndWrite b).store.headers[b] = StoredHeader.sealed (s.recoveredStored b) ∧
    (s.recoverEndWrite b).todo = s.todo ∧ (s.recoverEndWrite b).store.places = s.store.places ∧
    (s.recoverEndWrite b).supply = s.supply ∧ (s.recoverEndWrite b).vis = s.vis ∧
    ∀ e, e ≠ b → (s.recoverEndWrite b).bank e = s.bank e := by
  have hothers := (recoverEndWrite_on (.refl true b s) rfl).others
  have hheading := heading_bank s b (fun h => { h with applyOpen := none })
  unfold State.recoverEndWrite State.recoveredStored State.recoveredHeader at *
  dsimp only at hothers ⊢
  by_cases hscan : (s.bank b).fullScan = true
  · have htest : ((s.heading b (fun h => { h with applyOpen := none })).bank b).fullScan = true := by rw [hheading]; exact hscan
    rw [if_pos htest] at hothers ⊢
    rw [if_pos hscan, if_pos hscan]
    refine ⟨?_, ?_, rfl, rfl, rfl, rfl, hothers⟩
    · rw [writeScrubHeader_bank, banking_bank, hheading]
      rfl
    · rw [writeScrubHeader_stored, banking_bank, hheading]
      rfl
  · have htest : ¬ ((s.heading b (fun h => { h with applyOpen := none })).bank b).fullScan = true := by rw [hheading]; exact hscan
    have hplain : (s.bank b).fullScan = false := Bool.not_eq_true _ ▸ hscan
    rw [if_neg htest] at hothers ⊢
    rw [if_neg hscan, if_neg hscan]
    refine ⟨?_, ?_, rfl, rfl, rfl, rfl, hothers⟩
    · rw [writeHeader_bank, hheading, ← hplain]
    · rw [writeHeader_stored, hheading]
      rfl

theorem recoveredHeader_closed (s : State) (b : BankId) : (s.recoveredHeader b).applyOpen = none := by
  unfold State.recoveredHeader
  split <;> rfl

/-- The stored header of a recovered bank is its header but for the scrub's fields. -/
theorem recoveredStored_shape (s : State) (b : BankId) : ∃ cursor age,
    s.recoveredStored b = { s.recoveredHeader b with scrubCursor := cursor, scrubAge := age } := by
  unfold State.recoveredStored
  split
  · exact ⟨_, _, rfl⟩
  · exact ⟨_, _, rfl⟩

theorem headerCommit_recovers (hwork : (s.bank b).work = .recoverHeader) :
    s.headerCommit b = (s.recoverEndWrite b).nextWork b := by
  unfold State.headerCommit
  rw [hwork]
  rfl

/-- A recovered bank `b` of `s` in `w`, before its next work: `h` is its header and `k` the stored one. -/
structure Recovered (s w : State) (b : BankId) (h k : BankHeader) : Prop where
  bank : w.bank b = { s.bank b with header := h, fullScan := false }
  stored : w.store.headers[b] = StoredHeader.sealed k
  visible : w.domain (w.bankDomain b) = s.domain (s.bankDomain b)
  closed : h.applyOpen = none
  scrub : ∃ cursor age, k = { h with scrubCursor := cursor, scrubAge := age }

theorem recoverEndWrite_recovered (s : State) (b : BankId) :
    Recovered s (s.recoverEndWrite b) b (s.recoveredHeader b) (s.recoveredStored b) := by
  obtain ⟨hbank, hstored, -, -, hsupply, hvis, -⟩ := recoverEndWrite_facts s b
  exact ⟨hbank, hstored, by unfold State.domain State.bankDomain; rw [hsupply, hvis], recoveredHeader_closed s b, recoveredStored_shape s b⟩

/-- The IDLE bank keeps what the recovery has made of it. -/
theorem Recovered.idled {w : State} {k : BankHeader} (hr : Recovered s w b h k) :
    (w.idled b).bank b = { s.bank b with
      header := h, fullScan := false, state := .idle, work := .none, quiesce := (s.bank b).quiesce.acknowledged } ∧
    (w.idled b).store.headers[b] = StoredHeader.sealed k ∧
    (w.idled b).domain ((w.idled b).bankDomain b) = s.domain (s.bankDomain b) := by
  obtain ⟨hbank, hstored, hvisible, -, -⟩ := hr
  obtain ⟨hidle, hstore, hsupply, hvis, -, -⟩ := idled_facts w b
  rw [hbank] at hidle
  refine ⟨hidle, by rw [hstore]; exact hstored, ?_⟩
  rw [← hvisible]
  unfold State.domain State.bankDomain
  rw [hsupply, hvis]

theorem Recovered.hold {w : State} {k : BankHeader} (hr : Recovered s w b h k) : (w.bank b).hold = (s.bank b).hold := by rw [hr.bank]

/-- R49: a due scrub comes first. -/
theorem Recovered.scrubs {w : State} {k : BankHeader} (hr : Recovered s w b h k) (hwanted : (s.bank b).compactWanted = true)
    (hhold : (s.bank b).hold = .none) (hdue : (s.bank b).scrubDue = true) :
    ((w.nextWork b).bank b).state = .scrubbing ∧ ((w.nextWork b).bank b).compactWanted = true ∧
    ((w.nextWork b).bank b).header = { h with scrubCursor := ((w.nextWork b).bank b).header.scrubCursor } ∧
    (w.nextWork b).store.headers[b] = StoredHeader.sealed k := by
  obtain ⟨hbank, hstored, -⟩ := hr.idled
  obtain ⟨work, cursor, hscrub⟩ := beginScrub_bank (w.idled b) b
  rw [nextWork_free (hr.hold.trans hhold), takesUp_scrubs (by rw [hbank]; exact hdue), beginScrub_store, hscrub, hbank]
  exact ⟨rfl, hwanted, rfl, hstored⟩

/-- R38: with nothing else waiting the compaction of the start comes next. -/
theorem Recovered.compacts {w : State} {k : BankHeader} (hr : Recovered s w b h k) (hwanted : (s.bank b).compactWanted = true)
    (hhold : (s.bank b).hold = .none) (hdue : (s.bank b).scrubDue = false) (hwaiting : (s.bank b).waiting = none) :
    ((w.nextWork b).bank b).state = .compacting ∧ ((w.nextWork b).bank b).compactWanted = false ∧
    ((w.nextWork b).bank b).header = { h with scrubCursor := ((w.nextWork b).bank b).header.scrubCursor } ∧
    (w.nextWork b).store.headers[b] = StoredHeader.sealed k ∧
    ∃ c : CompactRun, c.visible = (s.domain (s.bankDomain b)).visible ∧ IsFloor h.baselines c.visible c.floor ∧ c.next = 0 ∧ c.freed = 0 ∧
      (((w.nextWork b).bank b).work = .compactHeader c ∨ ∃ p, ((w.nextWork b).bank b).work = .compactFree c p) := by
  obtain ⟨hbank, hstored, hvisible⟩ := hr.idled
  obtain ⟨due, work, cursor, c, hcompact, hv, hfloor, hnext, hfreed, hwork, hstore⟩ := beginCompaction_bank (w.idled b) b
  rw [nextWork_free (hr.hold.trans hhold), takesUp_alone (by rw [hbank]; exact hdue) (by rw [hbank]; exact hwaiting),
    afterApplies_compacts (by rw [hbank]; exact hwanted), hstore, hcompact]
  rw [hbank] at hfloor ⊢
  exact ⟨rfl, rfl, rfl, hstored, c, by rw [hv, hvisible], hfloor, hnext, hfreed, hwork⟩

/-- R30: the waiting request begins. -/
theorem Recovered.applies {w : State} {k : BankHeader} {r : ApplyRequest} (hr : Recovered s w b h k)
    (hwanted : (s.bank b).compactWanted = true) (hhold : (s.bank b).hold = .none) (hdue : (s.bank b).scrubDue = false)
    (hwaiting : (s.bank b).waiting = some r)
    (hnext : r.kind = .delta ∧ (s.bank b).quiesce = .absent ∧ h.applied + 1 = r.gen ∨
      r.kind = .baseline ∧ (s.bank b).quiesce = .inForce r.gen ∧ h.applied < r.gen) :
    ((w.nextWork b).bank b).state = .applying ∧ ((w.nextWork b).bank b).waiting = none ∧ ((w.nextWork b).bank b).compactWanted = true ∧
    ((w.nextWork b).bank b).work = (if r.segment = none then .advance r else .applyRead r) ∧
    .bankReport b (.taken r.gen r.segment) ∈ (w.nextWork b).todo.mail ∧
    ((w.nextWork b).bank b).header =
      { h with applyOpen := if r.segment ≠ none ∧ r.first = true ∧ r.cursor = 0 then some r.gen else none } ∧
    (w.nextWork b).store.headers[b] = StoredHeader.sealed
      { k with applyOpen := if r.segment ≠ none ∧ r.first = true ∧ r.cursor = 0 then some r.gen else none } := by
  obtain ⟨cursor, age, rfl⟩ := hr.scrub
  obtain ⟨-, hstored, -⟩ := hr.idled
  obtain ⟨hbegins, hidle, -⟩ := nextWork_begins (s := w) (b := b) (r := r) (hr.hold.trans hhold) (by rw [hr.bank]; exact hdue)
    (by rw [hr.bank]; exact hwaiting) (by rw [hr.bank]; exact hnext)
  obtain ⟨hopens, hplain, hmail⟩ := beginRequest_facts (w.idled b) b r
  have hclosed := hr.closed
  rw [hr.bank] at hidle
  rw [hidle, hstored] at hopens
  rw [hidle, hstored] at hplain
  rw [hbegins, hmail]
  by_cases h' : r.opens
  · obtain ⟨hbank, hheader⟩ := hopens h'
    have hopen : (if r.segment ≠ none ∧ r.first = true ∧ r.cursor = 0 then some r.gen else none) = some r.gen := if_pos h'
    rw [hbank, hheader, hopen]
    exact ⟨rfl, rfl, hwanted, rfl, List.mem_append_right _ (List.mem_singleton_self _), rfl, rfl⟩
  · obtain ⟨hbank, hheader⟩ := hplain h'
    have hopen : (if r.segment ≠ none ∧ r.first = true ∧ r.cursor = 0 then some r.gen else none) = h.applyOpen :=
      (if_neg h').trans hclosed.symm
    rw [hbank, hheader, hopen]
    exact ⟨rfl, rfl, hwanted, rfl, List.mem_append_right _ (List.mem_singleton_self _), rfl, rfl⟩

/-- R27, R28: under a pending hold the bank is HELD. -/
theorem Recovered.held {w : State} {k : BankHeader} (hr : Recovered s w b h k) (hhold : (s.bank b).hold ≠ .none) :
    ((w.nextWork b).bank b).state = .held ∧ ((w.nextWork b).bank b).prior = some .idle ∧ ((w.nextWork b).bank b).header = h ∧
    (w.nextWork b).store.headers[b] = StoredHeader.sealed h := by
  rw [nextWork_held (by rw [hr.hold]; exact hhold), goHeld_bank, hr.bank]
  refine ⟨rfl, rfl, rfl, ?_⟩
  unfold State.goHeld
  rw [writeScrubHeader_stored, banking_bank, hr.bank]

/-- What follows the header write of a recovery with the compaction wanted flag set (R21, R25). -/
theorem Recovered.after {w : State} {k : BankHeader} (hr : Recovered s w b h k) (hwanted : (s.bank b).compactWanted = true) :
    s.afterRecovery b h k (w.nextWork b) where
  quiesced hhold g hquiesce := nextWork_quiesced (hr.hold.trans hhold) (by rw [hr.bank]; exact hquiesce)
  scrubs hhold hdue := hr.scrubs hwanted hhold hdue
  compacts hhold hdue hwaiting := hr.compacts hwanted hhold hdue hwaiting
  applies r hhold hdue hwaiting hnext := hr.applies hwanted hhold hdue hwaiting hnext
  held hhold := hr.held hhold

/-! ## An operation ends and leaves nothing to do -/

/-- R34: the header that an advance writes. -/
theorem advance_ends {r : ApplyRequest} (hage : ¬ s.scrubInterval < 2 * h.scrubAge) (hwork : (s.bank b).work = .advance r)
    (hfree : (s.bank b).unoccupied) (hq : q = (if r.kind = .baseline then .absent else (s.bank b).quiesce))
    (hm : m = [.bankReport b (.advanced r.gen)])
    (hh : h = { (s.bank b).header with
      applied := r.gen, applyOpen := none
      baselines := if r.kind = .baseline then addBaseline (s.bank b).header.baselines (s.domain (s.bankDomain b)).visible r.gen
        else (s.bank b).header.baselines }) : s.operationEnds b h q m false := by
  have hbank : ((s.advanceWrite b r).report b (.advanced r.gen)).bank b = { s.bank b with header := h, quiesce := q } := by
    rw [report_bank]
    unfold State.advanceWrite
    rw [writeHeader_bank, banking_bank, hh, hq]
    simp only [beq_iff_eq]
  obtain ⟨hdue, hwaiting, hwanted, hhold, hquiesce⟩ := hfree
  refine headerCommit_operationEnds (t := (s.advanceWrite b r).report b (.advanced r.gen)) (headerCommit_exec ?_) ?_ ?_ hage ?_ ?_ rfl
    (report_on (advanceWrite_on (.refl true b s) r) _).others
  · unfold State.headerCommit
    rw [hwork]
    rfl
  · rw [hbank, ← hdue]
  · rw [hbank]
    refine ⟨hdue, hwaiting, hwanted, hhold, fun g => ?_⟩
    rw [hq]
    split
    · nofun
    · exact hquiesce g
  · refine (writeHeader_stored _ b).trans ?_
    rw [banking_bank, hh]
    simp only [beq_iff_eq]
    rfl
  · rw [hm]
    rfl

/-- R40: the header that the end of a compaction writes. -/
def CompactRun.endedHeader (c : CompactRun) (h : BankHeader) : BankHeader :=
  { h with
    baselines := h.baselines.filter (fun g => c.floor ≤ g)
    erasureMark := match h.erasureMark with
      | some g => if g ≤ c.visible then none else some g
      | none => none }

theorem compactEndWrite_facts (s : State) (b : BankId) (c : CompactRun) :
    (s.compactEndWrite b c).bank b = { s.bank b with header := c.endedHeader (s.bank b).header } ∧
    (s.compactEndWrite b c).store.headers[b] = StoredHeader.sealed { c.endedHeader (s.bank b).header with
      scrubCursor := s.store.headers[b].fields.scrubCursor, scrubAge := s.store.headers[b].fields.scrubAge } := by
  have hbank : (s.compactEndWrite b c).bank b = { s.bank b with header := c.endedHeader (s.bank b).header } :=
    (writeHeader_bank _ _ _).trans (heading_bank s b c.endedHeader)
  refine ⟨hbank, Eq.trans (writeHeader_stored _ b) ?_⟩
  exact congrArg (fun k : Bank => StoredHeader.sealed { k.header with
    scrubCursor := s.store.headers[b].fields.scrubCursor, scrubAge := s.store.headers[b].fields.scrubAge }) hbank

theorem compaction_ends {c : CompactRun} (hage : ¬ s.scrubInterval < 2 * h.scrubAge) (hwork : (s.bank b).work = .compactHeader c)
    (hfree : (s.bank b).unoccupied) (hq : q = (s.bank b).quiesce) (hm : m = [.bankReport b (.compacted c.freed)])
    (hh : h = c.endedHeader (s.bank b).header) : s.operationEnds b h q m false := by
  obtain ⟨hwritten, hstored⟩ := compactEndWrite_facts s b c
  rw [← hh] at hwritten hstored
  have hbank : ((s.compactEndWrite b c).report b (.compacted c.freed)).bank b = { s.bank b with header := h } := hwritten
  obtain ⟨hdue, hwaiting, hwanted, hhold, hquiesce⟩ := hfree
  refine headerCommit_operationEnds (t := (s.compactEndWrite b c).report b (.compacted c.freed)) (headerCommit_exec ?_) ?_ ?_ hage ?_ ?_ rfl
    (report_on (compactEndWrite_on (.refl true b s) c) _).others
  · unfold State.headerCommit
    rw [hwork]
    rfl
  · rw [hbank, hq, ← hdue]
  · rw [hbank]
    exact ⟨hdue, hwaiting, hwanted, hhold, hquiesce⟩
  · exact hstored
  · rw [hm]
    rfl

/-! ## Scrub passes (R48, R50) -/

variable {next : Nat}

theorem headerCommit_scrubs (hwork : (s.bank b).work = .scrubHeader next false) : s.headerCommit b = s.scrubPassEnd b next false := by
  unfold State.headerCommit
  rw [hwork]

/-- R50: the last pass ends the scrub. -/
theorem scrub_ends (hage : ¬ s.scrubInterval < 2 * h.scrubAge) (hwork : (s.bank b).work = .scrubHeader next false) (hlast : 65536 ≤ next)
    (hfree : Bank.unoccupied { s.bank b with scrubDue := false }) (hq : q = (s.bank b).quiesce) (hm : m = [])
    (hh : h = { (s.bank b).header with scrubCursor := 0, scrubAge := 0 }) : s.operationEnds b h q m true := by
  have hwrite : s.scrubPassWrite b next false = (s.banking b (fun k => { k with
      scrubDue := false, header := { k.header with scrubCursor := 0, scrubAge := 0 } })).writeScrubHeader b := by
    unfold State.scrubPassWrite
    rw [if_neg Bool.false_ne_true]
    exact if_pos (show Config.bankPlaces ≤ next from hlast)
  have hbank : (s.scrubPassWrite b next false).bank b = { s.bank b with scrubDue := false, header := h } := by
    rw [hwrite, writeScrubHeader_bank, banking_bank, hh]
  obtain ⟨hdue, hwaiting, hwanted, hhold, hquiesce⟩ := hfree
  have hinterval : (s.scrubPassWrite b next false).scrubInterval = s.scrubInterval := by rw [hwrite]; rfl
  refine headerCommit_operationEnds (t := s.scrubPassWrite b next false) (headerCommit_exec ?_) ?_ ?_ (by rw [hinterval]; exact hage) ?_ ?_ ?_
    (scrubPassWrite_on (.refl true b s) _ _).others
  · rw [headerCommit_scrubs hwork]
    unfold State.scrubPassEnd
    rw [if_neg Bool.false_ne_true]
    exact if_pos (show Config.bankPlaces ≤ next from hlast)
  · rw [hbank, hq]
  · rw [hbank]
    exact ⟨hdue, hwaiting, hwanted, hhold, hquiesce⟩
  · rw [hwrite, if_pos rfl, hh]
    refine (writeScrubHeader_stored _ b).trans ?_
    rw [banking_bank]
  · rw [hwrite, hm, List.append_nil]
    rfl
  · rw [hwrite]
    rfl

/-- R48: a bank with nothing waiting, or with its scrub due, does not pause. -/
theorem scrubPauses_false {k : Bank} (h : k.unoccupied ∨ k.scrubDue = true ∧ k.hold = .none) : k.scrubPauses = false ∧ k.hold = .none := by
  rcases h with ⟨hdue, hwaiting, hwanted, hhold, hquiesce⟩ | ⟨hdue, hhold⟩
  · refine ⟨?_, hhold⟩
    unfold Bank.scrubPauses
    rw [hdue, hwaiting, hwanted, hhold]
    cases hq : k.quiesce with
    | requested g => exact absurd hq (hquiesce g)
    | _ => rfl
  · refine ⟨?_, hhold⟩
    unfold Bank.scrubPauses
    rw [hdue]
    rfl

/-- R50: a pass end before the last writes the cursor, and the scrub goes on. -/
theorem scrub_goes_on (hwork : (s.bank b).work = .scrubHeader next false) (hnext : next < 65536)
    (hfree : (s.bank b).unoccupied ∨ (s.bank b).scrubDue = true ∧ (s.bank b).hold = .none) :
    ∃ u : State, exec (.bankHeaderWriteCommit b) s = .next u.settle ∧ (u.bank b).state = (s.bank b).state ∧
      u.store.headers[b] = StoredHeader.sealed { (s.bank b).header with scrubCursor := next } ∧
      ((placesIn next (stepEnd next) (s.places b)).head? = none → (u.bank b).work = .scrubHeader (stepEnd next) false) ∧
      (∀ x, (placesIn next (stepEnd next) (s.places b)).head? = some x → (u.bank b).work = .scrubCheck x.1 ∧
        (u.bank b).header.scrubCursor = x.1) := by
  obtain ⟨hpause, hhold⟩ := scrubPauses_false hfree
  have hbank : ((s.heading b (fun h => { h with scrubCursor := next })).writeScrubHeader b).bank b =
      { s.bank b with header := { (s.bank b).header with scrubCursor := next } } :=
    (writeScrubHeader_bank _ _ _).trans (heading_bank _ _ _)
  have hstored : ((s.heading b (fun h => { h with scrubCursor := next })).writeScrubHeader b).store.headers[b] =
      StoredHeader.sealed { (s.bank b).header with scrubCursor := next } :=
    (writeScrubHeader_stored _ b).trans (by rw [heading_bank])
  have hplaces : ((s.heading b (fun h => { h with scrubCursor := next })).writeScrubHeader b).places b = s.places b := rfl
  have hpast : ¬ Config.bankPlaces ≤ next := Nat.not_le.mpr hnext
  have hpause' : (((s.heading b (fun h => { h with scrubCursor := next })).writeScrubHeader b).bank b).scrubPauses = false := by
    rw [hbank]
    exact hpause
  have hhold' : (((s.heading b (fun h => { h with scrubCursor := next })).writeScrubHeader b).bank b).hold = .none := by
    rw [hbank]
    exact hhold
  have hend : s.scrubPassEnd b next false =
      ((s.heading b (fun h => { h with scrubCursor := next })).writeScrubHeader b).scrubOn b next (stepEnd next) := by
    unfold State.scrubPassEnd State.scrubPassWrite
    simp only [Bool.false_eq_true, if_false, hpast]
    rw [if_neg (by rw [hpause']; decide), if_neg (by rw [hhold']; decide)]
  have hexec := headerCommit_exec ((headerCommit_scrubs hwork).trans hend)
  generalize (s.heading b (fun h => { h with scrubCursor := next })).writeScrubHeader b = w at hbank hstored hplaces hexec
  obtain ⟨hshape, -, -, hstate⟩ := scrubOn_shape w b next (stepEnd next)
  refine ⟨_, hexec, hstate.trans (by rw [hbank]), ?_, fun h => ?_, fun x h => ?_⟩
  · obtain ⟨banks, hbanks⟩ : ∃ banks, w.scrubOn b next (stepEnd next) = { w with banks := banks } := ⟨_, hshape⟩
    rw [hbanks]
    exact hstored
  · rw [scrubOn_passEnd (by rw [hplaces]; exact h)]
  · rw [scrubOn_check (by rw [hplaces]; exact h)]
    exact ⟨rfl, rfl⟩

/-! ## Recovery and erasure end -/

/-- R57: a recovery ends and leaves nothing to do. -/
theorem recovery_ends (hage : ¬ s.scrubInterval < 2 * h.scrubAge) (hwork : (s.bank b).work = .recoverHeader) (hfree : (s.bank b).unoccupied)
    (hq : q = (s.bank b).quiesce) (hm : m = []) (hh : h = s.recoveredHeader b) : s.operationEnds b h q m (s.bank b).fullScan := by
  obtain ⟨hbank, hstored, htodo, hplaces, hsupply, -, hothers⟩ := recoverEndWrite_facts s b
  have hinterval : (s.recoverEndWrite b).scrubInterval = s.scrubInterval := by unfold State.scrubInterval; rw [hsupply]
  rw [← hh] at hbank
  obtain ⟨hdue, hwaiting, hwanted, hhold, hquiesce⟩ := hfree
  refine headerCommit_operationEnds (t := s.recoverEndWrite b) (headerCommit_exec (headerCommit_recovers hwork)) ?_ ?_
    (by rw [hinterval]; exact hage) ?_ (by rw [htodo, hm, List.append_nil]) hplaces hothers
  · rw [hbank, hq, ← hdue]
  · rw [hbank]
    exact ⟨hdue, hwaiting, hwanted, hhold, hquiesce⟩
  · rw [hstored, hh]
    rfl

/-- The state in which an erasure's header write has committed, the opening passes wanted where the flag changes (R20, R43). -/
def State.erased (s : State) (b : BankId) : State :=
  if (s.eraseEndWrite b).needsBaseline (s.bankDomain b) then s.eraseEndWrite b
  else (s.eraseEndWrite b).wantOpeningOf (s.bankDomain b)

theorem headerCommit_erases (hwork : (s.bank b).work = .eraseHeader) : s.headerCommit b = (s.erased b).nextWork b := by
  unfold State.headerCommit
  rw [hwork]
  rfl

/-- R43: an erased bank under the mark of its baseline. -/
def Bank.erasedHeader (k : Bank) (mark : Option Gen) : BankHeader :=
  { k.header with
    freeCount := 65536, baselines := [], applyOpen := none, faultMark := false, erasureMark := mark, scrubCursor := 0, scrubAge := 0 }

theorem erased_facts {g : Gen} (hmark : (∃ r, (s.bank b).waiting = some r ∧ r.gen = g) ∨
      (s.bank b).waiting = none ∧ (s.bank b).quiesce = .inForce g) :
    (s.erased b).bank b = { s.bank b with state := .idle, header := (s.bank b).erasedHeader (some g) } ∧
    (s.erased b).store.headers[b] = StoredHeader.sealed ((s.bank b).erasedHeader (some g)) ∧
    (s.erased b).todo.mail = s.todo.mail ∧ (s.erased b).store.places = s.store.places ∧ (s.erased b).supply = s.supply ∧
    ∀ e, e ≠ b → (s.erased b).bank e = s.bank e := by
  have hothers := (eraseEndWrite_on (.refl true b s) rfl).others
  have hbank : (s.eraseEndWrite b).bank b = { s.bank b with state := .idle, header := (s.bank b).erasedHeader (some g) } := by
    unfold State.eraseEndWrite Bank.erasedHeader
    rw [writeScrubHeader_bank, banking_bank]
    rcases hmark with ⟨r, hwaiting, hgen⟩ | ⟨hwaiting, hquiesce⟩
    · simp only [hwaiting, hgen]
      rfl
    · simp only [hwaiting, hquiesce]
      rfl
  have hstored : (s.eraseEndWrite b).store.headers[b] = StoredHeader.sealed ((s.bank b).erasedHeader (some g)) := by
    refine Eq.trans (writeScrubHeader_stored _ b) (congrArg StoredHeader.sealed ?_)
    exact congrArg Bank.header hbank
  unfold State.erased
  split
  · exact ⟨hbank, hstored, rfl, rfl, rfl, hothers⟩
  · exact ⟨hbank, hstored, rfl, rfl, rfl, hothers⟩

/-- R43: an erasure whose request was withdrawn leaves nothing to do. -/
theorem erasure_ends {g : Gen} (hage : ¬ s.scrubInterval < 2 * h.scrubAge) (hwork : (s.bank b).work = .eraseHeader)
    (hfree : (s.bank b).unoccupied) (hforce : (s.bank b).quiesce = .inForce g) (hq : q = .inForce g) (hm : m = [])
    (hh : h = (s.bank b).erasedHeader (some g)) : s.operationEnds b h q m true := by
  obtain ⟨hdue, hwaiting, hwanted, hhold, hquiesce⟩ := hfree
  obtain ⟨hbank, hstored, hmail, hplaces, hsupply, hothers⟩ := erased_facts (s := s) (b := b) (g := g) (.inr ⟨hwaiting, hforce⟩)
  have hinterval : (s.erased b).scrubInterval = s.scrubInterval := by unfold State.scrubInterval; rw [hsupply]
  rw [← hh] at hbank hstored
  refine headerCommit_operationEnds (t := s.erased b) (headerCommit_exec (headerCommit_erases hwork)) ?_ ?_
    (by rw [hinterval]; exact hage) (by rw [if_pos rfl]; exact hstored) (by rw [hmail, hm, List.append_nil]) hplaces hothers
  · rw [hbank, hq, ← hdue, ← hforce]
  · rw [hbank]
    exact ⟨hdue, hwaiting, hwanted, hhold, hquiesce⟩

/-- R43, R30: the erasure's waiting request begins. -/
theorem erasure_applies {r : ApplyRequest} (hwork : (s.bank b).work = .eraseHeader) (hwaiting : (s.bank b).waiting = some r)
    (hkind : r.kind = .baseline) (hgen : (s.bank b).header.applied < r.gen) (hforce : (s.bank b).quiesce = .inForce r.gen)
    (hdue : (s.bank b).scrubDue = false) (hhold : (s.bank b).hold = .none)
    (hh : h = { (s.bank b).erasedHeader (some r.gen) with
      applyOpen := if r.segment ≠ none ∧ r.first = true ∧ r.cursor = 0 then some r.gen else none }) :
    ∃ u : State, exec (.bankHeaderWriteCommit b) s = .next u.settle ∧
      u.bank b = { s.bank b with
        state := .applying, waiting := none, header := h
        work := if r.segment = none then .advance r else .applyRead r } ∧
      u.store.headers[b] = StoredHeader.sealed h ∧ u.todo.mail = s.todo.mail ++ [.bankReport b (.taken r.gen r.segment)] ∧
      u.store.places = s.store.places ∧ ∀ e, e ≠ b → u.bank e = s.bank e := by
  obtain ⟨hbank, hstored, hmail, hplaces, -, hothers⟩ := erased_facts (s := s) (b := b) (g := r.gen) (.inl ⟨r, hwaiting, rfl⟩)
  obtain ⟨hbegins, hidle, hidleMail⟩ := nextWork_begins (s := s.erased b) (b := b) (r := r) (by rw [hbank]; exact hhold)
    (by rw [hbank]; exact hdue) (by rw [hbank]; exact hwaiting) (.inr (by rw [hbank]; exact ⟨hkind, hforce, hgen⟩))
  obtain ⟨-, hidleStore, -⟩ := idled_facts (s.erased b) b
  have hon := nextWork_on (.refl false b (s.erased b))
  have hheader : ((s.erased b).idled b).store.headers[b] = StoredHeader.sealed ((s.bank b).erasedHeader (some r.gen)) := by
    rw [hidleStore]; exact hstored
  obtain ⟨hopens, hplain, hsent⟩ := beginRequest_facts ((s.erased b).idled b) b r
  rw [hbank] at hidle
  rw [hidle, hheader] at hopens
  rw [hidle, hheader] at hplain
  refine ⟨(s.erased b).nextWork b, headerCommit_exec (headerCommit_erases hwork), ?_⟩
  refine (and_assoc.mp ⟨?_, by rw [hbegins, hsent, hidleMail, hmail], (hon.places rfl).trans hplaces,
    fun e he => (hon.others e he).trans (hothers e he)⟩)
  rw [hbegins, hh]
  by_cases h' : r.opens
  · obtain ⟨hb, hs⟩ := hopens h'
    have hopen : (if r.segment ≠ none ∧ r.first = true ∧ r.cursor = 0 then some r.gen else none) = some r.gen := if_pos h'
    rw [hb, hs, hopen]
    exact ⟨rfl, rfl⟩
  · obtain ⟨hb, hs⟩ := hplain h'
    have hopen : (if r.segment ≠ none ∧ r.first = true ∧ r.cursor = 0 then some r.gen else none) = none := if_neg h'
    rw [hb, hs, hopen]
    exact ⟨rfl, rfl⟩

end

end Sys2Proof.Machine

/-! # What a report to the generation assembly changes, and the messages it sends (R97 to R102, R145, R151) -/

namespace Sys2Proof.Machine

section

variable {s t u : State} {b : BankId} {i : SlotId} {d : Domain} {g : Gen}

/-- The messages sent from `s` to `t` are compaction requests (R151). -/
def SendsCompactions (s t : State) : Prop := ∃ sent, t.todo.mail = s.todo.mail ++ sent ∧ ∀ m ∈ sent, ∃ e, m = .bankRequest e .compact

theorem SendsCompactions.of (h : t.todo.mail = s.todo.mail) : SendsCompactions s t := ⟨[], by rw [h, List.append_nil], nofun⟩

theorem SendsCompactions.trans (h : SendsCompactions s t) (k : SendsCompactions t u) : SendsCompactions s u := by
  obtain ⟨sent, hmail, hsent⟩ := h
  obtain ⟨sent', hmail', hsent'⟩ := k
  refine ⟨sent ++ sent', by rw [hmail', hmail, List.append_assoc], fun m hm => ?_⟩
  exact (List.mem_append.mp hm).elim (hsent m) (hsent' m)

/-- The slot has given its generation up, or keeps its manifest and forgets no lost index. -/
def Slot.lossKept (x y : Slot) : Prop := y.manifest = none ∨ y.manifest = x.manifest ∧ (y.lost = [] → x.lost = [])

theorem Slot.lossKept_refl (x : Slot) : x.lossKept x := .inr ⟨rfl, id⟩

theorem Slot.lossKept_trans {x y z : Slot} (h : x.lossKept y) (k : y.lossKept z) : x.lossKept z := by
  rcases k with hnone | ⟨hsame, hlost⟩
  · exact .inl hnone
  · rcases h with hnone' | ⟨hsame', hlost'⟩
    · exact .inl (hsame.trans hnone')
    · exact .inr ⟨hsame.trans hsame', fun e => hlost' (hlost e)⟩

/-- A slot that holds no manifest still holds none. -/
theorem Slot.lossKept_none {x y : Slot} (h : x.lossKept y) (hnone : x.manifest = none) : y.manifest = none :=
  h.elim id fun hsame => hsame.1.trans hnone

theorem Slot.keptAs_lossKept {x y : Slot} (h : x.keptAs y) : x.lossKept y := by
  unfold Slot.keptAs at h
  exact .inr ⟨(congrArg Slot.manifest h :), fun e => (congrArg Slot.lost h :).symm.trans e⟩

/-- From `s` to `t` the cohort view and the bank headers stand, only compaction requests are sent, and no slot that keeps its generation
forgets a lost index. -/
structure GauStep (s t : State) : Prop where
  view : t.todo.viewChanged = s.todo.viewChanged
  headers : t.store.headers = s.store.headers
  sends : SendsCompactions s t
  slots : ∀ i, (s.slot i).lossKept (t.slot i)

theorem GauStep.refl (s : State) : GauStep s s := ⟨rfl, rfl, .of rfl, fun i => (s.slot i).lossKept_refl⟩

theorem GauStep.trans (h : GauStep s t) (k : GauStep t u) : GauStep s u :=
  ⟨k.view.trans h.view, k.headers.trans h.headers, h.sends.trans k.sends, fun i => Slot.lossKept_trans (h.slots i) (k.slots i)⟩

theorem GauStep.ite {p : Prop} [Decidable p] (h : GauStep s t) (k : GauStep s u) : GauStep s (if p then t else u) := by
  split
  · exact h
  · exact k

theorem GauStep.fold {α : Type} (f : State → α → State) (hf : ∀ s a, GauStep s (f s a)) (l : List α) (s : State) :
    GauStep s (l.foldl f s) := by
  induction l generalizing s with
  | nil => exact .refl s
  | cons a l ih => exact (hf s a).trans (ih _)

/-- A change beside the slots, the headers and the event. -/
theorem GauStep.beside (hslots : t.slots = s.slots) (hheaders : t.store.headers = s.store.headers)
    (hview : t.todo.viewChanged = s.todo.viewChanged) (hmail : t.todo.mail = s.todo.mail) : GauStep s t :=
  ⟨hview, hheaders, .of hmail, fun i => by unfold State.slot; rw [hslots]; exact Slot.lossKept_refl _⟩

theorem pool_gau (s : State) (p : Pool) : GauStep s { s with pool := p } := .beside rfl rfl rfl rfl

theorem setSlot_gau {x : Slot} (h : (s.slot i).lossKept x) : GauStep s (s.setSlot i x) := by
  refine ⟨rfl, rfl, .of rfl, fun j => ?_⟩
  by_cases hj : j = i
  · rw [hj, State.setSlot_slot]; exact h
  · rw [State.setSlot_slot_other _ _ _ _ hj]; exact Slot.lossKept_refl _

/-! ## Drains and openings -/

theorem vacate_gau (s : State) (i : SlotId) : GauStep s (s.vacate i) :=
  (setSlot_gau (.inl rfl)).trans (.beside rfl rfl rfl rfl)

theorem walkWaitList_gau : ∀ (l : List SlotId) (s : State), GauStep s (s.walkWaitList l)
  | [], s => .refl s
  | i :: rest, s => by
    unfold State.walkWaitList
    dsimp only
    split
    · refine ((pool_gau s _).trans (setSlot_gau (i := i) ?_)).trans (walkWaitList_gau rest _)
      exact .inr ⟨rfl, id⟩
    · exact walkWaitList_gau rest s

theorem releaseReservation_gau (s : State) (n : Nat) : GauStep s (s.releaseReservation n) :=
  (pool_gau s _).trans (walkWaitList_gau _ _)

theorem withdrawWaiting_gau (s : State) (d : Domain) (g : Gen) : GauStep s (s.withdrawWaiting d g) := by
  unfold State.withdrawWaiting
  refine .fold _ (fun s b => ?_) _ _
  exact .beside rfl rfl rfl rfl

theorem tellDraining_gau (s : State) (i : SlotId) : GauStep s (s.tellDraining i) := by
  unfold State.tellDraining
  dsimp only
  refine .ite (.refl s) ?_
  split
  · exact .ite (.beside rfl rfl rfl rfl) (.beside rfl rfl rfl rfl)
  · exact .refl s

theorem answerDrained_gau (s : State) (i : SlotId) (d : Domain) (g : Gen) : GauStep s (s.answerDrained i d g) := by
  unfold State.answerDrained
  extract_lets mine
  exact .ite (.beside rfl rfl rfl rfl) (.refl s)

theorem drainSlot_gau (s : State) (i : SlotId) : GauStep s (s.drainSlot i) := by
  unfold State.drainSlot
  extract_lets x s1 s2 s3 s4 s5
  have h1 : GauStep s s1 := (tellDraining_gau s i).trans (.beside rfl rfl rfl rfl)
  have h2 : GauStep s s2 := h1.trans (setSlot_gau (.inl rfl))
  have h3 : GauStep s s3 := h2.trans (.ite (releaseReservation_gau _ _) (.refl _))
  have h4 : GauStep s s4 := h3.trans (withdrawWaiting_gau _ _ _)
  have h5 : GauStep s s5 := h4.trans (.ite (vacate_gau _ _) (.refl _))
  clear_value s5
  exact (h5.trans (answerDrained_gau _ _ _ _)).trans (.beside rfl rfl rfl rfl)

theorem openSlot_gau {o : Origin} {j : SlotId} (h : s.openSlot d g o = some (j, t)) : GauStep s t := by
  unfold State.openSlot at h
  split at h
  · cases h
  · cases h
    exact (setSlot_gau (.inl rfl)).trans (.beside rfl rfl rfl rfl)

theorem openWanted_gau (d : Domain) : ∀ (n : Nat) (s : State), GauStep s (s.openWanted d n)
  | 0, s => .refl s
  | n + 1, s => by
    have step : ∀ {s t : State} {j : SlotId} {g : Gen}, s.openSlot d g .peer = some (j, t) → GauStep s (t.openWanted d n) :=
      fun h => (openSlot_gau h).trans (openWanted_gau d n _)
    unfold State.openWanted
    split
    · exact .refl s
    · refine .ite (.refl s) (.ite ?_ (.ite ?_ (.refl s)))
      · split
        · next h => exact step h
        · exact .refl s
      · split
        · exact .refl s
        · next j _ =>
          refine (drainSlot_gau s j).trans (.ite ?_ (.refl _))
          split
          · next h => exact step h
          · exact .refl _

theorem openingPass_gau (s : State) (d : Domain) : GauStep s (s.openingPass d) := by
  refine GauStep.trans ?_ (openWanted_gau d 7 _)
  unfold State.drainHeld
  exact .fold _ (fun s i => .ite (drainSlot_gau s i) (.refl s)) _ _

/-! ## Advance tests -/

theorem requestCompaction_gau (s : State) (d : Domain) : GauStep s (s.requestCompaction d) := by
  unfold State.requestCompaction
  refine .fold _ (fun s e => ?_) _ _
  exact ⟨rfl, rfl, ⟨[.bankRequest e .compact], rfl, fun m hm => ⟨e, List.mem_singleton.mp hm⟩⟩, fun i => Slot.lossKept_refl _⟩

theorem writeDomainHeader_gau (s : State) (d : Domain) : GauStep s (s.writeDomainHeader d) := by
  unfold State.writeDomainHeader State.commitDomainHeader
  dsimp only
  split
  · exact .beside rfl rfl rfl rfl
  · exact .beside rfl rfl rfl rfl

theorem advanceTest_gau (s : State) (d : Domain) : GauStep s (s.advanceTest d) := by
  unfold State.advanceTest State.advanceVisible
  dsimp only
  split
  · exact .refl s
  · refine GauStep.trans (GauStep.trans ?_ (requestCompaction_gau _ d)) (.beside rfl rfl rfl rfl)
    refine GauStep.trans (GauStep.trans ?_ (writeDomainHeader_gau _ d)) (.beside rfl rfl rfl rfl)
    exact .beside rfl rfl rfl rfl

theorem advanceTests_gau (s : State) : GauStep s s.advanceTests := (advanceTest_gau s _).trans (advanceTest_gau _ _)

/-! ## Reports -/

theorem reportApplied_gau (s : State) (d : Domain) (g : Gen) : GauStep s (s.reportApplied d g) := by
  have hpass : GauStep s ((s.appendApplied d g).openingPass d) :=
    GauStep.trans (t := s.appendApplied d g) (.beside rfl rfl rfl rfl) (openingPass_gau _ d)
  unfold State.reportApplied
  dsimp only
  exact .ite (hpass.trans (writeDomainHeader_gau _ d)) (hpass.trans (advanceTest_gau _ d))

theorem completeApplied_gau (s : State) (i : SlotId) : GauStep s (s.completeApplied i) := by
  unfold State.completeApplied
  refine .ite (.refl s) ?_
  refine GauStep.trans (.trans (.trans ?_ (releaseReservation_gau _ _)) (vacate_gau _ i)) (reportApplied_gau _ _ _)
  exact GauStep.trans (t := s.unpinSlot i (s.slot i).domain (s.slot i).gen) (.beside rfl rfl rfl rfl) (setSlot_gau (.inr ⟨rfl, id⟩))

theorem cursoring_gau (s : State) (i : SlotId) (b : BankId) (f : ApplyCursor → ApplyCursor) : GauStep s (s.cursoring i b f) :=
  setSlot_gau (.inr ⟨rfl, id⟩)

theorem block_gau (s : State) (i : SlotId) (c : BlockCause) : GauStep s (s.block i c) := by
  unfold State.block
  extract_lets x s1 s2 overtaken
  have h1 : GauStep s s1 := setSlot_gau (.inr ⟨rfl, id⟩)
  have h2 : GauStep s s2 := .ite (h1.trans (.beside rfl rfl rfl rfl)) h1
  exact .ite (h2.trans (drainSlot_gau _ i)) h2

theorem unblock_gau (s : State) (i : SlotId) : GauStep s (s.unblock i) := .ite (setSlot_gau (.inr ⟨rfl, id⟩)) (.refl s)

theorem quiesced_gau (s : State) (i : SlotId) : GauStep s (s.quiesced i) := .ite (setSlot_gau (.inr ⟨rfl, id⟩)) (.refl s)

theorem refusedFault_gau (s : State) (i : SlotId) (b : BankId) : GauStep s (s.refusedFault i b) := by
  unfold State.refusedFault
  extract_lets x s1
  have h1 : GauStep s s1 := cursoring_gau s i b _
  exact .ite ((cursoring_gau s i b _).trans (unblock_gau _ i))
    (.ite (h1.trans (block_gau _ i _)) (h1.trans (setSlot_gau (.inr ⟨rfl, id⟩))))

theorem reportFor_gau (s : State) (i : SlotId) (b : BankId) (r : BankReport) : GauStep s (s.reportFor i b r) := by
  unfold State.reportFor
  extract_lets x
  split
  · exact (cursoring_gau s i b _).trans (unblock_gau _ i)
  · exact .refl s
  · exact (cursoring_gau s i b _).trans (completeApplied_gau _ i)
  · exact (cursoring_gau s i b _).trans (completeApplied_gau _ i)
  · exact cursoring_gau s i b _
  · exact refusedFault_gau s i b
  · exact cursoring_gau s i b _
  · exact cursoring_gau s i b _
  · exact (cursoring_gau s i b _).trans (quiesced_gau _ i)
  · exact .ite (.ite (cursoring_gau s i b _) (.ite (block_gau s i _) (.refl s))) (.refl s)

theorem takeReport_gau (s : State) (b : BankId) (r : BankReport) : GauStep s (s.takeReport b r) := by
  unfold State.takeReport
  split
  · exact .refl s
  · next i _ =>
    extract_lets s1
    have h1 : GauStep s s1 := cursoring_gau s i b _
    split
    · exact .ite (h1.trans (reportFor_gau _ i b r)) h1
    · exact h1.trans (reportFor_gau _ i b r)

theorem viewTests_gau (s : State) :
    SendsCompactions s s.viewTests ∧ s.viewTests.store.headers = s.store.headers ∧ s.viewTests.todo.viewChanged = false ∧
    ∀ i, (s.slot i).lossKept (s.viewTests.slot i) := by
  obtain ⟨hview, hheaders, hsends, hslots⟩ := advanceTests_gau { s with todo := { s.todo with viewChanged := false } }
  exact ⟨hsends, hheaders, hview, hslots⟩

/-- A lost index joins what the slot has lost; it forgets none. -/
theorem takeIndexLost_gau (s : State) (d : Domain) (g : Gen) (k : Nat) : GauStep s (s.takeIndexLost d g k) := by
  unfold State.takeIndexLost
  split
  · exact .refl s
  · next i _ =>
    extract_lets x
    split
    · exact .refl s
    · refine GauStep.trans (setSlot_gau (i := i) ?_) (.beside rfl rfl rfl rfl)
      refine .inr ⟨rfl, fun h => ?_⟩
      dsimp only at h
      split at h
      · exact absurd h (List.append_ne_nil_of_right_ne_nil _ (List.cons_ne_nil _ _))
      · exact h

end

end Sys2Proof.Machine

/-! # The last bank of a generation advances (R99, R145) -/

namespace Sys2Proof.Machine

section

variable {s t x z : State} {b : BankId} {i : SlotId} {d : Domain} {g : Gen}

/-! ## The report of the last bank -/

/-- Slot `i` applies `g`, and of the banks of its domain only `b` has yet to advance. -/
structure State.lastAdvance (x : State) (b : BankId) (i : SlotId) (g : Gen) : Prop where
  state : (x.slot i).state = .applying ∨ (x.slot i).state = .blocked
  domain : (x.slot i).domain = x.bankDomain b
  gen : (x.slot i).gen = g
  lost : (x.slot i).lost = []
  waits : i ∉ x.pool.waitList
  alone : ∀ j, j ≠ i → (x.slot j).domain = x.bankDomain b → (x.slot j).state ≠ .applying ∧ (x.slot j).state ≠ .blocked
  others : ∀ e ∈ x.banksOf (x.bankDomain b), e ≠ b → (x.slot i).cursors[e].phase = .advanced

/-- The slot of the only generation that its domain applies is the one that a report of a bank reaches. -/
theorem State.lastAdvance.applyingSlot (h : x.lastAdvance b i g) : x.applyingSlot (x.bankDomain b) = some i := by
  have hmem : i ∈ x.domainSlots (x.bankDomain b) := by
    unfold State.domainSlots
    rcases h.state with hs | hs <;> simp [hs, h.domain, allSlots]
  have htest : ((x.slot i).state == .applying || (x.slot i).state == .blocked) = true := by
    rw [Bool.or_eq_true, beq_iff_eq, beq_iff_eq]
    exact h.state
  unfold State.applyingSlot
  cases hfind : (x.domainSlots (x.bankDomain b)).find? (fun j => (x.slot j).state == .applying || (x.slot j).state == .blocked) with
  | none => exact absurd htest (List.find?_eq_none.mp hfind i hmem)
  | some j =>
    by_cases hj : j = i
    · rw [hj]
    · have hdomain : (x.slot j).domain = x.bankDomain b := by
        have := List.mem_of_find?_eq_some hfind
        unfold State.domainSlots at this
        simp only [List.mem_filter, Bool.and_eq_true, beq_iff_eq] at this
        exact this.2.2
      obtain ⟨hnot, hnot'⟩ := h.alone j hj hdomain
      have := List.find?_some hfind
      rw [Bool.or_eq_true, beq_iff_eq, beq_iff_eq] at this
      exact absurd this (not_or.mpr ⟨hnot, hnot'⟩)

/-- The slot with the cursor of `b` advanced. -/
def Slot.advancedAt (a : Slot) (b : BankId) : Slot :=
  { a with cursors := a.cursors.set b { a.cursors[b] with await := false, phase := .advanced, next := none } }

theorem setSlot_setSlot (s : State) (i : SlotId) (a c : Slot) : (s.setSlot i a).setSlot i c = s.setSlot i c := by
  unfold State.setSlot
  simp

theorem cursoring_advances (x : State) (i : SlotId) (b : BankId) :
    ((x.cursoring i b (fun c => { c with await := false })).cursoring i b (fun c => { c with phase := .advanced, next := none })) =
      x.setSlot i ((x.slot i).advancedAt b) := by
  unfold State.cursoring State.slotting
  rw [setSlot_setSlot, State.setSlot_slot]
  unfold Slot.advancedAt
  simp

theorem takeReport_last (h : x.lastAdvance b i g) :
    x.takeReport b (.advanced g) = (x.setSlot i ((x.slot i).advancedAt b)).completeApplied i := by
  have hgen : g = ((x.cursoring i b (fun c => { c with await := false })).slot i).gen := by
    unfold State.cursoring
    rw [State.slotting_slot]
    exact h.gen.symm
  unfold State.takeReport
  rw [h.applyingSlot]
  show (if g = ((x.cursoring i b (fun c => { c with await := false })).slot i).gen then _ else _) = _
  rw [if_pos hgen, ← cursoring_advances]
  rfl

theorem generationDone_last (h : x.lastAdvance b i g) : (x.setSlot i ((x.slot i).advancedAt b)).generationDone i = true := by
  unfold State.generationDone
  rw [State.setSlot_slot]
  have hstate : ((x.slot i).state == .applying || (x.slot i).state == .blocked) = true := by
    rw [Bool.or_eq_true, beq_iff_eq, beq_iff_eq]
    exact h.state
  simp only [Bool.and_eq_true, List.all_eq_true, beq_iff_eq]
  refine ⟨⟨hstate, by rw [Slot.advancedAt, h.lost]; rfl⟩, fun e he => ?_⟩
  by_cases heb : e = b
  · subst heb
    simp [Slot.advancedAt]
  · have hphase := h.others e (by rw [← h.domain]; exact he) heb
    have hne : (b : Nat) ≠ e := fun hh => heb (Fin.ext hh.symm)
    simp only [Slot.advancedAt]
    simpa [Vector.getElem_set, hne] using hphase

/-! ## The slot of an applied generation goes EMPTY (R99) -/

/-- What the end of a generation makes of its slot, before it is reported applied. -/
def State.completing (s : State) (i : SlotId) : State :=
  ((((s.unpinSlot i (s.slot i).domain (s.slot i).gen).setSlot i { s.slot i with admitted := false }).releaseReservation
    (s.slot i).count).vacate i)

theorem completeApplied_done (h : s.generationDone i = true) :
    s.completeApplied i = (s.completing i).reportApplied (s.slot i).domain (s.slot i).gen := by
  unfold State.completeApplied
  rw [h]
  rfl

/-- The reservation of the slot is released, its pin too, and it is EMPTY; no other slot changes where none waits for admission. -/
structure Completed (x z : State) (i : SlotId) (d : Domain) (g : Gen) : Prop where
  keeps : PassKeeps x z
  empty : z.slot i = Slot.empty
  waits : i ∉ z.pool.waitList
  unpinned : ∀ p ∈ z.pool.pins, ¬ (p.holder = .slot i ∧ p.domain = d ∧ p.gen = g)
  alone : x.pool.waitList = [] → z.pool.reserved = x.pool.reserved - (x.slot i).count ∧ ∀ j, j ≠ i → z.slot j = x.slot j

theorem unpinSlot_facts (s : State) (i : SlotId) (d : Domain) (g : Gen) :
    PassKeeps s (s.unpinSlot i d g) ∧ ∀ p ∈ (s.unpinSlot i d g).pool.pins, ¬ (p.holder = .slot i ∧ p.domain = d ∧ p.gen = g) := by
  refine ⟨⟨rfl, rfl, rfl, rfl, rfl, fun p hp => List.mem_of_mem_filter hp⟩, fun p hp h => ?_⟩
  have := (List.mem_filter.mp hp).2
  obtain ⟨hholder, hdomain, hgen⟩ := h
  simp [hholder, hdomain, hgen] at this

theorem releaseReservation_facts (s : State) (n : Nat) : (∀ j, j ∈ (s.releaseReservation n).pool.waitList → j ∈ s.pool.waitList) ∧
    (s.pool.waitList = [] → (s.releaseReservation n).pool.reserved = s.pool.reserved - n ∧
      ∀ j, (s.releaseReservation n).slot j = s.slot j) := by
  obtain ⟨-, -, hwaits, -⟩ := walkWaitList_slots s.pool.waitList { s with pool := { s.pool with reserved := s.pool.reserved - n } }
  refine ⟨hwaits, fun h => ?_⟩
  unfold State.releaseReservation
  dsimp only
  rw [h]
  exact ⟨rfl, fun _ => rfl⟩

theorem completing_completed (hwaits : i ∉ s.pool.waitList) :
    Completed s (s.completing i) i (s.slot i).domain (s.slot i).gen := by
  obtain ⟨hunpins, hunpinned⟩ := unpinSlot_facts s i (s.slot i).domain (s.slot i).gen
  unfold State.completing
  generalize ht : (s.unpinSlot i (s.slot i).domain (s.slot i).gen).setSlot i { s.slot i with admitted := false } = t
  have hkeeps : PassKeeps s t := by rw [← ht]; exact hunpins.trans (setSlot_passKeeps _ _ _)
  have hpins : ∀ p ∈ t.pool.pins, ¬ (p.holder = .slot i ∧ p.domain = (s.slot i).domain ∧ p.gen = (s.slot i).gen) := by
    rw [← ht]; exact hunpinned
  have hlist : t.pool.waitList = s.pool.waitList := by rw [← ht]; rfl
  have hreserved : t.pool.reserved = s.pool.reserved := by rw [← ht]; rfl
  have hslots : ∀ j, j ≠ i → t.slot j = s.slot j := fun j hj => by
    rw [← ht, State.setSlot_slot_other _ _ _ _ hj]; rfl
  have hrelease := releaseReservation_passKeeps t (s.slot i).count
  obtain ⟨hlist', halone⟩ := releaseReservation_facts t (s.slot i).count
  generalize t.releaseReservation (s.slot i).count = y at hrelease hlist' halone ⊢
  refine ⟨(hkeeps.trans hrelease).trans (vacate_passKeeps _ _), State.setSlot_slot _ _ _, ?_, ?_, fun h => ?_⟩
  · exact fun h => hwaits (hlist ▸ hlist' i h)
  · exact fun p hp => hpins p (hrelease.pins p hp)
  · obtain ⟨hcount, hsame⟩ := halone (hlist.trans h)
    refine ⟨hcount.trans (by rw [hreserved]), fun j hj => ?_⟩
    exact (State.setSlot_slot_other _ _ _ _ hj).trans ((hsame j).trans (hslots j hj))

/-! ## The generation is reported applied (R145, R147) -/

theorem PassKeeps.domain (h : PassKeeps x z) (d : Domain) : z.domain d = x.domain d := by
  unfold State.domain
  rw [h.vis]

/-- The opening pass at the new held generation leaves an EMPTY slot that no peer announces a later generation for, and changes nothing
where nothing drains. -/
theorem openingPass_unwanted (hheld : (x.domain d).held = g)
    (hpeers : ∀ p ∈ x.peers, p.state = .known → (p.values.get d).held ≤ g ∧ ∀ k, (p.values.get d).baseline = some k → k ≤ g) :
    x.openingPass d = x.drainHeld d := by
  obtain ⟨hkeeps, -⟩ := drainHeld_facts x d
  refine openWanted_none (wanted_none ?_) 7
  rw [hkeeps.peers, hkeeps.domain, hheld]
  exact hpeers

theorem appendApplied_facts (z : State) (d : Domain) (g : Gen) : ((z.appendApplied d g).domain d).held = g ∧
    (z.appendApplied d g).slots = z.slots ∧ (z.appendApplied d g).pool = z.pool ∧ (z.appendApplied d g).peers = z.peers := by
  refine ⟨?_, rfl, rfl, rfl⟩
  unfold State.appendApplied
  rw [State.setDomain_domain]

/-- R80, R99: the opening pass after the generation is reported applied. -/
theorem Completed.opening (h : Completed x z i d g)
    (hpeers : ∀ p ∈ x.peers, p.state = .known → (p.values.get d).held ≤ g ∧ ∀ k, (p.values.get d).baseline = some k → k ≤ g) :
    ((z.appendApplied d g).openingPass d).slot i = Slot.empty ∧
    ((∀ j, j ≠ i → (x.slot j).domain = d → (x.slot j).gen ≤ g → (x.slot j).state = .empty ∨ (x.slot j).state = .draining) →
      x.pool.waitList = [] → ((z.appendApplied d g).openingPass d).pool.reserved = x.pool.reserved - (x.slot i).count ∧
      ∀ j, j ≠ i → ((z.appendApplied d g).openingPass d).slot j = x.slot j) := by
  obtain ⟨hheld, hslots, hpool, hsame⟩ := appendApplied_facts z d g
  generalize z.appendApplied d g = y at hheld hslots hpool hsame ⊢
  have hslot : ∀ j, y.slot j = z.slot j := fun j => by unfold State.slot; rw [hslots]
  rw [openingPass_unwanted hheld (by rw [hsame, h.keeps.peers]; exact hpeers)]
  have hempty : (y.slot i).state = .empty := by rw [hslot, h.empty]; rfl
  refine ⟨?_, fun hdrains hwaits => ?_⟩
  · obtain ⟨-, -, hstays⟩ := drainHeld_facts y d
    rw [hstays i hempty (by rw [hpool]; exact h.waits), hslot, h.empty]
  · obtain ⟨hreserved, hothers⟩ := h.alone hwaits
    rw [drainHeld_none fun j hdomain hgen => ?_]
    · exact ⟨by rw [hpool, hreserved], fun j hj => (hslot j).trans (hothers j hj)⟩
    · by_cases hj : j = i
      · rw [hj]; exact .inl hempty
      · rw [hslot, hothers j hj] at hdomain hgen ⊢
        rw [hheld] at hgen
        exact hdrains j hj hdomain hgen

theorem Completed.appliedAt (h : Completed x z i d g) : x.appliedAt i d g (z.reportApplied d g) := by
  obtain ⟨hheld, ⟨hpending, hvisible, hfirst, hlater, hheader⟩, hslots, hpool⟩ := reportApplied_facts z d g
  have hpasses : z.passes d = x.passes d := passes_congr h.keeps.peers h.keeps.supply d
  have hslot : ∀ j, (z.reportApplied d g).slot j = ((z.appendApplied d g).openingPass d).slot j := fun j => by
    unfold State.slot; rw [hslots]
  obtain ⟨hdrains, hdrained, -⟩ := drainHeld_facts (z.appendApplied d g) d
  obtain ⟨hopens, hopened⟩ := openWanted_facts d 7 ((z.appendApplied d g).drainHeld d)
  have hgiven : ((z.appendApplied d g).slot i).given := by
    show (z.slot i).given
    rw [h.empty]
    exact ⟨rfl, rfl, by decide, by decide⟩
  refine ⟨hheld, ?pending, hheader, ?slot, fun hpeers => ?empty, fun p hp => ?unpinned⟩
  case pending =>
    rw [hpasses, h.keeps.domain] at hpending hvisible hfirst hlater
    rw [h.keeps.clock, h.keeps.supply] at hfirst hlater
    exact ⟨_, _, takeWhile_dropWhile (x.passes d) _, fun k hk => (passes_iff_agrees x d k).mp (List.mem_takeWhile_imp hk),
      fun k hk ha => Bool.false_ne_true ((dropWhile_head _ _ _ hk).symm.trans ((passes_iff_agrees x d k).mpr ha)),
      hpending, hvisible, hfirst, hlater⟩
  case slot =>
    rw [hslot]
    exact hopened i (hdrained i hgiven)
  case empty =>
    obtain ⟨hempty, hothers⟩ := h.opening hpeers
    rw [hslot, hpool]
    exact ⟨hempty, fun hd hw => ⟨(hothers hd hw).1, fun j hj => (hslot j).trans ((hothers hd hw).2 j hj)⟩⟩
  case unpinned =>
    rw [hpool] at hp
    exact h.unpinned p (hdrains.pins p (hopens.pins p hp))

/-- R99, R145: the report of the last bank completes the generation. -/
theorem deliver_last (h : x.lastAdvance b i g) :
    ∃ z, x.deliver (.bankReport b (.advanced g)) = z.reportApplied (x.bankDomain b) g ∧ Completed x z i (x.bankDomain b) g := by
  have hslot := State.setSlot_slot x i ((x.slot i).advancedAt b)
  have hdone := completing_completed (s := x.setSlot i ((x.slot i).advancedAt b)) (i := i) h.waits
  have hcomplete := completeApplied_done (generationDone_last h)
  rw [hslot] at hdone hcomplete
  have hdomain : ((x.slot i).advancedAt b).domain = x.bankDomain b := h.domain
  have hgen : ((x.slot i).advancedAt b).gen = g := h.gen
  rw [hdomain, hgen] at hdone hcomplete
  refine ⟨_, (takeReport_last h).trans hcomplete, (setSlot_passKeeps _ _ _).trans hdone.keeps, hdone.empty, hdone.waits, hdone.unpinned,
    fun hwaits => ?_⟩
  obtain ⟨hreserved, hothers⟩ := hdone.alone hwaits
  rw [hslot] at hreserved
  exact ⟨hreserved, fun j hj => (hothers j hj).trans (State.setSlot_slot_other _ _ _ _ hj)⟩

end

end Sys2Proof.Machine

/-! # What the end of a generation leaves of the cohort view, and its place in the event -/

namespace Sys2Proof.Machine

section

variable {s t u w x y : State} {b : BankId} {i : SlotId} {d : Domain} {g : Gen}

/-! ## A generation applied after the advance tests of the same event -/

theorem State.lastAdvance.congr (h : s.lastAdvance b i g) (hslots : x.slots = s.slots) (hsupply : x.supply = s.supply)
    (hwaits : x.pool.waitList = s.pool.waitList) : x.lastAdvance b i g := by
  have hslot : ∀ j, x.slot j = s.slot j := fun j => by unfold State.slot; rw [hslots]
  have hdomain : ∀ e, x.bankDomain e = s.bankDomain e := fun e => by unfold State.bankDomain; rw [hsupply]
  have hbanks : x.banksOf (x.bankDomain b) = s.banksOf (s.bankDomain b) := by unfold State.banksOf; simp only [hdomain]
  obtain ⟨h1, h2, h3, h4, h5, h6, h7⟩ := h
  constructor
  · rw [hslot]; exact h1
  · rw [hslot, hdomain]; exact h2
  · rw [hslot]; exact h3
  · rw [hslot]; exact h4
  · rw [hwaits]; exact h5
  · intro j; rw [hslot, hdomain]; exact h6 j
  · rw [hbanks, hslot]; exact h7

/-- What `appliedAt` reads outside the domain's values is alike. -/
structure AppliedFrame (s x : State) : Prop where
  slots : x.slots = s.slots
  reserved : x.pool.reserved = s.pool.reserved
  waits : x.pool.waitList = s.pool.waitList
  peers : x.peers = s.peers
  supply : x.supply = s.supply
  clock : x.clock = s.clock

theorem AppliedFrame.trans (h : AppliedFrame s t) (k : AppliedFrame t x) : AppliedFrame s x :=
  ⟨k.slots.trans h.slots, k.reserved.trans h.reserved, k.waits.trans h.waits, k.peers.trans h.peers, k.supply.trans h.supply,
    k.clock.trans h.clock⟩

/-- What the end of a generation makes of the slots and the pool does not depend on the values of the domain. -/
theorem State.appliedAt.of_pending (h : x.appliedAt i d g w) (hframe : AppliedFrame s x)
    (hpending : ∃ passed left, (s.domain d).pending ++ [g] = passed ++ left ∧ (∀ k ∈ passed, s.agrees d k) ∧
      (∀ k, left.head? = some k → ¬ s.agrees d k) ∧ (w.domain d).pending = left ∧
      (w.domain d).visible = (match passed.getLast? with
        | some v => v
        | none => (s.domain d).visible) ∧
      (passed = [] → (w.domain d).timer = (if (s.domain d).pending = [] then some (s.clock + s.supply.config.cohortWait * 1000000)
        else (s.domain d).timer)) ∧
      (passed ≠ [] → (w.domain d).timer = (if left = [] then none else some (s.clock + s.supply.config.cohortWait * 1000000)))) :
    s.appliedAt i d g w := by
  have hslot : ∀ j, x.slot j = s.slot j := fun j => by unfold State.slot; rw [hframe.slots]
  have hempty := h.empty
  rw [hframe.peers, hframe.waits, hframe.reserved] at hempty
  simp only [hslot] at hempty
  exact ⟨h.held, hpending, h.header, h.slot, hempty, h.unpinned⟩

theorem State.appliedAt.of_same (h : x.appliedAt i d g w) (hframe : AppliedFrame s x) (hdomain : x.domain d = s.domain d) :
    s.appliedAt i d g w := by
  have hpending := h.pending
  simp only [hdomain, hframe.clock, hframe.supply, agrees_congr hframe.supply hframe.peers] at hpending
  exact h.of_pending hframe hpending

/-- The advance of the tests and the one of the applied generation make one advance. -/
theorem State.appliedAt.of_tested {passed left : List Gen} (h : x.appliedAt i d g w) (hframe : AppliedFrame s x)
    (htested : Tested s x d passed left) : s.appliedAt i d g w := by
  rcases List.eq_nil_or_concat passed with hnone | ⟨before, v, hv⟩
  · exact h.of_same hframe (htested.kept hnone).1
  have hlast : passed.getLast? = some v := by rw [hv]; simp
  have hsome : passed ≠ [] := by rw [hv]; simp
  obtain ⟨hdomain, -⟩ := htested.advanced v hlast
  obtain ⟨passed', left', hsplit, hpass, hstop, hleft, hvisible, hfirst, hlater⟩ := h.pending
  simp only [hdomain, hframe.clock, hframe.supply, agrees_congr hframe.supply hframe.peers] at hsplit hpass hstop hvisible hfirst hlater
  refine h.of_pending hframe ⟨passed ++ passed', left', ?_, fun k hk => ?_, hstop, hleft, ?_, fun hnil => ?_, fun _ => ?_⟩
  · rw [htested.split, List.append_assoc, hsplit, List.append_assoc]
  · exact (List.mem_append.mp hk).elim (htested.pass k) (hpass k)
  · rw [hvisible, List.getLast?_append, hlast]
    cases passed'.getLast? <;> rfl
  · exact absurd (List.append_eq_nil_iff.mp hnil).1 hsome
  · by_cases hnil : passed' = []
    · have hopen : left' ≠ [] := by
        rw [hnil, List.nil_append] at hsplit
        rw [← hsplit]
        simp
      rw [hfirst hnil, if_neg hopen]
      split
      · rfl
      · rfl
    · exact hlater hnil

/-! ## Messages that change nothing -/

/-- The messages of the event, replaced. -/
def State.mailing (s : State) (m : List Msg) : State := { s with todo := { s.todo with mail := m } }

theorem settleOnce_mail {m : Msg} {rest : List Msg} (hview : s.todo.viewChanged = false) (hmail : s.todo.mail = m :: rest) :
    s.settleOnce = some ((s.mailing rest).deliver m) := by
  unfold State.settleOnce
  rw [hview, if_neg Bool.false_ne_true, hmail]
  rfl

theorem settleOnce_mailing {m : Msg} (hview : s.todo.viewChanged = false) (rest : List Msg) :
    (s.mailing (m :: rest)).settleOnce = some ((s.mailing rest).deliver m) := settleOnce_mail (s := s.mailing (m :: rest)) hview rfl

/-- No slot holds some generation. -/
theorem exists_unheld (s : State) : ∃ g : Gen, ∀ d, s.slotHolding d g = none := by
  obtain ⟨top, htop⟩ := (Set.finite_range (fun j => (s.slot j).gen)).bddAbove
  refine ⟨top + 1, fun d => List.find?_eq_none.mpr fun j _ hj => ?_⟩
  have hle : (s.slot j).gen ≤ top := htop ⟨j, rfl⟩
  simp only [Bool.and_eq_true, beq_iff_eq] at hj
  exact absurd (hj.2.symm.le.trans hle) (Nat.not_succ_le_self top)

/-- A lost index of a generation that no slot holds changes nothing. -/
theorem takeIndexLost_unheld {k : Nat} (h : s.slotHolding d g = none) : s.takeIndexLost d g k = s := by
  unfold State.takeIndexLost
  rw [h]

/-- A message can stand before the others that leaves the state as it is. -/
theorem exists_idle_message (s : State) : ∃ m : Msg, ∀ l, (s.mailing l).deliver m = s.mailing l := by
  obtain ⟨g, hg⟩ := exists_unheld s
  exact ⟨.indexLost .block g 0, fun l => takeIndexLost_unheld (s := s.mailing l) (hg .block)⟩

theorem settleLoop_succ (h : s.settleOnce = some t) (n : Nat) : s.settleLoop (n + 1) = t.settleLoop n := by
  show (match s.settleOnce with
    | none => s
    | some s => s.settleLoop n) = _
  rw [h]

/-- Two events that meet after two steps end alike. -/
theorem settle_meet {s' t' : State} (h : s.settleOnce = some s') (h' : s'.settleOnce = some y) (k : t.settleOnce = some t')
    (k' : t'.settleOnce = some y) : s.settle = t.settle := by
  have hloop : s.settleLoop (4094 + 1 + 1) = t.settleLoop (4094 + 1 + 1) := by
    rw [settleLoop_succ h, settleLoop_succ h', settleLoop_succ k, settleLoop_succ k']
  exact congrArg (fun z : State => z.arbiter.beginServeRead.settleCold.closingEnds.dormantStart) hloop

/-- An event that is at `y` after two steps is also one that comes to `y`, with a message still to read, in one. -/
theorem settle_pads {s' : State} (h : s.settleOnce = some s') (h' : s'.settleOnce = some y) (hview : y.todo.viewChanged = false) :
    ∃ (u : State) (l : List Msg), s.settle = u.settle ∧ u.settleOnce = some (y.mailing l) := by
  obtain ⟨m, hm⟩ := exists_idle_message y
  have hfirst : (y.mailing (m :: m :: y.todo.mail)).settleOnce = some (y.mailing (m :: y.todo.mail)) := by
    rw [settleOnce_mailing hview]
    exact congrArg some (hm _)
  have hsecond : (y.mailing (m :: y.todo.mail)).settleOnce = some y := by
    rw [settleOnce_mailing hview]
    exact congrArg some (hm _)
  exact ⟨_, _, settle_meet h h' hfirst hsecond, hfirst⟩

theorem State.appliedAt.mailing (h : s.appliedAt i d g w) (l : List Msg) : s.appliedAt i d g (w.mailing l) :=
  ⟨h.held, h.pending, h.header, h.slot, h.empty, h.unpinned⟩

/-! ## The header write of the last bank (R34, R97, R99, R145) -/

/-- The advance tests of a changed view leave the slots and the pool, and send messages of their own. -/
theorem viewTests_facts (s : State) : AppliedFrame s s.viewTests ∧ s.viewTests.todo.viewChanged = false ∧
    ∃ more, s.viewTests.todo.mail = s.todo.mail ++ more := by
  have hquiet := quiet_advanceTests (s := { s with todo := { s.todo with viewChanged := false } })
  obtain ⟨-, hpeers, -⟩ := advanceTest_other { s with todo := { s.todo with viewChanged := false } } .block
  obtain ⟨-, hpeers', -⟩ := advanceTest_other (State.advanceTest { s with todo := { s.todo with viewChanged := false } } .block) .product
  obtain ⟨⟨sent, hmail, -⟩, -, hview, -⟩ := viewTests_gau s
  exact ⟨⟨hquiet.slots, congrArg Pool.reserved hquiet.calm.pool, congrArg Pool.waitList hquiet.calm.pool, hpeers'.trans hpeers,
    hquiet.calm.supply, hquiet.calm.clock⟩, hview, sent, hmail⟩

/-- The first message of the event is the report of the last bank: it completes the generation. -/
theorem report_applies {rest : List Msg} (h : x.lastAdvance b i g) (hview : x.todo.viewChanged = false)
    (hmail : x.todo.mail = .bankReport b (.advanced g) :: rest) :
    ∃ w : State, x.settleOnce = some w ∧ w.todo.viewChanged = false ∧ x.appliedAt i (x.bankDomain b) g w := by
  have hlast : (x.mailing rest).lastAdvance b i g := h.congr rfl rfl rfl
  obtain ⟨z, hz, hcompleted⟩ := deliver_last hlast
  refine ⟨_, settleOnce_mail hview hmail, (takeReport_gau (x.mailing rest) b (.advanced g)).view.trans hview, ?_⟩
  rw [hz]
  exact State.appliedAt.of_same (x := x.mailing rest) hcompleted.appliedAt ⟨rfl, rfl, rfl, rfl, rfl, rfl⟩ rfl

/-- The advance tests that are due come first, in the same event. -/
theorem last_report_settles {rest : List Msg} (h : x.lastAdvance b i g) (hmail : x.todo.mail = .bankReport b (.advanced g) :: rest) :
    ∃ u w : State, x.settle = u.settle ∧ u.settleOnce = some w ∧ x.appliedAt i (x.bankDomain b) g w := by
  cases hview : x.todo.viewChanged with
  | false =>
    obtain ⟨w, hw, -, happlied⟩ := report_applies h hview hmail
    exact ⟨x, w, rfl, hw, happlied⟩
  | true =>
    obtain ⟨hframe, hview', more, hmore⟩ := viewTests_facts x
    obtain ⟨passed, left, htested⟩ := advanceTests_tested { x with todo := { x.todo with viewChanged := false } } (x.bankDomain b)
    have hlast : x.viewTests.lastAdvance b i g := h.congr hframe.slots hframe.supply hframe.waits
    obtain ⟨w, hw, hwview, happlied⟩ := report_applies hlast hview' (by rw [hmore, hmail]; rfl)
    have hdomain : x.viewTests.bankDomain b = x.bankDomain b := by unfold State.bankDomain; rw [hframe.supply]
    rw [hdomain] at happlied
    obtain ⟨u, l, hsettle, hu⟩ := settle_pads (settleOnce_view hview) hw hwview
    exact ⟨u, _, hsettle, hu, (happlied.of_tested hframe (passed := passed) (left := left)
      ⟨htested.split, htested.pass, htested.stop, htested.kept, htested.advanced⟩).mailing l⟩

end

end Sys2Proof.Machine

/-! # The header write that ends an operation -/

namespace Sys2Proof.Machine

section

variable {s t : State} {b : BankId} {i : SlotId} {g : Gen}

/-- The work of a bank leaves what the end of a generation reads. -/
theorem BankOnly.appliedFrame {W : Bool} (h : BankOnly W b s t) : AppliedFrame s t ∧ t.vis = s.vis :=
  ⟨⟨(congrArg State.slots h.outside :), (congrArg (fun x => x.pool.reserved) h.outside :), (congrArg (fun x => x.pool.waitList) h.outside :),
    (congrArg State.peers h.outside :), (congrArg State.supply h.outside :), (congrArg State.clock h.outside :)⟩,
    (congrArg State.vis h.outside :)⟩

theorem headerCommit_advances {r : ApplyRequest} (hwork : (s.bank b).work = .advance r) : s.headerCommit b = s.advanceCommit b r := by
  unfold State.headerCommit
  rw [hwork]

/-- The report of the advance stands first. -/
theorem advanceCommit_mail (s : State) (b : BankId) (r : ApplyRequest) :
    ∃ more, (s.advanceCommit b r).todo.mail = s.todo.mail ++ .bankReport b (.advanced r.gen) :: more := by
  obtain ⟨more, h⟩ := nextWork_appends ((s.advanceWrite b r).report b (.advanced r.gen)) b
  exact ⟨more, h.trans (List.append_assoc _ _ _)⟩

/-- R97, R99: the header write of the last bank has the generation applied. -/
theorem headerCommit_applies {r : ApplyRequest} (hwork : (s.bank b).work = .advance r) (hmail : s.todo.mail = [])
    (h : s.lastAdvance b i r.gen) :
    ∃ u w : State, exec (.bankHeaderWriteCommit b) s = .next u.settle ∧ u.settleOnce = some w ∧
      s.appliedAt i (s.bankDomain b) r.gen w := by
  obtain ⟨hframe, hvis⟩ := (advanceCommit_on (.refl true b s) r).appliedFrame
  obtain ⟨more, hmore⟩ := advanceCommit_mail s b r
  rw [hmail, List.nil_append] at hmore
  obtain ⟨u, w, hsettle, hw, happlied⟩ := last_report_settles (h.congr hframe.slots hframe.supply hframe.waits) hmore
  have hdomain : (s.advanceCommit b r).bankDomain b = s.bankDomain b := by unfold State.bankDomain; rw [hframe.supply]
  rw [hdomain] at happlied
  refine ⟨u, w, ?_, hw, happlied.of_same hframe (by unfold State.domain; rw [hvis])⟩
  rw [headerCommit_exec (headerCommit_advances hwork), hsettle]

/-- R21, R25: the header write of a recovery, and what the bank goes on to. -/
theorem headerCommit_afterRecovery (hwork : (s.bank b).work = .recoverHeader) (hwanted : (s.bank b).compactWanted = true) :
    ∃ u : State, exec (.bankHeaderWriteCommit b) s = .next u.settle ∧ u.store.places = s.store.places ∧
      (∀ e, e ≠ b → u.bank e = s.bank e) ∧ (u.bank b).fullScan = false ∧
      s.afterRecovery b (s.recoveredHeader b) (s.recoveredStored b) u := by
  obtain ⟨hbank, -, -, hplaces, -, -, hothers⟩ := recoverEndWrite_facts s b
  have hnext := nextWork_on (.refl false b (s.recoverEndWrite b))
  refine ⟨_, headerCommit_exec (headerCommit_recovers hwork), (hnext.places rfl).trans hplaces,
    fun e he => (hnext.others e he).trans (hothers e he), ?_, (recoverEndWrite_recovered s b).after hwanted⟩
  rw [nextWork_fullScan, hbank]

end

/-- Settles O56: each operation's header write, what a recovery goes on to, and the report of the last bank of a generation. -/
theorem headerCommitEndsOperation : Obligations.HeaderCommitEndsOperation := by
  unfold Obligations.HeaderCommitEndsOperation
  refine ⟨fun s b k hwork hwanted hk => ?recovery,
    fun s b r i hwork hmail hstate hdomain hgen hlost hwaits halone hothers => ?last,
    fun s b h q m hage => ⟨fun r hwork hfree hq hm hh => ?advance, fun c hwork hfree hq hm hh => ?compaction,
      fun next hwork => ⟨fun hlast hfree hq hm hh => ?scrub, fun hnext hfree => ?pass⟩,
      fun hwork hfree hq hm hh => ?ends,
      fun r hwork hwaiting hkind happlied hforce hdue hhold hh => ?begins,
      fun g hwork hfree hforce hq hm hh => ?erasure⟩⟩
  case recovery => rw [hk]; exact headerCommit_afterRecovery hwork hwanted
  case last => exact headerCommit_applies hwork hmail ⟨hstate, hdomain, hgen, hlost, hwaits, halone, hothers⟩
  case advance => exact advance_ends hage hwork hfree hq hm hh
  case compaction => exact compaction_ends hage hwork hfree hq hm hh
  case scrub => exact scrub_ends hage hwork hlast hfree hq hm hh
  case pass => exact scrub_goes_on hwork hnext hfree
  case ends => exact recovery_ends hage hwork hfree hq hm hh
  case begins => exact erasure_applies hwork hwaiting hkind happlied hforce hdue hhold hh
  case erasure => exact erasure_ends hage hwork hfree hforce hq hm hh

end Sys2Proof.Machine

/-! # What a request to a bank, and a manifest that the pool takes, send -/

namespace Sys2Proof.Machine

section

variable {s t : State} {b c : BankId} {i : SlotId}

/-! ## Requests to a bank (R23) -/

/-- A bank that takes a request reports at most once, and writes its header only as it reports a request TAKEN (R31). -/
structure RequestStep (s t : State) (c : BankId) (sent : List Msg) : Prop where
  slots : t.slots = s.slots
  mail : t.todo.mail = s.todo.mail ++ sent
  reports : sent = [] ∨ ∃ e r, sent = [.bankReport e r]
  header : t.store.headers[c] = s.store.headers[c] ∨ ∃ g k, sent = [.bankReport c (.taken g k)]

theorem RequestStep.quiet (hslots : t.slots = s.slots) (hmail : t.todo.mail = s.todo.mail) (hstore : t.store = s.store) :
    RequestStep s t c [] :=
  ⟨hslots, by rw [hmail, List.append_nil], .inl rfl, .inl (by rw [hstore])⟩

theorem report_requestStep (s : State) (b c : BankId) (r : BankReport) : RequestStep s (s.report b r) c [.bankReport b r] :=
  ⟨rfl, rfl, .inr ⟨b, r, rfl⟩, .inl rfl⟩

theorem beginRequest_requestStep (s : State) (b c : BankId) (r : ApplyRequest) :
    RequestStep s (s.beginRequest b r) c [.bankReport b (.taken r.gen r.segment)] := by
  have hon := beginRequest_on (.refl false b s) r
  obtain ⟨-, -, hmail⟩ := beginRequest_facts s b r
  refine ⟨(congrArg State.slots hon.outside :), hmail, .inr ⟨_, _, rfl⟩, ?_⟩
  by_cases h : c = b
  · rw [h]; exact .inr ⟨_, _, rfl⟩
  · exact .inl (hon.headers c h)

theorem acknowledge_requestStep (s : State) (b c : BankId) : ∃ sent, RequestStep s (s.acknowledge b) c sent := by
  unfold State.acknowledge
  split
  · next g _ => exact ⟨[.bankReport b (.quiesced g)], rfl, rfl, .inr ⟨_, _, rfl⟩, .inl rfl⟩
  · exact ⟨_, .quiet rfl rfl rfl⟩

theorem requestFaulted_requestStep (s : State) (b c : BankId) (r : ApplyRequest) :
    ∃ sent, RequestStep s (s.requestFaulted b r) c sent := by
  unfold State.requestFaulted
  split
  · unfold State.eraseOn
    split
    · exact ⟨_, .quiet rfl rfl rfl⟩
    · exact ⟨_, .quiet rfl rfl rfl⟩
  · exact ⟨_, report_requestStep s b c _⟩

theorem takeApply_requestStep (s : State) (b c : BankId) (r : ApplyRequest) : ∃ sent, RequestStep s (s.takeApply b r) c sent := by
  unfold State.takeApply
  split
  · exact requestFaulted_requestStep s b c r
  · split
    · exact ⟨_, beginRequest_requestStep s b c r⟩
    · exact ⟨_, report_requestStep s b c _⟩
  · exact ⟨_, .quiet rfl rfl rfl⟩

theorem takeQuiesce_requestStep (s : State) (b c : BankId) (g : Gen) : ∃ sent, RequestStep s (s.takeQuiesce b g) c sent := by
  unfold State.takeQuiesce
  extract_lets s1
  split
  · obtain ⟨sent, hslots, hmail, hreports, hheader⟩ := acknowledge_requestStep s1 b c
    exact ⟨sent, hslots, hmail, hreports, hheader⟩
  · exact ⟨_, .quiet rfl rfl rfl⟩

theorem takeCompact_requestStep (s : State) (b c : BankId) : RequestStep s (s.takeCompact b) c [] := by
  unfold State.takeCompact
  split
  · exact .quiet rfl rfl rfl
  · obtain ⟨-, -, -, -, -, -, -, -, -, -, hstore⟩ := beginCompaction_bank s b
    have hon := beginCompaction_on (.refl false b s)
    exact .quiet (congrArg State.slots hon.outside :) (congrArg Todo.mail (beginCompaction_todo s b)) hstore
  · exact .quiet rfl rfl rfl

theorem takeRequest_requestStep (s : State) (b c : BankId) (r : BankRequest) : ∃ sent, RequestStep s (s.takeRequest b r) c sent := by
  cases r with
  | apply r => exact takeApply_requestStep s b c r
  | quiesce g => exact takeQuiesce_requestStep s b c g
  | compact => exact ⟨_, takeCompact_requestStep s b c⟩

/-! ## The pool's next write (R64, R66, R84) -/

theorem verifiedDrains_sends (s : State) (i : SlotId) : SendsCompactions s (s.verifiedDrains i) := by
  unfold State.verifiedDrains
  extract_lets x
  split
  · exact .of rfl
  · exact (GauStep.fold _ (fun s j => .ite (drainSlot_gau s j) (.refl s)) _ s).sends

theorem slotAdmitted_sends (s : State) (i : SlotId) : SendsCompactions s (s.slotAdmitted i) := by
  unfold State.slotAdmitted
  extract_lets x verified s1
  have h1 : SendsCompactions s s1 :=
    SendsCompactions.trans (t := s.setSlot i { x with state := .verified }) (.of rfl) (verifiedDrains_sends _ i)
  split
  · split
    · exact h1
    · exact h1.trans (.of rfl)
  · exact .of rfl

theorem requestAdmission_mail (s : State) (i : SlotId) : (s.requestAdmission i).2.todo.mail = s.todo.mail := by
  unfold State.requestAdmission
  extract_lets n s1
  split
  · rfl
  · rfl

theorem askAdmission_sends (s : State) (i : SlotId) : SendsCompactions s (s.askAdmission i) := by
  have hmail := requestAdmission_mail s i
  unfold State.askAdmission
  split
  · next t h => rw [h] at hmail; exact SendsCompactions.trans (.of hmail) (slotAdmitted_sends t i)
  · next t h => rw [h] at hmail; exact .of hmail

theorem adopt_sends (s : State) (i : SlotId) (e : ManifestEntry) : SendsCompactions s (s.adopt i e) := by
  unfold State.adopt
  extract_lets x src s1
  exact SendsCompactions.trans (t := s1.pin (.slot i) x.domain x.gen) (.of rfl) (askAdmission_sends _ i)

theorem manifestAskEnded_mail (s : State) (i : SlotId) : (s.manifestAskEnded i).todo.mail = s.todo.mail := by
  unfold State.manifestAskEnded
  split
  · rfl
  · rfl

theorem publishTurnedDown_mail (s : State) (i : SlotId) (opened : Bool) : (s.publishTurnedDown i opened).todo.mail = s.todo.mail := by
  unfold State.publishTurnedDown
  split
  · rfl
  · exact manifestAskEnded_mail _ i

theorem answerManifest_mail (s : State) (w : EnterFor) (o : OutcomeCode) (l : List Byte) :
    (s.answerManifest w o l).todo.mail = s.todo.mail := by
  unfold State.answerManifest
  split
  · rfl
  · rfl

theorem manifestExists_sends (s : State) (i : SlotId) (m : Manifest) (w : EnterFor) (opened : Bool) (e : ManifestEntry) :
    SendsCompactions s (s.manifestExists i m w opened e) := by
  unfold State.manifestExists
  split
  · exact (adopt_sends s i e).trans (.of (answerManifest_mail _ _ _ _))
  · split
    · exact SendsCompactions.trans (t := s.countConflict.raise .manifestConflict) (.of rfl) (adopt_sends _ i e)
    · exact .of ((answerManifest_mail _ _ _ _).trans (publishTurnedDown_mail _ _ _))

theorem manifestRefused_mail (s : State) (i : SlotId) (w : EnterFor) (opened : Bool) :
    (s.manifestRefused i w opened).todo.mail = s.todo.mail := by
  unfold State.manifestRefused
  split
  · exact manifestAskEnded_mail _ i
  · exact (answerManifest_mail _ _ _ _).trans (publishTurnedDown_mail _ _ _)

theorem manifestLate_mail (s : State) (i : SlotId) (m : Manifest) (w : EnterFor) : (s.manifestLate i m w).todo.mail = s.todo.mail := by
  unfold State.manifestLate
  extract_lets same
  split
  · split
    · rfl
    · rfl
  · split
    · exact answerManifest_mail _ _ _ _
    · exact answerManifest_mail _ _ _ _

theorem claimOrigin_mail (s : State) (i : SlotId) (w : EnterFor) : (s.claimOrigin i w).todo.mail = s.todo.mail := by
  unfold State.claimOrigin
  split
  · rfl
  · rfl

theorem takeEnter_sends (s : State) (i : SlotId) (m : Manifest) (w : EnterFor) (opened : Bool) :
    SendsCompactions s (s.takeEnter i m w opened) := by
  unfold State.takeEnter
  split
  · extract_lets s1
    have h1 : SendsCompactions s s1 := .of (claimOrigin_mail s i w)
    split
    · exact h1.trans (.of rfl)
    · exact h1.trans (manifestExists_sends _ _ _ _ _ _)
    · exact h1.trans (.of (manifestRefused_mail _ _ _ _))
  · split
    · exact .of (manifestLate_mail _ _ _ _)
    · exact .of (answerManifest_mail _ _ _ _)

theorem takeWrite_mail (s : State) (o : Offer) (rest : List Offer) : (s.takeWrite o rest).todo.mail = s.todo.mail := by
  unfold State.takeWrite
  split
  · rfl
  · rfl

theorem poolPump_sends : ∀ (n : Nat) (s : State), SendsCompactions s (s.poolPump n)
  | 0, s => .of rfl
  | n + 1, s => by
    unfold State.poolPump
    split
    · exact .of rfl
    · split
      · next i m w opened rest _ =>
        refine SendsCompactions.trans ?_ (poolPump_sends n _)
        exact SendsCompactions.trans (t := { s with pool := { s.pool with indexQueue := rest } }) (.of rfl) (takeEnter_sends _ i m w opened)
      · exact .of rfl
      · split
        · exact .of (takeWrite_mail s _ _)
        · exact .of rfl

end

end Sys2Proof.Machine

/-! # How far an event comes in a number of steps

An event that has more to bring about than its 4096 steps is cut off. Of such an event the messages it has sent tell how many steps it took
since a bank last wrote its header, and a slot that has nothing lost has, if it had, taken one step more. -/

namespace Sys2Proof.Machine

section

variable {x y : State} {b c : BankId} {i : SlotId} {old : StoredHeader} {k : Nat} {m : Msg} {before after rest sent : List Msg}

/-! ## The messages -/

/-- The message tells the GAU of a lost index. -/
def Msg.tellsLost : Msg → Bool
  | .indexLost _ _ _ => true
  | _ => false

/-- The message is a bank's report. -/
def Msg.isReport : Msg → Bool
  | .bankReport _ _ => true
  | _ => false

/-- Bank `c` reports a request TAKEN. -/
def Msg.tellsTaken (c : BankId) : Msg → Bool
  | .bankReport e (.taken _ _) => e == c
  | _ => false

/-- Compaction requests are neither reports nor do they tell of lost indices. -/
theorem compactions_quiet (h : ∀ m ∈ sent, ∃ e, m = .bankRequest e .compact) :
    (∀ m ∈ sent, m.tellsLost = false) ∧ sent.countP Msg.isReport = 0 := by
  refine ⟨fun m hm => ?_, List.countP_eq_zero.mpr fun m hm => ?_⟩
  · obtain ⟨e, rfl⟩ := h m hm
    rfl
  · obtain ⟨e, rfl⟩ := h m hm
    exact Bool.false_ne_true

/-! ## The steps that a slot with nothing lost has taken -/

/-- A slot that has nothing lost counts for one step. -/
def State.clearSteps (x : State) (i : SlotId) : Nat := if (x.slot i).lost = [] then 1 else 0

theorem clearSteps_le_one (x : State) (i : SlotId) : x.clearSteps i ≤ 1 := by
  unfold State.clearSteps
  split
  · exact Nat.le_refl 1
  · exact Nat.zero_le 1

theorem clearSteps_le (h : (y.slot i).lost = [] → (x.slot i).lost = []) : y.clearSteps i ≤ x.clearSteps i := by
  unfold State.clearSteps
  by_cases hy : (y.slot i).lost = []
  · rw [if_pos hy, if_pos (h hy)]
  · rw [if_neg hy]; exact Nat.zero_le _

/-! ## The invariant of the steps -/

/-- What `k` steps can have come to, from a state with the stored header `old` of bank `c` and a slot `i` that had lost an index: the header
still stands; or a TAKEN of the bank has been sent, and since then no more reports than there were steps, a step more having gone where the
slot has nothing lost. Left out are the states without a lost index to tell of and those whose slot has given its generation up. -/
inductive State.Within (c : BankId) (i : SlotId) (old : StoredHeader) (k : Nat) (x : State) : Prop
  | told (h : ∀ m ∈ x.todo.mail, m.tellsLost = false)
  | given (h : (x.slot i).manifest = none)
  | stands (hheader : x.store.headers[c] = old) (hsteps : x.clearSteps i ≤ k)
  | taken (before : List Msg) (m : Msg) (after : List Msg) (hmail : x.todo.mail = before ++ m :: after)
      (htaken : m.tellsTaken c = true) (hlost : ∀ n ∈ after, n.tellsLost = false)
      (hsteps : after.countP Msg.isReport + 1 + x.clearSteps i ≤ k)

theorem State.Within.mono {n : Nat} (h : x.Within c i old k) (hk : k ≤ n) : x.Within c i old n := by
  cases h with
  | told h => exact .told h
  | given h => exact .given h
  | stands hheader hsteps => exact .stands hheader (hsteps.trans hk)
  | taken before m after hmail htaken hlost hsteps => exact .taken before m after hmail htaken hlost (hsteps.trans hk)

/-- One step of the event that may read the first message: it sends `sent`, tells of no lost index, reports at most once and not when it
empties what the slot has lost, and writes the header of bank `c` only where it reports TAKEN. -/
structure MailStep (c : BankId) (i : SlotId) (x y : State) (rest sent : List Msg) : Prop where
  reads : x.todo.mail = rest ∨ ∃ m, x.todo.mail = m :: rest
  mail : y.todo.mail = rest ++ sent
  lost : ∀ m ∈ sent, m.tellsLost = false
  manifest : (x.slot i).manifest = none → (y.slot i).manifest = none
  steps : (y.slot i).manifest = none ∨ sent.countP Msg.isReport + y.clearSteps i ≤ x.clearSteps i + 1
  header : y.store.headers[c] = x.store.headers[c] ∨ (∃ m, sent = [m] ∧ m.tellsTaken c = true) ∧ y.clearSteps i ≤ x.clearSteps i

/-- The step after a TAKEN has been sent. -/
theorem MailStep.after_taken (h : MailStep c i x y rest sent) (hmail : x.todo.mail = before ++ m :: after)
    (htaken : m.tellsTaken c = true) (hlost : ∀ n ∈ after, n.tellsLost = false)
    (hsteps : after.countP Msg.isReport + 1 + x.clearSteps i ≤ k) : y.Within c i old (k + 1) := by
  rcases h.steps with hnone | hcost
  · exact .given hnone
  have hlost' : ∀ n ∈ after ++ sent, n.tellsLost = false := fun n hn => (List.mem_append.mp hn).elim (hlost n) (h.lost n)
  have hcount : (after ++ sent).countP Msg.isReport + 1 + y.clearSteps i ≤ k + 1 := by rw [List.countP_append]; omega
  rcases h.reads with hsame | ⟨n, hread⟩
  · refine .taken before m (after ++ sent) ?_ htaken hlost' hcount
    rw [h.mail, ← hsame, hmail, List.append_assoc, List.cons_append]
  · cases before with
    | nil =>
      have hrest : rest = after := (List.cons.inj (hread.symm.trans hmail)).2
      exact .told (by rw [h.mail, hrest]; exact hlost')
    | cons first before =>
      have hrest : rest = before ++ m :: after := (List.cons.inj (hread.symm.trans hmail)).2
      refine .taken before m (after ++ sent) ?_ htaken hlost' hcount
      rw [h.mail, hrest, List.append_assoc, List.cons_append]

/-- The step that writes the header sends a TAKEN. -/
theorem MailStep.takes (h : MailStep c i x y rest sent) (hsent : sent = [m]) (htaken : m.tellsTaken c = true)
    (hclear : y.clearSteps i ≤ x.clearSteps i) (hsteps : x.clearSteps i ≤ k) : y.Within c i old (k + 1) :=
  .taken rest m [] (by rw [h.mail, hsent]) htaken nofun (by rw [List.countP_nil]; omega)

theorem MailStep.within (h : MailStep c i x y rest sent) (hx : x.Within c i old k) : y.Within c i old (k + 1) := by
  cases hx with
  | told hlost =>
    have hrest : ∀ m ∈ rest, m.tellsLost = false := fun m hm => by
      rcases h.reads with hsame | ⟨n, hread⟩
      · exact hlost m (by rw [hsame]; exact hm)
      · exact hlost m (by rw [hread]; exact List.mem_cons_of_mem _ hm)
    exact .told fun m hm => by
      rw [h.mail] at hm
      exact (List.mem_append.mp hm).elim (hrest m) (h.lost m)
  | given hnone => exact .given (h.manifest hnone)
  | stands hheader hsteps =>
    rcases h.header with hsame | ⟨⟨m, hsent, htaken⟩, hclear⟩
    · exact .stands (hsame.trans hheader) ((clearSteps_le_one y i).trans (Nat.le_add_left 1 k))
    · exact h.takes hsent htaken hclear hsteps
  | taken before m after hmail htaken hlost hsteps => exact h.after_taken hmail htaken hlost hsteps

/-! ## The steps of an event -/

/-- A message that the GAU takes, and the advance tests. -/
theorem mailStep_of_compactions (hreads : x.todo.mail = rest ∨ ∃ m, x.todo.mail = m :: rest) (hmail : y.todo.mail = rest ++ sent)
    (hsent : ∀ m ∈ sent, ∃ e, m = .bankRequest e .compact) (hheaders : y.store.headers = x.store.headers)
    (hslot : (x.slot i).lossKept (y.slot i)) : MailStep c i x y rest sent := by
  obtain ⟨hlost, hcount⟩ := compactions_quiet hsent
  refine ⟨hreads, hmail, hlost, Slot.lossKept_none hslot, ?_, .inl (by rw [hheaders])⟩
  rcases hslot with hnone | ⟨-, hkeeps⟩
  · exact .inl hnone
  · rw [hcount, Nat.zero_add]
    exact .inr ((clearSteps_le hkeeps).trans (Nat.le_succ _))

theorem mailStep_of_gau (hread : x.todo.mail = m :: rest) (h : GauStep (x.mailing rest) y) : ∃ sent, MailStep c i x y rest sent := by
  obtain ⟨sent, hmail, hsent⟩ := h.sends
  exact ⟨sent, mailStep_of_compactions (.inr ⟨m, hread⟩) hmail hsent h.headers (h.slots i)⟩

theorem mailStep_of_request (hread : x.todo.mail = m :: rest) (h : RequestStep (x.mailing rest) y c sent) :
    MailStep c i x y rest sent := by
  have hslot : y.slot i = x.slot i := by
    unfold State.slot
    rw [h.slots]
    rfl
  have hclear : y.clearSteps i ≤ x.clearSteps i := clearSteps_le (by rw [hslot]; exact id)
  have hone : sent.countP Msg.isReport ≤ 1 := by
    rcases h.reports with hnone | ⟨e, r, hreport⟩
    · rw [hnone]; exact Nat.zero_le 1
    · rw [hreport]; exact Nat.le_refl 1
  refine ⟨.inr ⟨m, hread⟩, h.mail, fun n hn => ?_, fun hnone => by rw [hslot]; exact hnone, .inr (by omega), ?_⟩
  · rcases h.reports with hnone | ⟨e, r, hreport⟩
    · rw [hnone] at hn; cases hn
    · rw [hreport] at hn; rw [List.mem_singleton.mp hn]; rfl
  · rcases h.header with hsame | ⟨g, n, htaken⟩
    · exact .inl hsame
    · exact .inr ⟨⟨_, htaken, beq_self_eq_true c⟩, hclear⟩

/-- The slot's own presence set is emptied, and what it has lost (R67). -/
theorem mailStep_of_emptied {j : SlotId} (hread : x.todo.mail = m :: rest) :
    MailStep c i x ((x.mailing rest).takeSlotEmptied j) rest [] := by
  have hmanifest : (((x.mailing rest).takeSlotEmptied j).slot i).manifest = (x.slot i).manifest := by
    by_cases h : i = j
    · subst h
      exact (congrArg Slot.manifest (State.slotting_slot (s := x.mailing rest) i (fun y => { y with presence := [], lost := [] })) :)
    · exact congrArg Slot.manifest (State.setSlot_slot_other _ _ _ _ h)
  refine ⟨.inr ⟨m, hread⟩, (List.append_nil _).symm, nofun, fun h => hmanifest.trans h, .inr ?_, .inl rfl⟩
  rw [List.countP_nil, Nat.zero_add]
  exact (clearSteps_le_one _ i).trans (Nat.le_add_left 1 _)

theorem deliver_mailStep (hread : x.todo.mail = m :: rest) : ∃ sent, MailStep c i x ((x.mailing rest).deliver m) rest sent := by
  cases m with
  | bankRequest e r =>
    obtain ⟨sent, h⟩ := takeRequest_requestStep (x.mailing rest) e c r
    exact ⟨sent, mailStep_of_request hread h⟩
  | bankReport e r => exact mailStep_of_gau hread (takeReport_gau _ e r)
  | indexLost d g n => exact mailStep_of_gau hread (takeIndexLost_gau _ d g n)
  | slotEmptied j => exact ⟨[], mailStep_of_emptied hread⟩

theorem viewTests_mailStep (x : State) : ∃ sent, MailStep c i x x.viewTests x.todo.mail sent := by
  obtain ⟨⟨sent, hmail, hsent⟩, hheaders, -, hslots⟩ := viewTests_gau x
  exact ⟨sent, mailStep_of_compactions (.inl rfl) hmail hsent hheaders (hslots i)⟩

/-- With no message left no lost index is told of, and outside operation nothing that the event still does tells of one. -/
theorem settleOnce_tells_none (hpower : x.supply.power = .commissioning) (hview : x.todo.viewChanged = false) (hmail : x.todo.mail = [])
    (h : x.settleOnce = some y) : ∀ m ∈ y.todo.mail, m.tellsLost = false := by
  have hquiet : ∀ z : State, SendsCompactions x z → ∀ m ∈ z.todo.mail, m.tellsLost = false := fun z ⟨sent, hsent, hall⟩ => by
    rw [hsent, hmail, List.nil_append]
    exact (compactions_quiet hall).1
  have hstarted : x.started = false := by unfold State.started; rw [hpower]
  have hrunning : x.running = false := by unfold State.running; rw [hpower]; rfl
  unfold State.settleOnce at h
  rw [hview, if_neg Bool.false_ne_true, hmail] at h
  dsimp only at h
  split at h
  · cases h
    exact hquiet _ (poolPump_sends 1 x)
  · split at h
    · cases h
      unfold State.openingPasses
      have htest : ¬ State.started { x with todo := { x.todo with openPass := { block := false, product := false } } } = true := by
        show ¬ x.started = true
        rw [hstarted]
        exact Bool.false_ne_true
      rw [if_neg htest]
      exact hquiet _ (.of rfl)
    · split at h
      · cases h
        exact hquiet _ (.of rfl)
      · split at h
        · next j e q _ =>
          cases h
          unfold State.drive
          dsimp only
          split
          · intro m hm
            rcases List.mem_append.mp hm with hm | hm
            · exact hquiet _ (.of rfl) m hm
            · rw [List.mem_singleton.mp hm]; rfl
          · intro m hm
            rcases List.mem_append.mp hm with hm | hm
            · exact hquiet _ (.of rfl) m hm
            · rw [List.mem_singleton.mp hm]; rfl
        · split at h
          · cases h
            have htest : ¬ State.running { x with todo := { x.todo with askPass := false } } = true := by
              show ¬ x.running = true
              rw [hrunning]
              exact Bool.false_ne_true
            rw [if_neg htest]
            exact hquiet _ (.of rfl)
          · cases h

theorem settleOnce_within (hpower : x.supply.power = .commissioning) (hx : x.Within c i old k) (h : x.settleOnce = some y) :
    y.Within c i old (k + 1) := by
  cases hview : x.todo.viewChanged with
  | true =>
    rw [settleOnce_view hview] at h
    cases h
    obtain ⟨sent, hstep⟩ := viewTests_mailStep x
    exact hstep.within hx
  | false =>
    cases hmail : x.todo.mail with
    | nil => exact .told (settleOnce_tells_none hpower hview hmail h)
    | cons m rest =>
      rw [settleOnce_mail hview hmail] at h
      cases h
      obtain ⟨sent, hstep⟩ := deliver_mailStep hmail
      exact hstep.within hx

theorem settleLoop_within : ∀ (n k : Nat) (x : State), x.supply.power = .commissioning → x.Within c i old k →
    (x.settleLoop n).Within c i old (k + n)
  | 0, _, _, _, h => h
  | n + 1, k, x, hpower, h => by
    cases hstep : x.settleOnce with
    | none => rw [settleLoop_rest hstep]; exact h.mono (Nat.le_add_right _ _)
    | some y =>
      have hpower' : y.supply.power = .commissioning := by
        rw [← hpower]
        exact ((settleOnce_ok (Ok.refl true x) y hstep).still rfl).power
      rw [settleLoop_succ hstep, show k + (n + 1) = k + 1 + n by omega]
      exact settleLoop_within n (k + 1) y hpower' (settleOnce_within hpower h hstep)

/-- Outside operation an event ends where its steps have come to. -/
theorem settle_of_commissioning (h : x.supply.power = .commissioning) : x.settle = x.settleLoop 4096 := by
  have hpower : (x.settleLoop 4096).supply.power = .commissioning := by
    rw [← h]
    exact ((settleLoop_ok 4096 x (Ok.refl true x)).still rfl).power
  have hrunning : (x.settleLoop 4096).running = false := by unfold State.running; rw [hpower]; rfl
  have hstarted : (x.settleLoop 4096).started = false := by unfold State.started; rw [hpower]
  rw [settle_eq (by rw [h]; nofun) (by rw [h]; nofun), arbiter_rest.mpr (.inr (.inl hrunning)),
    beginServeRead_rest.mpr (.inr (by rw [hrunning]; rfl)), settleCold_rest.mpr (by rw [hstarted, Bool.and_false]; rfl)]

end

end Sys2Proof.Machine

/-! # A manifest entered in an event that is cut off (R62, R86) -/

namespace Sys2Proof.Machine

section

variable {x : State}

/-! ## The state -/

/-- A delta of one segment. -/
def lossManifest : Manifest := { domain := .block, gen := 1, kind := .delta, count := 1, digest := 0 }

/-- The slot that offered the manifest, with an index recorded as lost. -/
def lossSlot : Slot :=
  { Slot.empty with
    state := .manifestWanted, gen := 1
    lost := [{ index := 0, crc := 0, bank := 0, ops := 0, source := .local }] }

/-- A request that opens generation 1, and one of a generation that is applied. -/
def openingRequest : ApplyRequest := { gen := 1, kind := .delta, segment := some 0, first := true, last := true, cursor := 0 }

def appliedRequest : ApplyRequest := { openingRequest with gen := 0 }

/-- The report on the second request. -/
def appliedReport : Msg := .bankReport 1 (.refused 0 (some 0) .alreadyApplied)

/-- Before start, every bank IDLE, the index write of the manifest in progress, and the messages `m` not yet read. -/
def lossState (m : List Msg) : State :=
  { State.reset with
    supply := { State.reset.supply with power := .commissioning }
    banks := Vector.replicate 16 { Bank.unstarted with state := .idle }
    pool := { Pool.initial with writing := .index (.enter 0 lossManifest .peer false) }
    slots := (Vector.replicate 6 Slot.empty).set 0 lossSlot
    todo := { Todo.nothing with mail := m } }

/-- One request that begins, requests that are refused, and the news of a lost index. -/
def lossMail : List Msg :=
  .bankRequest 0 (.apply openingRequest) :: (List.replicate 4095 (.bankRequest 1 (.apply appliedRequest)) ++ [.indexLost .block 5 0])

/-- The manifest has been entered. -/
def lossEntered (m : List Msg) : State :=
  ({ lossState m with pool := { (lossState m).pool with writing := .none } } : State).commitIndex (.enter 0 lossManifest .peer false)

/-- Bank 0 has begun its request, and `m` are the messages not yet read. -/
def lossBegun (m : List Msg) : State := ((lossEntered []).beginRequest 0 openingRequest).mailing m

/-! ## Its event -/

theorem lossEntered_mail (m : List Msg) : lossEntered m = (lossEntered []).mailing m := rfl

/-- A bank that stands IDLE refuses a request of a generation that it has applied, and nothing else changes (R30). -/
theorem deliver_refused (hstate : (x.bank 1).state = .idle) (l : List Msg) :
    (x.mailing l).deliver (.bankRequest 1 (.apply appliedRequest)) = x.mailing (l ++ [appliedReport]) := by
  have hrefusal : (x.bank 1).refusal appliedRequest = some .alreadyApplied := if_pos (Nat.zero_le _)
  show (x.mailing l).takeApply 1 appliedRequest = _
  unfold State.takeApply
  rw [show (x.mailing l).bank 1 = x.bank 1 from rfl, hstate, hrefusal]
  rfl

/-- Each of the requests takes one step, and its report stands behind the messages not yet read. -/
theorem settleLoop_refused (hview : x.todo.viewChanged = false) (hstate : (x.bank 1).state = .idle) : ∀ (n : Nat) (l : List Msg),
    (x.mailing (List.replicate n (.bankRequest 1 (.apply appliedRequest)) ++ l)).settleLoop n =
      x.mailing (l ++ List.replicate n appliedReport)
  | 0, l => by rw [List.replicate_zero, List.replicate_zero, List.nil_append, List.append_nil]; rfl
  | n + 1, l => by
    have hstep : (x.mailing (List.replicate (n + 1) (.bankRequest 1 (.apply appliedRequest)) ++ l)).settleOnce =
        some (x.mailing (List.replicate n (.bankRequest 1 (.apply appliedRequest)) ++ (l ++ [appliedReport]))) := by
      rw [List.replicate_succ, List.cons_append, settleOnce_mailing hview, ← List.append_assoc]
      exact congrArg some (deliver_refused hstate _)
    rw [settleLoop_succ hstep, settleLoop_refused hview hstate n, List.append_assoc, List.replicate_succ]
    rfl

theorem lossEntered_begins (l : List Msg) :
    ((lossEntered []).mailing (.bankRequest 0 (.apply openingRequest) :: l)).settleOnce =
      some (lossBegun (l ++ [.bankReport 0 (.taken 1 (some 0))])) := by
  rw [settleOnce_mailing rfl]
  rfl

/-- The messages that the event leaves. -/
def lossLeft : List Msg := [.indexLost .block 5 0, .bankReport 0 (.taken 1 (some 0))] ++ List.replicate 4095 appliedReport

theorem lossEntered_settles : (lossEntered lossMail).settle = lossBegun lossLeft := by
  have hloop : (lossEntered lossMail).settleLoop (4095 + 1) = lossBegun lossLeft := by
    rw [lossEntered_mail, lossMail, settleLoop_succ (lossEntered_begins _), List.append_assoc]
    exact settleLoop_refused (x := lossBegun []) rfl rfl 4095 _
  rw [settle_of_commissioning (by rw [lossEntered_mail]; rfl)]
  exact hloop

theorem lossState_exec : exec .poolIndexWriteCommit (lossState lossMail) = .next (lossBegun lossLeft) := by
  rw [exec_poolIndexWriteCommit (w := .enter 0 lossManifest .peer false) rfl]
  exact congrArg Host.Outcome.next lossEntered_settles

/-! ## It is not the event of a state that has the index lost -/

/-- Behind the TAKEN there stand the 4095 reports. -/
theorem lossLeft_after {before after : List Msg} {m : Msg} (h : lossLeft = before ++ m :: after) (htaken : m.tellsTaken 0 = true) :
    after = List.replicate 4095 appliedReport := by
  unfold lossLeft at h
  match before, h with
  | [], h => rw [← (List.cons.inj h).1] at htaken; cases htaken
  | [_], h => exact (List.cons.inj (List.cons.inj h).2).2.symm
  | _ :: _ :: before, h =>
    have hrest := (List.cons.inj (List.cons.inj h).2).2
    have hmem : m ∈ List.replicate 4095 appliedReport := by
      rw [show List.replicate 4095 appliedReport = before ++ m :: after from hrest]
      exact List.mem_append_right _ (List.mem_cons_self ..)
    rw [List.eq_of_mem_replicate hmem] at htaken
    cases htaken

theorem lossBegun_beyond : ¬ (lossBegun lossLeft).Within 0 0 StoreMemory.blank.headers[0] 4096 := by
  intro h
  cases h with
  | told h => exact absurd (h (.indexLost .block 5 0) (List.mem_cons_self ..)) (by decide)
  | given h => exact absurd (show (some lossManifest : Option Manifest) = none from h) nofun
  | stands h _ =>
    have hopen := congrArg (fun k : StoredHeader => k.fields.applyOpen) h
    exact absurd (show (some 1 : Option Gen) = none from hopen) nofun
  | taken before m after hmail htaken _ hsteps =>
    rw [lossLeft_after hmail htaken, List.countP_replicate] at hsteps
    have hclear : (lossBegun lossLeft).clearSteps 0 = 1 := rfl
    rw [hclear] at hsteps
    exact absurd hsteps (by decide)

/-- A state with the index lost and the header unwritten settles otherwise. -/
theorem settle_ne_lossBegun (hlost : (x.slot 0).lost ≠ []) (hpower : x.supply.power = .commissioning)
    (hheader : x.store.headers[(0 : BankId)] = StoreMemory.blank.headers[(0 : BankId)]) : x.settle ≠ lossBegun lossLeft := by
  intro h
  have hstart : x.Within 0 0 StoreMemory.blank.headers[(0 : BankId)] 0 :=
    .stands hheader (by unfold State.clearSteps; rw [if_neg hlost])
  have hend := settleLoop_within 4096 0 x hpower hstart
  rw [← settle_of_commissioning hpower, h] at hend
  exact lossBegun_beyond hend

end

/-- Refutes O46: the commit that has the slot COLLECTING forgets what the slot had lost (R86), which the statement keeps. An earlier state of
the event could still have it, but this event is cut off at its 4096 steps, and from such a state it is a step further. -/
theorem not_indexWriteCommits : ¬ Obligations.IndexWriteCommits := by
  unfold Obligations.IndexWriteCommits
  intro h
  obtain ⟨-, -, -, -, -, -, henter⟩ := h (lossState lossMail) .block 1
  obtain ⟨hcommits, -⟩ := henter 0 lossManifest rfl rfl rfl rfl rfl rfl rfl
  obtain ⟨u, hexec, hpower, -, hstore, -, -, hslot⟩ :=
    hcommits PoolIndex.empty rfl (by decide) (by decide) (.inl ⟨by decide, rfl⟩)
  have hsettle : lossBegun lossLeft = u.settle := Host.Outcome.next.inj (lossState_exec.symm.trans hexec)
  refine settle_ne_lossBegun ?lost hpower ?header hsettle.symm
  case lost => rw [hslot]; exact List.cons_ne_nil _ _
  case header => rw [hstore]; rfl

end Sys2Proof.Machine
